-- ==== Sys2Proof/Word.lean ====
section
/-! DEFINITION. The word types of the unit (00_scope.md R10, R11; 30_encoding.md R110, R116). -/

namespace Sys2Proof

/-- A codeword, a field element, a generator coefficient: 8 bits. -/
abbrev Byte := BitVec 8

/-- A command descriptor: exactly 64 bits (30_encoding.md R110). -/
abbrev Descriptor := BitVec 64

/-- A control register at the interface and the data of a response: 32 bits
(10_state.md R22; 30_encoding.md R116). -/
abbrev Data := BitVec 32

/-- One unit of the payload, an entry of `PAY`: 16 bits (10_state.md R30). -/
abbrev PayUnit := BitVec 16

/-- An element index, the descriptor's field `A`: 24 bits (30_encoding.md R111). -/
abbrev Index := BitVec 24

end Sys2Proof
end

