-- ==== Sys2Proof/Syntax.lean ====
section
/-! DEFINITION. The 33 commands of the unit, one constructor per row of spec/opcode_table.json
(30_encoding.md R113). Every operand has exactly the width of its field (R111, R112), so a term of
`Instr` is a descriptor with no reserved bit set, and every such descriptor is a term. -/

namespace Sys2Proof

/-- A command. Operand names and order are those of the assembler syntax, 30_encoding.md R118. -/
inductive Instr where
  -- control and sequencing (46_control.md)
  | nop
  | reset
  | start
  | release
  | run
  -- configuration and buffer access (41_config_access.md)
  | rdreg (reg : BitVec 8)
  | wrreg (reg : BitVec 8) (val : Data)
  | rdpay (idx : Index)
  | wrpay (idx : Index) (val : PayUnit)
  | rdbit (idx : Index)
  | rdcw (idx : Index)
  | rdmod (row col : BitVec 8)
  | rdgen (idx : Index)
  -- GF(256) arithmetic (40_gf.md)
  | gfexp (a : Byte)
  | gflog (a : Byte)
  | gfmul (a b : Byte)
  | gfadd (a b : Byte)
  -- bit-stream packer (42_bitstream.md)
  | pushb (val : BitVec 16) (width : BitVec 5)
  | pkmode
  | pkcnt
  | pkdata
  | pkterm
  | pkalign
  | pkpad
  -- Reed-Solomon encoder (43_reed_solomon.md)
  | rsgen (n : Index)
  | ecc
  -- matrix builder (44_matrix.md)
  | mxfunc
  | mxdata
  -- mask evaluator and selector (45_mask.md)
  | mkeval (m : Index)
  | mksel
  | mkapply
  | mkfmt
  | mkver
  deriving DecidableEq, Repr

end Sys2Proof
end

