-- ==== Sys2Proof/Decode.lean ====
section
/-! DEFINITION. Decoding a descriptor (30_encoding.md R110 to R115), total on all 64-bit words and
rejecting by name, and the encoder written from the same tables. -/

namespace Sys2Proof

/-- Why a descriptor is illegal (30_encoding.md R114): both raise `Fault(ILLEGAL)`. -/
inductive DecodeError where
  /-- `OP` is none of the 33 values of R113. -/
  | unassignedOpcode (op : BitVec 8)
  /-- A bit outside the fields of the opcode's format is 1. -/
  | reservedBits (op : BitVec 8)
  deriving DecidableEq, Repr

/-- `OP = C[63:56]` (R111). -/
def opField (w : Descriptor) : BitVec 8 := w.extractLsb' 56 8

/-- `A = C[55:32]` (R111). -/
def aField (w : Descriptor) : BitVec 24 := w.extractLsb' 32 24

/-- `B = C[31:0]` (R111). -/
def bField (w : Descriptor) : BitVec 32 := w.extractLsb' 0 32

/-- The descriptor of three fields: `OP << 56 | A << 32 | B` (R115). -/
def descriptor (op : BitVec 8) (a : BitVec 24) (b : BitVec 32) : Descriptor := op ++ (a ++ b)

/-- Accept the command if no reserved bit is set (R114). -/
def unreserved (op : BitVec 8) (ok : Bool) (i : Instr) : Except DecodeError Instr :=
  if ok then .ok i else .error (.reservedBits op)

/-- Format Z: no operand (R111). -/
def formatZ (i : Instr) (op : BitVec 8) (a : BitVec 24) (b : BitVec 32) : Except DecodeError Instr :=
  unreserved op (a == 0 && b == 0) i

/-- Format R: `reg = A[7:0]` (R111). -/
def formatR (k : BitVec 8 → Instr) (op : BitVec 8) (a : BitVec 24) (b : BitVec 32) :
    Except DecodeError Instr :=
  unreserved op (a.extractLsb' 8 16 == 0 && b == 0) (k (a.extractLsb' 0 8))

/-- Format W: `reg = A[7:0]`, `val = B[31:0]` (R111). -/
def formatW (k : BitVec 8 → BitVec 32 → Instr) (op : BitVec 8) (a : BitVec 24) (b : BitVec 32) :
    Except DecodeError Instr :=
  unreserved op (a.extractLsb' 8 16 == 0) (k (a.extractLsb' 0 8) b)

/-- Format I: `idx = A[23:0]` (R111). -/
def formatI (k : BitVec 24 → Instr) (op : BitVec 8) (a : BitVec 24) (b : BitVec 32) :
    Except DecodeError Instr :=
  unreserved op (b == 0) (k a)

/-- Format IW: `idx = A[23:0]`, `val = B[15:0]` (R111). -/
def formatIW (k : BitVec 24 → BitVec 16 → Instr) (op : BitVec 8) (a : BitVec 24) (b : BitVec 32) :
    Except DecodeError Instr :=
  unreserved op (b.extractLsb' 16 16 == 0) (k a (b.extractLsb' 0 16))

/-- Format M: `row = A[15:8]`, `col = A[7:0]` (R111). -/
def formatM (k : BitVec 8 → BitVec 8 → Instr) (op : BitVec 8) (a : BitVec 24) (b : BitVec 32) :
    Except DecodeError Instr :=
  unreserved op (a.extractLsb' 16 8 == 0 && b == 0) (k (a.extractLsb' 8 8) (a.extractLsb' 0 8))

/-- Format G1: `a = B[7:0]` (R111). -/
def formatG1 (k : BitVec 8 → Instr) (op : BitVec 8) (a : BitVec 24) (b : BitVec 32) :
    Except DecodeError Instr :=
  unreserved op (a == 0 && b.extractLsb' 8 24 == 0) (k (b.extractLsb' 0 8))

/-- Format G2: `a = B[7:0]`, `b = B[15:8]` (R111). -/
def formatG2 (k : BitVec 8 → BitVec 8 → Instr) (op : BitVec 8) (a : BitVec 24) (b : BitVec 32) :
    Except DecodeError Instr :=
  unreserved op (a == 0 && b.extractLsb' 16 16 == 0) (k (b.extractLsb' 0 8) (b.extractLsb' 8 8))

/-- Format P: `width = A[4:0]`, `val = B[15:0]` (R111). -/
def formatP (k : BitVec 16 → BitVec 5 → Instr) (op : BitVec 8) (a : BitVec 24) (b : BitVec 32) :
    Except DecodeError Instr :=
  unreserved op (a.extractLsb' 5 19 == 0 && b.extractLsb' 16 16 == 0)
    (k (b.extractLsb' 0 16) (a.extractLsb' 0 5))

/-- The opcode map (R113): the opcode picks the command and its format. -/
def decodeFields (op : BitVec 8) (a : BitVec 24) (b : BitVec 32) : Except DecodeError Instr :=
  match op.toNat with
  | 0x00 => formatZ .nop op a b
  | 0x01 => formatZ .reset op a b
  | 0x02 => formatZ .start op a b
  | 0x03 => formatZ .release op a b
  | 0x04 => formatZ .run op a b
  | 0x08 => formatR .rdreg op a b
  | 0x09 => formatW .wrreg op a b
  | 0x0A => formatI .rdpay op a b
  | 0x0B => formatIW .wrpay op a b
  | 0x0C => formatI .rdbit op a b
  | 0x0D => formatI .rdcw op a b
  | 0x0E => formatM .rdmod op a b
  | 0x0F => formatI .rdgen op a b
  | 0x10 => formatG1 .gfexp op a b
  | 0x11 => formatG1 .gflog op a b
  | 0x12 => formatG2 .gfmul op a b
  | 0x13 => formatG2 .gfadd op a b
  | 0x20 => formatP .pushb op a b
  | 0x21 => formatZ .pkmode op a b
  | 0x22 => formatZ .pkcnt op a b
  | 0x23 => formatZ .pkdata op a b
  | 0x24 => formatZ .pkterm op a b
  | 0x25 => formatZ .pkalign op a b
  | 0x26 => formatZ .pkpad op a b
  | 0x30 => formatI .rsgen op a b
  | 0x31 => formatZ .ecc op a b
  | 0x40 => formatZ .mxfunc op a b
  | 0x41 => formatZ .mxdata op a b
  | 0x50 => formatI .mkeval op a b
  | 0x51 => formatZ .mksel op a b
  | 0x52 => formatZ .mkapply op a b
  | 0x53 => formatZ .mkfmt op a b
  | 0x54 => formatZ .mkver op a b
  | _ => .error (.unassignedOpcode op)

/-- `decode : 64 bits → Command ∪ Illegal` (R115); it never looks at the unit's state. -/
def decode (w : Descriptor) : Except DecodeError Instr :=
  decodeFields (opField w) (aField w) (bField w)

/-- The command a descriptor of `nbits` bits stands for, bits numbered as in spec/opcode_table.json;
bits from `nbits` up are 0. A descriptor is one 64-bit value (20_memory.md R92). -/
def decodeTableWord (nbits w : Nat) : Option Instr :=
  match decode (BitVec.ofNat 64 (w % 2 ^ nbits)) with
  | .ok i => some i
  | .error _ => none

/-- The descriptor of a command, every reserved bit 0 (R111, R113, R115). -/
def encode : Instr → Descriptor
  | .nop => descriptor 0x00 0 0
  | .reset => descriptor 0x01 0 0
  | .start => descriptor 0x02 0 0
  | .release => descriptor 0x03 0 0
  | .run => descriptor 0x04 0 0
  | .rdreg reg => descriptor 0x08 (0#16 ++ reg) 0
  | .wrreg reg val => descriptor 0x09 (0#16 ++ reg) val
  | .rdpay idx => descriptor 0x0A idx 0
  | .wrpay idx val => descriptor 0x0B idx (0#16 ++ val)
  | .rdbit idx => descriptor 0x0C idx 0
  | .rdcw idx => descriptor 0x0D idx 0
  | .rdmod row col => descriptor 0x0E (0#8 ++ (row ++ col)) 0
  | .rdgen idx => descriptor 0x0F idx 0
  | .gfexp a => descriptor 0x10 0 (0#24 ++ a)
  | .gflog a => descriptor 0x11 0 (0#24 ++ a)
  | .gfmul a b => descriptor 0x12 0 (0#16 ++ (b ++ a))
  | .gfadd a b => descriptor 0x13 0 (0#16 ++ (b ++ a))
  | .pushb val width => descriptor 0x20 (0#19 ++ width) (0#16 ++ val)
  | .pkmode => descriptor 0x21 0 0
  | .pkcnt => descriptor 0x22 0 0
  | .pkdata => descriptor 0x23 0 0
  | .pkterm => descriptor 0x24 0 0
  | .pkalign => descriptor 0x25 0 0
  | .pkpad => descriptor 0x26 0 0
  | .rsgen n => descriptor 0x30 n 0
  | .ecc => descriptor 0x31 0 0
  | .mxfunc => descriptor 0x40 0 0
  | .mxdata => descriptor 0x41 0 0
  | .mkeval m => descriptor 0x50 m 0
  | .mksel => descriptor 0x51 0 0
  | .mkapply => descriptor 0x52 0 0
  | .mkfmt => descriptor 0x53 0 0
  | .mkver => descriptor 0x54 0 0

/-- A row of the opcode map: a descriptor `C` is the row's command exactly when
`C & mask = pattern` (R113). -/
structure OpcodeRow where
  mnemonic : String
  pattern : Descriptor
  mask : Descriptor
  deriving DecidableEq, Repr

/-- The opcode map as R113 prints it: control and access commands. -/
def opcodeRowsControl : List OpcodeRow :=
  [⟨"NOP", 0x0000000000000000, 0xFFFFFFFFFFFFFFFF⟩, ⟨"RESET", 0x0100000000000000, 0xFFFFFFFFFFFFFFFF⟩,
   ⟨"START", 0x0200000000000000, 0xFFFFFFFFFFFFFFFF⟩, ⟨"RELEASE", 0x0300000000000000, 0xFFFFFFFFFFFFFFFF⟩,
   ⟨"RUN", 0x0400000000000000, 0xFFFFFFFFFFFFFFFF⟩, ⟨"RDREG", 0x0800000000000000, 0xFFFFFF00FFFFFFFF⟩,
   ⟨"WRREG", 0x0900000000000000, 0xFFFFFF0000000000⟩, ⟨"RDPAY", 0x0A00000000000000, 0xFF000000FFFFFFFF⟩,
   ⟨"WRPAY", 0x0B00000000000000, 0xFF000000FFFF0000⟩, ⟨"RDBIT", 0x0C00000000000000, 0xFF000000FFFFFFFF⟩,
   ⟨"RDCW", 0x0D00000000000000, 0xFF000000FFFFFFFF⟩, ⟨"RDMOD", 0x0E00000000000000, 0xFFFF0000FFFFFFFF⟩,
   ⟨"RDGEN", 0x0F00000000000000, 0xFF000000FFFFFFFF⟩]

/-- The opcode map as R113 prints it: the sub-units' commands. -/
def opcodeRowsUnits : List OpcodeRow :=
  [⟨"GFEXP", 0x1000000000000000, 0xFFFFFFFFFFFFFF00⟩, ⟨"GFLOG", 0x1100000000000000, 0xFFFFFFFFFFFFFF00⟩,
   ⟨"GFMUL", 0x1200000000000000, 0xFFFFFFFFFFFF0000⟩, ⟨"GFADD", 0x1300000000000000, 0xFFFFFFFFFFFF0000⟩,
   ⟨"PUSHB", 0x2000000000000000, 0xFFFFFFE0FFFF0000⟩, ⟨"PKMODE", 0x2100000000000000, 0xFFFFFFFFFFFFFFFF⟩,
   ⟨"PKCNT", 0x2200000000000000, 0xFFFFFFFFFFFFFFFF⟩, ⟨"PKDATA", 0x2300000000000000, 0xFFFFFFFFFFFFFFFF⟩,
   ⟨"PKTERM", 0x2400000000000000, 0xFFFFFFFFFFFFFFFF⟩, ⟨"PKALIGN", 0x2500000000000000, 0xFFFFFFFFFFFFFFFF⟩,
   ⟨"PKPAD", 0x2600000000000000, 0xFFFFFFFFFFFFFFFF⟩, ⟨"RSGEN", 0x3000000000000000, 0xFF000000FFFFFFFF⟩,
   ⟨"ECC", 0x3100000000000000, 0xFFFFFFFFFFFFFFFF⟩, ⟨"MXFUNC", 0x4000000000000000, 0xFFFFFFFFFFFFFFFF⟩,
   ⟨"MXDATA", 0x4100000000000000, 0xFFFFFFFFFFFFFFFF⟩, ⟨"MKEVAL", 0x5000000000000000, 0xFF000000FFFFFFFF⟩,
   ⟨"MKSEL", 0x5100000000000000, 0xFFFFFFFFFFFFFFFF⟩, ⟨"MKAPPLY", 0x5200000000000000, 0xFFFFFFFFFFFFFFFF⟩,
   ⟨"MKFMT", 0x5300000000000000, 0xFFFFFFFFFFFFFFFF⟩, ⟨"MKVER", 0x5400000000000000, 0xFFFFFFFFFFFFFFFF⟩]

/-- The 33 rows of R113. -/
def opcodeRows : List OpcodeRow := opcodeRowsControl ++ opcodeRowsUnits

/-- A descriptor matches a row (R113). -/
def OpcodeRow.accepts (r : OpcodeRow) (w : Descriptor) : Bool := w &&& r.mask == r.pattern

/-- The mnemonic of a command (R113). -/
def mnemonicOf : Instr → String
  | .nop => "NOP" | .reset => "RESET" | .start => "START" | .release => "RELEASE" | .run => "RUN"
  | .rdreg _ => "RDREG" | .wrreg _ _ => "WRREG" | .rdpay _ => "RDPAY" | .wrpay _ _ => "WRPAY"
  | .rdbit _ => "RDBIT" | .rdcw _ => "RDCW" | .rdmod _ _ => "RDMOD" | .rdgen _ => "RDGEN"
  | .gfexp _ => "GFEXP" | .gflog _ => "GFLOG" | .gfmul _ _ => "GFMUL" | .gfadd _ _ => "GFADD"
  | .pushb _ _ => "PUSHB" | .pkmode => "PKMODE" | .pkcnt => "PKCNT" | .pkdata => "PKDATA"
  | .pkterm => "PKTERM" | .pkalign => "PKALIGN" | .pkpad => "PKPAD"
  | .rsgen _ => "RSGEN" | .ecc => "ECC" | .mxfunc => "MXFUNC" | .mxdata => "MXDATA"
  | .mkeval _ => "MKEVAL" | .mksel => "MKSEL" | .mkapply => "MKAPPLY" | .mkfmt => "MKFMT"
  | .mkver => "MKVER"

end Sys2Proof
end

