-- ==== Sys2Proof/Config.lean ====
section
/-! DEFINITION. The constants of the unit (00_scope.md R8) and the two values the spec leaves open.
The ROM tables, which are also constants (10_state.md R38), stand in Machine/Rom.lean. -/

namespace Sys2Proof

/-- The field modulus x⁸+x⁴+x³+x²+1 (00_scope.md R8; 11_rom_tables.md R60). -/
def Config.fieldModulus : Nat := 0x11D

/-- The primitive element (00_scope.md R8; 11_rom_tables.md R60). -/
def Config.alpha : Byte := 0x02

/-- The least and the greatest version (00_scope.md R8). -/
def Config.versionMin : Nat := 1

/-- See `Config.versionMin`. -/
def Config.versionMax : Nat := 40

/-- Entries of `PAY` (00_scope.md R8; 10_state.md R30). -/
def Config.payDepth : Nat := 8192

/-- Entries of `BB` (00_scope.md R8; 10_state.md R31). -/
def Config.bbDepth : Nat := 23648

/-- Entries of `FIN` (00_scope.md R8; 10_state.md R32). -/
def Config.finDepth : Nat := 3706

/-- The greatest matrix side (00_scope.md R8; 10_state.md R33). -/
def Config.mxSideMax : Nat := 177

/-- Entries of `GEN` (00_scope.md R8; 10_state.md R34). -/
def Config.genDepth : Nat := 31

/-- The two pad bytes of `PKPAD` (42_bitstream.md R172). -/
def Config.padEven : Nat := 0xEC

/-- See `Config.padEven`. -/
def Config.padOdd : Nat := 0x11

/-- The fixed XOR mask of the format information (45_mask.md R260). -/
def Config.formatXor : Nat := 0x5412

/-- The generator of the format BCH code, G15 (45_mask.md R260). -/
def Config.formatPoly : Nat := 0x537

/-- The generator of the version BCH code, G18 (45_mask.md R263). -/
def Config.versionPoly : Nat := 0x1F25

/-- FREE VALUE (log entry 7): the content of `LOG[0]`, which 11_rom_tables.md R62 leaves unspecified.
It has no body, so no proof can rest on a value of it; no command reads it. -/
opaque Config.logZero : Byte

/-- FREE VALUE (log entry 12): the number of the mode auto-detection gives for empty input, which
91_not_in_source.md N24 leaves to the host. It has no body. -/
opaque Config.emptyInputMode : BitVec 2

end Sys2Proof
end

