-- ==== Sys2Proof/Machine/State.lean ====
section
/-! DEFINITION. What the unit holds (10_state.md R20 to R40), as plain data, and its reset state.
`BBLEN`, `CWLEN` and `GENLEN` have their one home in the lengths of `bb`, `fin` and `gen` (log entry 5);
the written flag `W[i]` is the presence of entry `i` in `pay` (log entry 4). -/

namespace Sys2Proof.Machine

/-- `CFG.ECLEVEL`: 0 = L, 1 = M, 2 = Q, 3 = H (10_state.md R23). -/
inductive EcLevel where
  | L | M | Q | H
  deriving DecidableEq, Repr

/-- `CFG.MODE`: 0 = Numeric, 1 = Alphanumeric, 2 = Byte, 3 = Kanji (10_state.md R23). -/
inductive Mode where
  | numeric | alphanumeric | byte | kanji
  deriving DecidableEq, Repr

/-- `STATUS.PHASE`, values 0 to 8; 9 to 15 never occur (10_state.md R24; 93_implementation_defined.md
U12). -/
inductive Phase where
  | idle | packing | coded | laid | placed | selected | masked | formatted | done
  deriving DecidableEq, Repr

/-- `STATUS.CAUSE`, codes 0 to 10; 11 to 255 are never produced (60_exceptions.md R311). -/
inductive Cause where
  | none | illegal | seq | range | cfg | ovf | unit | len | log0 | count | uninit
  deriving DecidableEq, Repr

/-- The tag of a module, values 0 to 7 in the order of 10_state.md R33; `quiet` is never produced. -/
inductive Tag where
  | finder | separator | timing | alignment | formatInfo | versionInfo | data | quiet
  deriving DecidableEq, Repr

/-- One module: `val` true is dark (1), false is light (0) (10_state.md R33; 44_matrix.md R210). -/
structure MxModule where
  val : Bool
  tag : Tag
  deriving DecidableEq, Repr

/-- The held corner of `MX`, row 0 first, column 0 first in each row (44_matrix.md R210). -/
abbrev Mx := List (List MxModule)

/-- An element memory: (index, element) pairs, indices strictly rising. An unlisted index has no value:
it was never written. -/
abbrev Memory := List (Nat × PayUnit)

/-- The canonical form of an element memory: strictly rising indices. -/
def Memory.wf : Memory → Bool
  | [] => true
  | [_] => true
  | x :: y :: rest => x.1 < y.1 && Memory.wf (y :: rest)

/-- The response of a command: `OK` and `DATA` (30_encoding.md R116). -/
structure Response where
  ok : Bool
  data : Data
  deriving DecidableEq, Repr

/-- What the host can do to the unit (70_reset_and_hazards.md R352): present a command word, or reset
the unit by hardware (R340). -/
inductive Input where
  | command (w : Descriptor)
  | hardReset
  deriving DecidableEq, Repr

/-- The configuration register `CFG` (10_state.md R23). -/
structure Cfg where
  version : BitVec 6
  ecLevel : EcLevel
  mode : Mode
  deriving DecidableEq, Repr

/-- The unit's state, and with it the host's coming inputs and the latest response. -/
structure State where
  /-- `CFG`, register 0x00 (10_state.md R22, R23). -/
  cfg : Cfg
  /-- `PAYLEN`, register 0x01 (R26). -/
  payLen : BitVec 13
  /-- `STATUS.PHASE` (R24). -/
  phase : Phase
  /-- `STATUS.FAULT` (R25). -/
  fault : Bool
  /-- `STATUS.CAUSE` (R25). -/
  cause : Cause
  /-- `STATUS.EVALID` (R25). -/
  evalid : BitVec 8
  /-- `MASKID`, register 0x05 (R27). -/
  maskId : BitVec 3
  /-- `SCORE[0..7]`, registers 0x10 to 0x17 (R29, R35). -/
  scores : Vector (BitVec 32) 8
  /-- `PAY` with its written flags `W` (R30, R36). -/
  pay : Memory
  /-- `BB[0 .. BBLEN-1]`, first appended bit first; its length is `BBLEN` (R27, R31). -/
  bb : List Bool
  /-- `FIN[0 .. CWLEN-1]`; its length is `CWLEN` (R27, R32). -/
  fin : List Byte
  /-- `GEN[0 .. GENLEN]`; its length less one is `GENLEN` (R27, R34). -/
  gen : List Byte
  /-- The `S × S` corner of `MX`, empty before `MXFUNC` (R33, R37). -/
  mx : Mx
  /-- The model's own field (log entry 1): what the host will present, oldest first. -/
  pending : List Input
  /-- The model's own field (log entry 3): the response of the latest step, if it ran a command. -/
  resp : Option Response
  deriving DecidableEq, Repr

/-- How a step can stop the machine: in no way. Every fault of the unit is an event its rules carry
through (60_exceptions.md R312: a next state with `FAULT = 1`), and every command terminates with a
response (70_reset_and_hazards.md R350). The type has no constructor, so no meaning can stop. -/
inductive Fault where
  deriving DecidableEq, Repr

/-- How an instruction can have no meaning. -/
inductive Refusal where
  /-- Raised only by an arm of `exec` whose instruction is not modelled yet; no arm does. Safe: the
  machine stops. -/
  | notModelled (mnemonic : String)
  deriving DecidableEq, Repr

/-- The state after reset (10_state.md R40), with nothing presented and no response (log entries 1, 3). -/
def State.reset : State where
  cfg := { version := 0, ecLevel := .L, mode := .numeric }
  payLen := 0
  phase := .idle
  fault := false
  cause := .none
  evalid := 0
  maskId := 0
  scores := Vector.replicate 8 0
  pay := []
  bb := []
  fin := []
  gen := [1]
  mx := []
  pending := []
  resp := none

end Sys2Proof.Machine
end

