-- ==== Sys2Proof/Machine/Rom.lean ====
section
/-! DEFINITION. The read-only tables of the unit (11_rom_tables.md R60 to R74), copied row by row. They
are constants, not state (10_state.md R38). Most are marked in the spec as supplied from general
knowledge (93_implementation_defined.md G1 to G23; log entry 9). -/

namespace Sys2Proof.Machine

/-- `EXP`, row `k` holding `EXP[16k] … EXP[16k+15]` (11_rom_tables.md R61). -/
def expRows : List (List Nat) :=
  [[0x01, 0x02, 0x04, 0x08, 0x10, 0x20, 0x40, 0x80, 0x1D, 0x3A, 0x74, 0xE8, 0xCD, 0x87, 0x13, 0x26],
   [0x4C, 0x98, 0x2D, 0x5A, 0xB4, 0x75, 0xEA, 0xC9, 0x8F, 0x03, 0x06, 0x0C, 0x18, 0x30, 0x60, 0xC0],
   [0x9D, 0x27, 0x4E, 0x9C, 0x25, 0x4A, 0x94, 0x35, 0x6A, 0xD4, 0xB5, 0x77, 0xEE, 0xC1, 0x9F, 0x23],
   [0x46, 0x8C, 0x05, 0x0A, 0x14, 0x28, 0x50, 0xA0, 0x5D, 0xBA, 0x69, 0xD2, 0xB9, 0x6F, 0xDE, 0xA1],
   [0x5F, 0xBE, 0x61, 0xC2, 0x99, 0x2F, 0x5E, 0xBC, 0x65, 0xCA, 0x89, 0x0F, 0x1E, 0x3C, 0x78, 0xF0],
   [0xFD, 0xE7, 0xD3, 0xBB, 0x6B, 0xD6, 0xB1, 0x7F, 0xFE, 0xE1, 0xDF, 0xA3, 0x5B, 0xB6, 0x71, 0xE2],
   [0xD9, 0xAF, 0x43, 0x86, 0x11, 0x22, 0x44, 0x88, 0x0D, 0x1A, 0x34, 0x68, 0xD0, 0xBD, 0x67, 0xCE],
   [0x81, 0x1F, 0x3E, 0x7C, 0xF8, 0xED, 0xC7, 0x93, 0x3B, 0x76, 0xEC, 0xC5, 0x97, 0x33, 0x66, 0xCC],
   [0x85, 0x17, 0x2E, 0x5C, 0xB8, 0x6D, 0xDA, 0xA9, 0x4F, 0x9E, 0x21, 0x42, 0x84, 0x15, 0x2A, 0x54],
   [0xA8, 0x4D, 0x9A, 0x29, 0x52, 0xA4, 0x55, 0xAA, 0x49, 0x92, 0x39, 0x72, 0xE4, 0xD5, 0xB7, 0x73],
   [0xE6, 0xD1, 0xBF, 0x63, 0xC6, 0x91, 0x3F, 0x7E, 0xFC, 0xE5, 0xD7, 0xB3, 0x7B, 0xF6, 0xF1, 0xFF],
   [0xE3, 0xDB, 0xAB, 0x4B, 0x96, 0x31, 0x62, 0xC4, 0x95, 0x37, 0x6E, 0xDC, 0xA5, 0x57, 0xAE, 0x41],
   [0x82, 0x19, 0x32, 0x64, 0xC8, 0x8D, 0x07, 0x0E, 0x1C, 0x38, 0x70, 0xE0, 0xDD, 0xA7, 0x53, 0xA6],
   [0x51, 0xA2, 0x59, 0xB2, 0x79, 0xF2, 0xF9, 0xEF, 0xC3, 0x9B, 0x2B, 0x56, 0xAC, 0x45, 0x8A, 0x09],
   [0x12, 0x24, 0x48, 0x90, 0x3D, 0x7A, 0xF4, 0xF5, 0xF7, 0xF3, 0xFB, 0xEB, 0xCB, 0x8B, 0x0B, 0x16],
   [0x2C, 0x58, 0xB0, 0x7D, 0xFA, 0xE9, 0xCF, 0x83, 0x1B, 0x36, 0x6C, 0xD8, 0xAD, 0x47, 0x8E, 0x01]]

/-- `LOG`, row `k` holding `LOG[16k] … LOG[16k+15]` (11_rom_tables.md R62). The place of `LOG[0]` holds
a mere filler: `gfLog` never reads it (log entry 7). -/
def logRows : List (List Nat) :=
  [[0, 0, 1, 25, 2, 50, 26, 198, 3, 223, 51, 238, 27, 104, 199, 75],
   [4, 100, 224, 14, 52, 141, 239, 129, 28, 193, 105, 248, 200, 8, 76, 113],
   [5, 138, 101, 47, 225, 36, 15, 33, 53, 147, 142, 218, 240, 18, 130, 69],
   [29, 181, 194, 125, 106, 39, 249, 185, 201, 154, 9, 120, 77, 228, 114, 166],
   [6, 191, 139, 98, 102, 221, 48, 253, 226, 152, 37, 179, 16, 145, 34, 136],
   [54, 208, 148, 206, 143, 150, 219, 189, 241, 210, 19, 92, 131, 56, 70, 64],
   [30, 66, 182, 163, 195, 72, 126, 110, 107, 58, 40, 84, 250, 133, 186, 61],
   [202, 94, 155, 159, 10, 21, 121, 43, 78, 212, 229, 172, 115, 243, 167, 87],
   [7, 112, 192, 247, 140, 128, 99, 13, 103, 74, 222, 237, 49, 197, 254, 24],
   [227, 165, 153, 119, 38, 184, 180, 124, 17, 68, 146, 217, 35, 32, 137, 46],
   [55, 63, 209, 91, 149, 188, 207, 205, 144, 135, 151, 178, 220, 252, 190, 97],
   [242, 86, 211, 171, 20, 42, 93, 158, 132, 60, 57, 83, 71, 109, 65, 162],
   [31, 45, 67, 216, 183, 123, 164, 118, 196, 23, 73, 236, 127, 12, 111, 246],
   [108, 161, 59, 82, 41, 157, 85, 170, 251, 96, 134, 177, 187, 204, 62, 90],
   [203, 89, 95, 176, 156, 169, 160, 81, 11, 245, 22, 235, 122, 117, 44, 215],
   [79, 174, 213, 233, 230, 231, 173, 232, 116, 214, 244, 234, 168, 80, 88, 175]]

/-- `EXP[i]` (11_rom_tables.md R61). -/
def gfExp (i : Nat) : Byte := BitVec.ofNat 8 ((expRows.getD (i / 16) []).getD (i % 16) 0)

/-- `LOG[v]` (11_rom_tables.md R62); `LOG[0]` is a free value. -/
def gfLog (v : Byte) : Byte :=
  if v = 0 then Config.logZero
  else BitVec.ofNat 8 ((logRows.getD (v.toNat / 16) []).getD (v.toNat % 16) 0)

/-- `MODE_IND`, the 4-bit mode indicator (11_rom_tables.md R66). -/
def modeIndicator : Mode → Nat
  | .numeric => 0b0001
  | .alphanumeric => 0b0010
  | .byte => 0b0100
  | .kanji => 0b1000

/-- The version class: 0 for versions 1 to 9, 1 for 10 to 26, 2 for 27 to 40 (11_rom_tables.md R67). -/
def versionClass (version : Nat) : Nat := if version ≤ 9 then 0 else if version ≤ 26 then 1 else 2

/-- `CNT_WIDTH[MODE][vclass]` (11_rom_tables.md R67). -/
def cntWidth (mode : Mode) (version : Nat) : Nat :=
  (match mode with
    | .numeric => [10, 12, 14]
    | .alphanumeric => [9, 11, 13]
    | .byte => [8, 16, 16]
    | .kanji => [8, 10, 12]).getD (versionClass version) 0

/-- The ASCII codes of the 45 alphanumeric characters in the order of their codes: digits, A to Z,
space and `$%*+-./:` (11_rom_tables.md R68). -/
def alnumSet : List Nat :=
  [0x30, 0x31, 0x32, 0x33, 0x34, 0x35, 0x36, 0x37, 0x38, 0x39] ++
  [0x41, 0x42, 0x43, 0x44, 0x45, 0x46, 0x47, 0x48, 0x49, 0x4A, 0x4B, 0x4C, 0x4D] ++
  [0x4E, 0x4F, 0x50, 0x51, 0x52, 0x53, 0x54, 0x55, 0x56, 0x57, 0x58, 0x59, 0x5A] ++
  [0x20, 0x24, 0x25, 0x2A, 0x2B, 0x2D, 0x2E, 0x2F, 0x3A]

/-- `code(u)`: the position of the character in `alnumSet` (11_rom_tables.md R68); 45 when it has none. -/
def alnumCode (u : Nat) : Nat := alnumSet.idxOf u

/-- Row `v - 1` is `ALIGN[v]`, the alignment-pattern coordinates (11_rom_tables.md R69). -/
def alignRows : List (List Nat) :=
  [[],
   [6, 18],
   [6, 22],
   [6, 26],
   [6, 30],
   [6, 34],
   [6, 22, 38],
   [6, 24, 42],
   [6, 26, 46],
   [6, 28, 50]] ++
  [[6, 30, 54],
   [6, 32, 58],
   [6, 34, 62],
   [6, 26, 46, 66],
   [6, 26, 48, 70],
   [6, 26, 50, 74],
   [6, 30, 54, 78],
   [6, 30, 56, 82],
   [6, 30, 58, 86],
   [6, 34, 62, 90]] ++
  [[6, 28, 50, 72, 94],
   [6, 26, 50, 74, 98],
   [6, 30, 54, 78, 102],
   [6, 28, 54, 80, 106],
   [6, 32, 58, 84, 110],
   [6, 30, 58, 86, 114],
   [6, 34, 62, 90, 118],
   [6, 26, 50, 74, 98, 122],
   [6, 30, 54, 78, 102, 126],
   [6, 26, 52, 78, 104, 130]] ++
  [[6, 30, 56, 82, 108, 134],
   [6, 34, 60, 86, 112, 138],
   [6, 30, 58, 86, 114, 142],
   [6, 34, 62, 90, 118, 146],
   [6, 30, 54, 78, 102, 126, 150],
   [6, 24, 50, 76, 102, 128, 154],
   [6, 28, 54, 80, 106, 132, 158],
   [6, 32, 58, 84, 110, 136, 162],
   [6, 26, 54, 82, 110, 138, 166],
   [6, 30, 58, 86, 114, 142, 170]]

/-- A row of the EC block table: `ECLEN` EC codewords per block, `n1` blocks of `k1` data codewords, then
`n2` blocks of `k1 + 1` (11_rom_tables.md R71). -/
structure BlockInfo where
  ecLen : Nat
  n1 : Nat
  k1 : Nat
  n2 : Nat
  deriving DecidableEq, Repr

/-- Row `v - 1` is `ECTAB[v]`, levels L, M, Q, H (11_rom_tables.md R71). -/
def ecRows : List (List BlockInfo) :=
  [[⟨7, 1, 19, 0⟩, ⟨10, 1, 16, 0⟩, ⟨13, 1, 13, 0⟩, ⟨17, 1, 9, 0⟩],
   [⟨10, 1, 34, 0⟩, ⟨16, 1, 28, 0⟩, ⟨22, 1, 22, 0⟩, ⟨28, 1, 16, 0⟩],
   [⟨15, 1, 55, 0⟩, ⟨26, 1, 44, 0⟩, ⟨18, 2, 17, 0⟩, ⟨22, 2, 13, 0⟩],
   [⟨20, 1, 80, 0⟩, ⟨18, 2, 32, 0⟩, ⟨26, 2, 24, 0⟩, ⟨16, 4, 9, 0⟩],
   [⟨26, 1, 108, 0⟩, ⟨24, 2, 43, 0⟩, ⟨18, 2, 15, 2⟩, ⟨22, 2, 11, 2⟩],
   [⟨18, 2, 68, 0⟩, ⟨16, 4, 27, 0⟩, ⟨24, 4, 19, 0⟩, ⟨28, 4, 15, 0⟩],
   [⟨20, 2, 78, 0⟩, ⟨18, 4, 31, 0⟩, ⟨18, 2, 14, 4⟩, ⟨26, 4, 13, 1⟩],
   [⟨24, 2, 97, 0⟩, ⟨22, 2, 38, 2⟩, ⟨22, 4, 18, 2⟩, ⟨26, 4, 14, 2⟩]] ++
  [[⟨30, 2, 116, 0⟩, ⟨22, 3, 36, 2⟩, ⟨20, 4, 16, 4⟩, ⟨24, 4, 12, 4⟩],
   [⟨18, 2, 68, 2⟩, ⟨26, 4, 43, 1⟩, ⟨24, 6, 19, 2⟩, ⟨28, 6, 15, 2⟩],
   [⟨20, 4, 81, 0⟩, ⟨30, 1, 50, 4⟩, ⟨28, 4, 22, 4⟩, ⟨24, 3, 12, 8⟩],
   [⟨24, 2, 92, 2⟩, ⟨22, 6, 36, 2⟩, ⟨26, 4, 20, 6⟩, ⟨28, 7, 14, 4⟩],
   [⟨26, 4, 107, 0⟩, ⟨22, 8, 37, 1⟩, ⟨24, 8, 20, 4⟩, ⟨22, 12, 11, 4⟩],
   [⟨30, 3, 115, 1⟩, ⟨24, 4, 40, 5⟩, ⟨20, 11, 16, 5⟩, ⟨24, 11, 12, 5⟩],
   [⟨22, 5, 87, 1⟩, ⟨24, 5, 41, 5⟩, ⟨30, 5, 24, 7⟩, ⟨24, 11, 12, 7⟩],
   [⟨24, 5, 98, 1⟩, ⟨28, 7, 45, 3⟩, ⟨24, 15, 19, 2⟩, ⟨30, 3, 15, 13⟩]] ++
  [[⟨28, 1, 107, 5⟩, ⟨28, 10, 46, 1⟩, ⟨28, 1, 22, 15⟩, ⟨28, 2, 14, 17⟩],
   [⟨30, 5, 120, 1⟩, ⟨26, 9, 43, 4⟩, ⟨28, 17, 22, 1⟩, ⟨28, 2, 14, 19⟩],
   [⟨28, 3, 113, 4⟩, ⟨26, 3, 44, 11⟩, ⟨26, 17, 21, 4⟩, ⟨26, 9, 13, 16⟩],
   [⟨28, 3, 107, 5⟩, ⟨26, 3, 41, 13⟩, ⟨30, 15, 24, 5⟩, ⟨28, 15, 15, 10⟩],
   [⟨28, 4, 116, 4⟩, ⟨26, 17, 42, 0⟩, ⟨28, 17, 22, 6⟩, ⟨30, 19, 16, 6⟩],
   [⟨28, 2, 111, 7⟩, ⟨28, 17, 46, 0⟩, ⟨30, 7, 24, 16⟩, ⟨24, 34, 13, 0⟩],
   [⟨30, 4, 121, 5⟩, ⟨28, 4, 47, 14⟩, ⟨30, 11, 24, 14⟩, ⟨30, 16, 15, 14⟩],
   [⟨30, 6, 117, 4⟩, ⟨28, 6, 45, 14⟩, ⟨30, 11, 24, 16⟩, ⟨30, 30, 16, 2⟩]] ++
  [[⟨26, 8, 106, 4⟩, ⟨28, 8, 47, 13⟩, ⟨30, 7, 24, 22⟩, ⟨30, 22, 15, 13⟩],
   [⟨28, 10, 114, 2⟩, ⟨28, 19, 46, 4⟩, ⟨28, 28, 22, 6⟩, ⟨30, 33, 16, 4⟩],
   [⟨30, 8, 122, 4⟩, ⟨28, 22, 45, 3⟩, ⟨30, 8, 23, 26⟩, ⟨30, 12, 15, 28⟩],
   [⟨30, 3, 117, 10⟩, ⟨28, 3, 45, 23⟩, ⟨30, 4, 24, 31⟩, ⟨30, 11, 15, 31⟩],
   [⟨30, 7, 116, 7⟩, ⟨28, 21, 45, 7⟩, ⟨30, 1, 23, 37⟩, ⟨30, 19, 15, 26⟩],
   [⟨30, 5, 115, 10⟩, ⟨28, 19, 47, 10⟩, ⟨30, 15, 24, 25⟩, ⟨30, 23, 15, 25⟩],
   [⟨30, 13, 115, 3⟩, ⟨28, 2, 46, 29⟩, ⟨30, 42, 24, 1⟩, ⟨30, 23, 15, 28⟩],
   [⟨30, 17, 115, 0⟩, ⟨28, 10, 46, 23⟩, ⟨30, 10, 24, 35⟩, ⟨30, 19, 15, 35⟩]] ++
  [[⟨30, 17, 115, 1⟩, ⟨28, 14, 46, 21⟩, ⟨30, 29, 24, 19⟩, ⟨30, 11, 15, 46⟩],
   [⟨30, 13, 115, 6⟩, ⟨28, 14, 46, 23⟩, ⟨30, 44, 24, 7⟩, ⟨30, 59, 16, 1⟩],
   [⟨30, 12, 121, 7⟩, ⟨28, 12, 47, 26⟩, ⟨30, 39, 24, 14⟩, ⟨30, 22, 15, 41⟩],
   [⟨30, 6, 121, 14⟩, ⟨28, 6, 47, 34⟩, ⟨30, 46, 24, 10⟩, ⟨30, 2, 15, 64⟩],
   [⟨30, 17, 122, 4⟩, ⟨28, 29, 46, 14⟩, ⟨30, 49, 24, 10⟩, ⟨30, 24, 15, 46⟩],
   [⟨30, 4, 122, 18⟩, ⟨28, 13, 46, 32⟩, ⟨30, 48, 24, 14⟩, ⟨30, 42, 15, 32⟩],
   [⟨30, 20, 117, 4⟩, ⟨28, 40, 47, 7⟩, ⟨30, 43, 24, 22⟩, ⟨30, 10, 15, 67⟩],
   [⟨30, 19, 118, 6⟩, ⟨28, 18, 47, 31⟩, ⟨30, 34, 24, 34⟩, ⟨30, 20, 15, 61⟩]]

/-- A legal version (10_state.md R23). -/
def versionLegal (version : Nat) : Bool := Config.versionMin ≤ version && version ≤ Config.versionMax

/-- The number of a level in `CFG.ECLEVEL` (10_state.md R23). -/
def EcLevel.code : EcLevel → BitVec 2
  | .L => 0
  | .M => 1
  | .Q => 2
  | .H => 3

/-- The level of a number (10_state.md R23). -/
def EcLevel.ofCode (c : BitVec 2) : EcLevel :=
  match c.toNat with
  | 0 => .L
  | 1 => .M
  | 2 => .Q
  | _ => .H

/-- The number of a mode in `CFG.MODE` (10_state.md R23). -/
def Mode.code : Mode → BitVec 2
  | .numeric => 0
  | .alphanumeric => 1
  | .byte => 2
  | .kanji => 3

/-- The mode of a number (10_state.md R23). -/
def Mode.ofCode (c : BitVec 2) : Mode :=
  match c.toNat with
  | 0 => .numeric
  | 1 => .alphanumeric
  | 2 => .byte
  | _ => .kanji

/-- `ALIGN[version]` (11_rom_tables.md R69). -/
def alignCoords (version : Nat) : List Nat := alignRows.getD (version - 1) []

/-- `ECTAB[version][level]` (11_rom_tables.md R71); all zero for a version without a row. -/
def blockInfo (version : Nat) (level : EcLevel) : BlockInfo :=
  if versionLegal version then
    (ecRows.getD (version - 1) []).getD level.code.toNat ⟨0, 0, 0, 0⟩
  else ⟨0, 0, 0, 0⟩

/-- `DCAP = N1·K1 + N2·(K1 + 1)`, the data codewords (11_rom_tables.md R72). -/
def dataCapacity (version : Nat) (level : EcLevel) : Nat :=
  let b := blockInfo version level
  b.n1 * b.k1 + b.n2 * (b.k1 + 1)

/-- The matrix side `4·version + 17` (10_state.md R28). -/
def sideOf (version : Nat) : Nat := 4 * version + 17

/-- `NDATA(v)`, the number of data modules, from the counts of the function patterns (44_matrix.md R219). -/
def nData (version : Nat) : Nat :=
  let s := sideOf version
  let n := (alignCoords version).length
  s * s - 192 - 2 * (s - 16) - 25 * (n * n - 3) + 10 * (n - 2) - 31 - (if 7 ≤ version then 36 else 0)

/-- `TOTCW[version]`, the total codewords (11_rom_tables.md R70; 44_matrix.md R219); 0 for an illegal
version (10_state.md R28). -/
def totalCodewords (version : Nat) : Nat := if versionLegal version then nData version / 8 else 0

/-- `REMBITS[version]`: the data modules after the last codeword bit (11_rom_tables.md R70). -/
def remainderBits (version : Nat) : Nat := nData version % 8

/-- The damage tolerance commonly quoted for a level, in percent; no rule uses it (11_rom_tables.md R73). -/
def damageTolerance : EcLevel → Nat
  | .L => 7
  | .M => 15
  | .Q => 25
  | .H => 30

end Sys2Proof.Machine
end

