-- ==== Sys2Proof/Machine/Ops.lean ====
section
/-! DEFINITION. The named operations the meanings are built from: responding, taking a fault and leaving
the fault state, reading the configuration's views, the element memories, the bit buffer, the matrix,
and the field arithmetic. -/

namespace Sys2Proof.Machine

/-- What a command answers: always a next state here (60_exceptions.md R312; `Fault` is empty). -/
abbrev Answer := Host.Outcome State Fault Refusal

/-! ## Responses and faults -/

/-- Complete with `respond(d)`: the response is `(1, d)` (30_encoding.md R116). -/
def State.respond (s : State) (d : Data) : State := { s with resp := some ⟨true, d⟩ }

/-- Taking a fault, `raise Fault(c)`: `FAULT ← 1`, `CAUSE ← c`, response `(0, 0)`, nothing else changes;
no state is saved and no control goes anywhere (60_exceptions.md R312). -/
def State.raise (s : State) (c : Cause) : State :=
  { s with fault := true, cause := c, resp := some ⟨false, 0⟩ }

/-- A command ignored in the fault state: response `(0, 0)`, no state changes (60_exceptions.md R313). -/
def State.ignored (s : State) : State := { s with resp := some ⟨false, 0⟩ }

/-- The unit's state returned to its reset values, the one way out of the fault state
(10_state.md R40; 60_exceptions.md R316). The host's coming inputs are not the unit's and stay. -/
def State.restart (s : State) : State := { State.reset with pending := s.pending }

/-- A step with nothing presented: the unit waits (70_reset_and_hazards.md R340); no response. -/
def State.wait (s : State) : State := { s with resp := none }

/-- The host's oldest input has been taken. -/
def State.taken (s : State) : State := { s with pending := s.pending.tail }

/-- A hardware reset: the reset state, and no response (70_reset_and_hazards.md R340). -/
def State.hardReset (s : State) : State := s.restart

/-- Run a command that responds 0: ignored in the fault state, else a fault or the state it leaves
(60_exceptions.md R312, R313). -/
def State.perform (s : State) (r : Except Cause State) : Answer :=
  if s.fault then .next s.ignored
  else
    match r with
    | .error c => .next (s.raise c)
    | .ok t => .next (t.respond 0)

/-- Run a command that only responds: ignored in the fault state, else a fault or the response
(20_memory.md R97; 60_exceptions.md R312, R313). -/
def State.answer (s : State) (r : Except Cause Data) : Answer :=
  if s.fault then .next s.ignored
  else
    match r with
    | .error c => .next (s.raise c)
    | .ok d => .next (s.respond d)

/-- An illegal descriptor: `Fault(ILLEGAL)`, or ignored in the fault state (30_encoding.md R114). -/
def State.illegal (s : State) : Answer := s.answer (.error .illegal)

/-- The phase check, first of every command with a blank in the phase table (46_control.md R270). -/
def State.inPhase (s : State) (p : Phase) (r : Except Cause State) : Except Cause State :=
  if s.phase = p then r else .error .seq

/-- `STATUS.PHASE` as a number (10_state.md R24). -/
def Phase.code : Phase → Nat
  | .idle => 0
  | .packing => 1
  | .coded => 2
  | .laid => 3
  | .placed => 4
  | .selected => 5
  | .masked => 6
  | .formatted => 7
  | .done => 8

/-- `STATUS.CAUSE` as a number (60_exceptions.md R311). -/
def Cause.code : Cause → Nat
  | .none => 0
  | .illegal => 1
  | .seq => 2
  | .range => 3
  | .cfg => 4
  | .ovf => 5
  | .unit => 6
  | .len => 7
  | .log0 => 8
  | .count => 9
  | .uninit => 10

/-- The tag of a module as a number (10_state.md R33). -/
def Tag.code : Tag → Nat
  | .finder => 0
  | .separator => 1
  | .timing => 2
  | .alignment => 3
  | .formatInfo => 4
  | .versionInfo => 5
  | .data => 6
  | .quiet => 7

/-! ## Lengths and views -/

/-- `BBLEN` (10_state.md R27). -/
def State.bbLen (s : State) : Nat := s.bb.length

/-- `CWLEN` (10_state.md R27). -/
def State.cwLen (s : State) : Nat := s.fin.length

/-- `GENLEN`, the degree of the polynomial in `GEN` (10_state.md R27). -/
def State.genLen (s : State) : Nat := s.gen.length - 1

/-- `CFG.VERSION` as a number. -/
def State.version (s : State) : Nat := s.cfg.version.toNat

/-- `S = 4·VERSION + 17` (44_matrix.md R210). -/
def State.side (s : State) : Nat := sideOf s.version

/-- The block structure of the configured symbol (11_rom_tables.md R71). -/
def State.blocks (s : State) : BlockInfo := blockInfo s.version s.cfg.ecLevel

/-- `DCAP` of the configured symbol (11_rom_tables.md R72). -/
def State.dcap (s : State) : Nat := dataCapacity s.version s.cfg.ecLevel

/-- `CAPBITS = 8·DCAP` (42_bitstream.md, names). -/
def State.capBits (s : State) : Nat := 8 * s.dcap

/-! ## Element memories -/

/-- `MemRead`: the element at an index, none where nothing was written (00_scope.md R13; 10_state.md
R36). -/
def Memory.read (m : Memory) (i : Nat) : Option PayUnit := List.lookup i m

/-- `MemWrite`: one element written, the canonical form kept (00_scope.md R13). -/
def Memory.write : Memory → Nat → PayUnit → Memory
  | [], i, v => [(i, v)]
  | (j, x) :: rest, i, v =>
    if i < j then (i, v) :: (j, x) :: rest
    else if i = j then (i, v) :: rest
    else (j, x) :: Memory.write rest i v

/-! ## The bit buffer -/

/-- The `w` low bits of `v`, most significant first (20_memory.md R93). -/
def bitsOf (v w : Nat) : List Bool := (List.range w).reverse.map fun i => v.testBit i

/-- The number a list of bits spells, first bit most significant (20_memory.md R93, R94). -/
def numOf (bits : List Bool) : Nat := bits.foldl (fun n b => 2 * n + b.toNat) 0

/-- `append(v, w)`, all or nothing, `Fault(OVF)` past `CAPBITS` (42_bitstream.md R161). -/
def State.append (s : State) (v w : Nat) : Except Cause State :=
  if s.bbLen + w > s.capBits then .error .ovf else .ok { s with bb := s.bb ++ bitsOf v w }

/-- The data codewords of a bit string, each from eight bits, first bit most significant
(20_memory.md R94); a tail shorter than eight bits is no codeword. -/
def codewordsOf : List Bool → List Byte
  | b0 :: b1 :: b2 :: b3 :: b4 :: b5 :: b6 :: b7 :: rest =>
    BitVec.ofNat 8 (numOf [b0, b1, b2, b3, b4, b5, b6, b7]) :: codewordsOf rest
  | _ => []

/-- `FB[i]`, bit `i` of the codeword stream, most significant bit of each codeword first, 0 past its end
(20_memory.md R95). -/
def streamBit (fin : List Byte) (i : Nat) : Bool :=
  if i < 8 * fin.length then (fin.getD (i / 8) 0).getLsbD (7 - i % 8) else false

/-! ## The matrix -/

/-- A module as `MXFUNC` finds it: light, tagged data (44_matrix.md R211). It is also what a place
outside the held corner reads as; no command reads there (log entry 6). -/
def blankModule : MxModule := ⟨false, .data⟩

/-- The module at row `r`, column `c`. -/
def Mx.at (m : Mx) (r c : Nat) : MxModule := (m.getD r []).getD c blankModule

/-- `set(r, c, val, tag)`; a place outside the matrix is dropped (44_matrix.md R210). -/
def Mx.put (m : Mx) (r c : Nat) (x : MxModule) : Mx := m.set r ((m.getD r []).set c x)

/-- Write the value of one module and keep its tag. -/
def Mx.putVal (m : Mx) (r c : Nat) (v : Bool) : Mx :=
  m.put r c { m.at r c with val := v }

/-- Change every module by a function of its row, its column and itself. -/
def Mx.mapModules (f : Nat → Nat → MxModule → MxModule) (m : Mx) : Mx :=
  m.mapIdx fun r row => row.mapIdx fun c x => f r c x

/-- All the places of an `n × n` square, row by row. -/
def squarePlaces (n : Nat) : List (Nat × Nat) :=
  (List.range n).flatMap fun r => (List.range n).map fun c => (r, c)

/-- The distance of two numbers, `|a − b|` (00_scope.md R10). -/
def absDiff (a b : Nat) : Nat := max a b - min a b

/-! ## Field arithmetic -/

/-- `xtime(v)`: multiplication by the polynomial `x` (11_rom_tables.md R60). -/
def xtime (v : Byte) : Byte :=
  BitVec.ofNat 8 (if v.toNat < 0x80 then v.toNat <<< 1 else (v.toNat <<< 1) ^^^ Config.fieldModulus)

/-- `gf_mul(a, b)` by log and antilog look-ups (11_rom_tables.md R63). -/
def gfMul (a b : Byte) : Byte :=
  if a = 0 ∨ b = 0 then 0 else gfExp (((gfLog a).toNat + (gfLog b).toNat) % 255)

/-- `gf_add(a, b)`, coefficient-wise (11_rom_tables.md R64). -/
def gfAdd (a b : Byte) : Byte := a ^^^ b

end Sys2Proof.Machine
end

