-- ==== Sys2Proof/Machine/Flags.lean ====
section
/-! DEFINITION. The status flags `FAULT`, `CAUSE` and `EVALID` and the words of the registers that show
them (10_state.md R22, R25). The unit has no arithmetic condition codes; `FAULT` and `CAUSE` are written
by `State.raise` alone. -/

namespace Sys2Proof.Machine

/-- Mark mask `m` as scored: `EVALID ← EVALID or (1 << m)` (45_mask.md R257). -/
def evalidMark (evalid : BitVec 8) (m : Nat) : BitVec 8 := evalid ||| (1#8 <<< m)

/-- All eight masks have been scored (45_mask.md R258). -/
def evalidAll (evalid : BitVec 8) : Bool := evalid == 0xFF#8

/-- The `STATUS` word: `[3:0] PHASE`, `[4] FAULT`, `[15:8] CAUSE`, `[23:16] EVALID`, the rest 0
(10_state.md R22). -/
def State.statusWord (s : State) : Data :=
  0#8 ++ s.evalid ++ BitVec.ofNat 8 s.cause.code ++ 0#3 ++ BitVec.ofBool s.fault ++
    BitVec.ofNat 4 s.phase.code

/-- The `CFG` word: `[5:0] VERSION`, `[7:6] ECLEVEL`, `[9:8] MODE`, the rest 0 (10_state.md R22). -/
def Cfg.word (c : Cfg) : Data := 0#22 ++ c.mode.code ++ c.ecLevel.code ++ c.version

/-- The fields of a value written to `CFG` (10_state.md R23; 41_config_access.md R141). -/
def Cfg.ofWord (val : Data) : Cfg where
  version := val.extractLsb' 0 6
  ecLevel := EcLevel.ofCode (val.extractLsb' 6 2)
  mode := Mode.ofCode (val.extractLsb' 8 2)

end Sys2Proof.Machine
end

