-- ==== Sys2Proof/WellFormed.lean ====
section
/-! DEFINITION. Well-formed commands. A term of `Instr` cannot have a reserved bit set, so what is
left to check is that its operands lie in the ranges its rule calls legal: an index inside its buffer
at its full depth, an assigned (for a write: a writable) register, a width of at most 16 that holds
the value, a degree 1 to 30, a mask 0 to 7. A command that fails this check is still encodable
(30_encoding.md R112: "an out-of-range value is a range error, not an illegal encoding"); it can only
raise a fault or be ignored. -/

namespace Sys2Proof

/-- Register numbers that exist (10_state.md R22). -/
def assignedReg (reg : BitVec 8) : Bool :=
  reg.toNat ≤ 0x0B || (0x10 ≤ reg.toNat && reg.toNat ≤ 0x17)

/-- A register write that `WRREG` can accept: `CFG` without bits 31 to 10, or `PAYLEN` without bits
31 to 13 (10_state.md R22, R23, R26; 41_config_access.md R141). -/
def writableReg (reg : BitVec 8) (val : Data) : Bool :=
  (reg.toNat == 0x00 && val.toNat < 2 ^ 10) || (reg.toNat == 0x01 && val.toNat < 2 ^ 13)

/-- The operands lie in the ranges their rules call legal. -/
def wellFormed : Instr → Bool
  | .nop | .reset | .start | .release | .run => true
  | .rdreg reg => assignedReg reg
  | .wrreg reg val => writableReg reg val
  | .rdpay idx => idx.toNat < Config.payDepth
  | .wrpay idx _ => idx.toNat < Config.payDepth
  | .rdbit idx => idx.toNat < Config.bbDepth
  | .rdcw idx => idx.toNat < Config.finDepth
  | .rdmod row col => row.toNat < Config.mxSideMax && col.toNat < Config.mxSideMax
  | .rdgen idx => idx.toNat < Config.genDepth
  | .gfexp _ | .gflog _ | .gfmul _ _ | .gfadd _ _ => true
  | .pushb val width => width.toNat ≤ 16 && val.toNat < 2 ^ width.toNat
  | .pkmode | .pkcnt | .pkdata | .pkterm | .pkalign | .pkpad => true
  | .rsgen n => 1 ≤ n.toNat && n.toNat ≤ 30
  | .ecc | .mxfunc | .mxdata => true
  | .mkeval m => m.toNat ≤ 7
  | .mksel | .mkapply | .mkfmt | .mkver => true

end Sys2Proof
end

