-- ==== Sys2Proof/Machine/Operands.lean ====
section
/-! DEFINITION. What the operand forms name. Every operand is an unsigned immediate field
(30_encoding.md R112): a register number, an element index, a module's row and column, a value and its
width. A command that takes none reads its operands from the configuration and the payload, whose units
are decoded here (42_bitstream.md R166 to R169). -/

namespace Sys2Proof.Machine

/-! ## Control registers -/

/-- The `BLKINFO` word: `[4:0] ECLEN`, `[11:5] N1`, `[19:12] K1`, `[26:20] N2` (10_state.md R22). -/
def BlockInfo.word (b : BlockInfo) : Data :=
  0#5 ++ BitVec.ofNat 7 b.n2 ++ BitVec.ofNat 8 b.k1 ++ BitVec.ofNat 7 b.n1 ++ BitVec.ofNat 5 b.ecLen

/-- A view: a function of `CFG`, 0 while the version is not legal (10_state.md R28). -/
def State.view (s : State) (v : Data) : Data := if versionLegal s.version then v else 0

/-- `value(reg)`: the word of a control register, none for an unassigned number (10_state.md R22, R28;
41_config_access.md R140). -/
def State.regValue (s : State) (reg : BitVec 8) : Option Data :=
  match reg.toNat with
  | 0x00 => some s.cfg.word
  | 0x01 => some (s.payLen.setWidth 32)
  | 0x02 => some s.statusWord
  | 0x03 => some (BitVec.ofNat 32 s.bbLen)
  | 0x04 => some (BitVec.ofNat 32 s.cwLen)
  | 0x05 => some (s.maskId.setWidth 32)
  | 0x06 => some (BitVec.ofNat 32 s.genLen)
  | 0x07 => some (s.view (BitVec.ofNat 32 s.side))
  | 0x08 => some (s.view (BitVec.ofNat 32 s.dcap))
  | 0x09 => some (s.view (BitVec.ofNat 32 (totalCodewords s.version)))
  | 0x0A => some (s.view s.blocks.word)
  | 0x0B => some (s.view (BitVec.ofNat 32 (cntWidth s.cfg.mode s.version)))
  | 0x10 => some s.scores[0]
  | 0x11 => some s.scores[1]
  | 0x12 => some s.scores[2]
  | 0x13 => some s.scores[3]
  | 0x14 => some s.scores[4]
  | 0x15 => some s.scores[5]
  | 0x16 => some s.scores[6]
  | 0x17 => some s.scores[7]
  | _ => none

/-! ## Modules -/

/-- A module as `RDMOD` responds it: the value in bit 0, the tag in bits 3 to 1 (41_config_access.md
R146). -/
def MxModule.word (x : MxModule) : Data := BitVec.ofNat 32 (x.val.toNat ||| (x.tag.code <<< 1))

/-! ## Payload units -/

/-- `valid(mode, u)` (42_bitstream.md R166 to R169; 10_state.md R30). -/
def validUnit (mode : Mode) (u : PayUnit) : Bool :=
  match mode with
  | .numeric => 0x30 ≤ u.toNat && u.toNat ≤ 0x39
  | .alphanumeric => alnumSet.contains u.toNat
  | .byte => u.toNat ≤ 0xFF
  | .kanji => (0x8140 ≤ u.toNat && u.toNat ≤ 0x9FFC) || (0xE040 ≤ u.toNat && u.toNat ≤ 0xEBBF)

/-- The value of a decimal digit's character (42_bitstream.md R166). -/
def digitValue (u : PayUnit) : Nat := u.toNat - 0x30

/-- Numeric groups: three digits in 10 bits, two in 7, one in 4 (42_bitstream.md R166). -/
def numericGroups : List PayUnit → List (Nat × Nat)
  | a :: b :: c :: rest =>
    (100 * digitValue a + 10 * digitValue b + digitValue c, 10) :: numericGroups rest
  | [a, b] => [(10 * digitValue a + digitValue b, 7)]
  | [a] => [(digitValue a, 4)]
  | [] => []

/-- Alphanumeric groups: two characters in 11 bits, one in 6 (42_bitstream.md R167). -/
def alnumGroups : List PayUnit → List (Nat × Nat)
  | a :: b :: rest => (45 * alnumCode a.toNat + alnumCode b.toNat, 11) :: alnumGroups rest
  | [a] => [(alnumCode a.toNat, 6)]
  | [] => []

/-- The 13-bit value of a double-byte code (42_bitstream.md R169). -/
def kanjiValue (u : PayUnit) : Nat :=
  let d := if u.toNat ≤ 0x9FFC then u.toNat - 0x8140 else u.toNat - 0xC140
  (d >>> 8) * 0xC0 + (d &&& 0xFF)

/-- `groups(mode, units)`: the (value, width) pairs of a payload (42_bitstream.md R166 to R169). -/
def groupsOf (mode : Mode) (units : List PayUnit) : List (Nat × Nat) :=
  match mode with
  | .numeric => numericGroups units
  | .alphanumeric => alnumGroups units
  | .byte => units.map fun u => (u.toNat, 8)
  | .kanji => units.map fun u => (kanjiValue u, 13)

/-- `payload_bits(mode, n)` (11_rom_tables.md R74). -/
def payloadBits (mode : Mode) (n : Nat) : Nat :=
  match mode with
  | .numeric => 10 * (n / 3) + [0, 4, 7].getD (n % 3) 0
  | .alphanumeric => 11 * (n / 2) + 6 * (n % 2)
  | .byte => 8 * n
  | .kanji => 13 * n

/-- The payload units at the given indices, checked in that order: `UNINIT` before `UNIT` at one index
(42_bitstream.md R165 step 2). -/
def readUnits (mode : Mode) (pay : Memory) : List Nat → Except Cause (List PayUnit)
  | [] => .ok []
  | i :: rest =>
    match pay.read i with
    | none => .error .uninit
    | some u =>
      if validUnit mode u then
        match readUnits mode pay rest with
        | .error c => .error c
        | .ok us => .ok (u :: us)
      else .error .unit

end Sys2Proof.Machine
end

