-- ==== Sys2Proof/Machine/Access.lean ====
section
/-! DEFINITION. Meanings of the configuration and buffer access commands (41_config_access.md R140 to
R147). -/

namespace Sys2Proof.Machine

/-- `RDREG reg`: respond the register's word, in the fault state too; an unassigned number raises
`Fault(RANGE)`, or is ignored in the fault state (41_config_access.md R140; 60_exceptions.md R313). -/
def execRdreg (reg : BitVec 8) (s : State) : Answer :=
  match s.regValue reg with
  | some v => .next (s.respond v)
  | none => s.answer (.error .range)

/-- `WRREG reg, val`: the register check, the phase check, the value check, the write
(41_config_access.md R141). -/
def State.writeReg (s : State) (reg : BitVec 8) (val : Data) : Except Cause State :=
  if reg.toNat = 0x00 then
    s.inPhase .idle
      (if val.extractLsb' 10 22 = 0 then .ok { s with cfg := Cfg.ofWord val } else .error .range)
  else if reg.toNat = 0x01 then
    s.inPhase .idle
      (if val.extractLsb' 13 19 = 0 then .ok { s with payLen := val.extractLsb' 0 13 }
        else .error .range)
  else .error .range

/-- `WRREG reg, val` (41_config_access.md R141). -/
def execWrreg (reg : BitVec 8) (val : Data) (s : State) : Answer := s.perform (s.writeReg reg val)

/-- `RDPAY idx` (41_config_access.md R142). -/
def execRdpay (idx : Index) (s : State) : Answer :=
  s.answer
    (if Config.payDepth ≤ idx.toNat then .error .range
      else
        match s.pay.read idx.toNat with
        | none => .error .uninit
        | some u => .ok (u.setWidth 32))

/-- `WRPAY idx, val` (41_config_access.md R143). -/
def execWrpay (idx : Index) (val : PayUnit) (s : State) : Answer :=
  s.perform
    (s.inPhase .idle
      (if Config.payDepth ≤ idx.toNat then .error .range
        else .ok { s with pay := s.pay.write idx.toNat val }))

/-- `RDBIT idx` (41_config_access.md R144). -/
def execRdbit (idx : Index) (s : State) : Answer :=
  s.answer
    (if s.phase.code < 1 then .error .seq
      else if s.bbLen ≤ idx.toNat then .error .range
      else .ok (BitVec.ofNat 32 (s.bb.getD idx.toNat false).toNat))

/-- `RDCW idx` (41_config_access.md R145). -/
def execRdcw (idx : Index) (s : State) : Answer :=
  s.answer
    (if s.phase.code < 2 then .error .seq
      else if s.cwLen ≤ idx.toNat then .error .range
      else .ok ((s.fin.getD idx.toNat 0).setWidth 32))

/-- `RDMOD row, col` (41_config_access.md R146). -/
def execRdmod (row col : BitVec 8) (s : State) : Answer :=
  s.answer
    (if s.phase.code < 3 then .error .seq
      else if s.side ≤ row.toNat ∨ s.side ≤ col.toNat then .error .range
      else .ok (s.mx.at row.toNat col.toNat).word)

/-- `RDGEN idx` (41_config_access.md R147). -/
def execRdgen (idx : Index) (s : State) : Answer :=
  s.answer
    (if s.genLen < idx.toNat then .error .range
      else .ok ((s.gen.getD idx.toNat 0).setWidth 32))

end Sys2Proof.Machine
end

