-- ==== Sys2Proof/Machine/MatrixBuilder.lean ====
section
/-! DEFINITION. The matrix builder: function patterns, data placement, and the meanings of `MXFUNC` and
`MXDATA` (44_matrix.md R210 to R223). -/

namespace Sys2Proof.Machine

/-- Step 0: an `S × S` matrix of light data modules (44_matrix.md R211). -/
def blankMatrix (side : Nat) : Mx := List.replicate side (List.replicate side blankModule)

/-- `ring(dr, dc)` of the finder pattern: dark but for the ring at distance 2 of the centre
(44_matrix.md R212). -/
def finderRing (dr dc : Nat) : Bool := max (absDiff dr 3) (absDiff dc 3) != 2

/-- The module of a finder pattern's 9 × 9 frame at offset `(i − 1, j − 1)` of its top-left module:
pattern inside, separator around (44_matrix.md R212). -/
def finderModule (i j : Nat) : MxModule :=
  if 1 ≤ i ∧ i ≤ 7 ∧ 1 ≤ j ∧ j ≤ 7 then ⟨finderRing (i - 1) (j - 1), .finder⟩ else ⟨false, .separator⟩

/-- A finder pattern with its separator, top-left module at `(r0, c0)`; what lies outside the matrix is
dropped (44_matrix.md R210, R212). -/
def putFinder (m : Mx) (r0 c0 : Nat) : Mx :=
  (squarePlaces 9).foldl
    (fun m p =>
      if 1 ≤ r0 + p.1 ∧ 1 ≤ c0 + p.2 then
        Mx.put m (r0 + p.1 - 1) (c0 + p.2 - 1) (finderModule p.1 p.2)
      else m) m

/-- Step 1: the three finder patterns (44_matrix.md R212). -/
def putFinders (side : Nat) (m : Mx) : Mx :=
  putFinder (putFinder (putFinder m 0 0) 0 (side - 7)) (side - 7) 0

/-- One timing module, only where the module is still tagged data; dark on an even index
(44_matrix.md R213). -/
def putTiming (m : Mx) (r c i : Nat) : Mx :=
  if (Mx.at m r c).tag = .data then Mx.put m r c ⟨i % 2 == 0, .timing⟩ else m

/-- Step 2: the timing patterns, row 6 then column 6 (44_matrix.md R213). -/
def putTimings (side : Nat) (m : Mx) : Mx :=
  (List.range side).foldl (fun m i => putTiming m i 6 i)
    ((List.range side).foldl (fun m i => putTiming m 6 i i) m)

/-- The value of an alignment pattern at offset `(i − 2, j − 2)` of its centre: dark but for the ring at
distance 1 (44_matrix.md R214). -/
def alignmentRing (i j : Nat) : Bool := max (absDiff i 2) (absDiff j 2) != 1

/-- A candidate is skipped iff any of its 25 modules is tagged finder (44_matrix.md R216). -/
def overlapsFinder (m : Mx) (r0 c0 : Nat) : Bool :=
  (squarePlaces 5).any fun p => (Mx.at m (r0 + p.1 - 2) (c0 + p.2 - 2)).tag == .finder

/-- An alignment pattern centred at `(r0, c0)`, unless it is skipped (44_matrix.md R214, R216). -/
def putAlignment (m : Mx) (r0 c0 : Nat) : Mx :=
  if overlapsFinder m r0 c0 then m
  else
    (squarePlaces 5).foldl
      (fun m p => Mx.put m (r0 + p.1 - 2) (c0 + p.2 - 2) ⟨alignmentRing p.1 p.2, .alignment⟩) m

/-- The candidate centres, row coordinate first (44_matrix.md R215). -/
def alignmentCentres (version : Nat) : List (Nat × Nat) :=
  (alignCoords version).flatMap fun r => (alignCoords version).map fun c => (r, c)

/-- Step 3: the alignment patterns (44_matrix.md R216). -/
def putAlignments (version : Nat) (m : Mx) : Mx :=
  (alignmentCentres version).foldl (fun m p => putAlignment m p.1 p.2) m

/-- The module of format bit `i` in copy A (45_mask.md R261). -/
def formatPosA (i : Nat) : Nat × Nat :=
  if i ≤ 5 then (i, 8)
  else if i = 6 then (7, 8)
  else if i = 7 then (8, 8)
  else if i = 8 then (8, 7)
  else (8, 14 - i)

/-- The module of format bit `i` in copy B (45_mask.md R261). -/
def formatPosB (side i : Nat) : Nat × Nat :=
  if i ≤ 7 then (8, side - 1 - i) else (side - 15 + i, 8)

/-- The 30 format modules: copy A, then copy B (44_matrix.md R217). -/
def formatPlaces (side : Nat) : List (Nat × Nat) :=
  (List.range 15).map formatPosA ++ (List.range 15).map (formatPosB side)

/-- Step 4: reserve the format modules, light (44_matrix.md R217). -/
def reserveFormat (side : Nat) (m : Mx) : Mx :=
  (formatPlaces side).foldl (fun m p => Mx.put m p.1 p.2 ⟨false, .formatInfo⟩) m

/-- The module of version bit `i` in block A; block B is its transpose (45_mask.md R264). -/
def versionPosA (side i : Nat) : Nat × Nat := (i / 3, side - 11 + i % 3)

/-- The module of version bit `i` in block B (45_mask.md R264). -/
def versionPosB (side i : Nat) : Nat × Nat := (side - 11 + i % 3, i / 3)

/-- The 36 version modules: block A, then block B (44_matrix.md R218). -/
def versionPlaces (side : Nat) : List (Nat × Nat) :=
  (List.range 18).map (versionPosA side) ++ (List.range 18).map (versionPosB side)

/-- Step 5: reserve the version modules, light, for version 7 and up (44_matrix.md R218). -/
def reserveVersion (version : Nat) (m : Mx) : Mx :=
  if 7 ≤ version then
    (versionPlaces (sideOf version)).foldl (fun m p => Mx.put m p.1 p.2 ⟨false, .versionInfo⟩) m
  else m

/-- Step 6: the fixed dark module (44_matrix.md R220). -/
def putDark (side : Nat) (m : Mx) : Mx := Mx.put m (side - 8) 8 ⟨true, .formatInfo⟩

/-- The matrix `MXFUNC` builds, a function of the version alone (44_matrix.md R221). -/
def functionMatrix (version : Nat) : Mx :=
  let side := sideOf version
  putDark side (reserveVersion version (reserveFormat side (putAlignments version
    (putTimings side (putFinders side (blankMatrix side))))))

/-- The places of one strip, columns `right` and `right − 1`, upward or downward (44_matrix.md R222). -/
def stripPlaces (side right : Nat) (upward : Bool) : List (Nat × Nat) :=
  (if upward then (List.range side).reverse else List.range side).flatMap fun r =>
    [(r, right), (r, right - 1)]

/-- The strips from column `right` leftward, at most `fuel` of them; column 6 belongs to none
(44_matrix.md R222). -/
def strips (side : Nat) : Nat → Nat → Bool → List (Nat × Nat)
  | 0, _, _ => []
  | fuel + 1, right, upward =>
    if 1 ≤ right then
      let right := if right = 6 then 5 else right
      stripPlaces side right upward ++ strips side fuel (right - 2) (!upward)
    else []

/-- The zig-zag walk of the whole matrix but column 6 (44_matrix.md R222). -/
def walk (side : Nat) : List (Nat × Nat) := strips side side (side - 1) true

/-- `ORDER`: the data-tagged modules in the order they receive bits (44_matrix.md R222). -/
def placementOrder (m : Mx) (side : Nat) : List (Nat × Nat) :=
  (walk side).filter fun p => (Mx.at m p.1 p.2).tag == .data

/-- The stream's bits written to the modules of `ORDER`, 0 past the stream's end (44_matrix.md R223;
20_memory.md R95). -/
def placeStream (m : Mx) (side : Nat) (fin : List Byte) : Mx :=
  ((placementOrder m side).zipIdx).foldl
    (fun m p => Mx.putVal m p.1.1 p.1.2 (streamBit fin p.2)) m

/-- `MXFUNC` (44_matrix.md R221). -/
def State.buildFunction (s : State) : Except Cause State :=
  s.inPhase .coded (.ok { s with mx := functionMatrix s.version, phase := .laid })

/-- `MXDATA` (44_matrix.md R223). -/
def State.placeData (s : State) : Except Cause State :=
  s.inPhase .laid
    (.ok { s with mx := placeStream s.mx s.side s.fin, evalid := 0, phase := .placed })

/-- `MXFUNC` (44_matrix.md R221). -/
def execMxfunc (s : State) : Answer := s.perform s.buildFunction

/-- `MXDATA` (44_matrix.md R223). -/
def execMxdata (s : State) : Answer := s.perform s.placeData

end Sys2Proof.Machine
end

