-- ==== Sys2Proof/Machine/Mask.lean ====
section
/-! DEFINITION. The mask evaluator and selector: mask formulas, candidates, the four penalty rules, format
and version values, and the meanings of `MKEVAL`, `MKSEL`, `MKAPPLY`, `MKFMT`, `MKVER` (45_mask.md R250
to R265). -/

namespace Sys2Proof.Machine

/-- `mask(m, r, c)`: mask `m` inverts the module (45_mask.md R250). -/
def maskBit (m r c : Nat) : Bool :=
  match m with
  | 0 => (r + c) % 2 == 0
  | 1 => r % 2 == 0
  | 2 => c % 3 == 0
  | 3 => (r + c) % 3 == 0
  | 4 => (r / 2 + c / 3) % 2 == 0
  | 5 => (r * c) % 2 + (r * c) % 3 == 0
  | 6 => ((r * c) % 2 + (r * c) % 3) % 2 == 0
  | _ => ((r + c) % 2 + (r * c) % 3) % 2 == 0

/-- A mask inverts the value of a module tagged data and no other (45_mask.md R251). -/
def maskModule (m r c : Nat) (x : MxModule) : MxModule :=
  if x.tag = .data ∧ maskBit m r c then { x with val := !x.val } else x

/-- The matrix with a mask applied (45_mask.md R251, R259). -/
def maskMatrix (m : Nat) (mx : Mx) : Mx := Mx.mapModules (maskModule m) mx

/-- An array of values, what the penalty rules score (45_mask.md R252). -/
abbrev Grid := List (List Bool)

/-- `cand(m)`: the values of the matrix with mask `m` on its data modules (45_mask.md R252). -/
def candidate (m : Nat) (mx : Mx) : Grid := (maskMatrix m mx).map fun row => row.map fun x => x.val

/-- The columns of an array whose rows have `n` values. -/
def columnsOf (n : Nat) (g : Grid) : Grid := g.foldr (List.zipWith List.cons) (List.replicate n [])

/-- A maximal run of `run` equal values scores `run − 2` from five on (45_mask.md R253). -/
def runPenalty (run : Nat) : Nat := if 5 ≤ run then run - 2 else 0

/-- The runs of a line after `run` values equal to `prev` (45_mask.md R253). -/
def runsFrom (prev : Bool) (run : Nat) : List Bool → Nat
  | [] => runPenalty run
  | x :: xs => if x = prev then runsFrom prev (run + 1) xs else runPenalty run + runsFrom x 1 xs

/-- Rule (a) on one line (45_mask.md R253). -/
def lineRuns : List Bool → Nat
  | [] => 0
  | x :: xs => runsFrom x 1 xs

/-- `N1`: rule (a) on every row and every column (45_mask.md R253). -/
def penaltyRuns (g : Grid) : Nat :=
  (g.map lineRuns).sum + ((columnsOf g.length g).map lineRuns).sum

/-- The 2 × 2 windows of equal values of two rows (45_mask.md R254). -/
def rowPairBlocks : List Bool → List Bool → Nat
  | a :: b :: as, c :: d :: cs =>
    (if a = b ∧ a = c ∧ a = d then 1 else 0) + rowPairBlocks (b :: as) (d :: cs)
  | _, _ => 0

/-- The 2 × 2 windows of equal values (45_mask.md R254). -/
def countBlocks : Grid → Nat
  | a :: b :: rest => rowPairBlocks a b + countBlocks (b :: rest)
  | _ => 0

/-- `N2`: rule (b) (45_mask.md R254). -/
def penaltyBlocks (g : Grid) : Nat := 3 * countBlocks g

/-- The window `PA = 1,0,1,1,1,0,1,0,0,0,0` (45_mask.md R255). -/
def finderWindowA : List Bool := [true, false, true, true, true, false, true, false, false, false, false]

/-- The window `PB = 0,0,0,0,1,0,1,1,1,0,1` (45_mask.md R255). -/
def finderWindowB : List Bool := [false, false, false, false, true, false, true, true, true, false, true]

/-- The positions of a line where a finder-like window starts (45_mask.md R255). -/
def lineWindows : List Bool → Nat
  | [] => 0
  | x :: xs =>
    (if finderWindowA.isPrefixOf (x :: xs) ∨ finderWindowB.isPrefixOf (x :: xs) then 1 else 0) +
      lineWindows xs

/-- `N3`: rule (c) on every row and every column (45_mask.md R255). -/
def penaltyFinders (g : Grid) : Nat :=
  40 * ((g.map lineWindows).sum + ((columnsOf g.length g).map lineWindows).sum)

/-- The dark modules of an array (45_mask.md R256). -/
def darkCount (g : Grid) : Nat := (g.map fun row => row.count true).sum

/-- `N4`: rule (d), with `T = S²` (45_mask.md R256). -/
def penaltyBalance (g : Grid) : Nat :=
  let t := g.length * g.length
  10 * (absDiff (20 * darkCount g) (10 * t) / t)

/-- `score(g)` (45_mask.md, section 2). -/
def score (g : Grid) : Nat := penaltyRuns g + penaltyBlocks g + penaltyFinders g + penaltyBalance g

/-- The mask with the lowest score, the lowest id among equals (45_mask.md R258). -/
def bestMask (scores : Vector (BitVec 32) 8) : Fin 8 :=
  [1, 2, 3, 4, 5, 6, 7].foldl (fun best m => if scores[m] < scores[best] then m else best) (0 : Fin 8)

/-- `ECLFMT`, the 2-bit level field of the format information (45_mask.md R260). -/
def levelFormatBits : EcLevel → Nat
  | .L => 0b01
  | .M => 0b00
  | .Q => 0b11
  | .H => 0b10

/-- `n` steps of a BCH remainder register of `deg` bits (45_mask.md R260, R263). -/
def bchSteps (poly deg : Nat) : Nat → Nat → Nat
  | 0, rem => rem
  | n + 1, rem => bchSteps poly deg n ((rem <<< 1) ^^^ ((rem >>> (deg - 1)) * poly))

/-- `FMT`, the 15-bit format value (45_mask.md R260). -/
def formatValue (level : EcLevel) (mask : Nat) : Nat :=
  let d := (levelFormatBits level <<< 3) ||| mask
  ((d <<< 10) ||| bchSteps Config.formatPoly 10 10 d) ^^^ Config.formatXor

/-- `VINFO`, the 18-bit version value (45_mask.md R263). -/
def versionValue (version : Nat) : Nat :=
  (version <<< 12) ||| bchSteps Config.versionPoly 12 12 version

/-- Both copies of the format information written (45_mask.md R261, R262). -/
def writeFormat (side fmt : Nat) (m : Mx) : Mx :=
  (List.range 15).foldl
    (fun m i =>
      Mx.putVal (Mx.putVal m (formatPosA i).1 (formatPosA i).2 (fmt.testBit i))
        (formatPosB side i).1 (formatPosB side i).2 (fmt.testBit i)) m

/-- Both blocks of the version information written (45_mask.md R264, R265). -/
def writeVersion (side vinfo : Nat) (m : Mx) : Mx :=
  (List.range 18).foldl
    (fun m i =>
      Mx.putVal (Mx.putVal m (versionPosA side i).1 (versionPosA side i).2 (vinfo.testBit i))
        (versionPosB side i).1 (versionPosB side i).2 (vinfo.testBit i)) m

/-- `MKEVAL m` (45_mask.md R257). -/
def State.evaluateMask (s : State) (m : Nat) : Except Cause State :=
  s.inPhase .placed
    (if h : m < 8 then
      .ok
        { s with
          scores := s.scores.set m (BitVec.ofNat 32 (score (candidate m s.mx))) h
          evalid := evalidMark s.evalid m }
    else .error .range)

/-- `MKSEL` (45_mask.md R258). -/
def State.selectMask (s : State) : Except Cause State :=
  s.inPhase .placed
    (if evalidAll s.evalid then
      .ok { s with maskId := BitVec.ofNat 3 (bestMask s.scores).val, phase := .selected }
    else .error .seq)

/-- `MKAPPLY` (45_mask.md R259). -/
def State.applyMask (s : State) : Except Cause State :=
  s.inPhase .selected (.ok { s with mx := maskMatrix s.maskId.toNat s.mx, phase := .masked })

/-- `MKFMT` (45_mask.md R262). -/
def State.putFormat (s : State) : Except Cause State :=
  s.inPhase .masked
    (.ok
      { s with
        mx := writeFormat s.side (formatValue s.cfg.ecLevel s.maskId.toNat) s.mx
        phase := .formatted })

/-- `MKVER` (45_mask.md R265). -/
def State.putVersion (s : State) : Except Cause State :=
  s.inPhase .formatted
    (.ok
      { s with
        mx := if 7 ≤ s.version then writeVersion s.side (versionValue s.version) s.mx else s.mx
        phase := .done })

/-- `MKEVAL m` (45_mask.md R257). -/
def execMkeval (m : Index) (s : State) : Answer := s.perform (s.evaluateMask m.toNat)

/-- `MKSEL` (45_mask.md R258). -/
def execMksel (s : State) : Answer := s.perform s.selectMask

/-- `MKAPPLY` (45_mask.md R259). -/
def execMkapply (s : State) : Answer := s.perform s.applyMask

/-- `MKFMT` (45_mask.md R262). -/
def execMkfmt (s : State) : Answer := s.perform s.putFormat

/-- `MKVER` (45_mask.md R265). -/
def execMkver (s : State) : Answer := s.perform s.putVersion

end Sys2Proof.Machine
end

