-- ==== Sys2Proof/Machine/Packer.lean ====
section
/-! DEFINITION. The bit-stream packer: what each command does to the state, and the meanings
(42_bitstream.md R160 to R172). -/

namespace Sys2Proof.Machine

/-- `PUSHB val, width` (42_bitstream.md R160). -/
def State.pushBits (s : State) (val : BitVec 16) (width : BitVec 5) : Except Cause State :=
  s.inPhase .packing
    (if 16 < width.toNat then .error .range
      else if 2 ^ width.toNat ≤ val.toNat then .error .range
      else s.append val.toNat width.toNat)

/-- `PKMODE`: the mode indicator in 4 bits (42_bitstream.md R163). -/
def State.packMode (s : State) : Except Cause State :=
  s.inPhase .packing (s.append (modeIndicator s.cfg.mode) 4)

/-- `PKCNT`: the payload's unit count (42_bitstream.md R164). -/
def State.packCount (s : State) : Except Cause State :=
  s.inPhase .packing
    (let w := cntWidth s.cfg.mode s.version
     if 2 ^ w ≤ s.payLen.toNat then .error .count else s.append s.payLen.toNat w)

/-- The bits of a list of (value, width) groups, in order (42_bitstream.md R165 step 5). -/
def groupBits (gs : List (Nat × Nat)) : List Bool := gs.flatMap fun g => bitsOf g.1 g.2

/-- The sum of the widths of a list of groups (42_bitstream.md R165 step 3). -/
def groupWidth (gs : List (Nat × Nat)) : Nat := (gs.map fun g => g.2).sum

/-- `PKDATA`: validate the payload, then append all of its groups or none (42_bitstream.md R165). -/
def State.packData (s : State) : Except Cause State :=
  s.inPhase .packing
    (match readUnits s.cfg.mode s.pay (List.range s.payLen.toNat) with
      | .error c => .error c
      | .ok us =>
        let gs := groupsOf s.cfg.mode us
        if s.bbLen + groupWidth gs > s.capBits then .error .ovf
        else .ok { s with bb := s.bb ++ groupBits gs })

/-- `PKTERM`: at most four zero bits, as room remains (42_bitstream.md R170). -/
def State.packTerminator (s : State) : Except Cause State :=
  s.inPhase .packing (s.append 0 (min 4 (s.capBits - s.bbLen)))

/-- `PKALIGN`: zero bits up to the next byte boundary (42_bitstream.md R171). -/
def State.packAlign (s : State) : Except Cause State :=
  s.inPhase .packing (s.append 0 ((8 - s.bbLen % 8) % 8))

/-- The first `n` pad bytes, `0xEC` and `0x11` in turn (42_bitstream.md R172). -/
def padBits (n : Nat) : List Bool :=
  (List.range n).flatMap fun k => bitsOf (if k % 2 = 0 then Config.padEven else Config.padOdd) 8

/-- `PKPAD`: pad bytes until `BBLEN = CAPBITS` (42_bitstream.md R172). `CAPBITS` is a multiple of 8, so the
loop of an aligned buffer runs `(CAPBITS − BBLEN) / 8` times. -/
def State.packPad (s : State) : Except Cause State :=
  s.inPhase .packing
    (if s.bbLen % 8 ≠ 0 then .error .len
      else .ok { s with bb := s.bb ++ padBits ((s.capBits - s.bbLen) / 8) })

/-- `PUSHB val, width` (42_bitstream.md R160). -/
def execPushb (val : BitVec 16) (width : BitVec 5) (s : State) : Answer :=
  s.perform (s.pushBits val width)

/-- `PKMODE` (42_bitstream.md R163). -/
def execPkmode (s : State) : Answer := s.perform s.packMode

/-- `PKCNT` (42_bitstream.md R164). -/
def execPkcnt (s : State) : Answer := s.perform s.packCount

/-- `PKDATA` (42_bitstream.md R165). -/
def execPkdata (s : State) : Answer := s.perform s.packData

/-- `PKTERM` (42_bitstream.md R170). -/
def execPkterm (s : State) : Answer := s.perform s.packTerminator

/-- `PKALIGN` (42_bitstream.md R171). -/
def execPkalign (s : State) : Answer := s.perform s.packAlign

/-- `PKPAD` (42_bitstream.md R172). -/
def execPkpad (s : State) : Answer := s.perform s.packPad

end Sys2Proof.Machine
end

