-- ==== Sys2Proof/Machine/ReedSolomon.lean ====
section
/-! DEFINITION. The Reed-Solomon encoder: generator polynomials, the division, the block split, the
interleave, and the meanings of `RSGEN` and `ECC` (43_reed_solomon.md R190 to R199). Polynomials are
lists of coefficients, highest degree first (R191). -/

namespace Sys2Proof.Machine

/-- Multiply a polynomial by `(x + r)` (43_reed_solomon.md R190). -/
def mulRoot (g : List Byte) (r : Byte) : List Byte :=
  List.zipWith gfAdd (g ++ [0]) (0 :: g.map fun x => gfMul x r)

/-- `rs_generator(n)`, the product of `(x + αⁱ)` for `i < n` (43_reed_solomon.md R190). -/
def rsGenerator : Nat → List Byte
  | 0 => [1]
  | n + 1 => mulRoot (rsGenerator n) (gfExp n)

/-- One step of the division register: `g` holds `G[1..n]`, `rem` the `n` bytes of the register, `d` the
next codeword (43_reed_solomon.md R192). -/
def remStep (g rem : List Byte) (d : Byte) : List Byte :=
  let f := gfAdd d (rem.headD 0)
  List.zipWith (fun r c => gfAdd r (gfMul c f)) (rem.tail ++ [0]) g

/-- `rs_remainder(d, n)` (43_reed_solomon.md R192). -/
def rsRemainder (d : List Byte) (n : Nat) : List Byte :=
  d.foldl (remStep (rsGenerator n).tail) (List.replicate n 0)

/-- The lengths of the blocks, short blocks first (43_reed_solomon.md R194). -/
def blockLengths (b : BlockInfo) : List Nat := List.replicate b.n1 b.k1 ++ List.replicate b.n2 (b.k1 + 1)

/-- Cut a sequence into consecutive pieces of the given lengths (43_reed_solomon.md R194). -/
def splitBlocks : List Nat → List Byte → List (List Byte)
  | [], _ => []
  | n :: ns, d => d.take n :: splitBlocks ns (d.drop n)

/-- `n` rounds, each taking the next element of every sequence that still has one, in order
(43_reed_solomon.md R195). -/
def roundRobin (n : Nat) (seqs : List (List Byte)) : List Byte :=
  (List.range n).flatMap fun j => seqs.filterMap fun q => q[j]?

/-- The rounds of data codewords: `j` to `K1`, inclusive when there are long blocks (43_reed_solomon.md
R195). -/
def dataRounds (b : BlockInfo) : Nat := if 0 < b.n2 then b.k1 + 1 else b.k1

/-- The final interleaved stream of a sequence of data codewords (43_reed_solomon.md R194, R195). -/
def codewordStream (b : BlockInfo) (dcw : List Byte) : List Byte :=
  let blks := splitBlocks (blockLengths b) dcw
  roundRobin (dataRounds b) blks ++ roundRobin b.ecLen (blks.map fun d => rsRemainder d b.ecLen)

/-- `RSGEN n` (43_reed_solomon.md R193). -/
def State.loadGenerator (s : State) (n : Index) : Except Cause State :=
  if n.toNat < 1 ∨ 30 < n.toNat then .error .range else .ok { s with gen := rsGenerator n.toNat }

/-- `ECC` (43_reed_solomon.md R196). -/
def State.encodeBlocks (s : State) : Except Cause State :=
  s.inPhase .packing
    (if s.bbLen ≠ 8 * s.dcap then .error .len
      else .ok
        { s with
          fin := codewordStream s.blocks (codewordsOf s.bb)
          gen := rsGenerator s.blocks.ecLen
          phase := .coded })

/-- `RSGEN n` (43_reed_solomon.md R193). -/
def execRsgen (n : Index) (s : State) : Answer := s.perform (s.loadGenerator n)

/-- `ECC` (43_reed_solomon.md R196). -/
def execEcc (s : State) : Answer := s.perform s.encodeBlocks

end Sys2Proof.Machine
end

