-- ==== Sys2Proof/Machine/Control.lean ====
section
/-! DEFINITION. Meanings of the control and sequencing commands (46_control.md R271 to R275). -/

namespace Sys2Proof.Machine

/-- `NOP` (46_control.md R271). -/
def execNop (s : State) : Answer := s.perform (.ok s)

/-- `RESET`: the reset state, in the fault state too (46_control.md R273; 60_exceptions.md R313). -/
def execReset (s : State) : Answer := .next (s.restart.respond 0)

/-- `START` (46_control.md R272). -/
def State.startEncode (s : State) : Except Cause State :=
  s.inPhase .idle
    (if versionLegal s.version then
      .ok
        { s with
          bb := []
          fin := []
          evalid := 0
          scores := Vector.replicate 8 0
          maskId := 0
          phase := .packing }
    else .error .cfg)

/-- `START` (46_control.md R272). -/
def execStart (s : State) : Answer := s.perform s.startEncode

/-- `RELEASE` (46_control.md R274). -/
def State.releaseSymbol (s : State) : Except Cause State :=
  s.inPhase .done (.ok { s with phase := .idle })

/-- `RELEASE` (46_control.md R274). -/
def execRelease (s : State) : Answer := s.perform s.releaseSymbol

/-- The 22 constituents of `RUN`, in order (46_control.md R275). -/
def runStages : List (State → Except Cause State) :=
  [State.startEncode, State.packMode, State.packCount, State.packData, State.packTerminator,
   State.packAlign, State.packPad, State.encodeBlocks, State.buildFunction, State.placeData,
   (State.evaluateMask · 0), (State.evaluateMask · 1), (State.evaluateMask · 2),
   (State.evaluateMask · 3), (State.evaluateMask · 4), (State.evaluateMask · 5),
   (State.evaluateMask · 6), (State.evaluateMask · 7), State.selectMask, State.applyMask,
   State.putFormat, State.putVersion]

/-- Run stages in order, stopping at the first fault with what was done before it (46_control.md R275). -/
def runThrough : List (State → Except Cause State) → State → State
  | [], s => s.respond 0
  | f :: fs, s =>
    match f s with
    | .error c => s.raise c
    | .ok t => runThrough fs t

/-- `RUN` (46_control.md R275). -/
def execRun (s : State) : Answer :=
  if s.fault then .next s.ignored
  else if s.phase = .idle then .next (runThrough runStages s)
  else .next (s.raise .seq)

end Sys2Proof.Machine
end

