-- ==== Sys2Proof/Machine/Gf.lean ====
section
/-! DEFINITION. Meanings of the GF(256) commands (40_gf.md R130 to R133). -/

namespace Sys2Proof.Machine

/-- `GFEXP a`: respond `EXP[a]` (40_gf.md R130). -/
def execGfexp (a : Byte) (s : State) : Answer :=
  s.answer (.ok ((gfExp a.toNat).setWidth 32))

/-- `GFLOG a`: `Fault(LOG0)` at zero, else respond `LOG[a]` (40_gf.md R131). -/
def execGflog (a : Byte) (s : State) : Answer :=
  s.answer (if a = 0 then .error .log0 else .ok ((gfLog a).setWidth 32))

/-- `GFMUL a, b`: respond `gf_mul(a, b)` (40_gf.md R132). -/
def execGfmul (a b : Byte) (s : State) : Answer :=
  s.answer (.ok ((gfMul a b).setWidth 32))

/-- `GFADD a, b`: respond `gf_add(a, b)` (40_gf.md R133). -/
def execGfadd (a b : Byte) (s : State) : Answer :=
  s.answer (.ok ((gfAdd a b).setWidth 32))

end Sys2Proof.Machine
end

