-- ==== Sys2Proof/Machine/Dispatch.lean ====
section
/-! DEFINITION. The meaning of every command: one arm per constructor (30_encoding.md R113). -/

namespace Sys2Proof.Machine

/-- What a command does to the state. -/
def exec (i : Instr) (s : State) : Host.Outcome State Fault Refusal :=
  match i with
  | .nop => Sys2Proof.Machine.execNop s
  | .reset => Sys2Proof.Machine.execReset s
  | .start => Sys2Proof.Machine.execStart s
  | .release => Sys2Proof.Machine.execRelease s
  | .run => Sys2Proof.Machine.execRun s
  | .rdreg reg => Sys2Proof.Machine.execRdreg reg s
  | .wrreg reg val => Sys2Proof.Machine.execWrreg reg val s
  | .rdpay idx => Sys2Proof.Machine.execRdpay idx s
  | .wrpay idx val => Sys2Proof.Machine.execWrpay idx val s
  | .rdbit idx => Sys2Proof.Machine.execRdbit idx s
  | .rdcw idx => Sys2Proof.Machine.execRdcw idx s
  | .rdmod row col => Sys2Proof.Machine.execRdmod row col s
  | .rdgen idx => Sys2Proof.Machine.execRdgen idx s
  | .gfexp a => Sys2Proof.Machine.execGfexp a s
  | .gflog a => Sys2Proof.Machine.execGflog a s
  | .gfmul a b => Sys2Proof.Machine.execGfmul a b s
  | .gfadd a b => Sys2Proof.Machine.execGfadd a b s
  | .pushb val width => Sys2Proof.Machine.execPushb val width s
  | .pkmode => Sys2Proof.Machine.execPkmode s
  | .pkcnt => Sys2Proof.Machine.execPkcnt s
  | .pkdata => Sys2Proof.Machine.execPkdata s
  | .pkterm => Sys2Proof.Machine.execPkterm s
  | .pkalign => Sys2Proof.Machine.execPkalign s
  | .pkpad => Sys2Proof.Machine.execPkpad s
  | .rsgen n => Sys2Proof.Machine.execRsgen n s
  | .ecc => Sys2Proof.Machine.execEcc s
  | .mxfunc => Sys2Proof.Machine.execMxfunc s
  | .mxdata => Sys2Proof.Machine.execMxdata s
  | .mkeval m => Sys2Proof.Machine.execMkeval m s
  | .mksel => Sys2Proof.Machine.execMksel s
  | .mkapply => Sys2Proof.Machine.execMkapply s
  | .mkfmt => Sys2Proof.Machine.execMkfmt s
  | .mkver => Sys2Proof.Machine.execMkver s

end Sys2Proof.Machine
end

