-- ==== Sys2Proof/Machine/Step.lean ====
section
/-! DEFINITION. One step: take the host's oldest input and carry it out whole (00_scope.md R17;
20_memory.md R97, R100). -/

namespace Sys2Proof.Machine

/-- One step of the unit. With nothing presented it waits (70_reset_and_hazards.md R340). -/
def step (s : State) : Host.Outcome State Fault Refusal :=
  match s.pending with
  | [] => .next s.wait
  | .hardReset :: _ => .next s.taken.hardReset
  | .command w :: _ =>
    match decode w with
    | .ok i => exec i s.taken
    | .error _ => s.taken.illegal

/-- The state with a descriptor as the host's next input, in place of the one that was next. The unit
fetches nothing (10_state.md R21): this stands for the host presenting the command (log entry 1). -/
def State.withFetchWord (s : State) (nbits w : Nat) : State :=
  { s with pending := .command (BitVec.ofNat 64 (w % 2 ^ nbits)) :: s.pending.tail }

end Sys2Proof.Machine
end

