-- ==== Sys2Proof/Machine/Pseudo.lean ====
section
/-! DEFINITION. The pseudo-commands: names for lists of commands, not encodings (30_encoding.md R119). -/

namespace Sys2Proof.Machine

/-- `SETCFG version, level, mode` (30_encoding.md R119). -/
def setCfg (version : BitVec 6) (level : EcLevel) (mode : Mode) : List Instr :=
  [.wrreg 0x00 (Cfg.word { version := version, ecLevel := level, mode := mode })]

/-- `SETLEN n` (30_encoding.md R119). -/
def setLen (n : Nat) : List Instr := [.wrreg 0x01 (BitVec.ofNat 32 n)]

/-- `WRPAY` of consecutive units from index 0 (47_host_contract.md R290). -/
def loadUnits (units : List PayUnit) : List Instr :=
  units.zipIdx.map fun p => .wrpay (BitVec.ofNat 24 p.2) p.1

/-- `LOADTEXT`, the characters given by their ASCII codes (30_encoding.md R119). -/
def loadText (codes : List Nat) : List Instr :=
  loadUnits (codes.map fun c => BitVec.ofNat 16 c) ++ setLen codes.length

/-- `PACK` (30_encoding.md R119; 42_bitstream.md R174). -/
def pack : List Instr := [.pkmode, .pkcnt, .pkdata, .pkterm, .pkalign, .pkpad]

/-- `EVALALL` (30_encoding.md R119). -/
def evalAll : List Instr :=
  [.mkeval 0, .mkeval 1, .mkeval 2, .mkeval 3, .mkeval 4, .mkeval 5, .mkeval 6, .mkeval 7]

/-- `FINISH` (30_encoding.md R119). -/
def finish : List Instr := [.mksel, .mkapply, .mkfmt, .mkver]

/-- The 22 commands `RUN` stands for: `START; PACK; ECC; MXFUNC; MXDATA; EVALALL; FINISH`
(30_encoding.md R119; 46_control.md R275). -/
def encodeSequence : List Instr := [.start] ++ pack ++ [.ecc, .mxfunc, .mxdata] ++ evalAll ++ finish

/-- The operands of a command in the order of its assembler form (30_encoding.md R118). -/
def operandsOf : Instr → List Nat
  | .rdreg reg => [reg.toNat]
  | .wrreg reg val => [reg.toNat, val.toNat]
  | .rdpay idx => [idx.toNat]
  | .wrpay idx val => [idx.toNat, val.toNat]
  | .rdbit idx => [idx.toNat]
  | .rdcw idx => [idx.toNat]
  | .rdmod row col => [row.toNat, col.toNat]
  | .rdgen idx => [idx.toNat]
  | .gfexp a => [a.toNat]
  | .gflog a => [a.toNat]
  | .gfmul a b => [a.toNat, b.toNat]
  | .gfadd a b => [a.toNat, b.toNat]
  | .pushb val width => [val.toNat, width.toNat]
  | .rsgen n => [n.toNat]
  | .mkeval m => [m.toNat]
  | .nop | .reset | .start | .release | .run | .pkmode | .pkcnt | .pkdata | .pkterm | .pkalign | .pkpad
  | .ecc | .mxfunc | .mxdata | .mksel | .mkapply | .mkfmt | .mkver => []

/-- A command as the spec's listings write it: its mnemonic, then its operands in decimal, comma separated
(30_encoding.md R118). -/
def assembly (i : Instr) : String :=
  match operandsOf i with
  | [] => mnemonicOf i
  | ns => mnemonicOf i ++ " " ++ ", ".intercalate (ns.map Nat.repr)

end Sys2Proof.Machine
end

