-- ==== Sys2Proof/Machine/Contract.lean ====
section
/-! DEFINITION. The host's side of the contract: ModeSelector, SymbolPlanner and the `encode` call, software
outside the unit (00_scope.md R6; 47_host_contract.md R285 to R302). The text codecs are the platform's and
come in as an argument (R289; 93_implementation_defined.md U2). -/

namespace Sys2Proof.Machine

/-- How a call fails: the source's five errors, all raised by the host before any command
(47_host_contract.md R299), and the internal error with the `STATUS` word read when `RUN` faults after all
(R301). -/
inductive HostError where
  | modeError | errorLevelError | versionError | dataOverflowError | valueError
  | internalError (status : Data)
  deriving DecidableEq, Repr

/-! ## SymbolPlanner -/

/-- A payload of `n` units fits the symbol (11_rom_tables.md R74; 42_bitstream.md R174). -/
def payloadFits (version : Nat) (level : EcLevel) (mode : Mode) (n : Nat) : Bool :=
  n < 2 ^ cntWidth mode version &&
    4 + cntWidth mode version + payloadBits mode n ≤ 8 * dataCapacity version level

/-- The most units that `room` bits hold (11_rom_tables.md R74). -/
def unitsIn (mode : Mode) (room : Nat) : Nat :=
  match mode with
  | .numeric => 3 * (room / 10) + (if 7 ≤ room % 10 then 2 else if 4 ≤ room % 10 then 1 else 0)
  | .alphanumeric => 2 * (room / 11) + (if 6 ≤ room % 11 then 1 else 0)
  | .byte => room / 8
  | .kanji => room / 13

/-- `CHARCAP[version][level][mode]` (11_rom_tables.md R74). -/
def charCap (version : Nat) (level : EcLevel) (mode : Mode) : Nat :=
  min (2 ^ cntWidth mode version - 1)
    (unitsIn mode (8 * dataCapacity version level - (4 + cntWidth mode version)))

/-- The levels from the most to the least redundant (47_host_contract.md R293). -/
def levelsHtoL : List EcLevel := [.H, .Q, .M, .L]

/-- The versions in search order (47_host_contract.md R295). -/
def versionsUp : List Nat := (List.range 40).map fun k => k + 1

/-- The first candidate symbol that fits, or overflow (47_host_contract.md R297). -/
def firstFit (mode : Mode) (n : Nat) (candidates : List (Nat × EcLevel)) : Except HostError (Nat × EcLevel) :=
  match candidates.find? fun p => payloadFits p.1 p.2 mode n with
  | some p => .ok p
  | none => .error .dataOverflowError

/-- SymbolPlanner, the level already parsed (47_host_contract.md R291 to R297; the search order of R295
follows 90_conflicts.md C1). -/
def planSymbol (mode : Mode) (n : Nat) (version : Option Nat) (level : Option EcLevel) :
    Except HostError (Nat × EcLevel) :=
  match version, level with
  | some v, some l =>
    if versionLegal v then firstFit mode n [(v, l)] else .error .versionError
  | some v, none =>
    if versionLegal v then firstFit mode n (levelsHtoL.map fun l => (v, l)) else .error .versionError
  | none, some l => firstFit mode n (versionsUp.map fun v => (v, l))
  | none, none => firstFit mode n (versionsUp.flatMap fun v => levelsHtoL.map fun l => (v, l))

/-- The level an entry-point token names, case-insensitive (47_host_contract.md R291, R298). -/
def parseLevel (token : String) : Except HostError EcLevel :=
  if token = "L" ∨ token = "l" then .ok .L
  else if token = "M" ∨ token = "m" then .ok .M
  else if token = "Q" ∨ token = "q" then .ok .Q
  else if token = "H" ∨ token = "h" then .ok .H
  else .error .errorLevelError

/-- The letter of a level. -/
def levelLetter : EcLevel → String
  | .L => "L"
  | .M => "M"
  | .Q => "Q"
  | .H => "H"

/-- The designator of a symbol: version, hyphen, level letter (47_host_contract.md R292). -/
def designator (version : Nat) (level : EcLevel) : String :=
  Nat.repr version ++ "-" ++ levelLetter level

/-- The mode an entry-point name stands for (47_host_contract.md R288). -/
def parseMode (name : String) : Except HostError Mode :=
  if name = "numeric" then .ok .numeric
  else if name = "alphanumeric" then .ok .alphanumeric
  else if name = "binary" then .ok .byte
  else if name = "kanji" then .ok .kanji
  else .error .modeError

/-! ## ModeSelector -/

/-- What the entry point is given (47_host_contract.md R298, R290): text by character codes, raw bytes, or
a number. -/
inductive HostData where
  | text (codes : List Nat)
  | bytes (bs : List Byte)
  | number (n : Nat)
  deriving DecidableEq, Repr

/-- A named codec of the platform: "encode text to bytes under codec X, fail if any character is
unrepresentable" and "decode bytes from codec X" (47_host_contract.md R289). -/
structure Codec where
  encode : List Nat → Option (List Byte)
  decode : List Byte → Option (List Nat)

/-- The platform's text-codec facility: the codec a name stands for, none for an unknown name, and the
double-byte code of a character (47_host_contract.md R287, R289). -/
structure Platform where
  codec : String → Option Codec
  kanjiOf : Nat → Option PayUnit

/-- The default byte codec (47_host_contract.md R287). -/
def defaultEncoding : String := "Latin-1"

/-- The bytes of a text under a codec, only where they round-trip exactly (47_host_contract.md R289). -/
def codecBytes (codec : Codec) (codes : List Nat) : Option (List Byte) :=
  match codec.encode codes with
  | none => none
  | some bs => if codec.decode bs = some codes then some bs else none

/-- The decimal digits of a number by their character codes (47_host_contract.md R290). -/
def decimalCodes (n : Nat) : List Nat := (Nat.toDigits 10 n).map fun c => c.toNat

/-- A character is a decimal digit (47_host_contract.md R287). -/
def isDigitCode (c : Nat) : Bool := 0x30 ≤ c && c ≤ 0x39

/-- Every character transcodes to a valid double-byte code (47_host_contract.md R287). -/
def allKanji (p : Platform) (codes : List Nat) : Bool :=
  codes.all fun c =>
    match p.kanjiOf c with
    | none => false
    | some u => validUnit .kanji u

/-- Auto-detection, first match wins (47_host_contract.md R287). For empty input the source does not say
which mode: a free value (log entry 12). -/
def detectMode (p : Platform) (codes : List Nat) : Mode :=
  if codes = [] then Mode.ofCode Config.emptyInputMode
  else if codes.all isDigitCode then .numeric
  else if codes.all fun c => alnumSet.contains c then .alphanumeric
  else if allKanji p codes then .kanji
  else .byte

/-- A byte of the Payload as a payload unit, its value unchanged (47_host_contract.md R289, R290). -/
def byteUnits (bs : List Byte) : List PayUnit := bs.map fun b => b.setWidth 16

/-- The payload of a text under a named byte codec: `ValueError` where the name is unknown or the text does
not round-trip (47_host_contract.md R289). -/
def bytePayload (p : Platform) (encoding : String) (codes : List Nat) : Except HostError (List PayUnit) :=
  match p.codec encoding with
  | none => .error .valueError
  | some codec =>
    match codecBytes codec codes with
    | none => .error .valueError
    | some bs => .ok (byteUnits bs)

/-- The payload of a text in a given mode: strict validation, `ModeError` on a mismatch (47_host_contract.md
R288 to R290). -/
def payloadOf (p : Platform) (encoding : String) (mode : Mode) (codes : List Nat) :
    Except HostError (List PayUnit) :=
  match mode with
  | .numeric =>
    if codes.all isDigitCode then .ok (codes.map fun c => BitVec.ofNat 16 c) else .error .modeError
  | .alphanumeric =>
    if codes.all fun c => alnumSet.contains c then .ok (codes.map fun c => BitVec.ofNat 16 c)
    else .error .modeError
  | .kanji => if allKanji p codes then .ok (codes.filterMap p.kanjiOf) else .error .modeError
  | .byte => bytePayload p encoding codes

/-- What ModeSelector produces: mode, payload, and the byte encoding used if any (47_host_contract.md R286). -/
structure Selection where
  mode : Mode
  payload : List PayUnit
  encoding : Option String
  deriving DecidableEq, Repr

/-- ModeSelector on a text: the explicit or the detected mode, and the codec's name exactly when a codec was
applied (47_host_contract.md R286 to R290). -/
def selectText (p : Platform) (hint : Option Mode) (encoding : Option String) (codes : List Nat) :
    Except HostError Selection :=
  let mode := hint.getD (detectMode p codes)
  let name := encoding.getD defaultEncoding
  match payloadOf p name mode codes with
  | .error e => .error e
  | .ok us => .ok ⟨mode, us, if mode = .byte then some name else none⟩

/-- ModeSelector on raw bytes: always Byte mode, no codec applied, no encoding name attached
(47_host_contract.md R289); another explicit mode is a mismatch (R288, log entry 12). -/
def selectBytes (hint : Option Mode) (bs : List Byte) : Except HostError Selection :=
  match hint with
  | none | some .byte => .ok ⟨.byte, byteUnits bs, none⟩
  | some .numeric | some .alphanumeric | some .kanji => .error .modeError

/-- No byte-encoding name is given, or a known one (47_host_contract.md R289, R299). -/
def encodingKnown (p : Platform) : Option String → Bool
  | none => true
  | some name => (p.codec name).isSome

/-- ModeSelector (47_host_contract.md R286 to R290). An unknown encoding name is a `ValueError` whatever the
data (R299, log entry 12). -/
def selectMode (p : Platform) (hint : Option Mode) (encoding : Option String) (d : HostData) :
    Except HostError Selection :=
  if encodingKnown p encoding then
    match d with
    | .text codes => selectText p hint encoding codes
    | .bytes bs => selectBytes hint bs
    | .number n => selectText p hint encoding (decimalCodes n)
  else .error .valueError

/-! ## The entry point -/

/-- The arguments of the entry point (47_host_contract.md R298). -/
structure EncodeCall where
  data : HostData
  errorLevel : Option String
  version : Option Int
  mode : Option String
  encoding : Option String
  deriving DecidableEq, Repr

/-- What the host has decided before it issues a command: the selection, the version, the level. -/
structure Plan where
  selection : Selection
  version : Nat
  level : EcLevel
  deriving DecidableEq, Repr

/-- Parse an optional token at the boundary (47_host_contract.md R298). -/
def parseOptional {α : Type} (parse : String → Except HostError α) : Option String →
    Except HostError (Option α)
  | none => .ok none
  | some token => (parse token).map some

/-- Everything the host does before it issues a command, errors in this order: the mode's name, ModeSelector,
the level's token, SymbolPlanner (47_host_contract.md R285, R298, R301; log entry 12). A negative version is
outside 1 to 40 like 0. -/
def planCall (p : Platform) (c : EncodeCall) : Except HostError Plan := do
  let mode ← parseOptional parseMode c.mode
  let selection ← selectMode p mode c.encoding c.data
  let level ← parseOptional parseLevel c.errorLevel
  let symbol ← planSymbol selection.mode selection.payload.length (c.version.map Int.toNat) level
  return ⟨selection, symbol.1, symbol.2⟩

/-! ## The commands of a call, and their responses -/

/-- The state after the host has presented commands one after another (20_memory.md R100). -/
def State.after (s : State) (is : List Instr) : State :=
  is.foldl (fun s i => match exec i s with | .next t => t | .fault _ => s | .refused _ => s) s

/-- `OK` of the latest response (30_encoding.md R116). -/
def State.responseOk (s : State) : Bool :=
  match s.resp with
  | none => false
  | some r => r.ok

/-- `DATA` of the latest response (30_encoding.md R116). -/
def State.responseData (s : State) : Data :=
  match s.resp with
  | none => 0
  | some r => r.data

/-- Present commands one after another and keep the data of every response. -/
def askAll : List Instr → State → List Data × State
  | [], s => ([], s)
  | i :: is, s =>
    let rest := askAll is (s.after [i])
    ((s.after [i]).responseData :: rest.1, rest.2)

/-- Rows of commands, presented row by row. -/
def askRows : List (List Instr) → State → List (List Data) × State
  | [], s => ([], s)
  | row :: rows, s =>
    let first := askAll row s
    let rest := askRows rows first.2
    (first.1 :: rest.1, rest.2)

/-- The commands the host issues for one encode, up to `RUN`; the first is `RESET`, or `RELEASE` if a symbol
is held (47_host_contract.md R301). -/
def encodeCommands (opening : Instr) (mode : Mode) (units : List PayUnit) (version : Nat) (level : EcLevel) :
    List Instr :=
  [opening] ++ loadUnits units ++ setLen units.length ++ setCfg (BitVec.ofNat 6 version) level mode ++ [.run]

/-- The registers that hold the Symbol's `CFG`, `MASKID` and `SIDE` (41_config_access.md R148). -/
def symbolRegisters : List Instr := [.rdreg 0x00, .rdreg 0x05, .rdreg 0x07]

/-- The reads of the `S²` modules, row by row (41_config_access.md R148). -/
def moduleReads (side : Nat) : List (List Instr) :=
  (List.range side).map fun r =>
    (List.range side).map fun c => .rdmod (BitVec.ofNat 8 r) (BitVec.ofNat 8 c)

/-- The commands that read the finished symbol, then give it up (41_config_access.md R148;
47_host_contract.md R301). -/
def readCommands (side : Nat) : List Instr := symbolRegisters ++ (moduleReads side).flatten ++ [.release]

/-! ## The whole call -/

/-- The Symbol, the observable result of an encode (00_scope.md R18; 41_config_access.md R148). -/
structure Symbol where
  version : Nat
  ecLevel : EcLevel
  mode : Mode
  maskId : Nat
  side : Nat
  modules : List (List Bool)
  deriving DecidableEq, Repr

/-- The Symbol a state exposes: one only in phase DONE and without a fault (00_scope.md R18;
70_reset_and_hazards.md R352). -/
def State.symbol (s : State) : Option Symbol :=
  if s.phase = .done ∧ s.fault = false then
    some
      { version := s.version
        ecLevel := s.cfg.ecLevel
        mode := s.cfg.mode
        maskId := s.maskId.toNat
        side := s.side
        modules := s.mx.map fun row => row.map fun x => x.val }
  else none

/-- The first command of a call: `RELEASE` where the host chooses it and a symbol is held, else `RESET`
(47_host_contract.md R301). -/
def openingCommand (release : Bool) (s : State) : Instr :=
  if release ∧ s.symbol.isSome then .release else .reset

/-- Take the Symbol by reading registers and modules, and release it. Everything in it comes from responses
(47_host_contract.md R300, R301; 41_config_access.md R146, R148). -/
def takeSymbol (s : State) : Symbol × State :=
  let regs := askAll symbolRegisters s
  let cfg := Cfg.ofWord (regs.1.getD 0 0)
  let side := (regs.1.getD 2 0).toNat
  let rows := askRows (moduleReads side) regs.2
  ({ version := cfg.version.toNat
     ecLevel := cfg.ecLevel
     mode := cfg.mode
     maskId := (regs.1.getD 1 0).toNat
     side := side
     modules := rows.1.map fun row => row.map fun d => d.getLsbD 0 },
   rows.2.after [.release])

/-- `RUN` faulted: read `STATUS`, issue `RESET`, report an internal error (47_host_contract.md R301). -/
def reportFault (s : State) : HostError × State :=
  let t := s.after [.rdreg 0x02]
  (.internalError t.responseData, t.after [.reset])

/-- What the host does with the response of `RUN` (47_host_contract.md R301). -/
def concludeCall (s : State) : Except HostError Symbol × State :=
  if s.responseOk then
    let taken := takeSymbol s
    (.ok taken.1, taken.2)
  else
    let reported := reportFault s
    (.error reported.1, reported.2)

/-- The whole `encode` call over the unit's commands: "Returns a Symbol or fails" (47_host_contract.md R298,
R299, R301). A call that fails in planning issues no command. -/
def hostEncode (p : Platform) (release : Bool) (c : EncodeCall) (s : State) :
    Except HostError Symbol × State :=
  match planCall p c with
  | .error e => (.error e, s)
  | .ok plan =>
    concludeCall (s.after (encodeCommands (openingCommand release s) plan.selection.mode
      plan.selection.payload plan.version plan.level))

end Sys2Proof.Machine
end

