-- ==== Sys2Proof/Machine/Units.lean ====
section
/-! DEFINITION. Several units: independent copies that share only the ROM tables, stepped one at a time in
any order (60_exceptions.md R330; 20_memory.md R105). The number of units is the open parameter `N_UNITS`
of 92_eei_decisions.md D26: the list has any length. -/

namespace Sys2Proof.Machine

/-- The states of the units of a system, by unit number. -/
abbrev Units := List State

/-- One step of unit `k`; no other unit is touched (60_exceptions.md R330). -/
def stepUnit (us : Units) (k : Nat) : Units :=
  match us[k]? with
  | none => us
  | some s =>
    match step s with
    | .next t => us.set k t
    | .fault _ => us
    | .refused _ => us

end Sys2Proof.Machine
end

