-- ==== Sys2Proof/Safety.lean ====
section
/-! DEFINITION. The terms claims are made in: the phase table and the fault table of the spec, the invariant
of reachable states, the pipeline's meaning as one function, and polynomials. -/

namespace Sys2Proof.Machine

/-! ## The phase and fault tables -/

/-- The phase table: the phase check passes (46_control.md R270). -/
def acceptedIn : Instr → Phase → Bool
  | .start, p | .run, p | .wrreg _ _, p | .wrpay _ _, p => p == .idle
  | .release, p => p == .done
  | .rdbit _, p => 1 ≤ p.code
  | .rdcw _, p => 2 ≤ p.code
  | .rdmod _ _, p => 3 ≤ p.code
  | .pushb _ _, p | .pkmode, p | .pkcnt, p | .pkdata, p | .pkterm, p | .pkalign, p | .pkpad, p
  | .ecc, p => p == .packing
  | .mxfunc, p => p == .coded
  | .mxdata, p => p == .laid
  | .mkeval _, p | .mksel, p => p == .placed
  | .mkapply, p => p == .selected
  | .mkfmt, p => p == .masked
  | .mkver, p => p == .formatted
  | .nop, _ | .reset, _ | .rdreg _, _ | .rdpay _, _ | .rdgen _, _ | .gfexp _, _ | .gflog _, _
  | .gfmul _ _, _ | .gfadd _ _, _ | .rsgen _, _ => true

/-- The phase table: the phase after a successful command (46_control.md R270). -/
def phaseAfter : Instr → Phase → Phase
  | .reset, _ | .release, _ => .idle
  | .start, _ => .packing
  | .run, _ => .done
  | .ecc, _ => .coded
  | .mxfunc, _ => .laid
  | .mxdata, _ => .placed
  | .mksel, _ => .selected
  | .mkapply, _ => .masked
  | .mkfmt, _ => .formatted
  | .mkver, _ => .done
  | .nop, p | .rdreg _, p | .wrreg _ _, p | .rdpay _, p | .wrpay _ _, p | .rdbit _, p | .rdcw _, p
  | .rdmod _ _, p | .rdgen _, p | .gfexp _, p | .gflog _, p | .gfmul _ _, p | .gfadd _ _, p
  | .pushb _ _, p | .pkmode, p | .pkcnt, p | .pkdata, p | .pkterm, p | .pkalign, p | .pkpad, p
  | .rsgen _, p | .mkeval _, p => p

/-- The fault table, less `ILLEGAL`, which decoding raises (60_exceptions.md R315). -/
def faultCauses : Instr → List Cause
  | .nop | .reset | .gfexp _ | .gfmul _ _ | .gfadd _ _ => []
  | .start => [.seq, .cfg]
  | .release | .pkterm | .pkalign | .mxfunc | .mxdata | .mkapply | .mkfmt | .mkver | .mksel => [.seq]
  | .run => [.seq, .cfg, .count, .uninit, .unit, .ovf]
  | .rdreg _ | .rdgen _ | .rsgen _ => [.range]
  | .wrreg _ _ | .wrpay _ _ | .rdbit _ | .rdcw _ | .rdmod _ _ | .mkeval _ => [.seq, .range]
  | .rdpay _ => [.range, .uninit]
  | .gflog _ => [.log0]
  | .pushb _ _ => [.seq, .range, .ovf]
  | .pkmode => [.seq, .ovf]
  | .pkcnt => [.seq, .count, .ovf]
  | .pkdata => [.seq, .uninit, .unit, .ovf]
  | .pkpad | .ecc => [.seq, .len]

/-- The commands that only respond (20_memory.md R97). -/
def isRead : Instr → Bool
  | .rdreg _ | .rdpay _ | .rdbit _ | .rdcw _ | .rdmod _ _ | .rdgen _ | .gfexp _ | .gflog _ | .gfmul _ _
  | .gfadd _ _ | .nop => true
  | _ => false

/-! ## The invariant of reachable states -/

/-- What holds in every reachable state (10_state.md R41 with R25, R30, R31, R32, R33, R34, R35). -/
structure State.Inv (s : State) : Prop where
  /-- `PAY` is in canonical form, inside its 8192 entries (R30). -/
  payWf : s.pay.wf = true
  payDepth : ∀ e ∈ s.pay, e.1 < Config.payDepth
  /-- `CAUSE` is NONE exactly while `FAULT = 0` (R25). -/
  causeNone : s.fault = false ↔ s.cause = .none
  /-- R41 (b). -/
  versionOk : s.phase ≠ .idle → versionLegal s.version = true
  bbFits : s.phase ≠ .idle → s.bbLen ≤ s.capBits
  /-- R41 (c). -/
  bbFull : 2 ≤ s.phase.code → s.bbLen = s.capBits
  cwFull : 2 ≤ s.phase.code → s.cwLen = totalCodewords s.version
  /-- R41 (d). -/
  mxRows : 3 ≤ s.phase.code → s.mx.length = s.side
  mxCols : 3 ≤ s.phase.code → ∀ row ∈ s.mx, row.length = s.side
  mxTags : 3 ≤ s.phase.code → ∀ row ∈ s.mx, ∀ x ∈ row, x.tag ≠ .quiet
  /-- R41 (e). -/
  evalidClear : 1 ≤ s.phase.code → s.phase.code ≤ 3 → s.evalid = 0
  evalidFull : 5 ≤ s.phase.code → s.evalid = 0xFF#8
  /-- R41 (f). -/
  genMonic : s.gen.head? = some 1
  /-- The depths of the buffers (R31, R32, R34). -/
  bbDepth : s.bbLen ≤ Config.bbDepth
  finDepth : s.cwLen ≤ Config.finDepth
  genDepth : s.gen.length ≤ Config.genDepth
  /-- A score not marked in `EVALID` is 0 (R35). -/
  scoreClear : ∀ m : Fin 8, s.evalid.getLsbD m = false → s.scores[m] = 0

/-! ## The pipeline as one function -/

/-- The matrix in phase PLACED: function patterns and the stream (44_matrix.md R224 (f)). -/
def placedMatrix (version : Nat) (fin : List Byte) : Mx :=
  placeStream (functionMatrix version) (sideOf version) fin

/-- The matrix in phase FORMATTED (45_mask.md R259, R262). -/
def formattedMatrix (version : Nat) (level : EcLevel) (mask : Nat) (fin : List Byte) : Mx :=
  writeFormat (sideOf version) (formatValue level mask) (maskMatrix mask (placedMatrix version fin))

/-- The matrix in phase DONE (45_mask.md R265, R266 (g)). -/
def finalMatrix (version : Nat) (level : EcLevel) (mask : Nat) (fin : List Byte) : Mx :=
  if 7 ≤ version then
    writeVersion (sideOf version) (versionValue version) (formattedMatrix version level mask fin)
  else formattedMatrix version level mask fin

/-- What each buffer holds at each phase, as a function of the configuration and the packed bits: nothing
else can have an influence (43_reed_solomon.md R197 (e); 44_matrix.md R224 (f); 45_mask.md R266 (d), (g)). -/
structure State.Pipeline (s : State) : Prop where
  stream : 2 ≤ s.phase.code → s.fin = codewordStream s.blocks (codewordsOf s.bb)
  laid : s.phase = .laid → s.mx = functionMatrix s.version
  placed : s.phase = .placed ∨ s.phase = .selected → s.mx = placedMatrix s.version s.fin
  scored : 4 ≤ s.phase.code → ∀ m : Fin 8, s.evalid.getLsbD m = true →
    s.scores[m] = BitVec.ofNat 32 (score (candidate m (placedMatrix s.version s.fin)))
  chosen : 5 ≤ s.phase.code → s.maskId = BitVec.ofNat 3 (bestMask s.scores).val
  masked : s.phase = .masked → s.mx = maskMatrix s.maskId.toNat (placedMatrix s.version s.fin)
  formatted : s.phase = .formatted →
    s.mx = formattedMatrix s.version s.cfg.ecLevel s.maskId.toNat s.fin
  done : s.phase = .done → s.mx = finalMatrix s.version s.cfg.ecLevel s.maskId.toNat s.fin

/-! ## Sequences of commands and payloads -/

/-- Commands as the host presents them (30_encoding.md R115). -/
def commandInputs (is : List Instr) : List Input := is.map fun i => .command (encode i)

/-- Every unit of the payload is written and valid for the configured mode (70_reset_and_hazards.md
R343). -/
def State.payloadOk (s : State) : Prop :=
  ∀ i < s.payLen.toNat, ∃ u, s.pay.read i = some u ∧ validUnit s.cfg.mode u = true

/-- The units of a payload that is written (10_state.md R26, R30). -/
def State.payloadUnits (s : State) : List PayUnit :=
  (List.range s.payLen.toNat).map fun i => (s.pay.read i).getD 0

/-- The tag of the modules whose values a command may change (10_state.md R33). -/
def valueOwner : Instr → Option Tag
  | .mxdata | .mkapply => some .data
  | .mkfmt => some .formatInfo
  | .mkver => some .versionInfo
  | _ => none

/-- A line of runs of the given lengths, colours in turn (45_mask.md R253). -/
def alternating : Bool → List Nat → List Bool
  | _, [] => []
  | b, n :: ns => List.replicate n b ++ alternating (!b) ns

/-! ## Polynomials over GF(256), highest degree first (43_reed_solomon.md R191) -/

/-- Subtract `f` times a polynomial from the leading coefficients of another. -/
def subtractScaled : List Byte → Byte → List Byte → List Byte
  | g :: gs, f, c :: cs => gfAdd c (gfMul g f) :: subtractScaled gs f cs
  | _, _, cs => cs

/-- `k` steps of long division by the monic polynomial whose lower coefficients are `gs`. -/
def longDivide (gs : List Byte) : Nat → List Byte → List Byte
  | k + 1, c :: cs => longDivide gs k (subtractScaled gs c cs)
  | _, cs => cs

/-- The remainder of a polynomial modulo a monic one (43_reed_solomon.md R191). -/
def polyRemainder (g c : List Byte) : List Byte := longDivide g.tail (c.length + 1 - g.length) c

/-- The value of a polynomial at a point, by Horner's rule (43_reed_solomon.md R197 (b)). -/
def polyEval (c : List Byte) (y : Byte) : Byte := c.foldl (fun acc x => gfAdd (gfMul acc y) x) 0

/-- `a` multiplied by the polynomial `x` `k` times (11_rom_tables.md R60). -/
def xtimes : Nat → Byte → Byte
  | 0, a => a
  | k + 1, a => xtime (xtimes k a)

/-- The carry-less product of two bytes reduced modulo the field modulus: the sum of `a·xⁱ` over the bits
`i` of `b` (11_rom_tables.md R63). -/
def polyProduct (a b : Byte) : Byte :=
  (List.range 8).foldl (fun acc i => if b.getLsbD i then acc ^^^ xtimes i a else acc) 0

/-- The remainder of a polynomial over GF(2), written as a number, modulo one of degree `deg`, for numbers
below `2 ^ (deg + k)` (45_mask.md R260, R263). -/
def gf2Remainder (poly deg : Nat) : Nat → Nat → Nat
  | 0, n => n
  | k + 1, n => gf2Remainder poly deg k (if n.testBit (deg + k) then n ^^^ (poly <<< k) else n)

end Sys2Proof.Machine
end

