-- ==== Sys2Proof/Certificates/Slice0/Obligations.lean ====
section
/-! DEFINITION. The statements for the provers. A statement about a command gives the whole next state as an
update of the state before it, so it is the command's frame too: every field it does not name is unchanged. -/

open Sys2Proof Sys2Proof.Machine

/-! ## Encoding -/

/-- 30_encoding.md R115: encode is the inverse of decode. A descriptor is a command exactly when it is that
command's encoding, so no operand bit is dropped and no reserved bit is overlooked. -/
def Obligations.DecodeInvertsEncode : Prop :=
  ∀ (i : Instr) (w : Descriptor), decode w = .ok i ↔ w = encode i

/-- 30_encoding.md R111, R112, R113, R115: decoding is the look-up in the opcode map, and each operand is the number
its field of the descriptor spells. -/
def Obligations.DecodeFollowsOpcodeMap : Prop :=
  opcodeRows.length = 33 ∧
  (∀ (w : Descriptor) (i : Instr), decode w = .ok i →
    ∃ r ∈ opcodeRows, r.mnemonic = mnemonicOf i ∧ r.accepts w = true) ∧
  (∀ (w : Descriptor) (e : DecodeError), decode w = .error e → ∀ r ∈ opcodeRows, r.accepts w = false) ∧
  (∀ (w : Descriptor), ∀ r ∈ opcodeRows, ∀ r' ∈ opcodeRows,
    r.accepts w = true → r'.accepts w = true → r = r') ∧
  (∀ (w : Descriptor) (i : Instr), decode w = .ok i →
    match i with
    | .rdreg reg => reg.toNat = w.toNat / 2 ^ 32 % 2 ^ 8
    | .wrreg reg val => reg.toNat = w.toNat / 2 ^ 32 % 2 ^ 8 ∧ val.toNat = w.toNat % 2 ^ 32
    | .rdpay idx | .rdbit idx | .rdcw idx | .rdgen idx | .rsgen idx | .mkeval idx =>
      idx.toNat = w.toNat / 2 ^ 32 % 2 ^ 24
    | .wrpay idx val => idx.toNat = w.toNat / 2 ^ 32 % 2 ^ 24 ∧ val.toNat = w.toNat % 2 ^ 16
    | .rdmod row col => row.toNat = w.toNat / 2 ^ 40 % 2 ^ 8 ∧ col.toNat = w.toNat / 2 ^ 32 % 2 ^ 8
    | .gfexp a | .gflog a => a.toNat = w.toNat % 2 ^ 8
    | .gfmul a b | .gfadd a b => a.toNat = w.toNat % 2 ^ 8 ∧ b.toNat = w.toNat / 2 ^ 8 % 2 ^ 8
    | .pushb val width => width.toNat = w.toNat / 2 ^ 32 % 2 ^ 5 ∧ val.toNat = w.toNat % 2 ^ 16
    | .nop | .reset | .start | .release | .run | .pkmode | .pkcnt | .pkdata | .pkterm | .pkalign | .pkpad
    | .ecc | .mxfunc | .mxdata | .mksel | .mkapply | .mkfmt | .mkver => w.toNat % 2 ^ 56 = 0)

/-- 30_encoding.md R113, R118: example words of the spec decode to the commands they stand for. -/
def Obligations.SampleWordsDecode : Prop :=
  decode 0x0000000000000000 = .ok .nop ∧ decode 0x0400000000000000 = .ok .run ∧
  decode 0x0900000000000181 = .ok (.wrreg 0 0x181) ∧ decode 0x0E000D0800000000 = .ok (.rdmod 13 8) ∧
  decode 0x120000000000CA53 = .ok (.gfmul 0x53 0xCA) ∧
  decode 0x200000040000000A = .ok (.pushb 0b1010 4) ∧ decode 0x3000000700000000 = .ok (.rsgen 7) ∧
  decode 0x4100000000000000 = .ok .mxdata ∧ decode 0x5000000600000000 = .ok (.mkeval 6) ∧
  decode 0x1000000100000008 = .error (.reservedBits 0x10) ∧
  decode 0x5500000000000000 = .error (.unassignedOpcode 0x55)

/-- 30_encoding.md R114: which descriptors are illegal, and what an illegal one does. -/
def Obligations.IllegalDescriptorFaults : Prop :=
  (∀ op : BitVec 8,
    (∀ (a : BitVec 24) (b : BitVec 32), decode (descriptor op a b) = .error (.unassignedOpcode op)) ↔
      ((0x05 ≤ op.toNat ∧ op.toNat ≤ 0x07) ∨ (0x14 ≤ op.toNat ∧ op.toNat ≤ 0x1F) ∨
        (0x27 ≤ op.toNat ∧ op.toNat ≤ 0x2F) ∨ (0x32 ≤ op.toNat ∧ op.toNat ≤ 0x3F) ∨
        (0x42 ≤ op.toNat ∧ op.toNat ≤ 0x4F) ∨ 0x55 ≤ op.toNat)) ∧
  (∀ w : Descriptor, (∃ e, decode w = .error e) ↔ ∀ r ∈ opcodeRows, w &&& r.mask ≠ r.pattern) ∧
  (∀ (s : State) (w : Descriptor) (rest : List Input), s.pending = .command w :: rest →
    (∀ r ∈ opcodeRows, w &&& r.mask ≠ r.pattern) →
    (s.fault = false → step s =
      .next { s with pending := rest, fault := true, cause := .illegal, resp := some ⟨false, 0⟩ }) ∧
    (s.fault = true → step s = .next { s with pending := rest, resp := some ⟨false, 0⟩ }))

/-- 00_scope.md R17, 30_encoding.md R115, with log entry 1: a step runs exactly the command that the host's
oldest input decodes to, on the state without that input. -/
def Obligations.StepRunsDecodedInstruction : Prop :=
  ∀ (s : State) (w : Descriptor) (rest : List Input) (i : Instr),
    s.pending = .command w :: rest → decode w = .ok i → step s = exec i { s with pending := rest }

/-! ## Reset, responses, faults -/

/-- 70_reset_and_hazards.md R340: hardware reset and `RESET` have the same effect, the state of R40; then the
unit waits. Two clauses are the model's inference: that a waiting step changes nothing but the model's own `resp`
is log entry 2, and that a hardware reset has no response and that either reset keeps `pending` is log entry 14. -/
def Obligations.ResetHasOneEffect : Prop :=
  (∀ (s : State) (rest : List Input), s.pending = .hardReset :: rest →
    step s = .next { State.reset with pending := rest }) ∧
  (∀ s : State, exec .reset s =
    .next { State.reset with pending := s.pending, resp := some ⟨true, 0⟩ }) ∧
  (State.reset.cfg = ⟨0, .L, .numeric⟩ ∧ State.reset.cfg.word = 0 ∧ State.reset.payLen = 0 ∧
    State.reset.phase = .idle ∧ State.reset.fault = false ∧ State.reset.cause = .none ∧
    State.reset.evalid = 0 ∧ State.reset.statusWord = 0 ∧ State.reset.bbLen = 0 ∧ State.reset.cwLen = 0 ∧
    State.reset.maskId = 0 ∧ State.reset.genLen = 0 ∧ State.reset.gen = [1] ∧
    (∀ m : Fin 8, State.reset.scores[m] = 0) ∧ ∀ i, State.reset.pay.read i = none) ∧
  (∀ s : State, s.pending = [] → step s = .next { s with resp := none })

/-- 10_state.md R40: what the host can read after a reset, by either way: every register 0, `GEN[0] = 1`, and
nothing of any buffer. -/
def Obligations.ResetLeavesNothingReadable : Prop :=
  ∀ s t : State,
    (exec .reset s = .next t ∨ ∃ rest, s.pending = .hardReset :: rest ∧ step s = .next t) →
    (∀ reg, assignedReg reg = true → exec (.rdreg reg) t = .next { t with resp := some ⟨true, 0⟩ }) ∧
    exec (.rdgen 0) t = .next { t with resp := some ⟨true, 1⟩ } ∧
    (∀ idx : Index, idx ≠ 0 → exec (.rdgen idx) t = .next (t.raise .range)) ∧
    (∀ idx : Index, idx.toNat < 8192 → exec (.rdpay idx) t = .next (t.raise .uninit)) ∧
    (∀ idx : Index, exec (.rdbit idx) t = .next (t.raise .seq) ∧ exec (.rdcw idx) t = .next (t.raise .seq)) ∧
    (∀ row col, exec (.rdmod row col) t = .next (t.raise .seq))

/-- 30_encoding.md R116, 70_reset_and_hazards.md R350: every command terminates and gives exactly one response;
`OK = 0` exactly when it faults or is ignored, and then the data is 0. -/
def Obligations.EveryCommandResponds : Prop :=
  ∀ (i : Instr) (s : State), ∃ (t : State) (r : Response),
    exec i s = .next t ∧ t.resp = some r ∧ t.pending = s.pending ∧
    (r.ok = false → r.data = 0) ∧
    (isRead i = false → r.data = 0) ∧
    (s.fault = false → (r.ok = true ↔ t.fault = false)) ∧
    (s.fault = true → r.ok = true → i = .reset ∨ ∃ reg, i = .rdreg reg)

/-- 60_exceptions.md R313: in the fault state exactly `RESET` and `RDREG` of an assigned register act. -/
def Obligations.FaultStateIgnoresCommands : Prop :=
  ∀ s : State, s.fault = true →
    exec .reset s = .next { State.reset with pending := s.pending, resp := some ⟨true, 0⟩ } ∧
    (∀ reg, assignedReg reg = true ↔ (s.regValue reg).isSome = true) ∧
    (∀ reg v, s.regValue reg = some v → exec (.rdreg reg) s = .next { s with resp := some ⟨true, v⟩ }) ∧
    (∀ i, i ≠ .reset → (∀ reg, assignedReg reg = true → i ≠ .rdreg reg) →
      exec i s = .next { s with resp := some ⟨false, 0⟩ }) ∧
    (∀ (w : Descriptor) (e : DecodeError) (rest : List Input), s.pending = .command w :: rest →
      decode w = .error e → step s = .next { s with pending := rest, resp := some ⟨false, 0⟩ })

/-- 60_exceptions.md R312: a fault changes `FAULT` and `CAUSE` and nothing else; in `RUN` it is the faulting
constituent that has no effect, and those before it keep theirs. -/
def Obligations.FaultEntryIsPrecise : Prop :=
  ∀ (i : Instr) (s t : State), s.fault = false → exec i s = .next t → t.fault = true →
    t.cause ≠ .none ∧ t.resp = some ⟨false, 0⟩ ∧
    (i ≠ .run ∨ s.phase ≠ .idle →
      t = { s with fault := true, cause := t.cause, resp := some ⟨false, 0⟩ }) ∧
    (i = .run → s.phase = .idle → ∃ (k : Nat) (j : Instr) (u : State),
      encodeSequence[k]? = some j ∧ u = s.after (encodeSequence.take k) ∧ u.fault = false ∧
      exec j u = .next t ∧
      t = { u with fault := true, cause := t.cause, resp := some ⟨false, 0⟩ })

/-- 60_exceptions.md R315, 30_encoding.md R112: a command raises only the causes the fault table lists for it,
and one with an operand outside its legal range never completes. -/
def Obligations.FaultsFollowFaultTable : Prop :=
  ∀ (i : Instr) (s t : State), s.Inv → s.fault = false → exec i s = .next t →
    (t.fault = true → t.cause ∈ faultCauses i) ∧
    (wellFormed i = false → t.fault = true)

/-- 46_control.md R270: the phase table. -/
def Obligations.PhaseTableHolds : Prop :=
  (∀ (s : State) (reg : BitVec 8) (val : Data), s.fault = false → 1 < reg.toNat →
    exec (.wrreg reg val) s = .next (s.raise .range)) ∧
  (∀ (i : Instr) (s : State), s.fault = false → acceptedIn i s.phase = false →
    (∀ reg val, i = .wrreg reg val → reg.toNat ≤ 1) → exec i s = .next (s.raise .seq)) ∧
  (∀ (i : Instr) (s t : State), s.fault = false → acceptedIn i s.phase = true → exec i s = .next t →
    (t.fault = false → t.phase = phaseAfter i s.phase) ∧
    (t.fault = true → i ≠ .run → t.phase = s.phase) ∧
    (t.fault = true → t.cause = .seq → i = .mksel ∧ s.evalid ≠ 0xFF#8)) ∧
  (∀ (i : Instr) (s t : State), exec i s = .next t → t.phase = .idle → s.phase ≠ .idle →
    i = .reset ∨ (i = .release ∧ s.phase = .done))

/-- 10_state.md R23, R26, R30: between `START` and the next IDLE nothing but `RESET` changes the configuration or
the payload, and in IDLE only their own write commands do. -/
def Obligations.ConfigurationFrozen : Prop :=
  ∀ (i : Instr) (s t : State), exec i s = .next t → i ≠ .reset →
    (t.cfg ≠ s.cfg → s.phase = .idle ∧ s.fault = false ∧ ∃ val, i = .wrreg 0 val) ∧
    (t.payLen ≠ s.payLen → s.phase = .idle ∧ s.fault = false ∧ ∃ val, i = .wrreg 1 val) ∧
    (t.pay ≠ s.pay → s.phase = .idle ∧ s.fault = false ∧
      ∃ idx val, i = .wrpay idx val ∧ t.pay = s.pay.write idx.toNat val)

/-- 20_memory.md R97: a read changes no state unless it faults, and repeating it gives the same response. -/
def Obligations.ReadsChangeNothing : Prop :=
  ∀ (i : Instr) (s t : State), isRead i = true → exec i s = .next t → t.fault = s.fault →
    t = { s with resp := t.resp } ∧ exec i t = .next t

/-- 10_state.md R33, 44_matrix.md R224 (a): tags are written by `MXFUNC` alone, and the tag governs which command
may change a module's value. -/
def Obligations.TagGovernsOverwriting : Prop :=
  ∀ (i : Instr) (s t : State), s.Inv → s.Pipeline → exec i s = .next t →
    i ≠ .mxfunc → i ≠ .run → i ≠ .reset → ∀ r c,
      (t.mx.at r c).tag = (s.mx.at r c).tag ∧
      ((t.mx.at r c).val ≠ (s.mx.at r c).val → valueOwner i = some (s.mx.at r c).tag)

/-! ## Bits and codewords -/

/-- 42_bitstream.md R161, 20_memory.md R93: what `append` does, and that nothing else touches the bits that are
there. -/
def Obligations.AppendIsAllOrNothing : Prop :=
  (∀ (s : State) (v w : Nat), v < 2 ^ w →
    (s.capBits < s.bbLen + w → s.append v w = .error .ovf) ∧
    (s.bbLen + w ≤ s.capBits → ∃ t, s.append v w = .ok t ∧ t = { s with bb := t.bb } ∧
      t.bbLen = s.bbLen + w ∧ (∀ i < s.bbLen, t.bb[i]? = s.bb[i]?) ∧
      (∀ j < w, t.bb[s.bbLen + j]? = some (v.testBit (w - 1 - j))) ∧
      numOf (t.bb.drop s.bbLen) = v)) ∧
  (∀ (i : Instr) (s t : State), exec i s = .next t → i ≠ .start → i ≠ .run → i ≠ .reset → s.bb <+: t.bb)

/-- 20_memory.md R94, R95: codewords from bits, and bits from codewords. -/
def Obligations.CodewordsAndBitsAgree : Prop :=
  (∀ s : State, s.Inv → 2 ≤ s.phase.code → (codewordsOf s.bb).length = s.dcap ∧
    ∀ k < s.dcap, ((codewordsOf s.bb).getD k 0).toNat =
      ((List.range 8).map fun j => (s.bb.getD (8 * k + j) false).toNat * 2 ^ (7 - j)).sum) ∧
  codewordsOf (bitsOf 0xEC 8) = [0xEC] ∧
  (∀ (fin : List Byte) (i : Nat),
    (i < 8 * fin.length → (streamBit fin i).toNat = (fin.getD (i / 8) 0).toNat >>> (7 - i % 8) % 2) ∧
    (8 * fin.length ≤ i → streamBit fin i = false)) ∧
  (∀ (bits : List Bool) (i : Nat), i < 8 * (bits.length / 8) →
    streamBit (codewordsOf bits) i = bits.getD i false)

/-! ## Control and sequencing -/

/-- 46_control.md R271: `NOP`. -/
def Obligations.NopDoesNothing : Prop :=
  (∀ s : State, s.fault = false → exec .nop s = .next { s with resp := some ⟨true, 0⟩ }) ∧
  (∀ s : State, s.fault = true → exec .nop s = .next { s with resp := some ⟨false, 0⟩ }) ∧
  (∀ (a : BitVec 24) (b : BitVec 32), decode (descriptor 0x00 a b) =
    if a = 0 ∧ b = 0 then .ok .nop else .error (.reservedBits 0x00)) ∧
  decode 0 = .ok .nop

/-- 46_control.md R272, R274: `START` begins an encode with the configuration as it stands; `RELEASE` gives the
symbol up and keeps every other field. -/
def Obligations.StartAndRelease : Prop :=
  (∀ s : State, s.fault = false → s.phase = .idle → 1 ≤ s.version → s.version ≤ 40 →
    exec .start s = .next { s with
      bb := [], fin := [], evalid := 0, scores := Vector.replicate 8 0, maskId := 0, phase := .packing,
      resp := some ⟨true, 0⟩ }) ∧
  (∀ s : State, s.fault = false → s.phase = .idle → (s.version = 0 ∨ 40 < s.version) →
    exec .start s = .next (s.raise .cfg)) ∧
  (∀ s : State, s.fault = false → s.phase ≠ .idle → exec .start s = .next (s.raise .seq)) ∧
  (∀ s : State, s.fault = false → s.phase = .done →
    exec .release s = .next { s with phase := .idle, resp := some ⟨true, 0⟩ }) ∧
  (∀ s : State, s.fault = false → s.phase ≠ .done → exec .release s = .next (s.raise .seq))

/-- 46_control.md R275, 42_bitstream.md R174: `RUN` completes on every payload that is written, valid and fits,
and leaves the finished symbol. -/
def Obligations.RunCompletes : Prop :=
  ∀ s : State, s.fault = false → s.phase = .idle → versionLegal s.version = true → s.payloadOk →
    payloadFits s.version s.cfg.ecLevel s.cfg.mode s.payLen.toNat = true →
    ∃ t, exec .run s = .next t ∧
      t = { s with
        phase := .done, bb := t.bb, fin := t.fin, gen := t.gen, mx := t.mx, evalid := 0xFF#8,
        scores := t.scores, maskId := t.maskId, resp := some ⟨true, 0⟩ } ∧
      (∃ z k, t.bb = bitsOf (modeIndicator s.cfg.mode) 4 ++
        bitsOf s.payLen.toNat (cntWidth s.cfg.mode s.version) ++
        groupBits (groupsOf s.cfg.mode s.payloadUnits) ++ List.replicate z false ++ padBits k ∧ z < 12) ∧
      t.bbLen = s.capBits ∧
      t.fin = codewordStream s.blocks (codewordsOf t.bb) ∧ t.gen = rsGenerator s.blocks.ecLen ∧
      (∀ m : Fin 8, t.scores[m] =
        BitVec.ofNat 32 (score (candidate m (placedMatrix s.version t.fin)))) ∧
      t.maskId = BitVec.ofNat 3 (bestMask t.scores).val ∧
      t.mx = finalMatrix s.version s.cfg.ecLevel t.maskId.toNat t.fin

/-- 46_control.md R275: `RUN` leaves the state the host would reach by presenting the 22 commands one by one,
whether they succeed or one of them faults. -/
def Obligations.RunIsTheCommandSequence : Prop :=
  ∀ s : State, s.pending = [] → ∃ t, exec .run s = .next t ∧
    Host.Core.run Sys2Proof.core 22 { s with pending := commandInputs encodeSequence } = .next t

/-- 46_control.md R275, 60_exceptions.md R313: a `RUN` that faults stops where its constituent stops, and no command
but `RESET` can make a symbol readable after it. -/
def Obligations.FaultingRunLeavesNoSymbol : Prop :=
  ∀ s t : State, s.fault = false → s.phase = .idle → exec .run s = .next t → t.fault = true →
    ((t.cause = .cfg ∧ t.phase = .idle ∧ versionLegal s.version = false) ∨
      (t.cause = .count ∧ t.phase = .packing ∧ t.bbLen = 4) ∨
      ((t.cause = .uninit ∨ t.cause = .unit ∨ t.cause = .ovf) ∧ t.phase = .packing ∧
        t.bbLen = 4 + cntWidth s.cfg.mode s.version)) ∧
    t.symbol = none ∧
    ∀ is : List Instr, .reset ∉ is → (t.after is).symbol = none ∧ (t.after is).phase = t.phase

/-- 00_scope.md R19, 70_reset_and_hazards.md R344: an encode repeated with the same configuration and payload
leaves the same state to the last bit. -/
def Obligations.RunReleaseRunRepeats : Prop :=
  ∀ s t : State, s.fault = false → s.phase = .idle → exec .run s = .next t → t.fault = false →
    ∃ u, exec .release t = .next u ∧ u.phase = .idle ∧ exec .run u = .next t

/-! ## Configuration and buffer access -/

/-- 10_state.md R22, R28, 41_config_access.md R140: what `RDREG` responds for every register, field by field, in
the fault state too. -/
def Obligations.RegisterWords : Prop :=
  ∀ s : State,
    let reads (reg : BitVec 8) (n : Nat) : Prop :=
      exec (.rdreg reg) s = .next { s with resp := some ⟨true, BitVec.ofNat 32 n⟩ }
    let view (n : Nat) : Nat := if 1 ≤ s.version ∧ s.version ≤ 40 then n else 0
    reads 0x00 (s.version + 2 ^ 6 * s.cfg.ecLevel.code.toNat + 2 ^ 8 * s.cfg.mode.code.toNat) ∧
    reads 0x01 s.payLen.toNat ∧
    reads 0x02 (s.phase.code + 2 ^ 4 * s.fault.toNat + 2 ^ 8 * s.cause.code + 2 ^ 16 * s.evalid.toNat) ∧
    reads 0x03 s.bb.length ∧
    reads 0x04 s.fin.length ∧
    reads 0x05 s.maskId.toNat ∧
    reads 0x06 (s.gen.length - 1) ∧
    reads 0x07 (view (4 * s.version + 17)) ∧
    reads 0x08 (view (s.blocks.n1 * s.blocks.k1 + s.blocks.n2 * (s.blocks.k1 + 1))) ∧
    reads 0x09 (view (nData s.version / 8)) ∧
    reads 0x0A (view (s.blocks.ecLen + 2 ^ 5 * s.blocks.n1 + 2 ^ 12 * s.blocks.k1 + 2 ^ 20 * s.blocks.n2)) ∧
    reads 0x0B (view (cntWidth s.cfg.mode s.version)) ∧
    (∀ m : Fin 8, reads (BitVec.ofNat 8 (0x10 + m.val)) s.scores[m].toNat) ∧
    (∀ reg, assignedReg reg = false → s.fault = false → exec (.rdreg reg) s = .next (s.raise .range))

/-- 41_config_access.md R141, 10_state.md R23, R26: what `WRREG` writes, that it reads back, and when it faults. -/
def Obligations.WriteRegister : Prop :=
  ∀ (s : State) (val : Data), s.fault = false →
    (s.phase = .idle → val.toNat < 2 ^ 10 → ∃ c : Cfg,
      exec (.wrreg 0x00 val) s = .next { s with cfg := c, resp := some ⟨true, 0⟩ } ∧
      c.version.toNat = val.toNat % 2 ^ 6 ∧ c.ecLevel.code.toNat = val.toNat / 2 ^ 6 % 4 ∧
      c.mode.code.toNat = val.toNat / 2 ^ 8 ∧ c.word = val) ∧
    (s.phase = .idle → val.toNat < 2 ^ 13 → ∃ n : BitVec 13,
      exec (.wrreg 0x01 val) s = .next { s with payLen := n, resp := some ⟨true, 0⟩ } ∧
      n.toNat = val.toNat) ∧
    (s.phase = .idle → 2 ^ 10 ≤ val.toNat → exec (.wrreg 0x00 val) s = .next (s.raise .range)) ∧
    (s.phase = .idle → 2 ^ 13 ≤ val.toNat → exec (.wrreg 0x01 val) s = .next (s.raise .range)) ∧
    (s.phase ≠ .idle → exec (.wrreg 0x00 val) s = .next (s.raise .seq) ∧
      exec (.wrreg 0x01 val) s = .next (s.raise .seq)) ∧
    (∀ reg : BitVec 8, 1 < reg.toNat → exec (.wrreg reg val) s = .next (s.raise .range))

/-- 41_config_access.md R142, R143, 10_state.md R36: `WRPAY` writes one entry and its written flag and leaves every
other; `RDPAY` responds what was written. -/
def Obligations.PayloadAccess : Prop :=
  (∀ (s : State) (idx : Index) (val : PayUnit), s.fault = false → s.phase = .idle → idx.toNat < 8192 →
    ∃ p, exec (.wrpay idx val) s = .next { s with pay := p, resp := some ⟨true, 0⟩ } ∧
      p.read idx.toNat = some val ∧ (∀ k, k ≠ idx.toNat → p.read k = s.pay.read k) ∧
      (s.pay.wf = true → p.wf = true)) ∧
  (∀ (s : State) (idx : Index) (val : PayUnit), s.fault = false →
    (s.phase ≠ .idle → exec (.wrpay idx val) s = .next (s.raise .seq)) ∧
    (s.phase = .idle → 8192 ≤ idx.toNat → exec (.wrpay idx val) s = .next (s.raise .range))) ∧
  (∀ (s : State) (idx : Index) (u : PayUnit), s.fault = false → idx.toNat < 8192 →
    s.pay.read idx.toNat = some u →
    exec (.rdpay idx) s = .next { s with resp := some ⟨true, BitVec.ofNat 32 u.toNat⟩ }) ∧
  (∀ (s : State) (idx : Index), s.fault = false →
    (8192 ≤ idx.toNat → exec (.rdpay idx) s = .next (s.raise .range)) ∧
    (idx.toNat < 8192 → s.pay.read idx.toNat = none → exec (.rdpay idx) s = .next (s.raise .uninit)))

/-- 41_config_access.md R144 to R147: `RDBIT`, `RDCW`, `RDMOD`, `RDGEN` respond the element inside its extent, and
fault outside it or before its phase. -/
def Obligations.BufferReads : Prop :=
  ∀ (s : State) (idx : Index) (row col : BitVec 8), s.Inv → s.fault = false →
    (1 ≤ s.phase.code → idx.toNat < s.bbLen → ∃ b, s.bb[idx.toNat]? = some b ∧
      exec (.rdbit idx) s = .next { s with resp := some ⟨true, BitVec.ofNat 32 b.toNat⟩ }) ∧
    (2 ≤ s.phase.code → idx.toNat < s.cwLen → ∃ x, s.fin[idx.toNat]? = some x ∧
      exec (.rdcw idx) s = .next { s with resp := some ⟨true, BitVec.ofNat 32 x.toNat⟩ }) ∧
    (3 ≤ s.phase.code → row.toNat < 4 * s.version + 17 → col.toNat < 4 * s.version + 17 →
      ∃ cells x, s.mx[row.toNat]? = some cells ∧ cells[col.toNat]? = some x ∧
        exec (.rdmod row col) s =
          .next { s with resp := some ⟨true, BitVec.ofNat 32 (x.val.toNat + 2 * x.tag.code)⟩ }) ∧
    (idx.toNat ≤ s.genLen → ∃ x, s.gen[idx.toNat]? = some x ∧
      exec (.rdgen idx) s = .next { s with resp := some ⟨true, BitVec.ofNat 32 x.toNat⟩ }) ∧
    (s.phase = .idle → exec (.rdbit idx) s = .next (s.raise .seq)) ∧
    (s.phase.code < 2 → exec (.rdcw idx) s = .next (s.raise .seq)) ∧
    (s.phase.code < 3 → exec (.rdmod row col) s = .next (s.raise .seq)) ∧
    (1 ≤ s.phase.code → s.bbLen ≤ idx.toNat → exec (.rdbit idx) s = .next (s.raise .range)) ∧
    (2 ≤ s.phase.code → s.cwLen ≤ idx.toNat → exec (.rdcw idx) s = .next (s.raise .range)) ∧
    (3 ≤ s.phase.code → (4 * s.version + 17 ≤ row.toNat ∨ 4 * s.version + 17 ≤ col.toNat) →
      exec (.rdmod row col) s = .next (s.raise .range)) ∧
    (s.genLen < idx.toNat → exec (.rdgen idx) s = .next (s.raise .range))

/-! ## GF(256) arithmetic -/

/-- 40_gf.md R130: `GFEXP a` responds the power `αᵃ`, here `a` multiplications of 1 by `x`. -/
def Obligations.GfexpIsPowerOfAlpha : Prop :=
  (∀ (a : BitVec 24) (b : BitVec 32), decode (descriptor 0x10 a b) =
    if a = 0 ∧ b.toNat < 2 ^ 8 then .ok (.gfexp (b.setWidth 8)) else .error (.reservedBits 0x10)) ∧
  (∀ (a : Byte) (s : State), s.fault = false →
    exec (.gfexp a) s = .next { s with resp := some ⟨true, (gfExp a.toNat).setWidth 32⟩ }) ∧
  (∀ a : Byte, gfExp a.toNat = xtimes a.toNat 1 ∧ gfExp a.toNat ≠ 0) ∧
  gfExp 0 = 1 ∧ gfExp 255 = 1 ∧ gfLog (gfExp 255) = 0 ∧
  decode 0x1000000000000008 = .ok (.gfexp 8) ∧ gfExp 8 = 0x1D

/-- 40_gf.md R131: `GFLOG a` responds the logarithm, the inverse of `GFEXP`, and faults at zero. -/
def Obligations.GflogInvertsGfexp : Prop :=
  (∀ (a : BitVec 24) (b : BitVec 32), decode (descriptor 0x11 a b) =
    if a = 0 ∧ b.toNat < 2 ^ 8 then .ok (.gflog (b.setWidth 8)) else .error (.reservedBits 0x11)) ∧
  (∀ (a : Byte) (s : State), s.fault = false → a ≠ 0 →
    exec (.gflog a) s = .next { s with resp := some ⟨true, (gfLog a).setWidth 32⟩ }) ∧
  (∀ s : State, s.fault = false →
    exec (.gflog 0) s = .next { s with fault := true, cause := .log0, resp := some ⟨false, 0⟩ }) ∧
  (∀ a : Byte, a ≠ 0 → (gfLog a).toNat ≤ 254 ∧ gfExp (gfLog a).toNat = a) ∧ gfLog 1 = 0 ∧
  decode 0x110000000000001D = .ok (.gflog 29) ∧ gfLog 29 = 8 ∧
  decode 0x1100000000000000 = .ok (.gflog 0) ∧ Cause.log0.code = 8

/-- 40_gf.md R132, 11_rom_tables.md R63: `GFMUL a, b` responds the product of two polynomials modulo the field
modulus, zero operands included. -/
def Obligations.GfmulIsPolynomialProduct : Prop :=
  (∀ (a : BitVec 24) (b : BitVec 32), decode (descriptor 0x12 a b) =
    if a = 0 ∧ b.toNat < 2 ^ 16 then .ok (.gfmul (b.setWidth 8) ((b >>> 8).setWidth 8))
    else .error (.reservedBits 0x12)) ∧
  (∀ (a b : Byte) (s : State), s.fault = false →
    exec (.gfmul a b) s = .next { s with resp := some ⟨true, (polyProduct a b).setWidth 32⟩ }) ∧
  (∀ a b : Byte, polyProduct a b =
    if a = 0 ∨ b = 0 then 0 else gfExp (((gfLog a).toNat + (gfLog b).toNat) % 255)) ∧
  (∀ a b : Byte, a ≠ 0 → b ≠ 0 → (gfLog a).toNat + (gfLog b).toNat ≤ 508 ∧
    ((gfLog a).toNat + (gfLog b).toNat = 255 → polyProduct a b = 1)) ∧
  (∀ a : Byte, polyProduct a 0 = 0 ∧ polyProduct 0 a = 0 ∧ polyProduct a 1 = a ∧ polyProduct 1 a = a) ∧
  decode 0x1200000000008002 = .ok (.gfmul 2 128) ∧ polyProduct 2 128 = 0x1D ∧
  decode 0x120000000000CA53 = .ok (.gfmul 0x53 0xCA) ∧ polyProduct 0x53 0xCA = 0x8F ∧
  polyProduct 0 77 = 0

/-- 40_gf.md R133: `GFADD a, b` responds the exclusive or. -/
def Obligations.GfaddIsXor : Prop :=
  (∀ (a : BitVec 24) (b : BitVec 32), decode (descriptor 0x13 a b) =
    if a = 0 ∧ b.toNat < 2 ^ 16 then .ok (.gfadd (b.setWidth 8) ((b >>> 8).setWidth 8))
    else .error (.reservedBits 0x13)) ∧
  (∀ (a b : Byte) (s : State), s.fault = false →
    exec (.gfadd a b) s = .next { s with resp := some ⟨true, (a ^^^ b).setWidth 32⟩ }) ∧
  (∀ a : Byte, a ^^^ a = 0 ∧ a ^^^ 0 = a) ∧
  decode 0x130000000000CA53 = .ok (.gfadd 0x53 0xCA) ∧ (0x53 : Byte) ^^^ 0xCA = 0x99

/-- 40_gf.md R134: the field laws, and that the GF commands touch nothing. -/
def Obligations.FieldLaws : Prop :=
  (∀ a b : Byte, gfMul a b = gfMul b a) ∧
  (∀ a b c : Byte, gfMul a (gfMul b c) = gfMul (gfMul a b) c) ∧
  (∀ a : Byte, gfMul a 1 = a ∧ gfMul a 0 = 0) ∧
  (∀ a b c : Byte, gfMul a (gfAdd b c) = gfAdd (gfMul a b) (gfMul a c)) ∧
  (∀ a b : Byte, a ≠ 0 → (gfMul a b = 1 ↔ b = gfExp ((255 - (gfLog a).toNat) % 255))) ∧
  (∀ a : Byte, gfMul 2 a = xtime a) ∧
  (∀ (i : Instr) (s t : State), (∃ a b, i = .gfexp a ∨ i = .gflog a ∨ i = .gfmul a b ∨ i = .gfadd a b) →
    exec i s = .next t →
    t.phase = s.phase ∧ (t.fault = true → s.fault = false → t.cause = .log0) ∧
    (t.fault = s.fault → t = { s with resp := t.resp }))

/-! ## The bit-stream packer -/

/-- 42_bitstream.md R160: `PUSHB` appends the low bits of a value, most significant first, or faults. -/
def Obligations.PushbAppendsBits : Prop :=
  ∀ (s : State) (val : BitVec 16) (width : BitVec 5), s.fault = false →
    (s.phase = .packing → width.toNat ≤ 16 → val.toNat < 2 ^ width.toNat →
      s.bbLen + width.toNat ≤ s.capBits → ∃ bits,
        exec (.pushb val width) s = .next { s with bb := s.bb ++ bits, resp := some ⟨true, 0⟩ } ∧
        bits.length = width.toNat ∧ numOf bits = val.toNat) ∧
    (s.phase ≠ .packing → exec (.pushb val width) s = .next (s.raise .seq)) ∧
    (s.phase = .packing → (16 < width.toNat ∨ 2 ^ width.toNat ≤ val.toNat) →
      exec (.pushb val width) s = .next (s.raise .range)) ∧
    (s.phase = .packing → width.toNat ≤ 16 → val.toNat < 2 ^ width.toNat →
      s.capBits < s.bbLen + width.toNat → exec (.pushb val width) s = .next (s.raise .ovf))

/-- 42_bitstream.md R163, R164, 11_rom_tables.md R66, R67: the header `PKMODE` and `PKCNT` append. -/
def Obligations.HeaderBits : Prop :=
  ∀ s : State, s.fault = false →
    let indicator := match s.cfg.mode with | .numeric => 1 | .alphanumeric => 2 | .byte => 4 | .kanji => 8
    let width := cntWidth s.cfg.mode s.version
    (width = match s.cfg.mode with
      | .numeric => if s.version ≤ 9 then 10 else if s.version ≤ 26 then 12 else 14
      | .alphanumeric => if s.version ≤ 9 then 9 else if s.version ≤ 26 then 11 else 13
      | .byte => if s.version ≤ 9 then 8 else 16
      | .kanji => if s.version ≤ 9 then 8 else if s.version ≤ 26 then 10 else 12) ∧
    (s.phase = .packing → s.bbLen + 4 ≤ s.capBits → ∃ bits,
      exec .pkmode s = .next { s with bb := s.bb ++ bits, resp := some ⟨true, 0⟩ } ∧
      bits.length = 4 ∧ numOf bits = indicator) ∧
    (s.phase = .packing → s.payLen.toNat < 2 ^ width → s.bbLen + width ≤ s.capBits → ∃ bits,
      exec .pkcnt s = .next { s with bb := s.bb ++ bits, resp := some ⟨true, 0⟩ } ∧
      bits.length = width ∧ numOf bits = s.payLen.toNat) ∧
    (s.phase ≠ .packing →
      exec .pkmode s = .next (s.raise .seq) ∧ exec .pkcnt s = .next (s.raise .seq)) ∧
    (s.phase = .packing → s.capBits < s.bbLen + 4 → exec .pkmode s = .next (s.raise .ovf)) ∧
    (s.phase = .packing → 2 ^ width ≤ s.payLen.toNat → exec .pkcnt s = .next (s.raise .count)) ∧
    (s.phase = .packing → s.payLen.toNat < 2 ^ width → s.capBits < s.bbLen + width →
      exec .pkcnt s = .next (s.raise .ovf))

/-- 42_bitstream.md R165: `PKDATA` appends the whole payload or faults: at the lowest failing index, an unwritten
entry before an invalid unit, and overflow only after every index. -/
def Obligations.PkdataAppendsPayload : Prop :=
  ∀ s : State, s.fault = false →
    (s.phase = .packing → s.payloadOk →
      s.bbLen + payloadBits s.cfg.mode s.payLen.toNat ≤ s.capBits → ∃ bits,
        exec .pkdata s = .next { s with bb := s.bb ++ bits, resp := some ⟨true, 0⟩ } ∧
        bits = (groupsOf s.cfg.mode s.payloadUnits).flatMap (fun g => bitsOf g.1 g.2) ∧
        bits.length = payloadBits s.cfg.mode s.payLen.toNat) ∧
    (s.phase = .packing → s.payloadOk →
      s.capBits < s.bbLen + payloadBits s.cfg.mode s.payLen.toNat →
      exec .pkdata s = .next (s.raise .ovf)) ∧
    (∀ k < s.payLen.toNat, s.phase = .packing →
      (∀ i < k, ∃ u, s.pay.read i = some u ∧ validUnit s.cfg.mode u = true) →
      (s.pay.read k = none → exec .pkdata s = .next (s.raise .uninit)) ∧
      (∀ u, s.pay.read k = some u → validUnit s.cfg.mode u = false →
        exec .pkdata s = .next (s.raise .unit))) ∧
    (s.phase ≠ .packing → exec .pkdata s = .next (s.raise .seq))

/-- 42_bitstream.md R166 to R169, 40_gf.md R135: the groups of each mode in closed form, their values below the
powers of two of their widths, and the widths' sum. -/
def Obligations.PayloadGroups : Prop :=
  ∀ us : List PayUnit,
    let n := us.length
    let digit (i : Nat) : Nat := (us.getD i 0).toNat - 0x30
    let code (i : Nat) : Nat := alnumCode (us.getD i 0).toNat
    (∀ mode, (∀ u ∈ us, validUnit mode u = true) →
      ((groupsOf mode us).map fun g => g.2).sum = payloadBits mode n ∧
      ∀ g ∈ groupsOf mode us, g.1 < 2 ^ g.2 ∧ g.2 ≤ 13) ∧
    ((∀ k < n / 3, (groupsOf .numeric us)[k]? =
        some (100 * digit (3 * k) + 10 * digit (3 * k + 1) + digit (3 * k + 2), 10)) ∧
      (n % 3 = 2 → (groupsOf .numeric us)[n / 3]? = some (10 * digit (n - 2) + digit (n - 1), 7)) ∧
      (n % 3 = 1 → (groupsOf .numeric us)[n / 3]? = some (digit (n - 1), 4)) ∧
      (groupsOf .numeric us).length = (n + 2) / 3) ∧
    ((∀ k < n / 2, (groupsOf .alphanumeric us)[k]? = some (45 * code (2 * k) + code (2 * k + 1), 11)) ∧
      (n % 2 = 1 → (groupsOf .alphanumeric us)[n / 2]? = some (code (n - 1), 6)) ∧
      (groupsOf .alphanumeric us).length = (n + 1) / 2) ∧
    (groupsOf .byte us = us.map fun u => (u.toNat, 8)) ∧
    (groupsOf .kanji us = us.map fun u =>
      let d := if u.toNat ≤ 0x9FFC then u.toNat - 0x8140 else u.toNat - 0xC140
      (d / 2 ^ 8 * 0xC0 + d % 2 ^ 8, 13)) ∧
    (∀ i, alnumCode i < 45 ↔ validUnit .alphanumeric (BitVec.ofNat 16 i) = true ∧ i < 2 ^ 16)

/-- 42_bitstream.md R170, R171, R172: terminator, alignment and pad bytes, bit by bit. -/
def Obligations.TerminatorAlignmentPads : Prop :=
  ∀ s : State, s.fault = false →
    (s.phase = .packing → s.bbLen ≤ s.capBits → exec .pkterm s = .next { s with
      bb := s.bb ++ List.replicate (min 4 (s.capBits - s.bbLen)) false, resp := some ⟨true, 0⟩ }) ∧
    (s.phase = .packing → s.bbLen ≤ s.capBits → ∃ z < 8,
      exec .pkalign s = .next { s with
        bb := s.bb ++ List.replicate z false, resp := some ⟨true, 0⟩ } ∧
      (s.bbLen + z) % 8 = 0) ∧
    (s.phase = .packing → s.bbLen ≤ s.capBits → s.bbLen % 8 = 0 → ∃ pads,
      exec .pkpad s = .next { s with bb := s.bb ++ pads, resp := some ⟨true, 0⟩ } ∧
      s.bbLen + pads.length = s.capBits ∧
      codewordsOf pads = (List.range (pads.length / 8)).map fun k => if k % 2 = 0 then 0xEC else 0x11) ∧
    (s.phase = .packing → s.bbLen % 8 ≠ 0 → exec .pkpad s = .next (s.raise .len)) ∧
    (s.phase ≠ .packing → exec .pkterm s = .next (s.raise .seq) ∧
      exec .pkalign s = .next (s.raise .seq) ∧ exec .pkpad s = .next (s.raise .seq))

/-- 42_bitstream.md R173: the exact-length property, the check of it in `ECC`, and the most pad bytes of a
standard run. -/
def Obligations.PaddingReachesCapacity : Prop :=
  (∀ s : State, s.fault = false → s.phase = .packing → s.bbLen ≤ s.capBits →
    (s.after [.pkterm, .pkalign, .pkpad]).fault = false ∧
    (s.after [.pkterm, .pkalign, .pkpad]).bbLen = s.capBits) ∧
  (∀ s : State, s.fault = false → s.phase = .packing → s.bbLen ≠ s.capBits →
    exec .ecc s = .next (s.raise .len)) ∧
  (∀ s : State, s.fault = false → s.phase = .idle →
    (s.after [.start, .pkmode, .pkcnt, .pkdata, .pkterm, .pkalign]).fault = false →
    (s.capBits - (s.after [.start, .pkmode, .pkcnt, .pkdata, .pkterm, .pkalign]).bbLen) / 8 ≤ 2953 ∧
    (s.version = 40 → s.cfg.ecLevel = .L → s.payLen = 0 →
      (s.capBits - (s.after [.start, .pkmode, .pkcnt, .pkdata, .pkterm, .pkalign]).bbLen) / 8 = 2953))

/-- 42_bitstream.md R174: the standard sequence faults exactly on a payload that does not fit, and otherwise leaves
header, payload, terminator, alignment zeros and pad bytes. -/
def Obligations.PackFitsExactly : Prop :=
  ∀ s : State, s.fault = false → s.phase = .packing → s.bb = [] → versionLegal s.version = true →
    s.payloadOk →
    ((s.after pack).fault = false ↔
      s.payLen.toNat < 2 ^ cntWidth s.cfg.mode s.version ∧
      4 + cntWidth s.cfg.mode s.version + payloadBits s.cfg.mode s.payLen.toNat ≤ s.capBits) ∧
    ((s.after pack).fault = false → (s.after pack).bbLen = s.capBits ∧ ∃ z k,
      (s.after pack).bb = bitsOf (modeIndicator s.cfg.mode) 4 ++
        bitsOf s.payLen.toNat (cntWidth s.cfg.mode s.version) ++
        groupBits (groupsOf s.cfg.mode s.payloadUnits) ++ List.replicate z false ++ padBits k ∧
      z < 12)

/-! ## The Reed-Solomon encoder -/

/-- 43_reed_solomon.md R193, R190: `RSGEN n` loads the monic polynomial of degree `n` whose roots are the first `n`
powers of α. -/
def Obligations.RsgenLoadsGenerator : Prop :=
  ∀ (s : State) (n : Index), s.fault = false →
    (1 ≤ n.toNat → n.toNat ≤ 30 → ∃ g,
      exec (.rsgen n) s = .next { s with gen := g, resp := some ⟨true, 0⟩ } ∧
      g.length = n.toNat + 1 ∧ g.head? = some 1 ∧ ∀ i < n.toNat, polyEval g (gfExp i) = 0) ∧
    ((n.toNat = 0 ∨ 30 < n.toNat) → exec (.rsgen n) s = .next (s.raise .range))

/-- 43_reed_solomon.md R196, R194, R195: `ECC` leaves the interleaved stream in closed form, and the generator it
used. -/
def Obligations.EccInterleavesBlocks : Prop :=
  (∀ s : State, s.Inv → s.fault = false → s.phase = .packing → s.bbLen = 8 * s.dcap → ∃ f,
    exec .ecc s = .next { s with
      fin := f, gen := rsGenerator s.blocks.ecLen, phase := .coded, resp := some ⟨true, 0⟩ } ∧
    f.length = totalCodewords s.version ∧
    ∀ j < s.blocks.n1 + s.blocks.n2,
      let nb := s.blocks.n1 + s.blocks.n2
      let off := j * s.blocks.k1 + (j - s.blocks.n1)
      let len := if j < s.blocks.n1 then s.blocks.k1 else s.blocks.k1 + 1
      let dcw := codewordsOf s.bb
      (∀ i < s.blocks.k1, f[i * nb + j]? = dcw[off + i]?) ∧
      (s.blocks.n1 ≤ j → f[s.blocks.k1 * nb + (j - s.blocks.n1)]? = dcw[off + s.blocks.k1]?) ∧
      (∀ i < s.blocks.ecLen, f[s.dcap + i * nb + j]? =
        (rsRemainder ((dcw.drop off).take len) s.blocks.ecLen)[i]?)) ∧
  (∀ s : State, s.fault = false →
    (s.phase ≠ .packing → exec .ecc s = .next (s.raise .seq)) ∧
    (s.phase = .packing → s.bbLen ≠ 8 * s.dcap → exec .ecc s = .next (s.raise .len)))

/-- 43_reed_solomon.md R191, R192, R197 (c): the shift register computes the remainder of the data polynomial times
`xⁿ`, and it is linear. -/
def Obligations.RemainderIsPolynomialRemainder : Prop :=
  (∀ (d : List Byte) (n : Nat), 1 ≤ n → n ≤ 30 →
    rsRemainder d n = polyRemainder (rsGenerator n) (d ++ List.replicate n 0) ∧
    (rsRemainder d n).length = n) ∧
  (∀ (a b : List Byte) (n : Nat), n ≤ 30 → a.length = b.length →
    rsRemainder (List.zipWith gfAdd a b) n =
      List.zipWith gfAdd (rsRemainder a n) (rsRemainder b n))

/-- 43_reed_solomon.md R197 (a), (b): data and EC codewords of a block, as one polynomial, leave no remainder modulo
the generator polynomial, and every syndrome vanishes. -/
def Obligations.CodewordBlocksDivisible : Prop :=
  ∀ (d : List Byte) (n : Nat), 1 ≤ n → n ≤ 30 →
    polyRemainder (rsGenerator n) (d ++ rsRemainder d n) = List.replicate n 0 ∧
    ∀ i < n, polyEval (d ++ rsRemainder d n) (gfExp i) = 0

/-! ## The matrix builder -/

/-- 44_matrix.md R210 to R221: `MXFUNC` draws the function patterns of the configured version. -/
def Obligations.MxfuncDrawsPatterns : Prop :=
  (∀ s : State, s.fault = false → s.phase = .coded → exec .mxfunc s =
    .next { s with mx := functionMatrix s.version, phase := .laid, resp := some ⟨true, 0⟩ }) ∧
  (∀ s : State, s.fault = false → s.phase ≠ .coded → exec .mxfunc s = .next (s.raise .seq)) ∧
  (∀ v, 1 ≤ v → v ≤ 40 →
    let m := functionMatrix v
    let side := 4 * v + 17
    m.length = side ∧ (∀ row ∈ m, row.length = side) ∧
    (∀ p ∈ [(0, 0), (0, side - 7), (side - 7, 0)], ∀ i < 7, ∀ j < 7,
      m.at (p.1 + i) (p.2 + j) = ⟨max (absDiff i 3) (absDiff j 3) != 2, .finder⟩) ∧
    (∀ i < 8, ∀ p ∈ [(7, i), (i, 7), (7, side - 8 + i), (i, side - 8), (side - 8, i), (side - 8 + i, 7)],
      m.at p.1 p.2 = ⟨false, .separator⟩) ∧
    (∀ i, 8 ≤ i → i < side - 8 →
      (m.at 6 i).val = (i % 2 == 0) ∧ (m.at i 6).val = (i % 2 == 0) ∧
      ((m.at 6 i).tag = .timing ∨ (m.at 6 i).tag = .alignment) ∧
      ((m.at i 6).tag = .timing ∨ (m.at i 6).tag = .alignment)) ∧
    (∀ r ∈ alignCoords v, ∀ c ∈ alignCoords v, (r, c) ∉ [(6, 6), (6, side - 7), (side - 7, 6)] →
      ∀ i < 5, ∀ j < 5,
        m.at (r + i - 2) (c + j - 2) = ⟨max (absDiff i 2) (absDiff j 2) != 1, .alignment⟩) ∧
    (∀ p ∈ [(0, 8), (1, 8), (2, 8), (3, 8), (4, 8), (5, 8), (7, 8), (8, 8), (8, 7), (8, 5), (8, 4), (8, 3),
        (8, 2), (8, 1), (8, 0)], m.at p.1 p.2 = ⟨false, .formatInfo⟩) ∧
    (∀ i < 8, m.at 8 (side - 1 - i) = ⟨false, .formatInfo⟩) ∧
    (∀ i < 7, m.at (side - 7 + i) 8 = ⟨false, .formatInfo⟩) ∧
    m.at (4 * v + 9) 8 = ⟨true, .formatInfo⟩ ∧
    (7 ≤ v → ∀ i < 6, ∀ j < 3, m.at i (side - 11 + j) = ⟨false, .versionInfo⟩ ∧
      m.at (side - 11 + j) i = ⟨false, .versionInfo⟩))

/-- 44_matrix.md R219, R224 (b), 11_rom_tables.md R70: how many modules of each kind `MXFUNC` leaves; the data modules are
those of the closed form, eight to each codeword of the EC block table with at most seven over. -/
def Obligations.ModuleCounts : Prop :=
  ∀ v, 1 ≤ v → v ≤ 40 →
    let side := 4 * v + 17
    let n := (alignCoords v).length
    let count (t : Tag) : Nat := ((functionMatrix v).map fun row => row.countP fun x => x.tag == t).sum
    count .data = nData v ∧
    nData v = (16 * v + 128) * v + 64 -
      (if 2 ≤ v then (25 * (v / 7 + 2) - 10) * (v / 7 + 2) - 55 else 0) - (if 7 ≤ v then 36 else 0) ∧
    (∀ level : EcLevel, 8 * (dataCapacity v level +
      ((blockInfo v level).n1 + (blockInfo v level).n2) * (blockInfo v level).ecLen) + remainderBits v =
        nData v) ∧
    remainderBits v = (if v = 1 then 0 else if v ≤ 6 then 7 else if v ≤ 13 then 0 else if v ≤ 20 then 3
      else if v ≤ 27 then 4 else if v ≤ 34 then 3 else 0) ∧
    count .finder = 147 ∧ count .separator = 45 ∧ count .formatInfo = 31 ∧
    count .versionInfo = (if 7 ≤ v then 36 else 0) ∧
    count .timing = 2 * (side - 16) - 10 * (n - 2) ∧
    count .alignment = (if v = 1 then 0 else 25 * (n * n - 3)) ∧ count .quiet = 0

/-- 44_matrix.md R222, R224 (c): `ORDER` lists every data module of the matrix exactly once and nothing else. -/
def Obligations.PlacementOrderComplete : Prop :=
  ∀ v, 1 ≤ v → v ≤ 40 →
    (placementOrder (functionMatrix v) (sideOf v)).Nodup ∧
    ∀ r c, (r, c) ∈ placementOrder (functionMatrix v) (sideOf v) ↔
      r < sideOf v ∧ c < sideOf v ∧ ((functionMatrix v).at r c).tag = .data

/-- 44_matrix.md R223, R224 (e), 20_memory.md R95: `MXDATA` writes the stream's bits along `ORDER`, zeros after them, and
nothing else. -/
def Obligations.MxdataPlacesStream : Prop :=
  (∀ s : State, s.Inv → s.fault = false → s.phase = .laid → ∃ m,
    exec .mxdata s =
      .next { s with mx := m, evalid := 0, phase := .placed, resp := some ⟨true, 0⟩ } ∧
    m.length = s.side ∧ (∀ row ∈ m, row.length = s.side) ∧
    (∀ k p, (placementOrder s.mx s.side)[k]? = some p → m.at p.1 p.2 = ⟨streamBit s.fin k, .data⟩) ∧
    (∀ r c, (r, c) ∉ placementOrder s.mx s.side → m.at r c = s.mx.at r c)) ∧
  (∀ s : State, s.fault = false → s.phase ≠ .laid → exec .mxdata s = .next (s.raise .seq))

/-! ## The mask evaluator and selector -/

/-- 45_mask.md R253 to R256: the four penalty rules, each as the count its rule describes. -/
def Obligations.PenaltyRules : Prop :=
  (∀ (b : Bool) (runs : List Nat), (∀ n ∈ runs, 0 < n) →
    lineRuns (alternating b runs) = (runs.map fun n => if 5 ≤ n then 3 + (n - 5) else 0).sum) ∧
  (∀ line : List Bool, lineWindows line = ((List.range (line.length - 10)).filter fun p =>
    (line.drop p).take 11 == [true, false, true, true, true, false, true, false, false, false, false] ||
    (line.drop p).take 11 ==
      [false, false, false, false, true, false, true, true, true, false, true]).length) ∧
  (∀ g : Grid, 11 ≤ g.length → (∀ row ∈ g, row.length = g.length) →
    let at' (r c : Nat) : Bool := (g.getD r []).getD c false
    let columns := (List.range g.length).map fun c => g.map fun row => row.getD c false
    penaltyRuns g = (g.map lineRuns).sum + (columns.map lineRuns).sum ∧
    penaltyBlocks g = 3 * ((squarePlaces (g.length - 1)).filter fun p =>
      at' p.1 p.2 == at' p.1 (p.2 + 1) && at' p.1 p.2 == at' (p.1 + 1) p.2 &&
        at' p.1 p.2 == at' (p.1 + 1) (p.2 + 1)).length ∧
    penaltyFinders g = 40 * ((g.map lineWindows).sum + (columns.map lineWindows).sum) ∧
    (let deviation := (20 * (g.flatten.count true : Int) - 10 * ((g.length * g.length : Nat) : Int)).natAbs
     ∃ k, penaltyBalance g = 10 * k ∧ k * (g.length * g.length) ≤ deviation ∧
      deviation < (k + 1) * (g.length * g.length)) ∧
    score g = penaltyRuns g + penaltyBlocks g + penaltyFinders g + penaltyBalance g)

/-- 45_mask.md R257, R252, 10_state.md R35: `MKEVAL m` stores the penalty of the candidate and marks it; the penalty fits
its register. -/
def Obligations.MkevalScoresCandidate : Prop :=
  (∀ (s : State) (m : Index), s.Inv → s.fault = false → s.phase = .placed → (h : m.toNat < 8) → ∃ n,
    exec (.mkeval m) s = .next { s with
      scores := s.scores.set m.toNat (BitVec.ofNat 32 n) h,
      evalid := s.evalid ||| (1#8 <<< m.toNat), resp := some ⟨true, 0⟩ } ∧
    n = score (candidate m.toNat s.mx) ∧ n ≤ 2519698 ∧
    ∀ r < s.side, ∀ c < s.side, ((candidate m.toNat s.mx).getD r []).getD c false =
      ((s.mx.at r c).val ^^ ((s.mx.at r c).tag == .data && maskBit m.toNat r c))) ∧
  (∀ (s : State) (m : Index), s.fault = false →
    (s.phase ≠ .placed → exec (.mkeval m) s = .next (s.raise .seq)) ∧
    (s.phase = .placed → 8 ≤ m.toNat → exec (.mkeval m) s = .next (s.raise .range)))

/-- 45_mask.md R258, R266 (d): `MKSEL` selects the least mask among those of least penalty, and only once all eight are
scored. -/
def Obligations.MkselPicksLeastPenalty : Prop :=
  ∀ s : State, s.fault = false →
    (s.phase = .placed → s.evalid = 0xFF#8 → ∃ best : Fin 8,
      exec .mksel s = .next { s with
        maskId := BitVec.ofNat 3 best.val, phase := .selected, resp := some ⟨true, 0⟩ } ∧
      (∀ m : Fin 8, s.scores[best].toNat ≤ s.scores[m].toNat) ∧
      ∀ m : Fin 8, m < best → s.scores[best].toNat < s.scores[m].toNat) ∧
    (s.phase = .placed → s.evalid ≠ 0xFF#8 → exec .mksel s = .next (s.raise .seq)) ∧
    (s.phase ≠ .placed → exec .mksel s = .next (s.raise .seq))

/-- 45_mask.md R259, R251: `MKAPPLY` inverts exactly the data modules where the selected mask holds; the values are then
the candidate's as scored, and the mask could be taken off again. -/
def Obligations.MkapplyInvertsData : Prop :=
  (∀ s : State, s.Inv → s.fault = false → s.phase = .selected → ∃ m,
    exec .mkapply s = .next { s with mx := m, phase := .masked, resp := some ⟨true, 0⟩ } ∧
    m.length = s.side ∧ (∀ row ∈ m, row.length = s.side) ∧
    (∀ r < s.side, ∀ c < s.side, m.at r c =
      ⟨(s.mx.at r c).val ^^ ((s.mx.at r c).tag == .data && maskBit s.maskId.toNat r c),
        (s.mx.at r c).tag⟩) ∧
    (m.map fun row => row.map fun x => x.val) = candidate s.maskId.toNat s.mx ∧
    maskMatrix s.maskId.toNat m = s.mx) ∧
  (∀ s : State, s.fault = false → s.phase ≠ .selected → exec .mkapply s = .next (s.raise .seq))

/-- 45_mask.md R261, R262: `MKFMT` writes the format value into both copies, bit by bit, and no other module. -/
def Obligations.MkfmtWritesFormat : Prop :=
  (∀ s : State, s.Inv → s.fault = false → s.phase = .masked → ∃ m,
    exec .mkfmt s = .next { s with mx := m, phase := .formatted, resp := some ⟨true, 0⟩ } ∧
    m.length = s.side ∧ (∀ row ∈ m, row.length = s.side) ∧
    (let fmt := formatValue s.cfg.ecLevel s.maskId.toNat
     let copyA : List (Nat × Nat) := [(0, 8), (1, 8), (2, 8), (3, 8), (4, 8), (5, 8), (7, 8), (8, 8), (8, 7),
      (8, 5), (8, 4), (8, 3), (8, 2), (8, 1), (8, 0)]
     let copyB : List (Nat × Nat) := (List.range 15).map fun i =>
      if i ≤ 7 then (8, s.side - 1 - i) else (s.side - 15 + i, 8)
     (∀ i p, copyA[i]? = some p → m.at p.1 p.2 = ⟨fmt.testBit i, (s.mx.at p.1 p.2).tag⟩) ∧
     (∀ i p, copyB[i]? = some p → m.at p.1 p.2 = ⟨fmt.testBit i, (s.mx.at p.1 p.2).tag⟩) ∧
     ∀ r c, (r, c) ∉ copyA → (r, c) ∉ copyB → m.at r c = s.mx.at r c)) ∧
  (∀ s : State, s.fault = false → s.phase ≠ .masked → exec .mkfmt s = .next (s.raise .seq))

/-- 45_mask.md R264, R265: `MKVER` writes the version value into both blocks from version 7 on, no other module, and ends
in DONE for every version. -/
def Obligations.MkverWritesVersion : Prop :=
  (∀ s : State, s.Inv → s.fault = false → s.phase = .formatted → ∃ m,
    exec .mkver s = .next { s with mx := m, phase := .done, resp := some ⟨true, 0⟩ } ∧
    (s.version < 7 → m = s.mx) ∧
    (7 ≤ s.version →
      m.length = s.side ∧ (∀ row ∈ m, row.length = s.side) ∧
      (∀ i < 18,
        m.at (i / 3) (s.side - 11 + i % 3) = ⟨(versionValue s.version).testBit i,
          (s.mx.at (i / 3) (s.side - 11 + i % 3)).tag⟩ ∧
        m.at (s.side - 11 + i % 3) (i / 3) = ⟨(versionValue s.version).testBit i,
          (s.mx.at (s.side - 11 + i % 3) (i / 3)).tag⟩) ∧
      ∀ r c, (∀ i < 18, (r, c) ≠ (i / 3, s.side - 11 + i % 3) ∧ (r, c) ≠ (s.side - 11 + i % 3, i / 3)) →
        m.at r c = s.mx.at r c)) ∧
  (∀ s : State, s.fault = false → s.phase ≠ .formatted → exec .mkver s = .next (s.raise .seq))

/-- 45_mask.md R260, R263, R266 (e): the format and version values: their data bits, and that the codes are divisible by
their generators. -/
def Obligations.FormatAndVersionCodes : Prop :=
  (∀ (level : EcLevel) (mask : Nat), mask < 8 →
    let code := formatValue level mask ^^^ 0x5412
    code < 2 ^ 15 ∧ code / 2 ^ 10 % 2 ^ 3 = mask ∧
    code / 2 ^ 13 = (match level with | .L => 0b01 | .M => 0b00 | .Q => 0b11 | .H => 0b10) ∧
    gf2Remainder 0x537 10 5 code = 0) ∧
  ((List.range 8).map (formatValue .L) =
      [0x77C4, 0x72F3, 0x7DAA, 0x789D, 0x662F, 0x6318, 0x6C41, 0x6976] ∧
    (List.range 8).map (formatValue .M) =
      [0x5412, 0x5125, 0x5E7C, 0x5B4B, 0x45F9, 0x40CE, 0x4F97, 0x4AA0] ∧
    (List.range 8).map (formatValue .Q) =
      [0x355F, 0x3068, 0x3F31, 0x3A06, 0x24B4, 0x2183, 0x2EDA, 0x2BED] ∧
    (List.range 8).map (formatValue .H) =
      [0x1689, 0x13BE, 0x1CE7, 0x19D0, 0x0762, 0x0255, 0x0D0C, 0x083B]) ∧
  (∀ v, 7 ≤ v → v ≤ 40 →
    versionValue v < 2 ^ 18 ∧ versionValue v / 2 ^ 12 = v ∧ gf2Remainder 0x1F25 12 6 (versionValue v) = 0) ∧
  (List.range 34).map (fun k => versionValue (k + 7)) =
    [0x07C94, 0x085BC, 0x09A99, 0x0A4D3, 0x0BBF6, 0x0C762, 0x0D847, 0x0E60D, 0x0F928, 0x10B78, 0x1145D, 0x12A17,
     0x13532, 0x149A6, 0x15683, 0x168C9, 0x177EC, 0x18EC4, 0x191E1, 0x1AFAB, 0x1B08E, 0x1CC1A, 0x1D33F, 0x1ED75,
     0x1F250, 0x209D5, 0x216F0, 0x228BA, 0x2379F, 0x24B0B, 0x2542E, 0x26A64, 0x27541, 0x28C69]

/-! ## Several units, the host, invariants -/

/-- 60_exceptions.md R330: whatever the order in which units are stepped, each ends as it would alone. -/
def Obligations.UnitsAreIndependent : Prop :=
  ∀ (us : Units) (schedule : List Nat) (k : Nat) (s : State), us[k]? = some s →
    ∃ t, Host.Core.run Sys2Proof.core (schedule.count k) s = .next t ∧
      (schedule.foldl stepUnit us)[k]? = some t

/-- 11_rom_tables.md R74, 47_host_contract.md R291 to R296: a payload fits exactly up to the character capacity, and
the planner returns the first symbol in search order that fits, or overflow when none does. -/
def Obligations.PlannerFindsFirstFit : Prop :=
  (∀ (v : Nat) (level : EcLevel) (mode : Mode) (n : Nat), versionLegal v = true →
    (payloadFits v level mode n = true ↔ n ≤ charCap v level mode)) ∧
  charCap 1 .H .numeric = 17 ∧ charCap 1 .L .numeric = 41 ∧ charCap 1 .L .alphanumeric = 25 ∧
  charCap 40 .L .numeric = 7089 ∧ charCap 40 .L .alphanumeric = 4296 ∧ charCap 40 .L .byte = 2953 ∧
  charCap 40 .L .kanji = 1817 ∧
  (∀ (mode : Mode) (n v : Nat) (level : EcLevel), planSymbol mode n none none = .ok (v, level) ↔
    (1 ≤ v ∧ v ≤ 40 ∧ payloadFits v level mode n = true ∧
      (∀ v' l', 1 ≤ v' → v' < v → payloadFits v' l' mode n = false) ∧
      ∀ l' : EcLevel, level.code < l'.code → payloadFits v l' mode n = false)) ∧
  (∀ (mode : Mode) (n v : Nat) (level l : EcLevel), planSymbol mode n none (some l) = .ok (v, level) ↔
    (level = l ∧ 1 ≤ v ∧ v ≤ 40 ∧ payloadFits v l mode n = true ∧
      ∀ v', 1 ≤ v' → v' < v → payloadFits v' l mode n = false)) ∧
  (∀ (mode : Mode) (n v v' : Nat) (level : EcLevel), planSymbol mode n (some v) none = .ok (v', level) ↔
    (v' = v ∧ 1 ≤ v ∧ v ≤ 40 ∧ payloadFits v level mode n = true ∧
      ∀ l' : EcLevel, level.code < l'.code → payloadFits v l' mode n = false)) ∧
  (∀ (mode : Mode) (n v v' : Nat) (level l : EcLevel),
    planSymbol mode n (some v) (some l) = .ok (v', level) ↔
      (v' = v ∧ level = l ∧ 1 ≤ v ∧ v ≤ 40 ∧ payloadFits v l mode n = true))

/-- 47_host_contract.md R285, R299, R301, 60_exceptions.md R318: a host that follows the contract never sees a fault. From
any state the commands of a call, `RESET` or `RELEASE` first, end in a finished symbol of the version, level and mode
planned; the call takes exactly that symbol through its responses and leaves the unit in IDLE; a call that fails in planning
issues no command; and what a call returns does not depend on the unit's state. -/
def Obligations.HostCallNeverFaults : Prop :=
  (∀ (s : State) (release : Bool) (mode : Mode) (units : List PayUnit) (version : Option Nat) (level : Option EcLevel)
      (v : Nat) (l : EcLevel),
    (∀ u ∈ units, validUnit mode u = true) → planSymbol mode units.length version level = .ok (v, l) →
    ∃ sym, (s.after (encodeCommands (openingCommand release s) mode units v l)).symbol = some sym ∧
      sym.version = v ∧ sym.ecLevel = l ∧ sym.mode = mode ∧ sym.side = 4 * v + 17 ∧
      sym.modules.length = sym.side ∧ ∀ row ∈ sym.modules, row.length = sym.side) ∧
  (∀ (p : Platform) (c : EncodeCall) (plan : Plan), planCall p c = .ok plan →
    ∃ sym : Symbol, ∀ (s : State) (release : Bool), ∃ t u : State,
      t = s.after (encodeCommands (openingCommand release s) plan.selection.mode plan.selection.payload plan.version
        plan.level) ∧
      t.symbol = some sym ∧ u = t.after (readCommands sym.side) ∧ u.phase = .idle ∧ u.fault = false ∧
      hostEncode p release c s = (.ok sym, u)) ∧
  (∀ (p : Platform) (c : EncodeCall) (e : HostError), planCall p c = .error e →
    ∀ (s : State) (release : Bool), hostEncode p release c s = (.error e, s))

/-- 10_state.md R41, with R25, R30 to R35: the invariant of the reachable states is kept by every step, from every
state that has it. -/
def Obligations.StepKeepsInvariant : Prop :=
  ∀ s t : State, s.Inv → step s = .next t → t.Inv

/-- 10_state.md R40, R41: the reset state has the invariant, and the buffers it allows are the pipeline's. -/
def Obligations.ResetMeetsInvariant : Prop :=
  State.reset.Inv ∧ State.reset.Pipeline

/-- 43_reed_solomon.md R197 (e), 44_matrix.md R224 (f), 45_mask.md R266 (d), (g): in every phase each buffer is the
function of the configuration and the packed bits that the pipeline defines; no step and no interleaving of other commands
can make it anything else. -/
def Obligations.StepKeepsPipeline : Prop :=
  ∀ s t : State, s.Inv → s.Pipeline → step s = .next t → t.Pipeline
end

