-- ==== Sys2Proof/Laws/Contract.lean ====
section
/-! SUPPORT. What the host's functions can do, said once: presenting commands, ModeSelector, planning, and the
whole call. -/

namespace Sys2Proof.Machine

-- Theorems one after another: their checks side by side, each with a stack of its own, take too much memory.
set_option Elab.async false

/-! ## Presenting commands -/

@[simp] theorem State.after_nil (s : State) : s.after [] = s := rfl

theorem State.after_append (s : State) (is js : List Instr) : s.after (is ++ js) = (s.after is).after js :=
  List.foldl_append

theorem State.after_cons (s : State) (i : Instr) (is : List Instr) :
    s.after (i :: is) = (s.after [i]).after is := rfl

/-- What one command leaves, from what `exec` answers. -/
theorem State.after_of_exec {s t : State} {i : Instr} (h : exec i s = .next t) : s.after [i] = t := by
  simp [State.after, h]

/-- Asking leaves the state that presenting leaves. -/
theorem askAll_state : ∀ (is : List Instr) (s : State), (askAll is s).2 = s.after is
  | [], _ => rfl
  | i :: is, s => askAll_state is (s.after [i])

/-- One response a command. -/
theorem askAll_length : ∀ (is : List Instr) (s : State), (askAll is s).1.length = is.length
  | [], _ => rfl
  | i :: is, s => congrArg (· + 1) (askAll_length is (s.after [i]))

/-- Asking row by row leaves the state that presenting all the rows leaves. -/
theorem askRows_state : ∀ (rows : List (List Instr)) (s : State),
    (askRows rows s).2 = s.after rows.flatten
  | [], _ => rfl
  | row :: rows, s => by
    rw [List.flatten_cons, State.after_append, ← askAll_state row s]
    exact askRows_state rows _

/-- Taking the symbol presents exactly the commands of `readCommands` (41_config_access.md R148). -/
theorem takeSymbol_state (s : State) :
    (takeSymbol s).2 = s.after (readCommands (takeSymbol s).1.side) := by
  rw [readCommands, State.after_append, State.after_append, ← askAll_state, ← askRows_state]
  rfl

/-! ## ModeSelector -/

/-- The bytes of a text under a codec are its encoding, and they decode to the text again
(47_host_contract.md R289). -/
theorem codecBytes_eq_some {codec : Codec} {codes : List Nat} {bs : List Byte} :
    codecBytes codec codes = some bs ↔ codec.encode codes = some bs ∧ codec.decode bs = some codes := by
  unfold codecBytes
  cases codec.encode codes with
  | none => simp
  | some cs =>
    by_cases h : codec.decode cs = some codes
    · simp only [h, if_true, Option.some.injEq]
      exact ⟨fun e => ⟨e, e ▸ h⟩, fun e => e.1⟩
    · simp only [h, if_false, reduceCtorEq, Option.some.injEq, false_iff, not_and]
      exact fun e => e ▸ h

/-- Every byte is a valid unit of Byte mode (42_bitstream.md R168). -/
theorem byteUnits_valid (bs : List Byte) : ∀ u ∈ byteUnits bs, validUnit .byte u = true := by
  intro u hu
  obtain ⟨b, -, rfl⟩ := List.mem_map.mp hu
  simp only [validUnit, BitVec.toNat_setWidth, decide_eq_true_eq]
  omega

/-- A payload that is accepted is valid for its mode: the unit's `Fault(UNIT)` cannot come of it
(47_host_contract.md R285, R288). -/
theorem payloadOf_valid {p : Platform} {encoding : String} {mode : Mode} {codes : List Nat}
    {us : List PayUnit} (h : payloadOf p encoding mode codes = .ok us) :
    ∀ u ∈ us, validUnit mode u = true := by
  cases mode with
  | numeric =>
    simp only [payloadOf] at h
    split at h <;> cases h
    rename_i hall
    intro u hu
    obtain ⟨c, hc, rfl⟩ := List.mem_map.mp hu
    have := List.all_eq_true.mp hall c hc
    simp only [isDigitCode, Bool.and_eq_true, decide_eq_true_eq] at this
    simp only [validUnit, BitVec.toNat_ofNat, Bool.and_eq_true, decide_eq_true_eq]
    omega
  | alphanumeric =>
    simp only [payloadOf] at h
    split at h <;> cases h
    rename_i hall
    intro u hu
    obtain ⟨c, hc, rfl⟩ := List.mem_map.mp hu
    have hs := List.all_eq_true.mp hall c hc
    have hlt : c < 2 ^ 16 :=
      (by decide : ∀ x ∈ alnumSet, x < 2 ^ 16) c (List.contains_iff_mem.mp hs)
    rwa [validUnit, BitVec.toNat_ofNat, Nat.mod_eq_of_lt hlt]
  | kanji =>
    simp only [payloadOf] at h
    split at h <;> cases h
    rename_i hall
    intro u hu
    obtain ⟨c, hc, hu⟩ := List.mem_filterMap.mp hu
    have := List.all_eq_true.mp hall c hc
    rwa [hu] at this
  | byte =>
    simp only [payloadOf, bytePayload] at h
    split at h
    · cases h
    · split at h <;> cases h
      exact byteUnits_valid _

/-- What ModeSelector can answer: a valid payload, and an encoding name only in Byte mode
(47_host_contract.md R286 to R289). -/
theorem selectMode_ok {p : Platform} {hint : Option Mode} {encoding : Option String} {d : HostData}
    {sel : Selection} (h : selectMode p hint encoding d = .ok sel) :
    encodingKnown p encoding = true ∧ (∀ m, hint = some m → sel.mode = m) ∧
    (∀ u ∈ sel.payload, validUnit sel.mode u = true) ∧ (sel.mode ≠ .byte → sel.encoding = none) := by
  have text : ∀ codes, selectText p hint encoding codes = .ok sel →
      (∀ m, hint = some m → sel.mode = m) ∧
      (∀ u ∈ sel.payload, validUnit sel.mode u = true) ∧ (sel.mode ≠ .byte → sel.encoding = none) := by
    intro codes h
    simp only [selectText] at h
    split at h <;> cases h
    rename_i hp
    exact ⟨fun m hm => by simp [hm], payloadOf_valid hp, fun hb => by simp [hb]⟩
  unfold selectMode at h
  split at h
  · rename_i hk
    refine ⟨hk, ?_⟩
    cases d with
    | text codes => exact text codes h
    | number n => exact text _ h
    | bytes bs =>
      simp only [selectBytes] at h
      split at h <;> cases h
      · exact ⟨nofun, byteUnits_valid bs, fun hb => absurd rfl hb⟩
      · exact ⟨fun m hm => by injection hm, byteUnits_valid bs, fun hb => absurd rfl hb⟩
  · cases h

/-! ## Planning and the whole call -/

/-- A plan comes of its four steps, in this order (47_host_contract.md R301). -/
theorem planCall_ok {p : Platform} {c : EncodeCall} {plan : Plan} (h : planCall p c = .ok plan) :
    ∃ mode level, parseOptional parseMode c.mode = .ok mode ∧
      selectMode p mode c.encoding c.data = .ok plan.selection ∧
      parseOptional parseLevel c.errorLevel = .ok level ∧
      planSymbol plan.selection.mode plan.selection.payload.length (c.version.map Int.toNat) level =
        .ok (plan.version, plan.level) := by
  unfold planCall at h
  cases hm : parseOptional parseMode c.mode with
  | error e => rw [hm] at h; cases h
  | ok mode =>
    rw [hm] at h
    cases hs : selectMode p mode c.encoding c.data with
    | error e => simp only [hs, bind, Except.bind] at h; cases h
    | ok sel =>
      cases hl : parseOptional parseLevel c.errorLevel with
      | error e => simp only [hs, hl, bind, Except.bind] at h; cases h
      | ok level =>
        cases hv : planSymbol sel.mode sel.payload.length (c.version.map Int.toNat) level with
        | error e => simp only [hs, hl, hv, bind, Except.bind] at h; cases h
        | ok vl =>
          simp only [hs, hl, hv, bind, Except.bind, pure, Except.pure] at h
          cases h
          exact ⟨mode, level, rfl, hs, rfl, hv⟩

/-- A call that fails in planning issues no command (47_host_contract.md R299). -/
theorem hostEncode_of_error {p : Platform} {c : EncodeCall} {e : HostError} (h : planCall p c = .error e)
    (release : Bool) (s : State) : hostEncode p release c s = (.error e, s) := by
  simp only [hostEncode, h]

/-- A call that plans presents its commands and concludes by the response of `RUN` (47_host_contract.md
R301). -/
theorem hostEncode_of_ok {p : Platform} {c : EncodeCall} {plan : Plan} (h : planCall p c = .ok plan)
    (release : Bool) (s : State) : hostEncode p release c s =
      concludeCall (s.after (encodeCommands (openingCommand release s) plan.selection.mode
        plan.selection.payload plan.version plan.level)) := by
  simp only [hostEncode, h]

end Sys2Proof.Machine
end

