-- ==== Sys2Proof/Laws/State.lean ====
section
/-! SUPPORT. What each named update of the state does to each field, so that no proof unfolds one. -/

namespace Sys2Proof.Machine

-- Theorems one after another: their checks side by side, each with a stack of its own, take too much memory.
set_option Elab.async false

@[simp] theorem State.respond_cfg (s : State) (d : Data) : (s.respond d).cfg = s.cfg := rfl
@[simp] theorem State.respond_payLen (s : State) (d : Data) : (s.respond d).payLen = s.payLen := rfl
@[simp] theorem State.respond_phase (s : State) (d : Data) : (s.respond d).phase = s.phase := rfl
@[simp] theorem State.respond_fault (s : State) (d : Data) : (s.respond d).fault = s.fault := rfl
@[simp] theorem State.respond_cause (s : State) (d : Data) : (s.respond d).cause = s.cause := rfl
@[simp] theorem State.respond_evalid (s : State) (d : Data) : (s.respond d).evalid = s.evalid := rfl
@[simp] theorem State.respond_maskId (s : State) (d : Data) : (s.respond d).maskId = s.maskId := rfl
@[simp] theorem State.respond_scores (s : State) (d : Data) : (s.respond d).scores = s.scores := rfl
@[simp] theorem State.respond_pay (s : State) (d : Data) : (s.respond d).pay = s.pay := rfl
@[simp] theorem State.respond_bb (s : State) (d : Data) : (s.respond d).bb = s.bb := rfl
@[simp] theorem State.respond_fin (s : State) (d : Data) : (s.respond d).fin = s.fin := rfl
@[simp] theorem State.respond_gen (s : State) (d : Data) : (s.respond d).gen = s.gen := rfl
@[simp] theorem State.respond_mx (s : State) (d : Data) : (s.respond d).mx = s.mx := rfl
@[simp] theorem State.respond_pending (s : State) (d : Data) : (s.respond d).pending = s.pending := rfl
@[simp] theorem State.respond_resp (s : State) (d : Data) : (s.respond d).resp = some ⟨true, d⟩ := rfl

@[simp] theorem State.raise_cfg (s : State) (c : Cause) : (s.raise c).cfg = s.cfg := rfl
@[simp] theorem State.raise_payLen (s : State) (c : Cause) : (s.raise c).payLen = s.payLen := rfl
@[simp] theorem State.raise_phase (s : State) (c : Cause) : (s.raise c).phase = s.phase := rfl
@[simp] theorem State.raise_fault (s : State) (c : Cause) : (s.raise c).fault = true := rfl
@[simp] theorem State.raise_cause (s : State) (c : Cause) : (s.raise c).cause = c := rfl
@[simp] theorem State.raise_evalid (s : State) (c : Cause) : (s.raise c).evalid = s.evalid := rfl
@[simp] theorem State.raise_maskId (s : State) (c : Cause) : (s.raise c).maskId = s.maskId := rfl
@[simp] theorem State.raise_scores (s : State) (c : Cause) : (s.raise c).scores = s.scores := rfl
@[simp] theorem State.raise_pay (s : State) (c : Cause) : (s.raise c).pay = s.pay := rfl
@[simp] theorem State.raise_bb (s : State) (c : Cause) : (s.raise c).bb = s.bb := rfl
@[simp] theorem State.raise_fin (s : State) (c : Cause) : (s.raise c).fin = s.fin := rfl
@[simp] theorem State.raise_gen (s : State) (c : Cause) : (s.raise c).gen = s.gen := rfl
@[simp] theorem State.raise_mx (s : State) (c : Cause) : (s.raise c).mx = s.mx := rfl
@[simp] theorem State.raise_pending (s : State) (c : Cause) : (s.raise c).pending = s.pending := rfl
@[simp] theorem State.raise_resp (s : State) (c : Cause) : (s.raise c).resp = some ⟨false, 0⟩ := rfl

@[simp] theorem State.ignored_cfg (s : State) : s.ignored.cfg = s.cfg := rfl
@[simp] theorem State.ignored_payLen (s : State) : s.ignored.payLen = s.payLen := rfl
@[simp] theorem State.ignored_phase (s : State) : s.ignored.phase = s.phase := rfl
@[simp] theorem State.ignored_fault (s : State) : s.ignored.fault = s.fault := rfl
@[simp] theorem State.ignored_cause (s : State) : s.ignored.cause = s.cause := rfl
@[simp] theorem State.ignored_evalid (s : State) : s.ignored.evalid = s.evalid := rfl
@[simp] theorem State.ignored_maskId (s : State) : s.ignored.maskId = s.maskId := rfl
@[simp] theorem State.ignored_scores (s : State) : s.ignored.scores = s.scores := rfl
@[simp] theorem State.ignored_pay (s : State) : s.ignored.pay = s.pay := rfl
@[simp] theorem State.ignored_bb (s : State) : s.ignored.bb = s.bb := rfl
@[simp] theorem State.ignored_fin (s : State) : s.ignored.fin = s.fin := rfl
@[simp] theorem State.ignored_gen (s : State) : s.ignored.gen = s.gen := rfl
@[simp] theorem State.ignored_mx (s : State) : s.ignored.mx = s.mx := rfl
@[simp] theorem State.ignored_pending (s : State) : s.ignored.pending = s.pending := rfl
@[simp] theorem State.ignored_resp (s : State) : s.ignored.resp = some ⟨false, 0⟩ := rfl

@[simp] theorem State.wait_cfg (s : State) : s.wait.cfg = s.cfg := rfl
@[simp] theorem State.wait_payLen (s : State) : s.wait.payLen = s.payLen := rfl
@[simp] theorem State.wait_phase (s : State) : s.wait.phase = s.phase := rfl
@[simp] theorem State.wait_fault (s : State) : s.wait.fault = s.fault := rfl
@[simp] theorem State.wait_cause (s : State) : s.wait.cause = s.cause := rfl
@[simp] theorem State.wait_evalid (s : State) : s.wait.evalid = s.evalid := rfl
@[simp] theorem State.wait_maskId (s : State) : s.wait.maskId = s.maskId := rfl
@[simp] theorem State.wait_scores (s : State) : s.wait.scores = s.scores := rfl
@[simp] theorem State.wait_pay (s : State) : s.wait.pay = s.pay := rfl
@[simp] theorem State.wait_bb (s : State) : s.wait.bb = s.bb := rfl
@[simp] theorem State.wait_fin (s : State) : s.wait.fin = s.fin := rfl
@[simp] theorem State.wait_gen (s : State) : s.wait.gen = s.gen := rfl
@[simp] theorem State.wait_mx (s : State) : s.wait.mx = s.mx := rfl
@[simp] theorem State.wait_pending (s : State) : s.wait.pending = s.pending := rfl
@[simp] theorem State.wait_resp (s : State) : s.wait.resp = none := rfl

@[simp] theorem State.taken_cfg (s : State) : s.taken.cfg = s.cfg := rfl
@[simp] theorem State.taken_payLen (s : State) : s.taken.payLen = s.payLen := rfl
@[simp] theorem State.taken_phase (s : State) : s.taken.phase = s.phase := rfl
@[simp] theorem State.taken_fault (s : State) : s.taken.fault = s.fault := rfl
@[simp] theorem State.taken_cause (s : State) : s.taken.cause = s.cause := rfl
@[simp] theorem State.taken_evalid (s : State) : s.taken.evalid = s.evalid := rfl
@[simp] theorem State.taken_maskId (s : State) : s.taken.maskId = s.maskId := rfl
@[simp] theorem State.taken_scores (s : State) : s.taken.scores = s.scores := rfl
@[simp] theorem State.taken_pay (s : State) : s.taken.pay = s.pay := rfl
@[simp] theorem State.taken_bb (s : State) : s.taken.bb = s.bb := rfl
@[simp] theorem State.taken_fin (s : State) : s.taken.fin = s.fin := rfl
@[simp] theorem State.taken_gen (s : State) : s.taken.gen = s.gen := rfl
@[simp] theorem State.taken_mx (s : State) : s.taken.mx = s.mx := rfl
@[simp] theorem State.taken_pending (s : State) : s.taken.pending = s.pending.tail := rfl
@[simp] theorem State.taken_resp (s : State) : s.taken.resp = s.resp := rfl

@[simp] theorem State.restart_cfg (s : State) : s.restart.cfg = State.reset.cfg := rfl
@[simp] theorem State.restart_payLen (s : State) : s.restart.payLen = State.reset.payLen := rfl
@[simp] theorem State.restart_phase (s : State) : s.restart.phase = State.reset.phase := rfl
@[simp] theorem State.restart_fault (s : State) : s.restart.fault = State.reset.fault := rfl
@[simp] theorem State.restart_cause (s : State) : s.restart.cause = State.reset.cause := rfl
@[simp] theorem State.restart_evalid (s : State) : s.restart.evalid = State.reset.evalid := rfl
@[simp] theorem State.restart_maskId (s : State) : s.restart.maskId = State.reset.maskId := rfl
@[simp] theorem State.restart_scores (s : State) : s.restart.scores = State.reset.scores := rfl
@[simp] theorem State.restart_pay (s : State) : s.restart.pay = State.reset.pay := rfl
@[simp] theorem State.restart_bb (s : State) : s.restart.bb = State.reset.bb := rfl
@[simp] theorem State.restart_fin (s : State) : s.restart.fin = State.reset.fin := rfl
@[simp] theorem State.restart_gen (s : State) : s.restart.gen = State.reset.gen := rfl
@[simp] theorem State.restart_mx (s : State) : s.restart.mx = State.reset.mx := rfl
@[simp] theorem State.restart_pending (s : State) : s.restart.pending = s.pending := rfl
@[simp] theorem State.restart_resp (s : State) : s.restart.resp = State.reset.resp := rfl

@[simp] theorem State.hardReset_eq (s : State) : s.hardReset = s.restart := rfl

/-- The views read only `CFG`; lengths read only their buffer. -/
@[simp] theorem State.respond_version (s : State) (d : Data) : (s.respond d).version = s.version := rfl
@[simp] theorem State.respond_side (s : State) (d : Data) : (s.respond d).side = s.side := rfl
@[simp] theorem State.respond_blocks (s : State) (d : Data) : (s.respond d).blocks = s.blocks := rfl
@[simp] theorem State.respond_dcap (s : State) (d : Data) : (s.respond d).dcap = s.dcap := rfl
@[simp] theorem State.respond_capBits (s : State) (d : Data) : (s.respond d).capBits = s.capBits := rfl
@[simp] theorem State.respond_bbLen (s : State) (d : Data) : (s.respond d).bbLen = s.bbLen := rfl
@[simp] theorem State.respond_cwLen (s : State) (d : Data) : (s.respond d).cwLen = s.cwLen := rfl
@[simp] theorem State.respond_genLen (s : State) (d : Data) : (s.respond d).genLen = s.genLen := rfl
@[simp] theorem State.raise_version (s : State) (c : Cause) : (s.raise c).version = s.version := rfl
@[simp] theorem State.raise_side (s : State) (c : Cause) : (s.raise c).side = s.side := rfl
@[simp] theorem State.raise_blocks (s : State) (c : Cause) : (s.raise c).blocks = s.blocks := rfl
@[simp] theorem State.raise_dcap (s : State) (c : Cause) : (s.raise c).dcap = s.dcap := rfl
@[simp] theorem State.raise_capBits (s : State) (c : Cause) : (s.raise c).capBits = s.capBits := rfl
@[simp] theorem State.raise_bbLen (s : State) (c : Cause) : (s.raise c).bbLen = s.bbLen := rfl
@[simp] theorem State.raise_cwLen (s : State) (c : Cause) : (s.raise c).cwLen = s.cwLen := rfl
@[simp] theorem State.raise_genLen (s : State) (c : Cause) : (s.raise c).genLen = s.genLen := rfl

end Sys2Proof.Machine
end

