-- ==== Sys2Proof/Laws/Ops.lean ====
section
/-! SUPPORT. What each shared operation can do, said once. -/

namespace Sys2Proof.Machine

-- Theorems one after another: their checks side by side, each with a stack of its own, take too much memory.
set_option Elab.async false

/-! ## Running a command -/

@[simp] theorem State.perform_fault {s : State} (h : s.fault = true) (r : Except Cause State) :
    s.perform r = .next s.ignored := by simp [State.perform, h]

@[simp] theorem State.perform_error {s : State} (h : s.fault = false) (c : Cause) :
    s.perform (.error c) = .next (s.raise c) := by simp [State.perform, h]

@[simp] theorem State.perform_ok {s : State} (h : s.fault = false) (t : State) :
    s.perform (.ok t) = .next (t.respond 0) := by simp [State.perform, h]

@[simp] theorem State.answer_fault {s : State} (h : s.fault = true) (r : Except Cause Data) :
    s.answer r = .next s.ignored := by simp [State.answer, h]

@[simp] theorem State.answer_error {s : State} (h : s.fault = false) (c : Cause) :
    s.answer (.error c) = .next (s.raise c) := by simp [State.answer, h]

@[simp] theorem State.answer_ok {s : State} (h : s.fault = false) (d : Data) :
    s.answer (.ok d) = .next (s.respond d) := by simp [State.answer, h]

/-- Everything a command that responds 0 can do. -/
theorem State.perform_cases {s t : State} {r : Except Cause State} (h : s.perform r = .next t) :
    (s.fault = true ∧ t = s.ignored) ∨
    (s.fault = false ∧ ∃ c, r = .error c ∧ t = s.raise c) ∨
    (s.fault = false ∧ ∃ u, r = .ok u ∧ t = u.respond 0) := by
  cases hf : s.fault <;> cases r <;> simp_all [State.perform]

/-- Everything a command that only responds can do. -/
theorem State.answer_cases {s t : State} {r : Except Cause Data} (h : s.answer r = .next t) :
    (s.fault = true ∧ t = s.ignored) ∨
    (s.fault = false ∧ ∃ c, r = .error c ∧ t = s.raise c) ∨
    (s.fault = false ∧ ∃ d, r = .ok d ∧ t = s.respond d) := by
  cases hf : s.fault <;> cases r <;> simp_all [State.answer]

/-- A command that responds 0 always answers a next state. -/
theorem State.perform_next (s : State) (r : Except Cause State) : ∃ t, s.perform r = .next t := by
  cases hf : s.fault <;> cases r <;> simp [State.perform, hf]

/-- A command that only responds always answers a next state. -/
theorem State.answer_next (s : State) (r : Except Cause Data) : ∃ t, s.answer r = .next t := by
  cases hf : s.fault <;> cases r <;> simp [State.answer, hf]

/-- The phase check passes exactly in its phase. -/
theorem State.inPhase_ok {s t : State} {p : Phase} {r : Except Cause State} :
    s.inPhase p r = .ok t ↔ s.phase = p ∧ r = .ok t := by
  simp only [State.inPhase]; split <;> simp_all

@[simp] theorem State.inPhase_eq {s : State} {p : Phase} (h : s.phase = p) (r : Except Cause State) :
    s.inPhase p r = r := by simp [State.inPhase, h]

@[simp] theorem State.inPhase_ne {s : State} {p : Phase} (h : s.phase ≠ p) (r : Except Cause State) :
    s.inPhase p r = .error .seq := by simp [State.inPhase, h]

/-! ## Appending bits -/

@[simp] theorem bitsOf_length (v w : Nat) : (bitsOf v w).length = w := by simp [bitsOf]

/-- `append` is all or nothing (42_bitstream.md R161). -/
theorem State.append_ok {s t : State} {v w : Nat} :
    s.append v w = .ok t ↔ s.bbLen + w ≤ s.capBits ∧ t = { s with bb := s.bb ++ bitsOf v w } := by
  simp only [State.append]
  split <;> constructor <;> intro h
  · simp at h
  · omega
  · exact ⟨by omega, by simpa using h.symm⟩
  · simp [h.2]

/-- The data codewords of a bit string are one per eight bits. -/
@[simp] theorem codewordsOf_length : ∀ bits : List Bool, (codewordsOf bits).length = bits.length / 8
  | _ :: _ :: _ :: _ :: _ :: _ :: _ :: _ :: rest => by
    simp only [codewordsOf, List.length_cons, codewordsOf_length rest]; omega
  | [] | [_] | [_, _] | [_, _, _] | [_, _, _, _] | [_, _, _, _, _] | [_, _, _, _, _, _]
  | [_, _, _, _, _, _, _] => by simp [codewordsOf]

/-! ## Element memories -/

/-- A read after a write to the same index gives the value written. -/
theorem Memory.read_write_same (m : Memory) (i : Nat) (v : PayUnit) : (m.write i v).read i = some v := by
  induction m with
  | nil => simp [Memory.write, Memory.read]
  | cons x rest ih =>
    obtain ⟨j, x⟩ := x
    simp only [Memory.write]
    split
    · simp [Memory.read]
    · split
      · simp [Memory.read]
      · rename_i _ hne
        simpa [Memory.read, List.lookup_cons, beq_false_of_ne hne] using ih

/-- A write leaves every other index alone. -/
theorem Memory.read_write_ne (m : Memory) {i k : Nat} (v : PayUnit) (h : k ≠ i) :
    (m.write i v).read k = m.read k := by
  induction m with
  | nil => simp [Memory.write, Memory.read, List.lookup_cons, beq_false_of_ne h]
  | cons x rest ih =>
    obtain ⟨j, x⟩ := x
    simp only [Memory.write]
    split
    · simp [Memory.read, List.lookup_cons, beq_false_of_ne h]
    · split
      · rename_i _ hij
        subst hij
        simp [Memory.read, List.lookup_cons, beq_false_of_ne h]
      · simp only [Memory.read, List.lookup_cons] at ih ⊢
        split <;> first | rfl | exact ih

/-- The canonical form says that each index is below the next one. -/
theorem Memory.wf_cons {x : Nat × PayUnit} {m : Memory} :
    Memory.wf (x :: m) = true ↔ (∀ y ∈ m.head?, x.1 < y.1) ∧ m.wf = true := by
  cases m <;> simp [Memory.wf]

/-- The first index after a write is the index written or the first one before. -/
theorem Memory.write_head (m : Memory) (i : Nat) (v : PayUnit) :
    ∀ y ∈ (m.write i v).head?, y.1 = i ∨ y ∈ m.head? := by
  cases m with
  | nil => simp [Memory.write]
  | cons x rest =>
    obtain ⟨j, x⟩ := x
    simp only [Memory.write]
    split
    · simp
    · split <;> simp

/-- A write keeps the canonical form. -/
theorem Memory.write_wf (m : Memory) (i : Nat) (v : PayUnit) (h : m.wf = true) :
    (m.write i v).wf = true := by
  induction m with
  | nil => simp [Memory.write, Memory.wf]
  | cons x rest ih =>
    obtain ⟨j, x⟩ := x
    have hr := Memory.wf_cons.mp h
    simp only [Memory.write]
    split
    · rename_i hij
      exact Memory.wf_cons.mpr ⟨by simpa using hij, h⟩
    · split
      · rename_i _ hij
        exact Memory.wf_cons.mpr ⟨by subst hij; exact hr.1, hr.2⟩
      · rename_i h1 h2
        refine Memory.wf_cons.mpr ⟨fun y hy => ?_, ih hr.2⟩
        rcases Memory.write_head rest i v y hy with hy | hy
        · show j < y.1
          omega
        · exact hr.1 y hy

/-- A write adds no entry but the one written. -/
theorem Memory.mem_write {m : Memory} {i : Nat} {v : PayUnit} {e : Nat × PayUnit}
    (h : e ∈ m.write i v) : e = (i, v) ∨ e ∈ m := by
  induction m with
  | nil => simpa [Memory.write] using h
  | cons x rest ih =>
    obtain ⟨j, x⟩ := x
    simp only [Memory.write] at h
    split at h
    · simpa using h
    · split at h
      · simp only [List.mem_cons] at h ⊢
        tauto
      · simp only [List.mem_cons] at h ⊢
        rcases h with h | h
        · exact .inr (.inl h)
        · rcases ih h with h | h
          · exact .inl h
          · exact .inr (.inr h)

/-- The reset state's memory is in canonical form. -/
theorem State.reset_pay_wf : State.reset.pay.wf = true := rfl

/-! ## The matrix -/

/-- The matrix is a square of the given side. -/
def Mx.square (n : Nat) (m : Mx) : Prop := m.length = n ∧ ∀ row ∈ m, row.length = n

/-- Writing a module keeps the square. -/
theorem Mx.put_square {n : Nat} {m : Mx} (h : m.square n) (r c : Nat) (x : MxModule) :
    (m.put r c x).square n := by
  refine ⟨by simpa [Mx.put] using h.1, fun row hr => ?_⟩
  by_cases hrl : r < m.length
  · rcases List.mem_or_eq_of_mem_set hr with hr | hr
    · exact h.2 row hr
    · subst hr
      rw [List.length_set, List.getD_eq_getElem _ _ hrl]
      exact h.2 _ (List.getElem_mem hrl)
  · rw [Mx.put, List.set_eq_of_length_le (by omega)] at hr
    exact h.2 row hr

/-- A module read at the place written is the module written. -/
theorem Mx.at_put_same {n : Nat} {m : Mx} (h : m.square n) {r c : Nat} (hr : r < n) (hc : c < n)
    (x : MxModule) : (m.put r c x).at r c = x := by
  have hrl : r < m.length := by rw [h.1]; exact hr
  have hcl : c < (m[r]).length := by rw [h.2 _ (List.getElem_mem hrl)]; exact hc
  simp [Mx.at, Mx.put, hrl, hcl]

/-- A write leaves every other place alone. -/
theorem Mx.at_put_ne {m : Mx} {r c r' c' : Nat} (h : (r', c') ≠ (r, c)) (x : MxModule) :
    (m.put r c x).at r' c' = m.at r' c' := by
  simp only [Mx.at, Mx.put, List.getD_eq_getElem?_getD, List.getElem?_set]
  by_cases hr : r = r'
  · subst hr
    have hc : c ≠ c' := fun hc => h (by rw [hc])
    by_cases hrl : r < m.length
    · simp [hrl, List.getElem?_set_ne hc]
    · simp [hrl]
  · simp [hr]

/-- Writing a value keeps the square. -/
theorem Mx.putVal_square {n : Nat} {m : Mx} (h : m.square n) (r c : Nat) (v : Bool) :
    (m.putVal r c v).square n := Mx.put_square h r c _

/-- A place outside the held matrix reads as the blank module, and writing there does nothing. -/
theorem Mx.put_at (m : Mx) (r c : Nat) (x : MxModule) :
    (m.put r c x).at r c = x ∨ (m.put r c x) = m := by
  by_cases hr : r < m.length
  · by_cases hc : c < (m[r]).length
    · left; simp [Mx.at, Mx.put, hr, hc]
    · right
      rw [Mx.put, List.getD_eq_getElem _ _ hr, List.set_eq_of_length_le (by omega : (m[r]).length ≤ c)]
      simp
  · right; rw [Mx.put, List.set_eq_of_length_le (by omega)]

/-- Writing a value changes no tag. -/
@[simp] theorem Mx.putVal_tag (m : Mx) (r c : Nat) (v : Bool) (r' c' : Nat) :
    ((m.putVal r c v).at r' c').tag = (m.at r' c').tag := by
  by_cases he : (r', c') = (r, c)
  · obtain ⟨rfl, rfl⟩ := Prod.mk.inj he
    rcases Mx.put_at m r' c' { m.at r' c' with val := v } with h | h
    · rw [Mx.putVal, h]
    · rw [Mx.putVal, h]
  · rw [Mx.putVal, Mx.at_put_ne he]

/-- Every module of the matrix has a property. -/
def Mx.all (P : MxModule → Prop) (m : Mx) : Prop := ∀ row ∈ m, ∀ x ∈ row, P x

/-- Writing a module with the property keeps the property of all. -/
theorem Mx.put_all {P : MxModule → Prop} {m : Mx} (h : m.all P) (r c : Nat) {x : MxModule} (hx : P x) :
    (m.put r c x).all P := by
  intro row hrow y hy
  rcases List.mem_or_eq_of_mem_set hrow with hrow | rfl
  · exact h row hrow y hy
  · rcases List.mem_or_eq_of_mem_set hy with hy | rfl
    · by_cases hr : r < m.length
      · rw [List.getD_eq_getElem _ _ hr] at hy
        exact h _ (List.getElem_mem hr) y hy
      · rw [List.getD_eq_default _ _ (by omega)] at hy
        simp at hy
    · exact hx

/-- A module read anywhere has the property of all, if the blank module has it. -/
theorem Mx.at_all {P : MxModule → Prop} {m : Mx} (h : m.all P) (hb : P blankModule) (r c : Nat) :
    P (m.at r c) := by
  simp only [Mx.at]
  by_cases hr : r < m.length
  · rw [List.getD_eq_getElem _ _ hr]
    by_cases hc : c < (m[r]).length
    · rw [List.getD_eq_getElem _ _ hc]
      exact h _ (List.getElem_mem hr) _ (List.getElem_mem hc)
    · rwa [List.getD_eq_default m[r] _ (by omega)]
  · rw [List.getD_eq_default m _ (by omega)]
    simpa using hb

/-- A change of every module keeps the square. -/
theorem Mx.mapModules_square {n : Nat} {m : Mx} (h : m.square n) (f : Nat → Nat → MxModule → MxModule) :
    (m.mapModules f).square n := by
  refine ⟨by simpa [Mx.mapModules] using h.1, fun row hr => ?_⟩
  obtain ⟨i, hi, rfl⟩ := List.mem_mapIdx.mp hr
  simpa using h.2 _ (List.getElem_mem hi)

/-- A change of every module, seen at one place inside the square. -/
theorem Mx.at_mapModules {n : Nat} {m : Mx} (h : m.square n) {r c : Nat} (hr : r < n) (hc : c < n)
    (f : Nat → Nat → MxModule → MxModule) : (m.mapModules f).at r c = f r c (m.at r c) := by
  have hrl : r < m.length := by rw [h.1]; exact hr
  have hcl : c < (m[r]).length := by rw [h.2 _ (List.getElem_mem hrl)]; exact hc
  simp [Mx.at, Mx.mapModules, hrl, hcl]

/-- A property that every step of a fold keeps holds at its end. -/
theorem foldl_keeps {α β : Type} (P : β → Prop) {f : β → α → β} (hf : ∀ b a, P b → P (f b a)) :
    ∀ (l : List α) (b : β), P b → P (l.foldl f b)
  | [], _, hb => hb
  | a :: l, b, hb => foldl_keeps P hf l (f b a) (hf b a hb)

end Sys2Proof.Machine
end

