-- ==== Sys2Proof/Laws/Control.lean ====
section
/-! SUPPORT. Everything a step can do, said once, and everything a list of stages can do. -/

namespace Sys2Proof.Machine

-- Theorems one after another: their checks side by side, each with a stack of its own, take too much memory.
set_option Elab.async false

/-- The cases of a step: waiting, a hardware reset, a command, an illegal descriptor. -/
theorem step_cases {s t : State} (h : step s = .next t) :
    (s.pending = [] ∧ t = s.wait) ∨
    (∃ rest, s.pending = .hardReset :: rest ∧ t = s.taken.hardReset) ∨
    (∃ w rest i, s.pending = .command w :: rest ∧ decode w = .ok i ∧ exec i s.taken = .next t) ∨
    (∃ w rest e, s.pending = .command w :: rest ∧ decode w = .error e ∧ s.taken.illegal = .next t) := by
  unfold step at h
  split at h
  · rename_i hp
    exact .inl ⟨hp, by injection h with h; exact h.symm⟩
  · rename_i rest hp
    exact .inr (.inl ⟨rest, hp, by injection h with h; exact h.symm⟩)
  · rename_i w rest hp
    split at h
    · rename_i i hd
      exact .inr (.inr (.inl ⟨w, rest, i, hp, hd, h⟩))
    · rename_i e hd
      exact .inr (.inr (.inr ⟨w, rest, e, hp, hd, h⟩))

/-- Stages that all succeed, from one state to another. -/
def stagesOk : List (State → Except Cause State) → State → State → Prop
  | [], s, u => s = u
  | f :: fs, s, u => ∃ t, f s = .ok t ∧ stagesOk fs t u

/-- A run of stages succeeds as a whole or stops at its first fault (46_control.md R275). -/
theorem runThrough_cases : ∀ (fs : List (State → Except Cause State)) (s : State),
    (∃ u, stagesOk fs s u ∧ runThrough fs s = u.respond 0) ∨
    (∃ pre f post u c, fs = pre ++ f :: post ∧ stagesOk pre s u ∧ f u = .error c ∧
      runThrough fs s = u.raise c)
  | [], s => .inl ⟨s, rfl, rfl⟩
  | f :: fs, s => by
    cases hf : f s with
    | error c => exact .inr ⟨[], f, fs, s, c, rfl, rfl, hf, by simp [runThrough, hf]⟩
    | ok t =>
      rcases runThrough_cases fs t with ⟨u, hu, hr⟩ | ⟨pre, g, post, u, c, rfl, hu, hg, hr⟩
      · exact .inl ⟨u, ⟨t, hf, hu⟩, by simp [runThrough, hf, hr]⟩
      · exact .inr ⟨f :: pre, g, post, u, c, rfl, ⟨t, hf, hu⟩, hg, by simp [runThrough, hf, hr]⟩

/-- A step of one unit writes no other unit's place (60_exceptions.md R330). -/
theorem stepUnit_length (us : Units) (k : Nat) : (stepUnit us k).length = us.length := by
  unfold stepUnit
  split
  · rfl
  · split <;> simp

end Sys2Proof.Machine
end

