-- ==== Sys2Proof/Laws/Decode.lean ====
section
/-! SUPPORT. The fields of a descriptor built from fields (30_encoding.md R111, R115). -/

namespace Sys2Proof

-- Theorems one after another: their checks side by side, each with a stack of its own, take too much memory.
set_option Elab.async false

/-- Every bit of a descriptor is a bit of one of its fields. -/
theorem descriptor_getLsbD (op : BitVec 8) (a : BitVec 24) (b : BitVec 32) (j : Nat) :
    (descriptor op a b).getLsbD j =
      if j < 24 + 32 then (if j < 32 then b.getLsbD j else a.getLsbD (j - 32))
      else op.getLsbD (j - (24 + 32)) := by
  rw [show descriptor op a b = (op ++ (a ++ b) : BitVec (8 + (24 + 32))) from rfl, BitVec.getLsbD_append,
    BitVec.getLsbD_append]

@[simp] theorem opField_descriptor (op : BitVec 8) (a : BitVec 24) (b : BitVec 32) :
    opField (descriptor op a b) = op := by
  ext i hi
  simp only [opField, BitVec.getElem_extractLsb', descriptor_getLsbD]
  simp [hi]

@[simp] theorem aField_descriptor (op : BitVec 8) (a : BitVec 24) (b : BitVec 32) :
    aField (descriptor op a b) = a := by
  ext i hi
  simp only [aField, BitVec.getElem_extractLsb', descriptor_getLsbD]
  simp [hi, show 32 + i < 56 by omega]

@[simp] theorem bField_descriptor (op : BitVec 8) (a : BitVec 24) (b : BitVec 32) :
    bField (descriptor op a b) = b := by
  ext i hi
  simp only [bField, BitVec.getElem_extractLsb', descriptor_getLsbD]
  simp [hi, show i < 56 by omega]

/-- Decoding a descriptor built from fields looks at those fields. -/
theorem decode_descriptor (op : BitVec 8) (a : BitVec 24) (b : BitVec 32) :
    decode (descriptor op a b) = decodeFields op a b := by
  rw [decode, opField_descriptor, aField_descriptor, bField_descriptor]

end Sys2Proof
end

