-- ==== Sys2Proof/Laws/Matrix.lean ====
section
/-! SUPPORT. What the matrix operations keep: the square, the tags, and that no module is tagged quiet. -/

namespace Sys2Proof.Machine

-- Theorems one after another: their checks side by side, each with a stack of its own, take too much memory.
set_option Elab.async false

/-- Not tagged quiet (10_state.md R33). -/
def MxModule.notQuiet (x : MxModule) : Prop := x.tag ≠ .quiet

/-- The two properties together: a square of a side without a quiet module. -/
def Mx.sound (n : Nat) (m : Mx) : Prop := m.square n ∧ m.all MxModule.notQuiet

theorem Mx.put_sound {n : Nat} {m : Mx} (h : m.sound n) (r c : Nat) {x : MxModule} (hx : x.tag ≠ .quiet) :
    (m.put r c x).sound n := ⟨Mx.put_square h.1 r c x, Mx.put_all h.2 r c hx⟩

theorem Mx.at_notQuiet {n : Nat} {m : Mx} (h : m.sound n) (r c : Nat) : (m.at r c).tag ≠ .quiet :=
  Mx.at_all h.2 (by simp [MxModule.notQuiet, blankModule]) r c

theorem Mx.putVal_sound {n : Nat} {m : Mx} (h : m.sound n) (r c : Nat) (v : Bool) :
    (m.putVal r c v).sound n := Mx.put_sound h r c (Mx.at_notQuiet h r c)

/-! ## The function patterns -/

theorem blankMatrix_sound (n : Nat) : (blankMatrix n).sound n := by
  refine ⟨⟨by simp [blankMatrix], fun row h => ?_⟩, fun row h x hx => ?_⟩
  · rw [(List.mem_replicate.mp h).2]; simp
  · rw [(List.mem_replicate.mp h).2] at hx
    rw [(List.mem_replicate.mp hx).2]
    simp [MxModule.notQuiet, blankModule]

theorem finderModule_notQuiet (i j : Nat) : (finderModule i j).tag ≠ .quiet := by
  simp only [finderModule]; split <;> simp

theorem putFinder_sound {n : Nat} {m : Mx} (h : m.sound n) (r c : Nat) : (putFinder m r c).sound n :=
  foldl_keeps (fun m => Mx.sound n m) (fun _ _ hm => by
    split
    · exact Mx.put_sound hm _ _ (finderModule_notQuiet _ _)
    · exact hm) _ _ h

theorem putTiming_sound {n : Nat} {m : Mx} (h : m.sound n) (r c i : Nat) : (putTiming m r c i).sound n := by
  rw [putTiming]; split
  · exact Mx.put_sound h _ _ (by simp)
  · exact h

theorem putAlignment_sound {n : Nat} {m : Mx} (h : m.sound n) (r c : Nat) : (putAlignment m r c).sound n := by
  rw [putAlignment]; split
  · exact h
  · exact foldl_keeps (fun m => Mx.sound n m) (fun _ _ hm => Mx.put_sound hm _ _ (by simp)) _ _ h

/-- The function matrix is a square of the version's side without a quiet module (44_matrix.md R221). -/
theorem functionMatrix_sound (v : Nat) : (functionMatrix v).sound (sideOf v) := by
  refine Mx.put_sound ?_ _ _ (by simp)
  have hv : ∀ {m : Mx}, m.sound (sideOf v) → (reserveVersion v m).sound (sideOf v) := by
    intro m h
    rw [reserveVersion]; split
    · exact foldl_keeps (fun m => Mx.sound _ m) (fun _ _ hm => Mx.put_sound hm _ _ (by simp)) _ _ h
    · exact h
  refine hv (foldl_keeps (fun m => Mx.sound _ m) (fun _ _ hm => Mx.put_sound hm _ _ (by simp)) _ _ ?_)
  refine foldl_keeps (fun m => Mx.sound _ m) (fun _ _ hm => putAlignment_sound hm _ _) _ _ ?_
  refine foldl_keeps (fun m => Mx.sound _ m) (fun _ _ hm => putTiming_sound hm _ _ _) _ _ ?_
  refine foldl_keeps (fun m => Mx.sound _ m) (fun _ _ hm => putTiming_sound hm _ _ _) _ _ ?_
  exact putFinder_sound (putFinder_sound (putFinder_sound (blankMatrix_sound _) _ _) _ _) _ _

/-! ## The stream, the mask, the format and version values -/

theorem placeStream_sound {n : Nat} {m : Mx} (h : m.sound n) (side : Nat) (fin : List Byte) :
    (placeStream m side fin).sound n :=
  foldl_keeps (fun m => Mx.sound n m) (fun _ _ hm => Mx.putVal_sound hm _ _ _) _ _ h

/-- `MXDATA` changes no tag (44_matrix.md R223). -/
theorem placeStream_tag (m : Mx) (side : Nat) (fin : List Byte) (r c : Nat) :
    ((placeStream m side fin).at r c).tag = (m.at r c).tag :=
  foldl_keeps (fun m' : Mx => (m'.at r c).tag = (m.at r c).tag)
    (fun _ _ hm => by rw [Mx.putVal_tag]; exact hm) _ _ rfl

@[simp] theorem maskModule_tag (k r c : Nat) (x : MxModule) : (maskModule k r c x).tag = x.tag := by
  simp only [maskModule]; split <;> rfl

theorem maskMatrix_sound {n : Nat} {m : Mx} (h : m.sound n) (k : Nat) : (maskMatrix k m).sound n := by
  refine ⟨Mx.mapModules_square h.1 _, fun row hrow x hx => ?_⟩
  obtain ⟨i, hi, rfl⟩ := List.mem_mapIdx.mp hrow
  obtain ⟨j, hj, rfl⟩ := List.mem_mapIdx.mp hx
  simpa [MxModule.notQuiet] using h.2 _ (List.getElem_mem hi) _ (List.getElem_mem hj)

/-- `MKAPPLY` changes no tag (45_mask.md R259). -/
theorem maskMatrix_tag {n : Nat} {m : Mx} (h : m.square n) (k : Nat) {r c : Nat} (hr : r < n) (hc : c < n) :
    ((maskMatrix k m).at r c).tag = (m.at r c).tag := by
  rw [maskMatrix, Mx.at_mapModules h hr hc, maskModule_tag]

theorem writeFormat_sound {n : Nat} {m : Mx} (h : m.sound n) (side fmt : Nat) :
    (writeFormat side fmt m).sound n :=
  foldl_keeps (fun m => Mx.sound n m)
    (fun _ _ hm => Mx.putVal_sound (Mx.putVal_sound hm _ _ _) _ _ _) _ _ h

/-- `MKFMT` changes no tag (45_mask.md R262). -/
theorem writeFormat_tag (side fmt : Nat) (m : Mx) (r c : Nat) :
    ((writeFormat side fmt m).at r c).tag = (m.at r c).tag :=
  foldl_keeps (fun m' : Mx => (m'.at r c).tag = (m.at r c).tag)
    (fun _ _ hm => by rw [Mx.putVal_tag, Mx.putVal_tag]; exact hm) _ _ rfl

theorem writeVersion_sound {n : Nat} {m : Mx} (h : m.sound n) (side vinfo : Nat) :
    (writeVersion side vinfo m).sound n :=
  foldl_keeps (fun m => Mx.sound n m)
    (fun _ _ hm => Mx.putVal_sound (Mx.putVal_sound hm _ _ _) _ _ _) _ _ h

/-- `MKVER` changes no tag (45_mask.md R265). -/
theorem writeVersion_tag (side vinfo : Nat) (m : Mx) (r c : Nat) :
    ((writeVersion side vinfo m).at r c).tag = (m.at r c).tag :=
  foldl_keeps (fun m' : Mx => (m'.at r c).tag = (m.at r c).tag)
    (fun _ _ hm => by rw [Mx.putVal_tag, Mx.putVal_tag]; exact hm) _ _ rfl

end Sys2Proof.Machine
end

