-- ==== Sys2Proof/Laws/Packer.lean ====
section
/-! SUPPORT. What reading the payload and packing groups can do. -/

namespace Sys2Proof.Machine

-- Theorems one after another: their checks side by side, each with a stack of its own, take too much memory.
set_option Elab.async false

/-- Units that were read are written and valid (42_bitstream.md R165). -/
theorem readUnits_of_ok {mode : Mode} {pay : Memory} : ∀ {is : List Nat} {us : List PayUnit},
    readUnits mode pay is = .ok us →
      is.map pay.read = us.map some ∧ ∀ u ∈ us, validUnit mode u = true
  | [], us, h => by cases h; exact ⟨rfl, nofun⟩
  | i :: is, us, h => by
    rw [readUnits] at h
    split at h
    · cases h
    · rename_i u hr
      split at h
      · rename_i hv
        split at h
        · cases h
        · rename_i vs hrest
          cases h
          have ih := readUnits_of_ok hrest
          exact ⟨by rw [List.map_cons, List.map_cons, hr, ih.1], List.forall_mem_cons.mpr ⟨hv, ih.2⟩⟩
      · cases h

/-- Units that are written and valid are read (42_bitstream.md R165). -/
theorem readUnits_eq_ok {mode : Mode} {pay : Memory} : ∀ {is : List Nat} {us : List PayUnit},
    is.map pay.read = us.map some → (∀ u ∈ us, validUnit mode u = true) →
      readUnits mode pay is = .ok us
  | [], us, h, _ => by
    rw [List.map_eq_nil_iff.mp h.symm]; rfl
  | i :: is, [], h, _ => by cases h
  | i :: is, u :: us, h, hv => by
    rw [List.map_cons, List.map_cons, List.cons.injEq] at h
    have ih := readUnits_eq_ok h.2 fun x hx => hv x (List.mem_cons_of_mem _ hx)
    rw [readUnits, h.1, ih]
    simp [hv u List.mem_cons_self]

/-- A list of groups packs to the sum of its widths (42_bitstream.md R165). -/
@[simp] theorem groupBits_length (gs : List (Nat × Nat)) : (groupBits gs).length = groupWidth gs := by
  simp [groupBits, groupWidth, List.length_flatMap]

@[simp] theorem padBits_length (n : Nat) : (padBits n).length = 8 * n := by
  simp [padBits, List.length_flatMap, Nat.mul_comm]

/-- A zero value packs to zero bits. -/
@[simp] theorem bitsOf_zero (w : Nat) : bitsOf 0 w = List.replicate w false := by
  apply List.ext_getElem
  · simp
  · intro i h1 h2
    simp [bitsOf]

/-- `CAPBITS` is a multiple of 8 (42_bitstream.md). -/
theorem State.capBits_mod (s : State) : s.capBits % 8 = 0 := by simp [State.capBits]

end Sys2Proof.Machine
end

