-- ==== Sys2Proof/Laws/PerInstr.lean ====
section
/-! SUPPORT. Statements made per instruction. `OwnOpcode`: the opcode in a command's descriptor is that of exactly one
row of the opcode map, the row of its own mnemonic (30_encoding.md R113). -/

namespace Sys2Proof.Laws.OwnOpcode

-- Theorems one after another: their checks side by side, each with a stack of its own, take too much memory.
set_option Elab.async false

/-- The rows with the opcode of the command's descriptor. -/
def rowsOf (i : Instr) : List OpcodeRow :=
  opcodeRows.filter fun r => opField r.pattern == opField (encode i)

/-- The command's opcode is that of its own row alone. -/
def Statement (i : Instr) : Prop := (rowsOf i).map OpcodeRow.mnemonic = [mnemonicOf i]

theorem nop : Statement .nop := by
  simp only [Statement, rowsOf, encode, opField_descriptor, mnemonicOf]; decide

theorem reset : Statement .reset := by
  simp only [Statement, rowsOf, encode, opField_descriptor, mnemonicOf]; decide

theorem start : Statement .start := by
  simp only [Statement, rowsOf, encode, opField_descriptor, mnemonicOf]; decide

theorem release : Statement .release := by
  simp only [Statement, rowsOf, encode, opField_descriptor, mnemonicOf]; decide

theorem run : Statement .run := by
  simp only [Statement, rowsOf, encode, opField_descriptor, mnemonicOf]; decide

theorem rdreg (reg : BitVec 8) : Statement (.rdreg reg) := by
  simp only [Statement, rowsOf, encode, opField_descriptor, mnemonicOf]; decide

theorem wrreg (reg : BitVec 8) (val : Data) : Statement (.wrreg reg val) := by
  simp only [Statement, rowsOf, encode, opField_descriptor, mnemonicOf]; decide

theorem rdpay (idx : Index) : Statement (.rdpay idx) := by
  simp only [Statement, rowsOf, encode, opField_descriptor, mnemonicOf]; decide

theorem wrpay (idx : Index) (val : PayUnit) : Statement (.wrpay idx val) := by
  simp only [Statement, rowsOf, encode, opField_descriptor, mnemonicOf]; decide

theorem rdbit (idx : Index) : Statement (.rdbit idx) := by
  simp only [Statement, rowsOf, encode, opField_descriptor, mnemonicOf]; decide

theorem rdcw (idx : Index) : Statement (.rdcw idx) := by
  simp only [Statement, rowsOf, encode, opField_descriptor, mnemonicOf]; decide

theorem rdmod (row col : BitVec 8) : Statement (.rdmod row col) := by
  simp only [Statement, rowsOf, encode, opField_descriptor, mnemonicOf]; decide

theorem rdgen (idx : Index) : Statement (.rdgen idx) := by
  simp only [Statement, rowsOf, encode, opField_descriptor, mnemonicOf]; decide

theorem gfexp (a : Byte) : Statement (.gfexp a) := by
  simp only [Statement, rowsOf, encode, opField_descriptor, mnemonicOf]; decide

theorem gflog (a : Byte) : Statement (.gflog a) := by
  simp only [Statement, rowsOf, encode, opField_descriptor, mnemonicOf]; decide

theorem gfmul (a b : Byte) : Statement (.gfmul a b) := by
  simp only [Statement, rowsOf, encode, opField_descriptor, mnemonicOf]; decide

theorem gfadd (a b : Byte) : Statement (.gfadd a b) := by
  simp only [Statement, rowsOf, encode, opField_descriptor, mnemonicOf]; decide

theorem pushb (val : BitVec 16) (width : BitVec 5) : Statement (.pushb val width) := by
  simp only [Statement, rowsOf, encode, opField_descriptor, mnemonicOf]; decide

theorem pkmode : Statement .pkmode := by
  simp only [Statement, rowsOf, encode, opField_descriptor, mnemonicOf]; decide

theorem pkcnt : Statement .pkcnt := by
  simp only [Statement, rowsOf, encode, opField_descriptor, mnemonicOf]; decide

theorem pkdata : Statement .pkdata := by
  simp only [Statement, rowsOf, encode, opField_descriptor, mnemonicOf]; decide

theorem pkterm : Statement .pkterm := by
  simp only [Statement, rowsOf, encode, opField_descriptor, mnemonicOf]; decide

theorem pkalign : Statement .pkalign := by
  simp only [Statement, rowsOf, encode, opField_descriptor, mnemonicOf]; decide

theorem pkpad : Statement .pkpad := by
  simp only [Statement, rowsOf, encode, opField_descriptor, mnemonicOf]; decide

theorem rsgen (n : Index) : Statement (.rsgen n) := by
  simp only [Statement, rowsOf, encode, opField_descriptor, mnemonicOf]; decide

theorem ecc : Statement .ecc := by
  simp only [Statement, rowsOf, encode, opField_descriptor, mnemonicOf]; decide

theorem mxfunc : Statement .mxfunc := by
  simp only [Statement, rowsOf, encode, opField_descriptor, mnemonicOf]; decide

theorem mxdata : Statement .mxdata := by
  simp only [Statement, rowsOf, encode, opField_descriptor, mnemonicOf]; decide

theorem mkeval (m : Index) : Statement (.mkeval m) := by
  simp only [Statement, rowsOf, encode, opField_descriptor, mnemonicOf]; decide

theorem mksel : Statement .mksel := by
  simp only [Statement, rowsOf, encode, opField_descriptor, mnemonicOf]; decide

theorem mkapply : Statement .mkapply := by
  simp only [Statement, rowsOf, encode, opField_descriptor, mnemonicOf]; decide

theorem mkfmt : Statement .mkfmt := by
  simp only [Statement, rowsOf, encode, opField_descriptor, mnemonicOf]; decide

theorem mkver : Statement .mkver := by
  simp only [Statement, rowsOf, encode, opField_descriptor, mnemonicOf]; decide

end Sys2Proof.Laws.OwnOpcode
end

