-- ==== Sys2Proof/Laws/ReedSolomon.lean ====
section
/-! SUPPORT. Lengths in the Reed-Solomon encoder: the generator, the division register, the blocks and the
interleaved stream. -/

namespace Sys2Proof.Machine

-- Theorems one after another: their checks side by side, each with a stack of its own, take too much memory.
set_option Elab.async false

@[simp] theorem mulRoot_length (g : List Byte) (r : Byte) : (mulRoot g r).length = g.length + 1 := by
  simp [mulRoot]

@[simp] theorem rsGenerator_length : ∀ n, (rsGenerator n).length = n + 1
  | 0 => rfl
  | n + 1 => by rw [rsGenerator, mulRoot_length, rsGenerator_length n]

/-- The generator polynomial is monic (43_reed_solomon.md R190). -/
theorem rsGenerator_head : ∀ n, (rsGenerator n).head? = some 1
  | 0 => rfl
  | n + 1 => by
    have h := rsGenerator_head n
    cases hg : rsGenerator n with
    | nil => simp [hg] at h
    | cons a rest =>
      rw [hg] at h
      simp only [List.head?_cons, Option.some.injEq] at h
      subst h
      simp [rsGenerator, mulRoot, hg, gfAdd]

theorem remStep_length {g rem : List Byte} (h : rem.length = g.length) (d : Byte) :
    (remStep g rem d).length = g.length := by
  simp only [remStep, List.length_zipWith, List.length_append, List.length_tail, List.length_cons,
    List.length_nil]
  omega

/-- The division leaves exactly `n` codewords (43_reed_solomon.md R191). -/
@[simp] theorem rsRemainder_length (d : List Byte) (n : Nat) : (rsRemainder d n).length = n := by
  have hl : (rsGenerator n).tail.length = n := by simp
  have := foldl_keeps (fun rem : List Byte => rem.length = (rsGenerator n).tail.length)
    (f := remStep (rsGenerator n).tail) (fun rem d h => remStep_length h d) d (List.replicate n 0)
    (by simp)
  simpa [rsRemainder, hl] using this

theorem splitBlocks_map_length : ∀ (ns : List Nat) (d : List Byte), ns.sum ≤ d.length →
    (splitBlocks ns d).map List.length = ns
  | [], _, _ => rfl
  | n :: ns, d, h => by
    simp only [List.sum_cons] at h
    simp only [splitBlocks, List.map_cons, List.length_take]
    rw [splitBlocks_map_length ns (d.drop n) (by simp; omega)]
    simp; omega

/-- One round takes one element of every sequence that still has one. -/
theorem round_length (j : Nat) : ∀ seqs : List (List Byte),
    (seqs.filterMap fun q => q[j]?).length = (seqs.map fun q => if j < q.length then 1 else 0).sum
  | [] => rfl
  | q :: seqs => by
    rw [List.map_cons, List.sum_cons, ← round_length j seqs]
    by_cases h : j < q.length
    · simp [h]; omega
    · simp [h]

theorem sum_map_add (f g : List Byte → Nat) : ∀ seqs : List (List Byte),
    (seqs.map f).sum + (seqs.map g).sum = (seqs.map fun q => f q + g q).sum
  | [] => rfl
  | q :: seqs => by
    simp only [List.map_cons, List.sum_cons, ← sum_map_add f g seqs]; omega

/-- `n` rounds take at most `n` elements of every sequence and no other. -/
theorem roundRobin_length (seqs : List (List Byte)) : ∀ n,
    (roundRobin n seqs).length = (seqs.map fun q => min n q.length).sum
  | 0 => by simp [roundRobin]
  | n + 1 => by
    have ih := roundRobin_length seqs n
    have hs : roundRobin (n + 1) seqs = roundRobin n seqs ++ seqs.filterMap fun q => q[n]? := by
      simp [roundRobin, List.range_succ, List.flatMap_append]
    rw [hs, List.length_append, ih, round_length, sum_map_add]
    congr 1
    refine List.map_congr_left fun q _ => ?_
    split <;> omega

@[simp] theorem blockLengths_sum (b : BlockInfo) :
    (blockLengths b).sum = b.n1 * b.k1 + b.n2 * (b.k1 + 1) := by
  simp [blockLengths]

/-- The interleaved stream holds every data codeword and every EC codeword (43_reed_solomon.md R195). -/
theorem codewordStream_length (b : BlockInfo) (dcw : List Byte)
    (h : dcw.length = b.n1 * b.k1 + b.n2 * (b.k1 + 1)) :
    (codewordStream b dcw).length =
      b.n1 * b.k1 + b.n2 * (b.k1 + 1) + (b.n1 + b.n2) * b.ecLen := by
  have hm := splitBlocks_map_length (blockLengths b) dcw (by rw [blockLengths_sum, h])
  have hn : (splitBlocks (blockLengths b) dcw).length = b.n1 + b.n2 := by
    rw [← List.length_map (f := List.length), hm]; simp [blockLengths]
  have h1 : ((splitBlocks (blockLengths b) dcw).map fun q => min (dataRounds b) q.length) =
      (blockLengths b).map fun n => min (dataRounds b) n := by
    have := congrArg (List.map fun n => min (dataRounds b) n) hm
    rw [List.map_map] at this
    exact this
  rw [codewordStream, List.length_append, roundRobin_length, roundRobin_length, h1]
  have h2 : ((blockLengths b).map fun n => min (dataRounds b) n) = blockLengths b := by
    refine (List.map_congr_left fun n hn => ?_).trans (List.map_id _)
    simp only [blockLengths, List.mem_append, List.mem_replicate] at hn
    simp only [dataRounds, id]
    split <;> omega
  rw [h2, blockLengths_sum]
  simp [Function.comp_def, hn]

/-- In every row of the EC block table the blocks take up exactly the symbol's codewords, and fit the
depths of the buffers (11_rom_tables.md R71; 10_state.md R31, R32, R34). -/
def rowConsistent (v : Nat) (l : EcLevel) : Bool :=
  let b := blockInfo v l
  b.n1 * b.k1 + b.n2 * (b.k1 + 1) + (b.n1 + b.n2) * b.ecLen == totalCodewords v &&
    8 * dataCapacity v l ≤ Config.bbDepth && totalCodewords v ≤ Config.finDepth &&
    b.ecLen < Config.genDepth

/-- A legal version is 1 to 40 (10_state.md R23). -/
theorem versionLegal_iff {v : Nat} : versionLegal v = true ↔ 1 ≤ v ∧ v ≤ 40 := by
  rw [versionLegal, Bool.and_eq_true]
  exact and_congr decide_eq_true_iff decide_eq_true_iff

theorem rowConsistent_of_legal {v : Nat} (h : versionLegal v = true) (l : EcLevel) :
    rowConsistent v l = true := by
  have hv := versionLegal_iff.mp h
  have key : ∀ k : Fin 40, ∀ l : EcLevel, rowConsistent (k.val + 1) l = true := by
    intro k l
    revert k
    cases l <;> decide +kernel
  have := key ⟨v - 1, by omega⟩ l
  simpa [Nat.sub_add_cancel hv.1] using this

end Sys2Proof.Machine
end

