-- ==== Sys2Proof/Tests/Slice0.lean ====
section
/-! SUPPORT. Small tests against the spec's own examples (95_test_vectors.md and the worked example of each rule), and for
every statement with hypotheses a witness that meets them. -/

namespace Sys2Proof.Tests

open Sys2Proof Sys2Proof.Machine

-- Theorems one after another: their checks side by side, each with a stack of its own, take too much memory.
set_option Elab.async false

/-! ## Helpers -/

/-- The state an answer leaves; every answer is a next state. -/
def outcome : Answer → State
  | .next t => t
  | .fault f => nomatch f
  | .refused _ => State.reset

/-- The response a command gives in a state. -/
def responseTo (i : Instr) (s : State) : Option Response := (outcome (exec i s)).resp

/-- Version 1, level L, Numeric, an empty payload, nothing started. -/
def idle : State := { State.reset with cfg := ⟨1, .L, .numeric⟩ }

/-- The fault state after a command out of phase. -/
def faulted : State := idle.raise .seq

/-- After `START`. -/
def packing : State := { idle with phase := .packing }

/-- A full buffer of zero bits. -/
def zeroBits : List Bool := List.replicate 152 false

/-- After `ECC` of a full buffer of zero bits. -/
def coded : State :=
  { packing with
    bb := zeroBits
    fin := codewordStream (blockInfo 1 .L) (codewordsOf zeroBits)
    gen := rsGenerator 7
    phase := .coded }

/-- A later stage of the same encode. -/
def stage (p : Phase) (mx : Mx) (evalid : BitVec 8) (scores : Vector (BitVec 32) 8) : State :=
  { coded with phase := p, mx := mx, evalid := evalid, scores := scores }

/-- The eight scores of the all-zero version 1 symbol (`test_scores`); the least is mask 0's. -/
def zeroScores : Vector (BitVec 32) 8 := #v[264, 606, 914, 506, 596, 551, 419, 502]

/-- After `MXFUNC`. -/
def laid : State := stage .laid (functionMatrix 1) 0 (Vector.replicate 8 0)

/-- After `MXDATA`. -/
def placed : State := stage .placed (placedMatrix 1 coded.fin) 0 (Vector.replicate 8 0)

/-- After the eight `MKEVAL`. -/
def scored : State := stage .placed (placedMatrix 1 coded.fin) 0xFF#8 zeroScores

/-- After `MKSEL`: mask 0 is selected. -/
def selected : State := stage .selected (placedMatrix 1 coded.fin) 0xFF#8 zeroScores

/-- After `MKAPPLY`. -/
def masked : State := stage .masked (maskMatrix 0 (placedMatrix 1 coded.fin)) 0xFF#8 zeroScores

/-- After `MKFMT`. -/
def formatted : State := stage .formatted (formattedMatrix 1 .L 0 coded.fin) 0xFF#8 zeroScores

/-- After `MKVER`. -/
def finished : State := stage .done (finalMatrix 1 .L 0 coded.fin) 0xFF#8 zeroScores

/-- A version 7 symbol before `MKVER`, its stream all zero. -/
def formattedSeven : State :=
  { formatted with
    cfg := ⟨7, .L, .numeric⟩
    bb := List.replicate 1248 false
    fin := List.replicate 196 0
    mx := functionMatrix 7 }

/-- The text HELLO WORLD at 1-Q in Alphanumeric mode, ready to run (95_test_vectors.md P1). -/
def hello : State :=
  { State.reset with
    cfg := ⟨1, .Q, .alphanumeric⟩
    payLen := 11
    pay := [(0, 0x48), (1, 0x45), (2, 0x4C), (3, 0x4C), (4, 0x4F), (5, 0x20), (6, 0x57), (7, 0x4F),
      (8, 0x52), (9, 0x4C), (10, 0x44)] }

/-- The same text after `START`. -/
def helloPacking : State := { hello with phase := .packing }

/-- Eighteen digits at 1-H, one more than fit (46_control.md R275). -/
def tooLong : State :=
  { State.reset with
    cfg := ⟨1, .H, .numeric⟩
    payLen := 18
    pay := (List.range 18).map fun i => (i, 0x31) }

/-! ## Well-formedness -/

theorem test_wellFormed_register :
    wellFormed (.rdreg 0x0B) = true ∧ wellFormed (.rdreg 0x17) = true ∧ wellFormed (.rdreg 0x0C) = false ∧
    wellFormed (.rdreg 0x18) = false ∧ wellFormed (.wrreg 0 0x3FF) = true ∧
    wellFormed (.wrreg 0 0x400) = false ∧ wellFormed (.wrreg 1 0x1FFF) = true ∧
    wellFormed (.wrreg 1 0x2000) = false ∧ wellFormed (.wrreg 2 0) = false := by decide

theorem test_wellFormed_index :
    wellFormed (.rdpay 8191) = true ∧ wellFormed (.rdpay 8192) = false ∧ wellFormed (.wrpay 8192 0) = false ∧
    wellFormed (.rdbit 23648) = false ∧ wellFormed (.rdcw 3706) = false ∧ wellFormed (.rdmod 177 0) = false ∧
    wellFormed (.rdmod 0 177) = false ∧ wellFormed (.rdgen 31) = false := by decide

theorem test_wellFormed_operand :
    wellFormed (.pushb 0xFFFF 16) = true ∧ wellFormed (.pushb 0 17) = false ∧ wellFormed (.pushb 8 3) = false ∧
    wellFormed (.pushb 1 0) = false ∧ wellFormed (.rsgen 30) = true ∧ wellFormed (.rsgen 0) = false ∧
    wellFormed (.rsgen 31) = false ∧ wellFormed (.mkeval 7) = true ∧ wellFormed (.mkeval 8) = false := by
  decide

/-! ## Decoding: words written out from 30_encoding.md R111 and R113 -/

theorem test_decode_control :
    decode 0x0000000000000000 = .ok .nop ∧ decode 0x0100000000000000 = .ok .reset ∧
    decode 0x0200000000000000 = .ok .start ∧ decode 0x0300000000000000 = .ok .release ∧
    decode 0x0400000000000000 = .ok .run := by decide

theorem test_decode_access :
    decode 0x0800000200000000 = .ok (.rdreg 0x02) ∧ decode 0x0900000000000181 = .ok (.wrreg 0x00 0x181) ∧
    decode 0x0A00000300000000 = .ok (.rdpay 3) ∧ decode 0x0B00123400000048 = .ok (.wrpay 0x1234 0x48) ∧
    decode 0x0C00000200000000 = .ok (.rdbit 2) ∧ decode 0x0D00000D00000000 = .ok (.rdcw 13) ∧
    decode 0x0E000D0800000000 = .ok (.rdmod 13 8) ∧ decode 0x0F00000100000000 = .ok (.rdgen 1) := by decide

theorem test_decode_gf :
    decode 0x1000000000000008 = .ok (.gfexp 8) ∧ decode 0x110000000000001D = .ok (.gflog 29) ∧
    decode 0x120000000000CA53 = .ok (.gfmul 0x53 0xCA) ∧ decode 0x130000000000CA53 = .ok (.gfadd 0x53 0xCA) := by
  decide

theorem test_decode_packer :
    decode 0x200000040000000A = .ok (.pushb 0b1010 4) ∧ decode 0x2100000000000000 = .ok .pkmode ∧
    decode 0x2200000000000000 = .ok .pkcnt ∧ decode 0x2300000000000000 = .ok .pkdata ∧
    decode 0x2400000000000000 = .ok .pkterm ∧ decode 0x2500000000000000 = .ok .pkalign ∧
    decode 0x2600000000000000 = .ok .pkpad := by decide

theorem test_decode_reed_solomon :
    decode 0x3000000700000000 = .ok (.rsgen 7) ∧ decode 0x3100000000000000 = .ok .ecc := by decide

theorem test_decode_matrix_and_mask :
    decode 0x4000000000000000 = .ok .mxfunc ∧ decode 0x4100000000000000 = .ok .mxdata ∧
    decode 0x5000000600000000 = .ok (.mkeval 6) ∧ decode 0x5100000000000000 = .ok .mksel ∧
    decode 0x5200000000000000 = .ok .mkapply ∧ decode 0x5300000000000000 = .ok .mkfmt ∧
    decode 0x5400000000000000 = .ok .mkver := by decide

/-- One reserved bit set in each format (30_encoding.md R111, R114). -/
theorem test_decode_reserved :
    decode 0x0000000000000001 = .error (.reservedBits 0x00) ∧
    decode 0x0800010000000000 = .error (.reservedBits 0x08) ∧
    decode 0x0900010000000000 = .error (.reservedBits 0x09) ∧
    decode 0x0A00000080000000 = .error (.reservedBits 0x0A) ∧
    decode 0x0B00000000010000 = .error (.reservedBits 0x0B) ∧
    decode 0x0E01000000000000 = .error (.reservedBits 0x0E) ∧
    decode 0x1000000000000100 = .error (.reservedBits 0x10) ∧
    decode 0x1200000000010000 = .error (.reservedBits 0x12) ∧
    decode 0x2000002000000000 = .error (.reservedBits 0x20) := by decide

theorem test_decode_unassigned :
    decode 0x0500000000000000 = .error (.unassignedOpcode 0x05) ∧
    decode 0xFF00000000000000 = .error (.unassignedOpcode 0xFF) := by decide

/-- No two rows of the opcode map overlap: wherever both masks look, some pattern bit differs
(30_encoding.md R113). -/
theorem test_opcodeRows_disjoint :
    opcodeRows.Pairwise fun r q => r.pattern &&& (r.mask &&& q.mask) ≠ q.pattern &&& (r.mask &&& q.mask) := by
  decide +kernel

theorem test_decodeTableWord :
    decodeTableWord 64 0x5000000600000000 = some (.mkeval 6) ∧ decodeTableWord 64 0x0500000000000000 = none := by
  decide

/-- A command presented in the reset state is the first one that runs. -/
theorem test_step_from_reset :
    (outcome (step (State.reset.withFetchWord 64 0x0F00000000000000))).resp = some ⟨true, 1⟩ := by
  decide

/-! ## One or two examples per command, from the spec -/

theorem test_nop : responseTo .nop idle = some ⟨true, 0⟩ ∧ responseTo .nop faulted = some ⟨false, 0⟩ := by
  decide

theorem test_reset_clears_fault :
    responseTo .reset faulted = some ⟨true, 0⟩ ∧ (outcome (exec .reset faulted)).statusWord = 0 := by decide

theorem test_start : (outcome (exec .start idle)).statusWord = 0x00000001 := by decide

theorem test_start_bad_version : (outcome (exec .start State.reset)).statusWord = 0x00000410 := by decide

theorem test_release :
    (outcome (exec .release { idle with phase := .done, evalid := 0xFF#8 })).statusWord = 0x00FF0000 := by decide

/-- P1 of 95_test_vectors.md: HELLO WORLD at 1-Q selects mask 6. -/
theorem test_run_hello :
    (outcome (exec .run hello)).statusWord = 0x00FF0008 ∧ (outcome (exec .run hello)).maskId = 6 ∧
    (outcome (exec .run hello)).scores.toList = [734, 498, 628, 553, 755, 564, 432, 814] := by
  decide +kernel

theorem test_run_overflow :
    (outcome (exec .run tooLong)).statusWord = 0x00000511 ∧ (outcome (exec .run tooLong)).bbLen = 14 := by
  decide +kernel

theorem test_rdreg_side : responseTo (.rdreg 0x07) idle = some ⟨true, 21⟩ := by decide

theorem test_rdreg_unassigned : (outcome (exec (.rdreg 0x0C) idle)).cause = .range := by decide

theorem test_wrreg_cfg :
    (outcome (exec (.wrreg 0x00 0x181) idle)).cfg = ⟨1, .Q, .alphanumeric⟩ := by decide

theorem test_wrreg_order :
    (outcome (exec (.wrreg 0x02 0) packing)).cause = .range ∧
    (outcome (exec (.wrreg 0x00 0x400) packing)).cause = .seq := by decide

theorem test_wrpay_then_rdpay :
    responseTo (.rdpay 3) (outcome (exec (.wrpay 3 0x4C) idle)) = some ⟨true, 0x4C⟩ := by decide

theorem test_rdpay_unwritten : (outcome (exec (.rdpay 0) idle)).cause = .uninit := by decide

theorem test_wrpay_keeps_order :
    (outcome (exec (.wrpay 1 7) { idle with pay := [(0, 5), (2, 6)] })).pay = [(0, 5), (1, 7), (2, 6)] := by
  decide

theorem test_rdbit :
    responseTo (.rdbit 2) (outcome (exec .pkmode helloPacking)) = some ⟨true, 1⟩ := by decide

theorem test_rdcw_before_ecc : (outcome (exec (.rdcw 0) packing)).cause = .seq := by decide

theorem test_rdcw_first_ec :
    responseTo (.rdcw 13) (((helloPacking.after pack).after [.ecc])) = some ⟨true, 168⟩ := by decide +kernel

theorem test_rdmod_dark : responseTo (.rdmod 13 8) laid = some ⟨true, 9⟩ := by decide +kernel

theorem test_rdgen :
    responseTo (.rdgen 1) (idle.after [.rsgen 7]) = some ⟨true, 127⟩ ∧
    responseTo (.rdgen 7) (idle.after [.rsgen 7]) = some ⟨true, 117⟩ := by decide +kernel

theorem test_gfexp : responseTo (.gfexp 8) idle = some ⟨true, 0x1D⟩ := by decide

theorem test_gflog :
    responseTo (.gflog 29) idle = some ⟨true, 8⟩ ∧ (outcome (exec (.gflog 0) idle)).statusWord = 0x00000810 := by
  decide

theorem test_gfmul :
    responseTo (.gfmul 2 128) idle = some ⟨true, 0x1D⟩ ∧ responseTo (.gfmul 0x53 0xCA) idle = some ⟨true, 0x8F⟩ ∧
    responseTo (.gfmul 0 77) idle = some ⟨true, 0⟩ := by decide

theorem test_gfadd : responseTo (.gfadd 0x53 0xCA) idle = some ⟨true, 0x99⟩ := by decide

theorem test_pushb :
    (outcome (exec (.pushb 0b1010 4) packing)).bb = [true, false, true, false] ∧
    (outcome (exec (.pushb 8 3) packing)).cause = .range := by decide

theorem test_pkmode :
    (outcome (exec .pkmode helloPacking)).bb = [false, false, true, false] := by decide

theorem test_pkcnt :
    (outcome (exec .pkcnt helloPacking)).bb =
      [false, false, false, false, false, true, false, true, true] := by decide

/-- "01234567" at 1-M: 27 bits (42_bitstream.md R165). -/
theorem test_pkdata_numeric :
    groupsOf .numeric [0x30, 0x31, 0x32, 0x33, 0x34, 0x35, 0x36, 0x37] = [(12, 10), (345, 10), (67, 7)] := by
  decide

/-- The kanji examples of 42_bitstream.md R169. -/
theorem test_pkdata_kanji : groupsOf .kanji [0x935F, 0xE4AA, 0xEBBF] = [(3487, 13), (6826, 13), (8191, 13)] := by
  decide

/-- The alphanumeric example of 42_bitstream.md R167. -/
theorem test_pkdata_alphanumeric :
    groupsOf .alphanumeric [0x41, 0x43, 0x2D, 0x34, 0x32] = [(462, 11), (1849, 11), (2, 6)] := by decide

theorem test_pkterm_pkalign :
    (helloPacking.after [.pkmode, .pkcnt, .pkdata, .pkterm]).bbLen = 78 ∧
    (helloPacking.after [.pkmode, .pkcnt, .pkdata, .pkterm, .pkalign]).bbLen = 80 := by decide +kernel

/-- The thirteen codewords of HELLO WORLD at 1-Q (42_bitstream.md R174). -/
theorem test_pkpad :
    codewordsOf (helloPacking.after pack).bb =
      [0x20, 0x5B, 0x0B, 0x78, 0xD1, 0x72, 0xDC, 0x4D, 0x43, 0x40, 0xEC, 0x11, 0xEC] := by decide +kernel

theorem test_rsgen : (outcome (exec (.rsgen 7) idle)).gen = [1, 127, 122, 154, 164, 11, 68, 117] := by
  decide +kernel

theorem test_rsgen_range : (outcome (exec (.rsgen 31) idle)).cause = .range := by decide

/-- The trace of 43_reed_solomon.md R192. -/
theorem test_ecc_remainder : rsRemainder [0x12, 0x34] 2 = [0x22, 0x04] := by decide

/-- The stream of HELLO WORLD at 1-Q (43_reed_solomon.md R196). -/
theorem test_ecc :
    ((helloPacking.after pack).after [.ecc]).fin.map BitVec.toNat =
      [32, 91, 11, 120, 209, 114, 220, 77, 67, 64, 236, 17, 236, 168, 72, 22, 82, 217, 54, 156, 0, 46, 15, 180,
       122, 16] := by decide +kernel

/-- Row 0 of the worked example of 44_matrix.md R225. -/
theorem test_mxfunc :
    (functionMatrix 1)[0]?.map (fun row => row.map fun x => x.tag.code) =
      some [0, 0, 0, 0, 0, 0, 0, 1, 4, 6, 6, 6, 6, 1, 0, 0, 0, 0, 0, 0, 0] := by decide +kernel

theorem test_mxdata_order :
    (placementOrder (functionMatrix 1) 21).take 8 =
      [(20, 20), (20, 19), (19, 20), (19, 19), (18, 20), (18, 19), (17, 20), (17, 19)] := by decide +kernel

theorem test_mkeval_range : (outcome (exec (.mkeval 8) placed)).cause = .range := by decide +kernel

theorem test_mksel_unscored : (outcome (exec .mksel placed)).cause = .seq := by decide +kernel

/-- The scores of 45_mask.md R258 select mask 6. -/
theorem test_mksel :
    bestMask #v[734, 498, 628, 553, 755, 564, 432, 814] = 6 := by decide

theorem test_mkapply_mask : maskBit 6 20 20 = false ∧ maskBit 6 19 20 = true := by decide

theorem test_mkfmt_value : formatValue .Q 6 = 0x2EDA ∧ formatValue .M 0 = 0x5412 := by decide

theorem test_mkver_value : versionValue 7 = 0x07C94 ∧ versionValue 40 = 0x28C69 := by decide

/-- The lines of 45_mask.md R253 and R255. -/
theorem test_penalty_lines :
    lineRuns [true, true, true, true, true, false, false, false, false, false, false] = 7 ∧
    lineRuns (List.replicate 21 false) = 19 ∧
    lineWindows [false, false, false, false, true, false, true, true, true, false, true, false, false, false,
      false] = 2 := by decide

/-! ## The host's contract (95_test_vectors.md H1 to H15; 47_host_contract.md R286 to R301) -/

/-- The single-byte codec whose character codes are the byte values. -/
def latin1 : Codec where
  encode codes := if codes.all fun c => c < 256 then some (codes.map fun c => BitVec.ofNat 8 c) else none
  decode bs := some (bs.map fun b => b.toNat)

/-- A codec that puts a question mark for every character: it does not round-trip. -/
def lossy : Codec where
  encode codes := some (codes.map fun _ => 0x3F)
  decode bs := some (bs.map fun b => b.toNat)

/-- A platform with two codecs and one double-byte character. -/
def platform : Platform where
  codec name := if name = "Latin-1" then some latin1 else if name = "lossy" then some lossy else none
  kanjiOf c := if c = 0x70B9 then some 0x935F else none

/-- A call without hints. -/
def noHints : EncodeCall where
  data := .text []
  errorLevel := none
  version := none
  mode := none
  encoding := none

/-- Detection: H1 to H4, a kanji text, and raw bytes with no encoding name (R286, R287, R289). -/
theorem test_selectMode :
    selectMode platform none none (.text [0x31, 0x32]) = .ok ⟨.numeric, [0x31, 0x32], none⟩ ∧
    selectMode platform none none (.number 123456) =
      .ok ⟨.numeric, [0x31, 0x32, 0x33, 0x34, 0x35, 0x36], none⟩ ∧
    selectMode platform none none (.text [0x31, 0x41]) = .ok ⟨.alphanumeric, [0x31, 0x41], none⟩ ∧
    selectMode platform none none (.text [0x31, 0x61]) = .ok ⟨.byte, [0x31, 0x61], some "Latin-1"⟩ ∧
    selectMode platform none none (.text [0x70B9]) = .ok ⟨.kanji, [0x935F], none⟩ ∧
    selectMode platform (some .byte) none (.bytes [0xFF, 0x00]) = .ok ⟨.byte, [0xFF, 0x00], none⟩ := by
  decide +kernel

/-- Codecs: unrepresentable, not round-tripping, unknown (R289), and a mode too strict for the data (R288). -/
theorem test_selectMode_errors :
    selectMode platform (some .byte) none (.text [0x70B9]) = .error .valueError ∧
    selectMode platform none (some "lossy") (.text [0x61]) = .error .valueError ∧
    selectMode platform none (some "lossy") (.text [0x3F]) = .ok ⟨.byte, [0x3F], some "lossy"⟩ ∧
    selectMode platform none (some "no such codec") (.text [0x61]) = .error .valueError ∧
    selectMode platform (some .alphanumeric) none (.text [0x61]) = .error .modeError ∧
    selectMode platform (some .numeric) none (.text [0x62]) = .error .modeError := by decide +kernel

/-- The tokens of the entry point (R288, R291, R298). -/
theorem test_planCall_tokens :
    planCall platform { noHints with data := .text [0x31], errorLevel := some "l" } =
      .ok ⟨⟨.numeric, [0x31], none⟩, 1, .L⟩ ∧
    planCall platform { noHints with data := .text [0x31], mode := some "binary", version := some 2 } =
      .ok ⟨⟨.byte, [0x31], some "Latin-1"⟩, 2, .H⟩ ∧
    planCall platform { noHints with data := .text [0x31], mode := some "byte" } = .error .modeError ∧
    planCall platform { noHints with data := .text [0x31], errorLevel := some "X" } =
      .error .errorLevelError ∧
    planCall platform { noHints with data := .text [0x31], version := some (-1) } = .error .versionError := by
  decide +kernel

/-- Overflow in planning: 26 times A at version 1 (H10). -/
theorem test_planCall_overflow :
    planCall platform { noHints with data := .text (List.replicate 26 0x41), version := some 1 } =
      .error .dataOverflowError := by decide +kernel

/-- The host reads back the symbol a finished state exposes, and leaves the unit in IDLE (R301). -/
theorem test_takeSymbol :
    finished.symbol = some (takeSymbol finished).1 ∧ (takeSymbol finished).2.phase = .idle := by
  decide +kernel

/-- After a `RUN` that overflowed the host reports `STATUS` as 95_test_vectors.md K6 gives it, and resets
(R301). -/
theorem test_concludeCall_fault :
    (concludeCall (outcome (exec .run tooLong))).1 = .error (.internalError 0x511) ∧
    (concludeCall (outcome (exec .run tooLong))).2.cfg = ⟨0, .L, .numeric⟩ ∧
    (concludeCall (outcome (exec .run tooLong))).2.fault = false := by decide +kernel

/-! ## The test states meet the invariants -/

/-- A payload test that can be evaluated. -/
def payloadOkB (s : State) : Bool :=
  (List.range s.payLen.toNat).all fun i =>
    match s.pay.read i with
    | none => false
    | some u => validUnit s.cfg.mode u

theorem payloadOk_of_payloadOkB {s : State} (h : payloadOkB s = true) : s.payloadOk := by
  intro i hi
  have := List.all_eq_true.mp h i (List.mem_range.mpr hi)
  cases hr : s.pay.read i with
  | none => simp [hr] at this
  | some u => exact ⟨u, rfl, by simpa [hr] using this⟩

/-- In phase PACKING with a full buffer. -/
def packed : State := { packing with bb := zeroBits }

theorem inv_idle : idle.Inv := by constructor <;> decide +kernel
theorem inv_packing : packing.Inv := by constructor <;> decide +kernel
theorem inv_packed : packed.Inv := by constructor <;> decide +kernel
theorem inv_coded : coded.Inv := by constructor <;> decide +kernel

/-- A stage meets the invariant if its matrix and its scores do. -/
theorem inv_stage {p : Phase} {mx : Mx} {evalid : BitVec 8} {scores : Vector (BitVec 32) 8}
    (hm : mx.sound (sideOf 1)) (h3 : p.code ≤ 3 → evalid = 0)
    (h5 : 5 ≤ p.code → evalid = 0xFF#8)
    (hsc : ∀ m : Fin 8, evalid.getLsbD m = false → scores[m] = 0) :
    (stage p mx evalid scores).Inv where
  payWf := rfl
  payDepth := nofun
  causeNone := ⟨fun _ => rfl, fun _ => rfl⟩
  versionOk := fun _ => rfl
  bbFits := fun _ => inv_coded.bbFits (by decide)
  bbFull := fun _ => inv_coded.bbFull (by decide)
  cwFull := fun _ => inv_coded.cwFull (by decide)
  mxRows := fun _ => hm.1.1
  mxCols := fun _ => hm.1.2
  mxTags := fun _ => hm.2
  evalidClear := fun _ h => h3 h
  evalidFull := h5
  genMonic := inv_coded.genMonic
  bbDepth := inv_coded.bbDepth
  finDepth := inv_coded.finDepth
  genDepth := inv_coded.genDepth
  scoreClear := hsc

theorem sound_placed : (placedMatrix 1 coded.fin).sound (sideOf 1) :=
  placeStream_sound (functionMatrix_sound 1) _ _
theorem sound_formatted : (formattedMatrix 1 .L 0 coded.fin).sound (sideOf 1) :=
  writeFormat_sound (maskMatrix_sound sound_placed 0) _ _
theorem finalMatrix_one : finalMatrix 1 .L 0 coded.fin = formattedMatrix 1 .L 0 coded.fin := by
  rw [finalMatrix, if_neg (by decide)]

theorem inv_laid : laid.Inv :=
  inv_stage (functionMatrix_sound 1) (fun _ => rfl) (by decide) (by decide)
theorem inv_placed : placed.Inv := inv_stage sound_placed (by decide) (by decide) (by decide)
theorem inv_scored : scored.Inv := inv_stage sound_placed (by decide) (by decide) (by decide)
theorem inv_selected : selected.Inv := inv_stage sound_placed (by decide) (by decide) (by decide)
theorem inv_masked : masked.Inv :=
  inv_stage (maskMatrix_sound sound_placed 0) (by decide) (by decide) (by decide)
theorem inv_formatted : formatted.Inv :=
  inv_stage sound_formatted (by decide) (by decide) (by decide)
theorem inv_finished : finished.Inv :=
  inv_stage (finalMatrix_one ▸ sound_formatted) (by decide) (by decide) (by decide)

theorem side_formattedSeven : formattedSeven.side = sideOf 7 := by decide

theorem inv_formattedSeven : formattedSeven.Inv where
  payWf := rfl
  payDepth := by decide
  causeNone := by decide
  versionOk := by decide
  bbFits := by decide +kernel
  bbFull := by decide +kernel
  cwFull := by decide +kernel
  mxRows := by
    intro _; simp only [side_formattedSeven]; simp only [formattedSeven]; exact (functionMatrix_sound 7).1.1
  mxCols := by
    intro _; simp only [side_formattedSeven]; simp only [formattedSeven]; exact (functionMatrix_sound 7).1.2
  mxTags := by
    intro _; simp only [formattedSeven]; exact (functionMatrix_sound 7).2
  evalidClear := by decide
  evalidFull := by decide
  genMonic := by decide +kernel
  bbDepth := by decide +kernel
  finDepth := by decide +kernel
  genDepth := by decide +kernel
  scoreClear := by decide

/-- The stages' scores are those of the spec's rules. -/
theorem test_scores : ∀ m : Fin 8,
    zeroScores[m] = BitVec.ofNat 32 (score (candidate m (placedMatrix 1 coded.fin))) := by decide +kernel

/-- A stage is the pipeline's if its matrix is the one of its phase. -/
theorem pipeline_stage {p : Phase} {mx : Mx} (hp : 5 ≤ p.code)
    (h5 : p = .selected → mx = placedMatrix 1 coded.fin)
    (h6 : p = .masked → mx = maskMatrix 0 (placedMatrix 1 coded.fin))
    (h7 : p = .formatted → mx = formattedMatrix 1 .L 0 coded.fin)
    (h8 : p = .done → mx = finalMatrix 1 .L 0 coded.fin) :
    (stage p mx 0xFF#8 zeroScores).Pipeline where
  stream := fun _ => rfl
  laid := fun h => by rw [show p = .laid from h] at hp; exact absurd hp (by decide)
  placed := fun h => by
    rcases h with h | h
    · rw [show p = .placed from h] at hp; exact absurd hp (by decide)
    · exact h5 h
  scored := fun _ m _ => test_scores m
  chosen := by intro _; show (0 : BitVec 3) = BitVec.ofNat 3 (bestMask zeroScores).val; decide
  masked := h6
  formatted := h7
  done := h8

theorem version_laid : laid.version = 1 := by decide

theorem pipeline_laid : laid.Pipeline where
  stream := fun _ => rfl
  laid := by intro _; rw [version_laid, laid, stage]
  placed := fun h => by rcases h with h | h <;> cases h
  scored := fun h => absurd h (by decide)
  chosen := fun h => absurd h (by decide)
  masked := fun h => by cases h
  formatted := fun h => by cases h
  done := fun h => by cases h

theorem pipeline_selected : selected.Pipeline :=
  pipeline_stage (by decide) (fun _ => rfl) nofun nofun nofun
theorem pipeline_masked : masked.Pipeline :=
  pipeline_stage (by decide) nofun (fun _ => rfl) nofun nofun
theorem pipeline_formatted : formatted.Pipeline :=
  pipeline_stage (by decide) nofun nofun (fun _ => rfl) nofun
theorem pipeline_finished : finished.Pipeline :=
  pipeline_stage (by decide) nofun nofun nofun (fun _ => rfl)

theorem payloadOk_hello : hello.payloadOk := payloadOk_of_payloadOkB (by decide +kernel)
theorem payloadOk_tooLong : tooLong.payloadOk := payloadOk_of_payloadOkB (by decide +kernel)

/-- A host that presents one command. -/
def presenting (w : Descriptor) (s : State) : State := { s with pending := [.command w] }

/-! ## Witnesses: a concrete case for the hypotheses of each statement, and for each clause of it -/

/-- What a command answers, with a property of the state it leaves. -/
theorem reaches {i : Instr} {s : State} {P : State → Prop} (h : ∃ t, exec i s = .next t)
    (hp : P (outcome (exec i s))) : ∃ t, exec i s = .next t ∧ P t := by
  obtain ⟨t, ht⟩ := h
  rw [ht] at hp
  exact ⟨t, ht, hp⟩

/-- The same for a step. -/
theorem steps_to {s : State} {P : State → Prop} (h : ∃ t, step s = .next t) (hp : P (outcome (step s))) :
    ∃ t, step s = .next t ∧ P t := by
  obtain ⟨t, ht⟩ := h
  rw [ht] at hp
  exact ⟨t, ht, hp⟩

theorem witness_DecodeFollowsOpcodeMap :
    decode 0x120000000000CA53 = .ok (.gfmul 0x53 0xCA) ∧
    decode 0x0500000000000000 = .error (.unassignedOpcode 5) ∧
    (opcodeRows.filter fun r => r.accepts 0x120000000000CA53).map OpcodeRow.mnemonic = ["GFMUL"] := by
  decide

theorem witness_IllegalDescriptorFaults :
    (∀ r ∈ opcodeRows, (0x5500000000000000 : Descriptor) &&& r.mask ≠ r.pattern) ∧
    (presenting 0x5500000000000000 idle).pending = [.command 0x5500000000000000] ∧
    (presenting 0x5500000000000000 idle).fault = false ∧
    (presenting 0x5500000000000000 faulted).pending = [.command 0x5500000000000000] ∧
    (presenting 0x5500000000000000 faulted).fault = true := by decide

theorem witness_StepRunsDecodedInstruction :
    (presenting 0x0200000000000000 idle).pending = [.command 0x0200000000000000] ∧
    decode 0x0200000000000000 = .ok .start := by decide

theorem witness_ResetHasOneEffect :
    ({ faulted with pending := [.hardReset, .command 0] } : State).pending = [.hardReset, .command 0] ∧
    idle.pending = [] := by decide

theorem witness_ResetLeavesNothingReadable :
    (∃ t, exec .reset finished = .next t ∧ t.phase = .idle) ∧
    (∃ t, step { faulted with pending := [.hardReset] } = .next t ∧ t.phase = .idle) ∧
    assignedReg 0x17 = true ∧ (1 : Index) ≠ 0 ∧ (8191 : Index).toNat < 8192 :=
  ⟨reaches ⟨_, rfl⟩ rfl, steps_to ⟨_, rfl⟩ rfl, by decide, by decide, by decide⟩

theorem witness_EveryCommandResponds :
    idle.fault = false ∧ faulted.fault = true ∧ responseTo .reset faulted = some ⟨true, 0⟩ ∧
    isRead .pkmode = false ∧ responseTo .nop faulted = some ⟨false, 0⟩ := by decide

theorem witness_FaultStateIgnoresCommands :
    faulted.fault = true ∧ assignedReg 0x02 = true ∧ faulted.regValue 0x02 = some 0x210 ∧
    Instr.nop ≠ .reset ∧ (∀ reg, Instr.rdreg 0x0C = .rdreg reg → assignedReg reg = false) ∧
    (presenting 0x0100000000000001 faulted).pending = [.command 0x0100000000000001] ∧
    decode 0x0100000000000001 = .error (.reservedBits 1) := by
  refine ⟨by decide, by decide, by decide, by decide, ?_, by decide, by decide⟩
  intro reg h
  cases h
  decide

theorem witness_FaultEntryIsPrecise :
    (packing.fault = false ∧ ∃ t, exec .start packing = .next t ∧ t.fault = true) ∧
    (tooLong.fault = false ∧ tooLong.phase = .idle ∧ ∃ t, exec .run tooLong = .next t ∧ t.fault = true) :=
  ⟨⟨rfl, reaches ⟨_, rfl⟩ rfl⟩, rfl, rfl, reaches ⟨_, rfl⟩ (by decide +kernel)⟩

theorem witness_FaultsFollowFaultTable :
    packing.Inv ∧ packing.fault = false ∧ (∃ t, exec .start packing = .next t ∧ t.fault = true) ∧
    wellFormed (.rdgen 31) = false :=
  ⟨inv_packing, rfl, reaches ⟨_, rfl⟩ rfl, by decide⟩

theorem witness_PhaseTableHolds :
    packing.fault = false ∧ 1 < (2 : BitVec 8).toNat ∧ acceptedIn .start packing.phase = false ∧
    acceptedIn (.wrreg 1 0) packing.phase = false ∧ acceptedIn .start idle.phase = true ∧
    (∃ t, exec .start idle = .next t ∧ t.fault = false) ∧
    (acceptedIn .mksel placed.phase = true ∧ ∃ t, exec .mksel placed = .next t ∧ t.cause = .seq) ∧
    (finished.phase ≠ .idle ∧ ∃ t, exec .release finished = .next t ∧ t.phase = .idle) :=
  ⟨rfl, by decide, by decide, by decide, by decide, reaches ⟨_, rfl⟩ rfl,
    ⟨by decide, reaches ⟨_, rfl⟩ (by decide +kernel)⟩, by decide, reaches ⟨_, rfl⟩ rfl⟩

theorem witness_ConfigurationFrozen :
    (∃ t, exec (.wrreg 0 0x181) idle = .next t ∧ t.cfg ≠ idle.cfg) ∧
    (∃ t, exec (.wrreg 1 0x1FFF) idle = .next t ∧ t.payLen ≠ idle.payLen) ∧
    (∃ t, exec (.wrpay 8191 7) idle = .next t ∧ t.pay ≠ idle.pay) :=
  ⟨reaches ⟨_, rfl⟩ (by decide), reaches ⟨_, rfl⟩ (by decide), reaches ⟨_, rfl⟩ (by decide)⟩

theorem witness_ReadsChangeNothing :
    isRead (.rdreg 2) = true ∧ (∃ t, exec (.rdreg 2) faulted = .next t ∧ t.fault = faulted.fault) ∧
    isRead (.gfmul 3 4) = true ∧ ∃ t, exec (.gfmul 3 4) packing = .next t ∧ t.fault = packing.fault :=
  ⟨rfl, reaches ⟨_, rfl⟩ rfl, rfl, reaches ⟨_, rfl⟩ rfl⟩

/-- Each command that changes values, on a module whose value it changes. -/
theorem witness_TagGovernsOverwriting :
    (masked.Inv ∧ masked.Pipeline ∧ ∃ t, exec .mkfmt masked = .next t ∧
      (t.mx.at 0 8).val ≠ (masked.mx.at 0 8).val ∨ (t.mx.at 8 0).val ≠ (masked.mx.at 8 0).val) ∧
    (selected.Inv ∧ selected.Pipeline ∧ ∃ t, exec .mkapply selected = .next t ∧
      (t.mx.at 20 20).val ≠ (selected.mx.at 20 20).val) ∧
    (laid.Inv ∧ laid.Pipeline ∧ ∃ t, exec .mxdata laid = .next t ∧ t.phase = .placed) ∧
    (formatted.Inv ∧ formatted.Pipeline ∧ ∃ t, exec .mkver formatted = .next t ∧ t.phase = .done) := by
  refine ⟨⟨inv_masked, pipeline_masked, ?_⟩, ⟨inv_selected, pipeline_selected, ?_⟩,
    ⟨inv_laid, pipeline_laid, ?_⟩, ⟨inv_formatted, pipeline_formatted, ?_⟩⟩
  · obtain ⟨t, ht, h⟩ := reaches (P := fun t => (t.mx.at 0 8).val ≠ (masked.mx.at 0 8).val ∨
      (t.mx.at 8 0).val ≠ (masked.mx.at 8 0).val) (i := .mkfmt) (s := masked) ⟨_, rfl⟩ (by decide +kernel)
    exact ⟨t, h.elim (fun h => .inl ⟨ht, h⟩) .inr⟩
  · exact reaches ⟨_, rfl⟩ (by decide +kernel)
  · exact reaches ⟨_, rfl⟩ rfl
  · exact reaches ⟨_, rfl⟩ rfl

/-- `append` of the widest legal value that just fits, and of one bit too many. -/
theorem witness_AppendIsAllOrNothing :
    0xFFFF < 2 ^ 16 ∧ ({ packing with bb := List.replicate 136 false } : State).bbLen + 16 ≤ packing.capBits ∧
    packing.capBits < ({ packing with bb := List.replicate 137 false } : State).bbLen + 16 ∧
    ∃ t, exec .pkmode packing = .next t ∧ t.bbLen = 4 :=
  ⟨by decide, by decide +kernel, by decide +kernel, reaches ⟨_, rfl⟩ (by decide)⟩

theorem witness_CodewordsAndBitsAgree :
    coded.Inv ∧ 2 ≤ coded.phase.code ∧ 18 < coded.dcap ∧ 7 < 8 * ([0x80] : List Byte).length ∧
    8 * ([0x80] : List Byte).length ≤ 8 ∧ 7 < 8 * ((List.replicate 9 true).length / 8) :=
  ⟨inv_coded, by decide, by decide, by decide, by decide, by decide⟩

theorem witness_NopDoesNothing : idle.fault = false ∧ faulted.fault = true := by decide

theorem witness_StartAndRelease :
    idle.fault = false ∧ idle.phase = .idle ∧ 1 ≤ idle.version ∧ idle.version ≤ 40 ∧
    State.reset.fault = false ∧ State.reset.phase = .idle ∧ State.reset.version = 0 ∧
    40 < ({ idle with cfg := ⟨41, .L, .numeric⟩ } : State).version ∧ packing.fault = false ∧
    packing.phase ≠ .idle ∧ finished.fault = false ∧ finished.phase = .done ∧ idle.phase ≠ .done := by decide

theorem witness_RunCompletes :
    hello.fault = false ∧ hello.phase = .idle ∧ versionLegal hello.version = true ∧ hello.payloadOk ∧
    payloadFits hello.version hello.cfg.ecLevel hello.cfg.mode hello.payLen.toNat = true :=
  ⟨rfl, rfl, by decide, payloadOk_hello, by decide⟩

theorem witness_RunIsTheCommandSequence : hello.pending = [] := rfl

/-- One faulting `RUN` for each way it can fault: version, count, unwritten unit, invalid unit, overflow. -/
theorem witness_FaultingRunLeavesNoSymbol :
    (∃ t, exec .run State.reset = .next t ∧ t.cause = .cfg) ∧
    (∃ t, exec .run { idle with payLen := 1024 } = .next t ∧ t.cause = .count) ∧
    (∃ t, exec .run { idle with payLen := 1 } = .next t ∧ t.cause = .uninit) ∧
    (∃ t, exec .run { idle with payLen := 1, pay := [(0, 0x3A)] } = .next t ∧ t.cause = .unit) ∧
    (∃ t, exec .run tooLong = .next t ∧ t.fault = true ∧ t.cause = .ovf) ∧
    (.reset ∉ [Instr.nop, .mkver]) :=
  ⟨reaches ⟨_, rfl⟩ (by decide +kernel), reaches ⟨_, rfl⟩ (by decide +kernel),
    reaches ⟨_, rfl⟩ (by decide +kernel), reaches ⟨_, rfl⟩ (by decide +kernel),
    reaches ⟨_, rfl⟩ (by decide +kernel), by decide⟩

theorem witness_RunReleaseRunRepeats :
    hello.fault = false ∧ hello.phase = .idle ∧ ∃ t, exec .run hello = .next t ∧ t.fault = false :=
  ⟨rfl, rfl, reaches ⟨_, rfl⟩ (by decide +kernel)⟩

theorem witness_RegisterWords : assignedReg 0x0C = false ∧ assignedReg 0x0F = false ∧ assignedReg 0x18 = false ∧
    idle.fault = false := by decide

theorem witness_WriteRegister :
    idle.fault = false ∧ idle.phase = .idle ∧ (0x3FF : Data).toNat < 2 ^ 10 ∧ (0x1FFF : Data).toNat < 2 ^ 13 ∧
    2 ^ 10 ≤ (0x400 : Data).toNat ∧ 2 ^ 13 ≤ (0x2000 : Data).toNat ∧ packing.fault = false ∧
    packing.phase ≠ .idle ∧ 1 < (2 : BitVec 8).toNat := by decide

theorem witness_PayloadAccess :
    idle.fault = false ∧ idle.phase = .idle ∧ (8191 : Index).toNat < 8192 ∧ packing.fault = false ∧
    packing.phase ≠ .idle ∧ 8192 ≤ (8192 : Index).toNat ∧ hello.fault = false ∧
    hello.pay.read (10 : Index).toNat = some 0x44 ∧ hello.pay.read (11 : Index).toNat = none ∧
    Memory.wf hello.pay = true := by decide

/-- Each read at the last element it accepts and the first it does not. -/
theorem witness_BufferReads :
    (finished.Inv ∧ finished.fault = false ∧ 3 ≤ finished.phase.code) ∧
    (151 < finished.bbLen ∧ finished.bbLen ≤ 152) ∧ (25 < finished.cwLen ∧ finished.cwLen ≤ 26) ∧
    ((20 : BitVec 8).toNat < 4 * finished.version + 17 ∧ 4 * finished.version + 17 ≤ (21 : BitVec 8).toNat) ∧
    (7 ≤ finished.genLen ∧ finished.genLen < 8) ∧
    (idle.Inv ∧ idle.fault = false ∧ idle.phase = .idle) ∧
    (packing.Inv ∧ packing.phase.code < 2) ∧ (coded.Inv ∧ coded.phase.code < 3) :=
  ⟨⟨inv_finished, rfl, by decide⟩, by decide +kernel, by decide +kernel, by decide, by decide +kernel,
    ⟨inv_idle, rfl, rfl⟩, ⟨inv_packing, by decide⟩, inv_coded, by decide⟩

theorem witness_GfexpIsPowerOfAlpha : idle.fault = false := rfl

theorem witness_GflogInvertsGfexp : idle.fault = false ∧ (1 : Byte) ≠ 0 ∧ (0xFF : Byte) ≠ 0 := by decide

theorem witness_GfmulIsPolynomialProduct :
    idle.fault = false ∧ (2 : Byte) ≠ 0 ∧ gfExp 254 ≠ 0 ∧
    (gfLog 2).toNat + (gfLog (gfExp 254)).toNat = 255 := by decide

theorem witness_GfaddIsXor : idle.fault = false := rfl

theorem witness_FieldLaws :
    (0xFF : Byte) ≠ 0 ∧ (∃ t, exec (.gflog 0) packing = .next t ∧ t.fault = true) ∧
    (∃ t, exec (.gfadd 1 2) packing = .next t ∧ t.fault = packing.fault) :=
  ⟨by decide, reaches ⟨_, rfl⟩ rfl, reaches ⟨_, rfl⟩ rfl⟩

/-- The widest push that just fits, one bit more, a width too large, a value too large for width 0. -/
theorem witness_PushbAppendsBits :
    packing.fault = false ∧ packing.phase = .packing ∧ (16 : BitVec 5).toNat ≤ 16 ∧
    (0xFFFF : BitVec 16).toNat < 2 ^ (16 : BitVec 5).toNat ∧
    ({ packing with bb := List.replicate 136 false } : State).bbLen + 16 ≤ packing.capBits ∧
    packing.capBits < ({ packing with bb := List.replicate 137 false } : State).bbLen + 16 ∧
    idle.phase ≠ .packing ∧ 16 < (17 : BitVec 5).toNat ∧
    2 ^ (0 : BitVec 5).toNat ≤ (1 : BitVec 16).toNat := by decide +kernel

theorem witness_HeaderBits :
    packing.fault = false ∧ packing.phase = .packing ∧ packing.bbLen + 4 ≤ packing.capBits ∧
    ({ packing with payLen := 1023 } : State).payLen.toNat < 2 ^ cntWidth .numeric 1 ∧
    2 ^ cntWidth .numeric 1 ≤ ({ packing with payLen := 1024 } : State).payLen.toNat ∧
    packing.bbLen + cntWidth .numeric 1 ≤ packing.capBits ∧
    packed.capBits < packed.bbLen + 4 ∧ packed.capBits < packed.bbLen + cntWidth .numeric 1 ∧
    packed.payLen.toNat < 2 ^ cntWidth .numeric 1 ∧ idle.phase ≠ .packing := by decide +kernel

/-- HELLO WORLD fits; eighteen digits at 1-H do not; an unwritten and an invalid unit at the lowest index. -/
theorem witness_PkdataAppendsPayload :
    (helloPacking.fault = false ∧ helloPacking.phase = .packing ∧ helloPacking.payloadOk ∧
      helloPacking.bbLen + payloadBits .alphanumeric 11 ≤ helloPacking.capBits) ∧
    (({ tooLong with phase := .packing } : State).payloadOk ∧
      ({ tooLong with phase := .packing, bb := List.replicate 14 false } : State).capBits <
        14 + payloadBits .numeric 18) ∧
    (({ packing with payLen := 1 } : State).payLen.toNat = 1 ∧ packing.pay.read 0 = none) ∧
    ({ packing with payLen := 1, pay := [(0, 0x3A)] } : State).pay.read 0 = some 0x3A ∧
    validUnit .numeric 0x3A = false ∧ idle.phase ≠ .packing :=
  ⟨⟨rfl, rfl, payloadOk_hello, by decide +kernel⟩, ⟨payloadOk_tooLong, by decide +kernel⟩, by decide, by decide,
    by decide, by decide⟩

theorem witness_PayloadGroups :
    (([0x30, 0x39, 0x35] : List PayUnit).all (validUnit .numeric) = true) ∧
    (([0x8140, 0x9FFC, 0xE040, 0xEBBF] : List PayUnit).all (validUnit .kanji) = true) ∧
    (([0x41, 0x3A, 0x20] : List PayUnit).all (validUnit .alphanumeric) = true) ∧
    (([0x00, 0xFF] : List PayUnit).all (validUnit .byte) = true) ∧
    5 % 3 = 2 ∧ 4 % 3 = 1 ∧ 0 < 3 / 3 ∧ 0 < 2 / 2 ∧ 1 % 2 = 1 := by decide

/-- Room for three bits only, a full buffer, and a buffer that is not aligned. -/
theorem witness_TerminatorAlignmentPads :
    packing.fault = false ∧ packing.phase = .packing ∧
    ({ packing with bb := List.replicate 149 false } : State).bbLen ≤ packing.capBits ∧
    packed.bbLen ≤ packed.capBits ∧ packed.bbLen % 8 = 0 ∧
    ({ packing with bb := List.replicate 149 false } : State).bbLen % 8 ≠ 0 ∧ idle.phase ≠ .packing := by
  decide +kernel

theorem witness_PaddingReachesCapacity :
    packing.fault = false ∧ packing.phase = .packing ∧ packing.bbLen ≤ packing.capBits ∧
    packing.bbLen ≠ packing.capBits ∧ idle.fault = false ∧ idle.phase = .idle ∧
    (idle.after [.start, .pkmode, .pkcnt, .pkdata, .pkterm, .pkalign]).fault = false ∧
    (({ idle with cfg := ⟨40, .L, .numeric⟩ } : State).after
      [.start, .pkmode, .pkcnt, .pkdata, .pkterm, .pkalign]).fault = false := by decide +kernel

theorem witness_PackFitsExactly :
    helloPacking.fault = false ∧ helloPacking.phase = .packing ∧ helloPacking.bb = [] ∧
    versionLegal helloPacking.version = true ∧ helloPacking.payloadOk ∧
    (helloPacking.after pack).fault = false :=
  ⟨rfl, rfl, rfl, by decide, payloadOk_hello, by decide +kernel⟩

theorem witness_RsgenLoadsGenerator :
    idle.fault = false ∧ 1 ≤ (1 : Index).toNat ∧ (30 : Index).toNat ≤ 30 ∧ (0 : Index).toNat = 0 ∧
    30 < (31 : Index).toNat := by decide

theorem witness_EccInterleavesBlocks :
    packed.Inv ∧ packed.fault = false ∧ packed.phase = .packing ∧ packed.bbLen = 8 * packed.dcap ∧
    0 < packed.blocks.n1 + packed.blocks.n2 ∧ idle.phase ≠ .packing ∧ packing.bbLen ≠ 8 * packing.dcap ∧
    (blockInfo 5 .Q).n1 ≤ 2 ∧ 2 < (blockInfo 5 .Q).n1 + (blockInfo 5 .Q).n2 :=
  ⟨inv_packed, rfl, rfl, by decide +kernel, by decide, by decide, by decide, by decide, by decide⟩

theorem witness_RemainderIsPolynomialRemainder :
    1 ≤ 30 ∧ 30 ≤ 30 ∧ ([0x12, 0x34] : List Byte).length = ([0x56, 0x78] : List Byte).length := by decide

/-- The smallest and the largest degree, and the two syndromes of vector R5. -/
theorem witness_CodewordBlocksDivisible :
    (1 ≤ 1 ∧ 1 ≤ 30) ∧ (1 ≤ 30 ∧ 30 ≤ 30) ∧ rsRemainder [0x12, 0x34] 2 = [0x22, 0x04] ∧
    ∀ i < 2, polyEval [0x12, 0x34, 0x22, 0x04] (gfExp i) = 0 := by decide

theorem witness_MxfuncDrawsPatterns :
    coded.fault = false ∧ coded.phase = .coded ∧ laid.phase ≠ .coded ∧ 1 ≤ 1 ∧ 40 ≤ 40 ∧
    ((6, 22) ∉ [(6, 6), (6, 45 - 7), (45 - 7, 6)] ∧ 6 ∈ alignCoords 7 ∧ 22 ∈ alignCoords 7) := by decide

theorem witness_ModuleCounts :
    (1 ≤ 1 ∧ 1 ≤ 40) ∧ (1 ≤ 40 ∧ 40 ≤ 40) ∧ nData 1 = 208 ∧ nData 7 = 1568 ∧ nData 40 = 29648 := by decide

/-- Version 1 is in the range, and both sides of the equivalence occur in it. -/
theorem witness_PlacementOrderComplete :
    (1 ≤ 1 ∧ 1 ≤ 40) ∧ (1 ≤ 40 ∧ 40 ≤ 40) ∧
    (20, 20) ∈ placementOrder (functionMatrix 1) (sideOf 1) ∧
    ((functionMatrix 1).at 20 20).tag = .data ∧
    (0, 0) ∉ placementOrder (functionMatrix 1) (sideOf 1) := by decide +kernel

theorem witness_FormatAndVersionCodes : 0 < 8 ∧ 7 < 8 ∧ 7 ≤ 7 ∧ 7 ≤ 40 ∧ 7 ≤ 40 ∧ 40 ≤ 40 := by decide

theorem witness_MxdataPlacesStream :
    laid.Inv ∧ laid.fault = false ∧ laid.phase = .laid ∧ placed.phase ≠ .laid ∧
    (placementOrder laid.mx laid.side)[207]? = some (12, 0) ∧ (placementOrder laid.mx laid.side)[208]? = none ∧
    (0, 0) ∉ placementOrder laid.mx laid.side :=
  ⟨inv_laid, rfl, rfl, by decide, by decide +kernel, by decide +kernel, by decide +kernel⟩

theorem witness_PenaltyRules :
    (∀ n ∈ [5, 6], 0 < n) ∧ 11 ≤ (List.replicate 21 (List.replicate 21 false)).length ∧
    ∀ row ∈ List.replicate 21 (List.replicate 21 false), row.length = 21 := by decide

theorem witness_MkevalScoresCandidate :
    placed.Inv ∧ placed.fault = false ∧ placed.phase = .placed ∧ (7 : Index).toNat < 8 ∧
    8 ≤ (8 : Index).toNat ∧ laid.phase ≠ .placed ∧ 20 < placed.side :=
  ⟨inv_placed, rfl, rfl, by decide, by decide, by decide, by decide⟩

theorem witness_MkselPicksLeastPenalty :
    scored.fault = false ∧ scored.phase = .placed ∧ scored.evalid = 0xFF#8 ∧ placed.evalid ≠ 0xFF#8 ∧
    placed.phase = .placed ∧ laid.phase ≠ .placed := by decide

theorem witness_MkapplyInvertsData :
    selected.Inv ∧ selected.fault = false ∧ selected.phase = .selected ∧ laid.phase ≠ .selected :=
  ⟨inv_selected, rfl, rfl, by decide⟩

theorem witness_MkfmtWritesFormat :
    masked.Inv ∧ masked.fault = false ∧ masked.phase = .masked ∧ laid.phase ≠ .masked :=
  ⟨inv_masked, rfl, rfl, by decide⟩

theorem witness_MkverWritesVersion :
    (formatted.Inv ∧ formatted.fault = false ∧ formatted.phase = .formatted ∧ formatted.version < 7) ∧
    (formattedSeven.Inv ∧ formattedSeven.fault = false ∧ formattedSeven.phase = .formatted ∧
      7 ≤ formattedSeven.version) ∧ laid.phase ≠ .formatted :=
  ⟨⟨inv_formatted, rfl, rfl, by decide⟩, ⟨inv_formattedSeven, rfl, rfl, by decide⟩, by decide⟩

theorem witness_UnitsAreIndependent :
    ([idle, hello] : Units)[1]? = some hello ∧ [1, 0, 1].count 1 = 2 := ⟨rfl, by decide⟩

theorem witness_PlannerFindsFirstFit :
    versionLegal 1 = true ∧ versionLegal 40 = true ∧ planSymbol .numeric 17 none none = .ok (1, .H) ∧
    planSymbol .numeric 18 none none = .ok (1, .Q) ∧ planSymbol .numeric 41 none (some .L) = .ok (1, .L) ∧
    planSymbol .alphanumeric 26 (some 1) none = .error .dataOverflowError ∧
    planSymbol .alphanumeric 25 (some 1) (some .L) = .ok (1, .L) ∧
    planSymbol .numeric 1 (some 41) none = .error .versionError := by decide +kernel

/-- Units and a plan for the first clause, with a held symbol and without one; a call that plans; a call that
fails. -/
theorem witness_HostCallNeverFaults :
    (([0x31, 0x32] : List PayUnit).all (validUnit .numeric) = true) ∧
    planSymbol .numeric ([0x31, 0x32] : List PayUnit).length none none = .ok (1, .H) ∧
    openingCommand true finished = .release ∧ openingCommand true idle = .reset ∧
    planCall platform { noHints with data := .text [0x31, 0x32] } =
      .ok ⟨⟨.numeric, [0x31, 0x32], none⟩, 1, .H⟩ ∧
    planCall platform { noHints with data := .text [0x31], version := some 41 } = .error .versionError := by
  decide +kernel

theorem witness_StepKeepsInvariant :
    packing.Inv ∧ ∃ t, step packing = .next t ∧ t.resp = none :=
  ⟨inv_packing, steps_to ⟨_, rfl⟩ rfl⟩

theorem witness_StepKeepsPipeline :
    laid.Inv ∧ laid.Pipeline ∧
      ∃ t, step (presenting 0x4100000000000000 laid) = .next t ∧ t.phase = .placed :=
  ⟨inv_laid, pipeline_laid, steps_to ⟨_, rfl⟩ rfl⟩

end Sys2Proof.Tests
end

section
/-! What a step does with a presented command, and what each stage of `RUN` does: one equivalence per stage, when
it completes and which state it leaves. -/

namespace Sys2Proof.Machine

/-! ## One step -/

/-- The input a step takes is the oldest one. -/
theorem State.taken_eq {s : State} {x : Input} {rest : List Input} (h : s.pending = x :: rest) :
    s.taken = { s with pending := rest } := by
  rw [State.taken, h, List.tail_cons]

/-- A step on a presented command runs it (00_scope.md R17). -/
theorem step_command {s : State} {w : Descriptor} {rest : List Input} {i : Instr}
    (hp : s.pending = .command w :: rest) (hd : decode w = .ok i) : step s = exec i s.taken := by
  simp [step, hp, hd]

/-- Settles O5: the step runs the decoded command, and the input it took is the head of the list. -/
theorem stepRunsDecodedInstruction : Obligations.StepRunsDecodedInstruction := by
  unfold Obligations.StepRunsDecodedInstruction
  intro s w rest i hp hd
  rw [step_command hp hd, State.taken_eq hp]

/-! ## The stages of `RUN` -/

variable {s t : State}

/-- A stage whose checks have passed leaves one state. -/
theorem ok_eq_ok {u : State} : (Except.ok u : Except Cause State) = .ok t ↔ t = u := by
  rw [Except.ok.injEq, eq_comm]

/-- A check that must pass. -/
theorem require_ok {c : Prop} [Decidable c] {e : Cause} {r : Except Cause State} :
    (if c then r else .error e) = .ok t ↔ c ∧ r = .ok t := by
  split <;> simp_all

/-- A condition that must not hold. -/
theorem forbid_ok {c : Prop} [Decidable c] {e : Cause} {r : Except Cause State} :
    (if c then .error e else r) = .ok t ↔ ¬ c ∧ r = .ok t := by
  split <;> simp_all

/-- `START` (46_control.md R272). -/
theorem State.startEncode_ok : s.startEncode = .ok t ↔
    s.phase = .idle ∧ versionLegal s.version = true ∧
      t = { s with bb := [], fin := [], evalid := 0, scores := Vector.replicate 8 0, maskId := 0,
                   phase := .packing } := by
  rw [State.startEncode, State.inPhase_ok, require_ok, ok_eq_ok]

/-- `PKMODE` (42_bitstream.md R163). -/
theorem State.packMode_ok : s.packMode = .ok t ↔
    s.phase = .packing ∧ s.bbLen + 4 ≤ s.capBits ∧
      t = { s with bb := s.bb ++ bitsOf (modeIndicator s.cfg.mode) 4 } := by
  rw [State.packMode, State.inPhase_ok, State.append_ok]

/-- `PKCNT` (42_bitstream.md R164). -/
theorem State.packCount_ok : s.packCount = .ok t ↔
    s.phase = .packing ∧ ¬ 2 ^ cntWidth s.cfg.mode s.version ≤ s.payLen.toNat ∧
      s.bbLen + cntWidth s.cfg.mode s.version ≤ s.capBits ∧
      t = { s with bb := s.bb ++ bitsOf s.payLen.toNat (cntWidth s.cfg.mode s.version) } := by
  rw [State.packCount, State.inPhase_ok, forbid_ok, State.append_ok]

/-- `PKDATA` (42_bitstream.md R165). -/
theorem State.packData_ok : s.packData = .ok t ↔
    s.phase = .packing ∧ ∃ us, readUnits s.cfg.mode s.pay (List.range s.payLen.toNat) = .ok us ∧
      s.bbLen + groupWidth (groupsOf s.cfg.mode us) ≤ s.capBits ∧
      t = { s with bb := s.bb ++ groupBits (groupsOf s.cfg.mode us) } := by
  rw [State.packData, State.inPhase_ok]
  cases readUnits s.cfg.mode s.pay (List.range s.payLen.toNat) with
  | error c => simp
  | ok us => simp only [forbid_ok, not_lt, Except.ok.injEq, exists_eq_left', eq_comm (b := t)]

/-- `PKTERM` (42_bitstream.md R170). -/
theorem State.packTerminator_ok : s.packTerminator = .ok t ↔
    s.phase = .packing ∧ s.bbLen + min 4 (s.capBits - s.bbLen) ≤ s.capBits ∧
      t = { s with bb := s.bb ++ bitsOf 0 (min 4 (s.capBits - s.bbLen)) } := by
  rw [State.packTerminator, State.inPhase_ok, State.append_ok]

/-- `PKALIGN` (42_bitstream.md R171). -/
theorem State.packAlign_ok : s.packAlign = .ok t ↔
    s.phase = .packing ∧ s.bbLen + (8 - s.bbLen % 8) % 8 ≤ s.capBits ∧
      t = { s with bb := s.bb ++ bitsOf 0 ((8 - s.bbLen % 8) % 8) } := by
  rw [State.packAlign, State.inPhase_ok, State.append_ok]

/-- `PKPAD` (42_bitstream.md R172). -/
theorem State.packPad_ok : s.packPad = .ok t ↔
    s.phase = .packing ∧ s.bbLen % 8 = 0 ∧
      t = { s with bb := s.bb ++ padBits ((s.capBits - s.bbLen) / 8) } := by
  rw [State.packPad, State.inPhase_ok, forbid_ok, not_not, ok_eq_ok]

/-- `ECC` (43_reed_solomon.md R196). -/
theorem State.encodeBlocks_ok : s.encodeBlocks = .ok t ↔
    s.phase = .packing ∧ s.bbLen = 8 * s.dcap ∧
      t = { s with fin := codewordStream s.blocks (codewordsOf s.bb), gen := rsGenerator s.blocks.ecLen,
                   phase := .coded } := by
  rw [State.encodeBlocks, State.inPhase_ok, forbid_ok, not_not, ok_eq_ok]

/-- `MXFUNC` (44_matrix.md R221). -/
theorem State.buildFunction_ok : s.buildFunction = .ok t ↔
    s.phase = .coded ∧ t = { s with mx := functionMatrix s.version, phase := .laid } := by
  rw [State.buildFunction, State.inPhase_ok, ok_eq_ok]

/-- `MXDATA` (44_matrix.md R223). -/
theorem State.placeData_ok : s.placeData = .ok t ↔
    s.phase = .laid ∧ t = { s with mx := placeStream s.mx s.side s.fin, evalid := 0, phase := .placed } := by
  rw [State.placeData, State.inPhase_ok, ok_eq_ok]

/-- `MKEVAL` (45_mask.md R257). -/
theorem State.evaluateMask_ok {m : Nat} : s.evaluateMask m = .ok t ↔
    s.phase = .placed ∧ ∃ h : m < 8,
      t = { s with scores := s.scores.set m (BitVec.ofNat 32 (score (candidate m s.mx))) h,
                   evalid := evalidMark s.evalid m } := by
  rw [State.evaluateMask, State.inPhase_ok]
  by_cases h : m < 8 <;> simp [h, eq_comm (b := t)]

/-- `MKSEL` (45_mask.md R258). -/
theorem State.selectMask_ok : s.selectMask = .ok t ↔
    s.phase = .placed ∧ evalidAll s.evalid = true ∧
      t = { s with maskId := BitVec.ofNat 3 (bestMask s.scores).val, phase := .selected } := by
  rw [State.selectMask, State.inPhase_ok, require_ok, ok_eq_ok]

/-- `MKAPPLY` (45_mask.md R259). -/
theorem State.applyMask_ok : s.applyMask = .ok t ↔
    s.phase = .selected ∧ t = { s with mx := maskMatrix s.maskId.toNat s.mx, phase := .masked } := by
  rw [State.applyMask, State.inPhase_ok, ok_eq_ok]

/-- `MKFMT` (45_mask.md R262). -/
theorem State.putFormat_ok : s.putFormat = .ok t ↔
    s.phase = .masked ∧
      t = { s with mx := writeFormat s.side (formatValue s.cfg.ecLevel s.maskId.toNat) s.mx,
                   phase := .formatted } := by
  rw [State.putFormat, State.inPhase_ok, ok_eq_ok]

/-- `MKVER` (45_mask.md R265). -/
theorem State.putVersion_ok : s.putVersion = .ok t ↔
    s.phase = .formatted ∧
      t = { s with mx := if 7 ≤ s.version then writeVersion s.side (versionValue s.version) s.mx else s.mx,
                   phase := .done } := by
  rw [State.putVersion, State.inPhase_ok, ok_eq_ok]

/-- The state a completed `RELEASE` leaves (46_control.md R274). -/
def State.released (s : State) : State := { s with phase := .idle }.respond 0

@[simp] theorem State.released_phase (s : State) : s.released.phase = .idle := rfl
@[simp] theorem State.released_fault (s : State) : s.released.fault = s.fault := rfl

/-- `RELEASE` (46_control.md R274). -/
theorem exec_release_of_done (hf : s.fault = false) (hp : s.phase = .done) :
    exec .release s = .next s.released := by
  show s.perform s.releaseSymbol = _
  rw [State.releaseSymbol, State.inPhase_eq hp, State.perform_ok hf, State.released]

/-! ## Runs of stages -/

/-- Stages in two parts succeed when each part does. -/
theorem stagesOk_append {fs gs : List (State → Except Cause State)} :
    stagesOk (fs ++ gs) s t ↔ ∃ u, stagesOk fs s u ∧ stagesOk gs u t := by
  induction fs generalizing s with
  | nil => simp [stagesOk]
  | cons f fs ih =>
    simp only [List.cons_append, stagesOk, ih]
    exact ⟨fun ⟨v, hf, u, hfs, hgs⟩ => ⟨u, ⟨v, hf, hfs⟩, hgs⟩,
      fun ⟨u, ⟨v, hf, hfs⟩, hgs⟩ => ⟨v, hf, u, hfs, hgs⟩⟩

/-- Stages that all succeed are a completed run of them. -/
theorem runThrough_of_stagesOk {fs : List (State → Except Cause State)} (h : stagesOk fs s t) :
    runThrough fs s = t.respond 0 := by
  induction fs generalizing s with
  | nil => rw [stagesOk] at h; rw [runThrough, h]
  | cons f fs ih =>
    obtain ⟨u, hf, hfs⟩ := h
    simp [runThrough, hf, ih hfs]

/-- In IDLE, `RUN` completes exactly when its 22 stages do (46_control.md R275). -/
theorem exec_run_completes (hf : s.fault = false) (hp : s.phase = .idle) :
    exec .run s = .next t ∧ t.fault = false ↔
      ∃ u, stagesOk runStages s u ∧ u.fault = false ∧ t = u.respond 0 := by
  have hrun : exec .run s = .next (runThrough runStages s) := by
    show execRun s = _
    simp [execRun, hf, hp]
  rw [hrun, Host.Outcome.next.injEq]
  constructor
  · rintro ⟨rfl, hok⟩
    rcases runThrough_cases runStages s with ⟨u, hu, hr⟩ | ⟨pre, f, post, u, c, -, -, -, hr⟩
    · exact ⟨u, hu, by rwa [hr] at hok, hr⟩
    · rw [hr] at hok
      cases hok
  · rintro ⟨u, hu, hok, rfl⟩
    exact ⟨runThrough_of_stagesOk hu, hok⟩

/-- A completed `RUN` ends with `MKVER`, in phase DONE. -/
theorem runStages_phase (h : stagesOk runStages s t) : t.phase = .done := by
  obtain ⟨u, -, v, hv, rfl⟩ := (stagesOk_append (fs := runStages.dropLast) (gs := [State.putVersion])).mp h
  obtain ⟨-, rfl⟩ := State.putVersion_ok.mp hv
  rfl

end Sys2Proof.Machine
end

section
/-! An encode leaves what it reads, and everything it writes it has overwritten before it reads it: so an encode
from the state that an earlier one left ends in the same state (00_scope.md R19; 70_reset_and_hazards.md R344). -/

namespace Sys2Proof.Machine

/-! ## What no stage of `RUN` writes -/

/-- What an encode is a function of, with the fault state and the host's inputs: no stage writes these. -/
def State.inputs (s : State) : Cfg × BitVec 13 × Memory × Bool × Cause × List Input :=
  (s.cfg, s.payLen, s.pay, s.fault, s.cause, s.pending)

@[simp] theorem State.respond_inputs (s : State) (d : Data) : (s.respond d).inputs = s.inputs := rfl
@[simp] theorem State.released_inputs (s : State) : s.released.inputs = s.inputs := rfl

/-- Stages that each keep the inputs keep them together. -/
theorem stagesOk_inputs {fs : List (State → Except Cause State)}
    (hfs : ∀ f ∈ fs, ∀ s t, f s = .ok t → t.inputs = s.inputs) {s t : State} (h : stagesOk fs s t) :
    t.inputs = s.inputs := by
  induction fs generalizing s with
  | nil => exact congrArg State.inputs (Eq.symm h)
  | cons f fs ih =>
    obtain ⟨u, hf, hrest⟩ := h
    have hu : u.inputs = s.inputs := hfs f List.mem_cons_self s u hf
    exact (ih (fun g hg => hfs g (List.mem_cons_of_mem f hg)) hrest).trans hu

theorem evaluateMask_inputs (m : Nat) (s t : State) (h : s.evaluateMask m = .ok t) : t.inputs = s.inputs := by
  obtain ⟨-, -, rfl⟩ := State.evaluateMask_ok.mp h; rfl

/-- Every stage of `RUN` keeps the inputs. -/
theorem runStages_inputs : ∀ f ∈ runStages, ∀ s t, f s = .ok t → t.inputs = s.inputs := by
  simp only [runStages, List.forall_mem_cons, List.not_mem_nil, false_imp_iff, implies_true, and_true]
  refine ⟨?start, ?mode, ?count, ?data, ?term, ?align, ?pad, ?ecc, ?func, ?place,
    evaluateMask_inputs 0, evaluateMask_inputs 1, evaluateMask_inputs 2, evaluateMask_inputs 3,
    evaluateMask_inputs 4, evaluateMask_inputs 5, evaluateMask_inputs 6, evaluateMask_inputs 7,
    ?select, ?apply, ?format, ?version⟩ <;> intro s t h
  case start => obtain ⟨-, -, rfl⟩ := State.startEncode_ok.mp h; rfl
  case mode => obtain ⟨-, -, rfl⟩ := State.packMode_ok.mp h; rfl
  case count => obtain ⟨-, -, -, rfl⟩ := State.packCount_ok.mp h; rfl
  case data => obtain ⟨-, _, -, -, rfl⟩ := State.packData_ok.mp h; rfl
  case term => obtain ⟨-, -, rfl⟩ := State.packTerminator_ok.mp h; rfl
  case align => obtain ⟨-, -, rfl⟩ := State.packAlign_ok.mp h; rfl
  case pad => obtain ⟨-, -, rfl⟩ := State.packPad_ok.mp h; rfl
  case ecc => obtain ⟨-, -, rfl⟩ := State.encodeBlocks_ok.mp h; rfl
  case func => obtain ⟨-, rfl⟩ := State.buildFunction_ok.mp h; rfl
  case place => obtain ⟨-, rfl⟩ := State.placeData_ok.mp h; rfl
  case select => obtain ⟨-, -, rfl⟩ := State.selectMask_ok.mp h; rfl
  case apply => obtain ⟨-, rfl⟩ := State.applyMask_ok.mp h; rfl
  case format => obtain ⟨-, rfl⟩ := State.putFormat_ok.mp h; rfl
  case version => obtain ⟨-, rfl⟩ := State.putVersion_ok.mp h; rfl

/-! ## What is left of an earlier state at each point of an encode -/

/-- `s` with every buffer, result and response of an earlier state `w`: what `START` may find. -/
def State.withWork (s w : State) : State :=
  { w with cfg := s.cfg, payLen := s.payLen, phase := s.phase, fault := s.fault, cause := s.cause,
           pay := s.pay, pending := s.pending }

/-- What `START` does not clear: `GEN`, `MX` and the model's own response. -/
def State.withGenMx (s w : State) : State := { s with gen := w.gen, mx := w.mx, resp := w.resp }

/-- What `ECC` leaves of these: `MX` and the response. -/
def State.withMx (s w : State) : State := { s with mx := w.mx, resp := w.resp }

/-- What `MXFUNC` leaves: the response. -/
def State.withResp (s w : State) : State := { s with resp := w.resp }

/-- A state of the same phase and inputs is `s` with that state's work. -/
theorem State.withWork_eq {s w : State} (hp : w.phase = s.phase) (hi : w.inputs = s.inputs) :
    s.withWork w = w := by
  cases s
  cases w
  simp_all [State.withWork, State.inputs]

/-! ## Each stage beside the leftovers it does not read -/

/-- The stage completes with leftovers `k` put into its state too, and `k'` says which of them it leaves. -/
def Carries (k k' : State → State) (f : State → Except Cause State) : Prop :=
  ∀ ⦃s t⦄, f s = .ok t → f (k s) = .ok (k' t)

/-- `Carries` for stages run in order. -/
def CarriesAll (k k' : State → State) (fs : List (State → Except Cause State)) : Prop :=
  ∀ ⦃s t⦄, stagesOk fs s t → stagesOk fs (k s) (k' t)

theorem CarriesAll.nil (k : State → State) : CarriesAll k k [] := fun _ _ h => congrArg k h

theorem CarriesAll.cons {k k' k'' : State → State} {f : State → Except Cause State}
    {fs : List (State → Except Cause State)} (hf : Carries k k' f) (hfs : CarriesAll k' k'' fs) :
    CarriesAll k k'' (f :: fs) :=
  fun _ _ ⟨u, hu, hrest⟩ => ⟨k' u, hf hu, hfs hrest⟩

variable (w : State)

theorem startEncode_carries : Carries (·.withWork w) (·.withGenMx w) State.startEncode := by
  intro s t h
  obtain ⟨hp, hv, rfl⟩ := State.startEncode_ok.mp h
  exact State.startEncode_ok.mpr ⟨hp, hv, rfl⟩

theorem packMode_carries : Carries (·.withGenMx w) (·.withGenMx w) State.packMode := by
  intro s t h
  obtain ⟨hp, hfit, rfl⟩ := State.packMode_ok.mp h
  exact State.packMode_ok.mpr ⟨hp, hfit, rfl⟩

theorem packCount_carries : Carries (·.withGenMx w) (·.withGenMx w) State.packCount := by
  intro s t h
  obtain ⟨hp, hcount, hfit, rfl⟩ := State.packCount_ok.mp h
  exact State.packCount_ok.mpr ⟨hp, hcount, hfit, rfl⟩

theorem packData_carries : Carries (·.withGenMx w) (·.withGenMx w) State.packData := by
  intro s t h
  obtain ⟨hp, us, hread, hfit, rfl⟩ := State.packData_ok.mp h
  exact State.packData_ok.mpr ⟨hp, us, hread, hfit, rfl⟩

theorem packTerminator_carries : Carries (·.withGenMx w) (·.withGenMx w) State.packTerminator := by
  intro s t h
  obtain ⟨hp, hfit, rfl⟩ := State.packTerminator_ok.mp h
  exact State.packTerminator_ok.mpr ⟨hp, hfit, rfl⟩

theorem packAlign_carries : Carries (·.withGenMx w) (·.withGenMx w) State.packAlign := by
  intro s t h
  obtain ⟨hp, hfit, rfl⟩ := State.packAlign_ok.mp h
  exact State.packAlign_ok.mpr ⟨hp, hfit, rfl⟩

theorem packPad_carries : Carries (·.withGenMx w) (·.withGenMx w) State.packPad := by
  intro s t h
  obtain ⟨hp, halign, rfl⟩ := State.packPad_ok.mp h
  exact State.packPad_ok.mpr ⟨hp, halign, rfl⟩

theorem encodeBlocks_carries : Carries (·.withGenMx w) (·.withMx w) State.encodeBlocks := by
  intro s t h
  obtain ⟨hp, hfull, rfl⟩ := State.encodeBlocks_ok.mp h
  exact State.encodeBlocks_ok.mpr ⟨hp, hfull, rfl⟩

theorem buildFunction_carries : Carries (·.withMx w) (·.withResp w) State.buildFunction := by
  intro s t h
  obtain ⟨hp, rfl⟩ := State.buildFunction_ok.mp h
  exact State.buildFunction_ok.mpr ⟨hp, rfl⟩

theorem placeData_carries : Carries (·.withResp w) (·.withResp w) State.placeData := by
  intro s t h
  obtain ⟨hp, rfl⟩ := State.placeData_ok.mp h
  exact State.placeData_ok.mpr ⟨hp, rfl⟩

theorem evaluateMask_carries (m : Nat) :
    Carries (·.withResp w) (·.withResp w) (State.evaluateMask · m) := by
  intro s t h
  obtain ⟨hp, hm, rfl⟩ := State.evaluateMask_ok.mp h
  exact State.evaluateMask_ok.mpr ⟨hp, hm, rfl⟩

theorem selectMask_carries : Carries (·.withResp w) (·.withResp w) State.selectMask := by
  intro s t h
  obtain ⟨hp, hall, rfl⟩ := State.selectMask_ok.mp h
  exact State.selectMask_ok.mpr ⟨hp, hall, rfl⟩

theorem applyMask_carries : Carries (·.withResp w) (·.withResp w) State.applyMask := by
  intro s t h
  obtain ⟨hp, rfl⟩ := State.applyMask_ok.mp h
  exact State.applyMask_ok.mpr ⟨hp, rfl⟩

theorem putFormat_carries : Carries (·.withResp w) (·.withResp w) State.putFormat := by
  intro s t h
  obtain ⟨hp, rfl⟩ := State.putFormat_ok.mp h
  exact State.putFormat_ok.mpr ⟨hp, by simp [State.withResp, State.side, State.version]⟩

theorem putVersion_carries : Carries (·.withResp w) (·.withResp w) State.putVersion := by
  intro s t h
  obtain ⟨hp, rfl⟩ := State.putVersion_ok.mp h
  exact State.putVersion_ok.mpr ⟨hp, rfl⟩

/-- An encode overwrites all earlier work but the response, which no stage touches. -/
theorem runStages_carry : CarriesAll (·.withWork w) (·.withResp w) runStages :=
  .cons (startEncode_carries w) <| .cons (packMode_carries w) <| .cons (packCount_carries w) <|
  .cons (packData_carries w) <| .cons (packTerminator_carries w) <| .cons (packAlign_carries w) <|
  .cons (packPad_carries w) <| .cons (encodeBlocks_carries w) <| .cons (buildFunction_carries w) <|
  .cons (placeData_carries w) <| .cons (evaluateMask_carries w 0) <| .cons (evaluateMask_carries w 1) <|
  .cons (evaluateMask_carries w 2) <| .cons (evaluateMask_carries w 3) <|
  .cons (evaluateMask_carries w 4) <| .cons (evaluateMask_carries w 5) <|
  .cons (evaluateMask_carries w 6) <| .cons (evaluateMask_carries w 7) <|
  .cons (selectMask_carries w) <| .cons (applyMask_carries w) <| .cons (putFormat_carries w) <|
  .cons (putVersion_carries w) <| .nil _

end Sys2Proof.Machine
end

section
/-! The repeated encode. -/

namespace Sys2Proof.Machine

/-- Settles O23: the released state has the phase and inputs of the first one, so its `RUN` differs from the
first only in work that the stages overwrite. -/
theorem runReleaseRunRepeats : Obligations.RunReleaseRunRepeats := by
  unfold Obligations.RunReleaseRunRepeats
  intro s t hf hp hrun hok
  obtain ⟨v, hv, hvf, rfl⟩ := (exec_run_completes hf hp).mp ⟨hrun, hok⟩
  have hdone : v.phase = .done := runStages_phase hv
  have hinputs : v.inputs = s.inputs := stagesOk_inputs runStages_inputs hv
  have hleft : s.withWork (v.respond 0).released = (v.respond 0).released :=
    State.withWork_eq hp.symm (by simpa using hinputs)
  have hagain : stagesOk runStages (s.withWork (v.respond 0).released) _ := runStages_carry _ hv
  rw [hleft] at hagain
  refine ⟨(v.respond 0).released, exec_release_of_done hok hdone, State.released_phase _, ?_⟩
  exact ((exec_run_completes (s := (v.respond 0).released) hok rfl).mpr ⟨_, hagain, hvf, rfl⟩).1

end Sys2Proof.Machine
end

section
/-! Everything a command can do, said once: a report on an unchanged state, the stage of a command that writes, or
`RUN` or `RESET`. -/

namespace Sys2Proof.Machine

/-! ## Reports -/

/-- The states that differ from `s` in a response or in a fault taken, and in nothing else (20_memory.md R97;
60_exceptions.md R312, R313). -/
inductive State.Reported (s : State) : State → Prop
  | ignored : s.Reported s.ignored
  | raise {c : Cause} (hc : c ≠ .none) : s.Reported (s.raise c)
  | respond (d : Data) : s.Reported (s.respond d)

variable {s t : State} {i : Instr} {f : State → Except Cause State}

theorem State.Reported.cfg (h : s.Reported t) : t.cfg = s.cfg := by cases h <;> rfl
theorem State.Reported.payLen (h : s.Reported t) : t.payLen = s.payLen := by cases h <;> rfl
theorem State.Reported.pay (h : s.Reported t) : t.pay = s.pay := by cases h <;> rfl
theorem State.Reported.mx (h : s.Reported t) : t.mx = s.mx := by cases h <;> rfl

/-- A command that only responds reports, unless its check raises NONE. -/
theorem State.answer_reported {r : Except Cause Data} (hr : r ≠ .error .none) (h : s.answer r = .next t) :
    s.Reported t := by
  rcases State.answer_cases h with ⟨-, rfl⟩ | ⟨-, c, rfl, rfl⟩ | ⟨-, d, -, rfl⟩
  · exact .ignored
  · exact .raise fun hc => hr (by rw [hc])
  · exact .respond d

/-! ## Reads -/

/-- A read reports and does nothing else (20_memory.md R97). -/
theorem read_reported (hi : isRead i = true) (h : exec i s = .next t) : s.Reported t := by
  cases i with
  | nop =>
    rcases State.perform_cases (r := .ok s) h with ⟨-, rfl⟩ | ⟨-, c, hc, -⟩ | ⟨-, u, hu, rfl⟩
    · exact .ignored
    · cases hc
    · cases hu; exact .respond 0
  | rdreg reg =>
    simp only [exec, execRdreg] at h
    split at h
    · cases h; exact .respond _
    · exact State.answer_reported (by simp) h
  | rdpay idx => refine State.answer_reported ?_ h; split <;> [skip; split] <;> simp
  | rdbit idx => refine State.answer_reported ?_ h; split <;> [skip; split] <;> simp
  | rdcw idx => refine State.answer_reported ?_ h; split <;> [skip; split] <;> simp
  | rdmod row col => refine State.answer_reported ?_ h; split <;> [skip; split] <;> simp
  | rdgen idx => refine State.answer_reported ?_ h; split <;> simp
  | gfexp a => exact State.answer_reported (r := .ok _) (by simp) h
  | gflog a => refine State.answer_reported ?_ h; split <;> simp
  | gfmul a b => exact State.answer_reported (r := .ok _) (by simp) h
  | gfadd a b => exact State.answer_reported (r := .ok _) (by simp) h
  | reset | start | release | run | wrreg | wrpay | pushb | pkmode | pkcnt | pkdata | pkterm | pkalign | pkpad
  | rsgen | ecc | mxfunc | mxdata | mkeval | mksel | mkapply | mkfmt | mkver => cases hi

/-! ## Stages -/

/-- What `WRPAY` does to a state without a fault (41_config_access.md R143). -/
def State.writePay (s : State) (idx : Index) (val : PayUnit) : Except Cause State :=
  s.inPhase .idle
    (if Config.payDepth ≤ idx.toNat then .error .range
      else .ok { s with pay := s.pay.write idx.toNat val })

/-- The stage of each command that writes state, all but `RESET` and `RUN`. -/
inductive Stage : Instr → (State → Except Cause State) → Prop
  | start : Stage .start State.startEncode
  | release : Stage .release State.releaseSymbol
  | wrreg (reg : BitVec 8) (val : Data) : Stage (.wrreg reg val) (·.writeReg reg val)
  | wrpay (idx : Index) (val : PayUnit) : Stage (.wrpay idx val) (·.writePay idx val)
  | pushb (val : BitVec 16) (width : BitVec 5) : Stage (.pushb val width) (·.pushBits val width)
  | pkmode : Stage .pkmode State.packMode
  | pkcnt : Stage .pkcnt State.packCount
  | pkdata : Stage .pkdata State.packData
  | pkterm : Stage .pkterm State.packTerminator
  | pkalign : Stage .pkalign State.packAlign
  | pkpad : Stage .pkpad State.packPad
  | rsgen (n : Index) : Stage (.rsgen n) (·.loadGenerator n)
  | ecc : Stage .ecc State.encodeBlocks
  | mxfunc : Stage .mxfunc State.buildFunction
  | mxdata : Stage .mxdata State.placeData
  | mkeval (m : Index) : Stage (.mkeval m) (·.evaluateMask m.toNat)
  | mksel : Stage .mksel State.selectMask
  | mkapply : Stage .mkapply State.applyMask
  | mkfmt : Stage .mkfmt State.putFormat
  | mkver : Stage .mkver State.putVersion

/-- A command with a stage performs it. -/
theorem Stage.exec_eq (hst : Stage i f) (s : State) : exec i s = s.perform (f s) := by
  cases hst <;> rfl

/-- Every constituent of `RUN` is the stage of a command (46_control.md R275). -/
theorem runStages_stage : ∀ f ∈ runStages, ∃ i, Stage i f := by
  simp only [runStages, List.forall_mem_cons, List.not_mem_nil, false_imp_iff, implies_true, and_true]
  exact ⟨⟨_, .start⟩, ⟨_, .pkmode⟩, ⟨_, .pkcnt⟩, ⟨_, .pkdata⟩, ⟨_, .pkterm⟩, ⟨_, .pkalign⟩, ⟨_, .pkpad⟩,
    ⟨_, .ecc⟩, ⟨_, .mxfunc⟩, ⟨_, .mxdata⟩, ⟨_, .mkeval 0⟩, ⟨_, .mkeval 1⟩, ⟨_, .mkeval 2⟩, ⟨_, .mkeval 3⟩,
    ⟨_, .mkeval 4⟩, ⟨_, .mkeval 5⟩, ⟨_, .mkeval 6⟩, ⟨_, .mkeval 7⟩, ⟨_, .mksel⟩, ⟨_, .mkapply⟩, ⟨_, .mkfmt⟩,
    ⟨_, .mkver⟩⟩

/-- `RELEASE` (46_control.md R274). -/
theorem State.releaseSymbol_ok : s.releaseSymbol = .ok t ↔ s.phase = .done ∧ t = { s with phase := .idle } := by
  rw [State.releaseSymbol, State.inPhase_ok, ok_eq_ok]

/-- `WRREG` writes one of two registers, in IDLE (41_config_access.md R141). -/
theorem State.writeReg_ok {reg : BitVec 8} {val : Data} : s.writeReg reg val = .ok t ↔
    s.phase = .idle ∧ ((reg = 0 ∧ val.extractLsb' 10 22 = 0 ∧ t = { s with cfg := Cfg.ofWord val }) ∨
      (reg = 1 ∧ val.extractLsb' 13 19 = 0 ∧ t = { s with payLen := val.extractLsb' 0 13 })) := by
  rw [State.writeReg]
  split
  · rename_i hr
    obtain rfl : reg = 0 := BitVec.eq_of_toNat_eq hr
    simp [State.inPhase_ok, require_ok, eq_comm (b := t)]
  · rename_i hr0
    have h0 : reg ≠ 0#8 := fun h => hr0 (by rw [h]; rfl)
    split
    · rename_i hr
      obtain rfl : reg = 1 := BitVec.eq_of_toNat_eq hr
      simp [State.inPhase_ok, require_ok, eq_comm (b := t)]
    · rename_i hr1
      have h1 : reg ≠ 1#8 := fun h => hr1 (by rw [h]; rfl)
      simp [h0, h1]

/-- `WRPAY` (41_config_access.md R143). -/
theorem State.writePay_ok {idx : Index} {val : PayUnit} : s.writePay idx val = .ok t ↔
    s.phase = .idle ∧ idx.toNat < Config.payDepth ∧ t = { s with pay := s.pay.write idx.toNat val } := by
  rw [State.writePay, State.inPhase_ok, forbid_ok, not_le, ok_eq_ok]

/-- `PUSHB` (42_bitstream.md R160). -/
theorem State.pushBits_ok {val : BitVec 16} {width : BitVec 5} : s.pushBits val width = .ok t ↔
    s.phase = .packing ∧ width.toNat ≤ 16 ∧ val.toNat < 2 ^ width.toNat ∧
      s.bbLen + width.toNat ≤ s.capBits ∧ t = { s with bb := s.bb ++ bitsOf val.toNat width.toNat } := by
  rw [State.pushBits, State.inPhase_ok, forbid_ok, forbid_ok, not_lt, not_le, State.append_ok]

/-- `RSGEN` (43_reed_solomon.md R193). -/
theorem State.loadGenerator_ok {n : Index} : s.loadGenerator n = .ok t ↔
    (1 ≤ n.toNat ∧ n.toNat ≤ 30) ∧ t = { s with gen := rsGenerator n.toNat } := by
  rw [State.loadGenerator, forbid_ok, not_or, not_lt, not_lt, ok_eq_ok]

/-! ## What a completed stage leaves -/

/-- The commands that append to the bit buffer and do nothing else (42_bitstream.md). -/
def isPacker : Instr → Bool
  | .pushb _ _ | .pkmode | .pkcnt | .pkdata | .pkterm | .pkalign | .pkpad => true
  | _ => false

/-- The state each command with a stage leaves when it completes, before its response. -/
inductive Completes (s : State) : Instr → State → Prop
  | start (hp : s.phase = .idle) (hv : versionLegal s.version = true) :
      Completes s .start
        { s with bb := [], fin := [], evalid := 0, scores := Vector.replicate 8 0, maskId := 0,
                 phase := .packing }
  | release (hp : s.phase = .done) : Completes s .release { s with phase := .idle }
  | wrregCfg (hp : s.phase = .idle) (val : Data) :
      Completes s (.wrreg 0 val) { s with cfg := Cfg.ofWord val }
  | wrregLen (hp : s.phase = .idle) (val : Data) :
      Completes s (.wrreg 1 val) { s with payLen := val.extractLsb' 0 13 }
  | wrpay (hp : s.phase = .idle) {idx : Index} (hi : idx.toNat < Config.payDepth) (val : PayUnit) :
      Completes s (.wrpay idx val) { s with pay := s.pay.write idx.toNat val }
  | append {i : Instr} (hi : isPacker i = true) (hp : s.phase = .packing) {bits : List Bool}
      (hb : bits.length ≤ s.capBits - s.bbLen) : Completes s i { s with bb := s.bb ++ bits }
  | rsgen {n : Index} (hn : 1 ≤ n.toNat ∧ n.toNat ≤ 30) :
      Completes s (.rsgen n) { s with gen := rsGenerator n.toNat }
  | ecc (hp : s.phase = .packing) (hfull : s.bbLen = s.capBits) :
      Completes s .ecc
        { s with fin := codewordStream s.blocks (codewordsOf s.bb), gen := rsGenerator s.blocks.ecLen,
                 phase := .coded }
  | mxfunc (hp : s.phase = .coded) :
      Completes s .mxfunc { s with mx := functionMatrix s.version, phase := .laid }
  | mxdata (hp : s.phase = .laid) :
      Completes s .mxdata { s with mx := placeStream s.mx s.side s.fin, evalid := 0, phase := .placed }
  | mkeval (hp : s.phase = .placed) {m : Index} (hm : m.toNat < 8) :
      Completes s (.mkeval m)
        { s with scores := s.scores.set m.toNat (BitVec.ofNat 32 (score (candidate m.toNat s.mx))) hm,
                 evalid := evalidMark s.evalid m.toNat }
  | mksel (hp : s.phase = .placed) (hall : evalidAll s.evalid = true) :
      Completes s .mksel { s with maskId := BitVec.ofNat 3 (bestMask s.scores).val, phase := .selected }
  | mkapply (hp : s.phase = .selected) :
      Completes s .mkapply { s with mx := maskMatrix s.maskId.toNat s.mx, phase := .masked }
  | mkfmt (hp : s.phase = .masked) :
      Completes s .mkfmt
        { s with mx := writeFormat s.side (formatValue s.cfg.ecLevel s.maskId.toNat) s.mx,
                 phase := .formatted }
  | mkver (hp : s.phase = .formatted) :
      Completes s .mkver
        { s with mx := if 7 ≤ s.version then writeVersion s.side (versionValue s.version) s.mx else s.mx,
                 phase := .done }

/-- A stage that completes leaves what `Completes` says. -/
theorem Stage.completes (hst : Stage i f) (h : f s = .ok t) : Completes s i t := by
  have fits {a w c : Nat} (hw : a + w ≤ c) : w ≤ c - a := by omega
  cases hst with
  | start => obtain ⟨hp, hv, rfl⟩ := State.startEncode_ok.mp h; exact .start hp hv
  | release => obtain ⟨hp, rfl⟩ := State.releaseSymbol_ok.mp h; exact .release hp
  | wrreg reg val =>
    obtain ⟨hp, ⟨rfl, -, rfl⟩ | ⟨rfl, -, rfl⟩⟩ := State.writeReg_ok.mp h
    · exact .wrregCfg hp val
    · exact .wrregLen hp val
  | wrpay idx val => obtain ⟨hp, hi, rfl⟩ := State.writePay_ok.mp h; exact .wrpay hp hi val
  | pushb val width =>
    obtain ⟨hp, -, -, hw, rfl⟩ := State.pushBits_ok.mp h
    exact .append rfl hp (by simpa using fits hw)
  | pkmode =>
    obtain ⟨hp, hw, rfl⟩ := State.packMode_ok.mp h
    exact .append rfl hp (by simpa using fits hw)
  | pkcnt =>
    obtain ⟨hp, -, hw, rfl⟩ := State.packCount_ok.mp h
    exact .append rfl hp (by simpa using fits hw)
  | pkdata =>
    obtain ⟨hp, us, -, hw, rfl⟩ := State.packData_ok.mp h
    exact .append rfl hp (by simpa using fits hw)
  | pkterm =>
    obtain ⟨hp, -, rfl⟩ := State.packTerminator_ok.mp h
    exact .append rfl hp (by rw [bitsOf_length]; exact Nat.min_le_right _ _)
  | pkalign =>
    obtain ⟨hp, hw, rfl⟩ := State.packAlign_ok.mp h
    exact .append rfl hp (by rw [bitsOf_length]; exact fits hw)
  | pkpad =>
    obtain ⟨hp, -, rfl⟩ := State.packPad_ok.mp h
    exact .append rfl hp (by rw [padBits_length]; exact Nat.mul_div_le _ _)
  | rsgen n => obtain ⟨hn, rfl⟩ := State.loadGenerator_ok.mp h; exact .rsgen hn
  | ecc => obtain ⟨hp, hfull, rfl⟩ := State.encodeBlocks_ok.mp h; exact .ecc hp hfull
  | mxfunc => obtain ⟨hp, rfl⟩ := State.buildFunction_ok.mp h; exact .mxfunc hp
  | mxdata => obtain ⟨hp, rfl⟩ := State.placeData_ok.mp h; exact .mxdata hp
  | mkeval m => obtain ⟨hp, hm, rfl⟩ := State.evaluateMask_ok.mp h; exact .mkeval hp hm
  | mksel => obtain ⟨hp, hall, rfl⟩ := State.selectMask_ok.mp h; exact .mksel hp hall
  | mkapply => obtain ⟨hp, rfl⟩ := State.applyMask_ok.mp h; exact .mkapply hp
  | mkfmt => obtain ⟨hp, rfl⟩ := State.putFormat_ok.mp h; exact .mkfmt hp
  | mkver => obtain ⟨hp, rfl⟩ := State.putVersion_ok.mp h; exact .mkver hp

/-! ## The cause of a fault -/

theorem State.inPhase_error_ne_none {p : Phase} {r : Except Cause State} (hr : r ≠ .error .none) :
    s.inPhase p r ≠ .error .none := by
  rw [State.inPhase]; split <;> simp [hr]

theorem State.append_error_ne_none (s : State) (v w : Nat) : s.append v w ≠ .error .none := by
  rw [State.append]; split <;> simp

theorem readUnits_error_ne_none (mode : Mode) (pay : Memory) : ∀ is : List Nat,
    readUnits mode pay is ≠ .error .none
  | [] => by simp [readUnits]
  | i :: is => by
    have ih := readUnits_error_ne_none mode pay is
    rw [readUnits]
    split
    · simp
    · split
      · split <;> simp_all
      · simp

/-- No stage raises NONE: a fault names its cause (60_exceptions.md R311). -/
theorem Stage.error_ne_none (hst : Stage i f) (s : State) : f s ≠ .error .none := by
  cases hst with
  | start => refine State.inPhase_error_ne_none ?_; split <;> simp
  | release => exact State.inPhase_error_ne_none (by simp)
  | wrreg reg val =>
    dsimp only [State.writeReg]
    split
    · refine State.inPhase_error_ne_none ?_; split <;> simp
    · split
      · refine State.inPhase_error_ne_none ?_; split <;> simp
      · simp
  | wrpay idx val => refine State.inPhase_error_ne_none ?_; split <;> simp
  | pushb val width =>
    refine State.inPhase_error_ne_none ?_
    split
    · simp
    · split
      · simp
      · exact State.append_error_ne_none _ _ _
  | pkmode => exact State.inPhase_error_ne_none (State.append_error_ne_none _ _ _)
  | pkcnt =>
    refine State.inPhase_error_ne_none ?_
    dsimp only
    split
    · simp
    · exact State.append_error_ne_none _ _ _
  | pkdata =>
    refine State.inPhase_error_ne_none ?_
    have hread := readUnits_error_ne_none s.cfg.mode s.pay (List.range s.payLen.toNat)
    split
    · simp_all
    · dsimp only; split <;> simp
  | pkterm => exact State.inPhase_error_ne_none (State.append_error_ne_none _ _ _)
  | pkalign => exact State.inPhase_error_ne_none (State.append_error_ne_none _ _ _)
  | pkpad => refine State.inPhase_error_ne_none ?_; split <;> simp
  | rsgen n => dsimp only [State.loadGenerator]; split <;> simp
  | ecc => refine State.inPhase_error_ne_none ?_; split <;> simp
  | mxfunc => exact State.inPhase_error_ne_none (by simp)
  | mxdata => exact State.inPhase_error_ne_none (by simp)
  | mkeval m => refine State.inPhase_error_ne_none ?_; split <;> simp
  | mksel => refine State.inPhase_error_ne_none ?_; split <;> simp
  | mkapply => exact State.inPhase_error_ne_none (by simp)
  | mkfmt => exact State.inPhase_error_ne_none (by simp)
  | mkver => exact State.inPhase_error_ne_none (by simp)

/-! ## Every command -/

/-- A command is a read, has a stage, or is `RUN` or `RESET`. -/
theorem command_cases (i : Instr) : i = .reset ∨ i = .run ∨ isRead i = true ∨ ∃ f, Stage i f := by
  cases i with
  | reset => exact .inl rfl
  | run => exact .inr (.inl rfl)
  | nop | rdreg | rdpay | rdbit | rdcw | rdmod | rdgen | gfexp | gflog | gfmul | gfadd =>
    exact .inr (.inr (.inl rfl))
  | start | release | wrreg | wrpay | pushb | pkmode | pkcnt | pkdata | pkterm | pkalign | pkpad
  | rsgen | ecc | mxfunc | mxdata | mkeval | mksel | mkapply | mkfmt | mkver =>
    exact .inr (.inr (.inr ⟨_, by constructor⟩))

/-- Everything a command can do (60_exceptions.md R312, R313; 46_control.md R273, R275). -/
theorem exec_cases (h : exec i s = .next t) :
    s.Reported t ∨ (i = .reset ∧ t = s.restart.respond 0) ∨ (i = .run ∧ t = runThrough runStages s) ∨
      (s.fault = false ∧ ∃ u, Completes s i u ∧ t = u.respond 0) := by
  rcases command_cases i with rfl | rfl | hread | ⟨f, hst⟩
  · cases h; exact .inr (.inl ⟨rfl, rfl⟩)
  · simp only [exec, execRun] at h
    split at h
    · cases h; exact .inl .ignored
    · split at h
      · cases h; exact .inr (.inr (.inl ⟨rfl, rfl⟩))
      · cases h; exact .inl (.raise (by simp))
  · exact .inl (read_reported hread h)
  · rw [hst.exec_eq] at h
    rcases State.perform_cases h with ⟨-, rfl⟩ | ⟨-, c, hc, rfl⟩ | ⟨hf, u, hu, rfl⟩
    · exact .inl .ignored
    · exact .inl (.raise fun hn => hst.error_ne_none s (by rw [hc, hn]))
    · exact .inr (.inr (.inr ⟨hf, u, hst.completes hu, rfl⟩))

/-- A property that responding, taking a fault and every stage of a run keep holds after the run. -/
theorem runThrough_keeps {P : State → Prop} (hrespond : ∀ s d, P s → P (s.respond d))
    (hraise : ∀ s c, c ≠ .none → P s → P (s.raise c)) :
    ∀ {fs : List (State → Except Cause State)}, (∀ f ∈ fs, ∃ i, Stage i f) →
      (∀ f ∈ fs, ∀ s t, f s = .ok t → P s → P t) → ∀ s, P s → P (runThrough fs s)
  | [], _, _, s, hs => hrespond s 0 hs
  | f :: fs, hst, hfs, s, hs => by
    obtain ⟨i, hf⟩ := hst f List.mem_cons_self
    rw [runThrough]
    split
    · rename_i c hc
      exact hraise s c (fun hn => hf.error_ne_none s (by rw [hc, hn])) hs
    · rename_i t ht
      exact runThrough_keeps hrespond hraise (fun g hg => hst g (List.mem_cons_of_mem f hg))
        (fun g hg => hfs g (List.mem_cons_of_mem f hg)) t (hfs f List.mem_cons_self s t ht hs)

end Sys2Proof.Machine
end

section
/-! The invariant of the reachable states: reset has it and every step keeps it. -/

namespace Sys2Proof.Machine

variable {s t : State} {i : Instr}

/-! ## Facts the invariant gives -/

theorem versionLegal_capBits {v : Nat} (h : versionLegal v = true) (l : EcLevel) :
    8 * dataCapacity v l ≤ Config.bbDepth := by
  have hrow := rowConsistent_of_legal h l
  simp only [rowConsistent, Bool.and_eq_true, decide_eq_true_eq] at hrow
  exact hrow.1.1.2

theorem versionLegal_totalCodewords {v : Nat} (h : versionLegal v = true) :
    totalCodewords v ≤ Config.finDepth := by
  have hrow := rowConsistent_of_legal h .L
  simp only [rowConsistent, Bool.and_eq_true, decide_eq_true_eq] at hrow
  exact hrow.1.2

theorem versionLegal_ecLen {v : Nat} (h : versionLegal v = true) (l : EcLevel) :
    (blockInfo v l).ecLen < Config.genDepth := by
  have hrow := rowConsistent_of_legal h l
  simp only [rowConsistent, Bool.and_eq_true, decide_eq_true_eq] at hrow
  exact hrow.2

/-- The interleaved stream of a full buffer has the symbol's codewords (43_reed_solomon.md R195, R196). -/
theorem codewordStream_of_full (hv : versionLegal s.version = true) (hfull : s.bbLen = s.capBits) :
    (codewordStream s.blocks (codewordsOf s.bb)).length = totalCodewords s.version := by
  have hdata : (codewordsOf s.bb).length =
      s.blocks.n1 * s.blocks.k1 + s.blocks.n2 * (s.blocks.k1 + 1) := by
    rw [codewordsOf_length, show s.bb.length = 8 * s.dcap from hfull, Nat.mul_div_cancel_left _ (by decide)]
    rfl
  have hrow := rowConsistent_of_legal hv s.cfg.ecLevel
  simp only [rowConsistent, Bool.and_eq_true, beq_iff_eq] at hrow
  rw [codewordStream_length _ _ hdata]
  exact hrow.1.1.1

theorem evalidMark_getLsbD (e : BitVec 8) {m k : Nat} (hk : k < 8) :
    (evalidMark e m).getLsbD k = (e.getLsbD k || decide (k = m)) := by
  simp only [evalidMark, BitVec.getLsbD_or, BitVec.getLsbD_shiftLeft, BitVec.getLsbD_one, hk]
  grind

/-- From LAID on the matrix is a square of the version's side without quiet modules (10_state.md R33, R41). -/
theorem State.Inv.mxSound (hs : s.Inv) (h3 : 3 ≤ s.phase.code) : s.mx.sound s.side :=
  ⟨⟨hs.mxRows h3, hs.mxCols h3⟩, hs.mxTags h3⟩

/-! ## Updates that keep the invariant -/

/-- In IDLE the invariant asks nothing of the version, the lengths and the matrix. -/
theorem State.Inv.of_idle (hp : s.phase = .idle) (hwf : s.pay.wf = true)
    (hpay : ∀ e ∈ s.pay, e.1 < Config.payDepth) (hcause : s.fault = false ↔ s.cause = .none)
    (hgen : s.gen.head? = some 1) (hbb : s.bbLen ≤ Config.bbDepth) (hfin : s.cwLen ≤ Config.finDepth)
    (hdepth : s.gen.length ≤ Config.genDepth)
    (hscore : ∀ m : Fin 8, s.evalid.getLsbD m = false → s.scores[m] = 0) : s.Inv :=
  have hcode : s.phase.code = 0 := by rw [hp]; rfl
  { payWf := hwf, payDepth := hpay, causeNone := hcause, genMonic := hgen, bbDepth := hbb, finDepth := hfin
    genDepth := hdepth, scoreClear := hscore
    versionOk := fun h => absurd hp h
    bbFits := fun h => absurd hp h
    bbFull := fun h => by omega
    cwFull := fun h => by omega
    mxRows := fun h => by omega
    mxCols := fun h => by omega
    mxTags := fun h => by omega
    evalidClear := fun h => by omega
    evalidFull := fun h => by omega }

theorem State.Inv.respond (hs : s.Inv) (d : Data) : (s.respond d).Inv := { hs with }

theorem State.Inv.raise (hs : s.Inv) {c : Cause} (hc : c ≠ .none) : (s.raise c).Inv :=
  { hs with causeNone := by simp [hc] }

theorem State.Inv.wait (hs : s.Inv) : s.wait.Inv := { hs with }

theorem State.Inv.taken (hs : s.Inv) : s.taken.Inv := { hs with }

theorem State.Inv.reported (hs : s.Inv) (h : s.Reported t) : t.Inv := by
  cases h with
  | ignored => exact { hs with }
  | raise hc => exact hs.raise hc
  | respond d => exact hs.respond d

theorem State.reset_inv : State.reset.Inv :=
  .of_idle rfl rfl nofun (by simp [State.reset]) rfl (Nat.zero_le _) (Nat.zero_le _) (by decide)
    (by simp [State.reset])

theorem State.restart_inv (s : State) : s.restart.Inv := { State.reset_inv with }

theorem State.Inv.start (hs : s.Inv) (hv : versionLegal s.version = true) :
    State.Inv { s with bb := [], fin := [], evalid := 0, scores := Vector.replicate 8 0, maskId := 0,
                       phase := .packing } :=
  { hs with
    versionOk := fun _ => hv
    bbFits := fun _ => Nat.zero_le _
    bbFull := nofun
    cwFull := nofun
    mxRows := nofun
    mxCols := nofun
    mxTags := nofun
    evalidClear := fun _ _ => rfl
    evalidFull := nofun
    bbDepth := Nat.zero_le _
    finDepth := Nat.zero_le _
    scoreClear := fun m _ => by simp }

/-- Bits appended within the room that is left (10_state.md R31). -/
theorem State.Inv.append (hs : s.Inv) (hp : s.phase = .packing) {bits : List Bool}
    (hb : bits.length ≤ s.capBits - s.bbLen) : State.Inv { s with bb := s.bb ++ bits } :=
  have hidle : s.phase ≠ .idle := by simp [hp]
  have hlen : (s.bb ++ bits).length ≤ s.capBits := by
    have hroom := hs.bbFits hidle
    rw [List.length_append, ← State.bbLen]
    omega
  { hs with
    bbFits := fun _ => hlen
    bbFull := fun h => absurd h (by simp [hp, Phase.code])
    bbDepth := hlen.trans (versionLegal_capBits (hs.versionOk hidle) _) }

theorem State.Inv.encodeBlocks (hs : s.Inv) (hp : s.phase = .packing) (hfull : s.bbLen = s.capBits) :
    State.Inv { s with fin := codewordStream s.blocks (codewordsOf s.bb),
                       gen := rsGenerator s.blocks.ecLen, phase := .coded } :=
  have hcode : s.phase.code = 1 := by rw [hp]; rfl
  have hv := hs.versionOk (by simp [hp])
  have hcw := codewordStream_of_full hv hfull
  { hs with
    versionOk := fun _ => hv
    bbFits := fun _ => hfull.le
    bbFull := fun _ => hfull
    cwFull := fun _ => hcw
    mxRows := nofun
    mxCols := nofun
    mxTags := nofun
    evalidClear := fun _ _ => hs.evalidClear (by omega) (by omega)
    evalidFull := nofun
    genMonic := rsGenerator_head _
    finDepth := hcw.le.trans (versionLegal_totalCodewords hv)
    genDepth := by rw [rsGenerator_length]; exact versionLegal_ecLen hv _ }

/-- From CODED on, a later phase with a sound matrix; the selected mask is free (10_state.md R41). -/
theorem State.Inv.advance (hs : s.Inv) (h2 : 2 ≤ s.phase.code) {m : Mx} (hm : m.sound s.side) (k : BitVec 3)
    {p : Phase} (h3 : 3 ≤ p.code) (hclear : p.code = 3 → s.evalid = 0)
    (hall : 5 ≤ p.code → s.evalid = 0xFF#8) : State.Inv { s with mx := m, maskId := k, phase := p } :=
  have hidle : s.phase ≠ .idle := by rintro h; rw [h] at h2; exact absurd h2 (by decide)
  { hs with
    versionOk := fun _ => hs.versionOk hidle
    bbFits := fun _ => hs.bbFits hidle
    bbFull := fun _ => hs.bbFull h2
    cwFull := fun _ => hs.cwFull h2
    mxRows := fun _ => hm.1.1
    mxCols := fun _ => hm.1.2
    mxTags := fun _ => hm.2
    evalidClear := fun _ h => hclear (Nat.le_antisymm h h3)
    evalidFull := hall }

theorem State.Inv.scored (hs : s.Inv) (hp : s.phase = .placed) {m : Nat} (hm : m < 8) (n : BitVec 32) :
    State.Inv { s with scores := s.scores.set m n hm, evalid := evalidMark s.evalid m } :=
  { hs with
    evalidClear := fun _ h => absurd h (by simp [hp, Phase.code])
    evalidFull := fun h => absurd h (by simp [hp, Phase.code])
    scoreClear := fun k hk => by
      rw [evalidMark_getLsbD _ k.isLt, Bool.or_eq_false_iff, decide_eq_false_iff_not] at hk
      obtain ⟨hold, hne⟩ := hk
      have := hs.scoreClear k hold
      simpa [Vector.getElem_set, Ne.symm hne] using this }

/-! ## Commands and steps -/

/-- A completed stage keeps the invariant. -/
theorem Completes.inv (h : Completes s i t) (hs : s.Inv) : t.Inv := by
  cases h with
  | start hp hv => exact hs.start hv
  | release hp =>
    exact .of_idle rfl hs.payWf hs.payDepth hs.causeNone hs.genMonic hs.bbDepth hs.finDepth hs.genDepth
      hs.scoreClear
  | wrregCfg hp val =>
    exact .of_idle hp hs.payWf hs.payDepth hs.causeNone hs.genMonic hs.bbDepth hs.finDepth hs.genDepth
      hs.scoreClear
  | wrregLen hp val => exact { hs with }
  | wrpay hp hi val =>
    refine { hs with payWf := Memory.write_wf _ _ _ hs.payWf, payDepth := fun e he => ?_ }
    rcases Memory.mem_write he with rfl | he
    · exact hi
    · exact hs.payDepth e he
  | append hi hp hb => exact hs.append hp hb
  | rsgen hn =>
    refine { hs with genMonic := rsGenerator_head _, genDepth := ?_ }
    rw [rsGenerator_length, Config.genDepth]
    omega
  | ecc hp hfull => exact hs.encodeBlocks hp hfull
  | mxfunc hp =>
    have hcode : s.phase.code = 2 := by rw [hp]; rfl
    exact hs.advance (by omega) (functionMatrix_sound _) s.maskId (by decide)
      (fun _ => hs.evalidClear (by omega) (by omega)) nofun
  | mxdata hp =>
    have hcode : s.phase.code = 3 := by rw [hp]; rfl
    have hclear : s.evalid = 0 := hs.evalidClear (by omega) (by omega)
    rw [← hclear]
    exact hs.advance (by omega) (placeStream_sound (hs.mxSound (by omega)) _ _) s.maskId (by decide) nofun nofun
  | mkeval hp hm => exact hs.scored hp hm _
  | mksel hp hall =>
    have hcode : s.phase.code = 4 := by rw [hp]; rfl
    exact hs.advance (by omega) (hs.mxSound (by omega)) _ (by decide) nofun fun _ => eq_of_beq hall
  | mkapply hp =>
    have hcode : s.phase.code = 5 := by rw [hp]; rfl
    exact hs.advance (by omega) (maskMatrix_sound (hs.mxSound (by omega)) _) s.maskId (by decide) nofun
      fun _ => hs.evalidFull (by omega)
  | mkfmt hp =>
    have hcode : s.phase.code = 6 := by rw [hp]; rfl
    exact hs.advance (by omega) (writeFormat_sound (hs.mxSound (by omega)) _ _) s.maskId (by decide) nofun
      fun _ => hs.evalidFull (by omega)
  | mkver hp =>
    have hcode : s.phase.code = 7 := by rw [hp]; rfl
    have hsound := hs.mxSound (by omega)
    refine hs.advance (by omega) ?_ s.maskId (by decide) nofun fun _ => hs.evalidFull (by omega)
    split
    · exact writeVersion_sound hsound _ _
    · exact hsound

/-- Every command keeps the invariant. -/
theorem exec_inv (hs : s.Inv) (h : exec i s = .next t) : t.Inv := by
  rcases exec_cases h with hr | ⟨-, rfl⟩ | ⟨-, rfl⟩ | ⟨-, u, hu, rfl⟩
  · exact hs.reported hr
  · exact s.restart_inv.respond 0
  · refine runThrough_keeps (P := State.Inv) (fun _ d hs => hs.respond d) (fun _ _ hc hs => hs.raise hc)
      runStages_stage (fun f hf s t ht hs => ?_) s hs
    obtain ⟨j, hst⟩ := runStages_stage f hf
    exact (hst.completes ht).inv hs
  · exact (hu.inv hs).respond 0

/-- Settles O58, by the cases of a step: waiting, a hardware reset, a command, an illegal descriptor. -/
theorem stepKeepsInvariant : Obligations.StepKeepsInvariant := by
  unfold Obligations.StepKeepsInvariant
  intro s t hs h
  rcases step_cases h with ⟨-, rfl⟩ | ⟨-, -, rfl⟩ | ⟨-, -, i, -, -, hexec⟩ | ⟨-, -, -, -, -, hill⟩
  · exact hs.wait
  · exact State.restart_inv _
  · exact exec_inv hs.taken hexec
  · exact hs.taken.reported (State.answer_reported (by simp) hill)

/-- Settles O59: in IDLE with no mask marked the pipeline says nothing. -/
theorem resetMeetsInvariant : Obligations.ResetMeetsInvariant := by
  unfold Obligations.ResetMeetsInvariant
  refine ⟨State.reset_inv, ?_⟩
  constructor <;> simp [State.reset, Phase.code]

end Sys2Proof.Machine
end

section
/-! Which modules each matrix command may change: the tags come from the function patterns, and a command that writes
values writes those of one tag. -/

namespace Sys2Proof.Machine

variable {s t : State} {i : Instr} {n r c : Nat} {m : Mx}

/-! ## Places written and places left alone -/

/-- A place given as a pair: a write there leaves every other place alone. -/
theorem Mx.at_put_of_ne {p : Nat × Nat} (h : (r, c) ≠ p) (x : MxModule) : (m.put p.1 p.2 x).at r c = m.at r c :=
  Mx.at_put_ne h x

theorem Mx.at_putVal_of_ne {p : Nat × Nat} (h : (r, c) ≠ p) (v : Bool) :
    (m.putVal p.1 p.2 v).at r c = m.at r c :=
  Mx.at_put_ne h _

/-- One module written at several places is at each of them that lies in the square. -/
theorem Mx.at_foldl_put_of_mem {ps : List (Nat × Nat)} (h : m.square n) (hr : r < n) (hc : c < n) (x : MxModule)
    (hp : (r, c) ∈ ps) : Mx.at (ps.foldl (fun m p => Mx.put m p.1 p.2 x) m) r c = x := by
  induction ps using List.reverseRecOn with
  | nil => cases hp
  | append_singleton ps p ih =>
    have hsquare : Mx.square n (ps.foldl (fun m p => Mx.put m p.1 p.2 x) m) :=
      foldl_keeps (fun m => Mx.square n m) (fun _ _ hm => Mx.put_square hm _ _ _) ps m h
    rw [List.foldl_append, List.foldl_cons, List.foldl_nil]
    by_cases hpl : (r, c) = p
    · subst hpl
      exact Mx.at_put_same hsquare hr hc x
    · rw [Mx.at_put_of_ne hpl]
      exact ih ((List.mem_append.mp hp).resolve_right (by simpa using hpl))

/-- Writing one module at several places leaves every other place alone. -/
theorem Mx.at_foldl_put_of_notMem {ps : List (Nat × Nat)} (x : MxModule) (hp : (r, c) ∉ ps) :
    Mx.at (ps.foldl (fun m p => Mx.put m p.1 p.2 x) m) r c = m.at r c :=
  List.foldlRecOn (motive := fun m' : Mx => m'.at r c = m.at r c) ps _ rfl fun m' hm' p hmem => by
    rw [Mx.at_put_of_ne (fun he => hp (he ▸ hmem)), hm']

/-- `MXDATA` writes the modules of `ORDER` alone (44_matrix.md R223). -/
theorem placeStream_at_of_notMem {side : Nat} (fin : List Byte) (hp : (r, c) ∉ placementOrder m side) :
    (placeStream m side fin).at r c = m.at r c :=
  List.foldlRecOn (motive := fun m' : Mx => m'.at r c = m.at r c) (placementOrder m side).zipIdx _ rfl
    fun m' hm' p hmem => by
      rw [Mx.at_putVal_of_ne (fun he => hp (he ▸ List.fst_mem_of_mem_zipIdx hmem)), hm']

/-- Bits written each at two places leave every other place alone. -/
theorem Mx.at_foldl_putVal_of_notMem {k : Nat} {posA posB : Nat → Nat × Nat} (bit : Nat → Bool)
    (hp : (r, c) ∉ (List.range k).map posA ++ (List.range k).map posB) :
    Mx.at ((List.range k).foldl
      (fun m i =>
        Mx.putVal (Mx.putVal m (posA i).1 (posA i).2 (bit i)) (posB i).1 (posB i).2 (bit i)) m) r c =
      m.at r c := by
  rw [List.mem_append, not_or] at hp
  obtain ⟨hA, hB⟩ := hp
  refine List.foldlRecOn (motive := fun m' : Mx => m'.at r c = m.at r c) (List.range k) _ rfl
    fun m' hm' i hi => ?_
  rw [Mx.at_putVal_of_ne (fun he => hB (he ▸ List.mem_map_of_mem hi)),
    Mx.at_putVal_of_ne (fun he => hA (he ▸ List.mem_map_of_mem hi)), hm']

/-- `MKFMT` writes the format modules alone (45_mask.md R261, R262). -/
theorem writeFormat_at_of_notMem {side : Nat} (fmt : Nat) (hp : (r, c) ∉ formatPlaces side) :
    (writeFormat side fmt m).at r c = m.at r c :=
  Mx.at_foldl_putVal_of_notMem fmt.testBit hp

/-- `MKVER` writes the version modules alone (45_mask.md R264, R265). -/
theorem writeVersion_at_of_notMem {side : Nat} (vinfo : Nat) (hp : (r, c) ∉ versionPlaces side) :
    (writeVersion side vinfo m).at r c = m.at r c :=
  Mx.at_foldl_putVal_of_notMem vinfo.testBit hp

/-- A mask acts on each held module by itself; outside there is none to act on (45_mask.md R251). -/
theorem maskMatrix_at_cases (k : Nat) (m : Mx) (r c : Nat) :
    (maskMatrix k m).at r c = maskModule k r c (m.at r c) ∨ (maskMatrix k m).at r c = m.at r c := by
  simp only [maskMatrix, Mx.mapModules, Mx.at, List.getD_eq_getElem?_getD, List.getElem?_mapIdx]
  cases m[r]? with
  | none => right; simp
  | some row => cases hc : row[c]? with
    | none => right; simp [hc]
    | some x => left; simp [hc]

/-! ## The tags of the format and version modules -/

/-- The format modules lie in the square, each in row 8 or column 8 (45_mask.md R261). -/
theorem formatPlaces_bounds {side : Nat} (hs : 17 ≤ side) (hp : (r, c) ∈ formatPlaces side) :
    r < side ∧ c < side ∧ (r = 8 ∨ c = 8) := by
  rcases List.mem_append.mp hp with hp | hp
  · obtain ⟨i, hi, he⟩ := List.mem_map.mp hp
    rw [List.mem_range] at hi
    simp only [formatPosA] at he
    split_ifs at he <;> cases he <;> omega
  · obtain ⟨i, hi, he⟩ := List.mem_map.mp hp
    rw [List.mem_range] at hi
    simp only [formatPosB] at he
    split_ifs at he <;> cases he <;> omega

/-- The version modules lie in the square, off row 8 and column 8 (45_mask.md R264). -/
theorem versionPlaces_bounds {side : Nat} (hs : 45 ≤ side) (hp : (r, c) ∈ versionPlaces side) :
    r < side ∧ c < side ∧ r ≠ 8 ∧ c ≠ 8 := by
  rcases List.mem_append.mp hp with hp | hp
  · obtain ⟨i, hi, he⟩ := List.mem_map.mp hp
    rw [List.mem_range] at hi
    cases he
    omega
  · obtain ⟨i, hi, he⟩ := List.mem_map.mp hp
    rw [List.mem_range] at hi
    cases he
    omega

/-- The matrix before the format modules are reserved is sound (44_matrix.md R211 to R216). -/
theorem alignedMatrix_sound (v : Nat) :
    Mx.sound (sideOf v)
      (putAlignments v (putTimings (sideOf v) (putFinders (sideOf v) (blankMatrix (sideOf v))))) := by
  refine foldl_keeps (fun m => Mx.sound _ m) (fun _ _ hm => putAlignment_sound hm _ _) _ _ ?_
  refine foldl_keeps (fun m => Mx.sound _ m) (fun _ _ hm => putTiming_sound hm _ _ _) _ _ ?_
  refine foldl_keeps (fun m => Mx.sound _ m) (fun _ _ hm => putTiming_sound hm _ _ _) _ _ ?_
  exact putFinder_sound (putFinder_sound (putFinder_sound (blankMatrix_sound _) _ _) _ _) _ _

theorem reserveFormat_square {side : Nat} (h : m.square n) : (reserveFormat side m).square n :=
  foldl_keeps (fun m => Mx.square n m) (fun _ _ hm => Mx.put_square hm _ _ _) _ _ h

/-- Reserving the version modules leaves the format modules alone (44_matrix.md R217, R218). -/
theorem reserveVersion_at_format {v : Nat} (hp : (r, c) ∈ formatPlaces (sideOf v)) :
    (reserveVersion v m).at r c = m.at r c := by
  rw [reserveVersion]
  split
  · rename_i h7
    obtain ⟨-, -, h8⟩ := formatPlaces_bounds (by simp [sideOf]) hp
    refine Mx.at_foldl_put_of_notMem _ fun hv => ?_
    obtain ⟨-, -, hr8, hc8⟩ := versionPlaces_bounds (by rw [sideOf]; omega) hv
    omega
  · rfl

/-- `MXFUNC` tags the format modules as such, the fixed dark module among them (44_matrix.md R217, R220). -/
theorem functionMatrix_format_tag {v : Nat} (hp : (r, c) ∈ formatPlaces (sideOf v)) :
    ((functionMatrix v).at r c).tag = .formatInfo := by
  obtain ⟨hr, hc, -⟩ := formatPlaces_bounds (by simp [sideOf]) hp
  have hformat : ∀ {m : Mx}, m.square (sideOf v) →
      ((reserveVersion v (reserveFormat (sideOf v) m)).at r c).tag = .formatInfo := by
    intro m hm
    rw [reserveVersion_at_format hp, reserveFormat, Mx.at_foldl_put_of_mem hm hr hc _ hp]
  simp only [functionMatrix, putDark]
  by_cases hdark : (r, c) = (sideOf v - 8, 8)
  · obtain ⟨rfl, rfl⟩ := Prod.mk.inj hdark
    rcases Mx.put_at _ (sideOf v - 8) 8 _ with h | h <;> rw [h]
    exact hformat (alignedMatrix_sound v).1
  · rw [Mx.at_put_ne hdark]
    exact hformat (alignedMatrix_sound v).1

/-- `MXFUNC` tags the version modules as such from version 7 on (44_matrix.md R218). -/
theorem functionMatrix_version_tag {v : Nat} (h7 : 7 ≤ v) (hp : (r, c) ∈ versionPlaces (sideOf v)) :
    ((functionMatrix v).at r c).tag = .versionInfo := by
  obtain ⟨hr, hc, -, hc8⟩ := versionPlaces_bounds (by rw [sideOf]; omega) hp
  have hdark : (r, c) ≠ (sideOf v - 8, 8) := fun he => hc8 (Prod.mk.inj he).2
  simp only [functionMatrix, putDark]
  rw [Mx.at_put_ne hdark, reserveVersion, if_pos h7,
    Mx.at_foldl_put_of_mem (reserveFormat_square (alignedMatrix_sound v).1) hr hc _ hp]

/-- The tags of a masked placed matrix are those of its function patterns (44_matrix.md R224 (a)). -/
theorem maskedMatrix_tag (k v : Nat) (fin : List Byte) (r c : Nat) :
    ((maskMatrix k (placedMatrix v fin)).at r c).tag = ((functionMatrix v).at r c).tag := by
  rcases maskMatrix_at_cases k (placedMatrix v fin) r c with h | h <;> rw [h]
  · rw [maskModule_tag, placedMatrix, placeStream_tag]
  · rw [placedMatrix, placeStream_tag]

/-! ## The commands that write values -/

/-- From module `x` to module `y` the tag stays, and the value changes only if the tag is `owner` (10_state.md R33). -/
def MxModule.ownedChange (owner : Option Tag) (x y : MxModule) : Prop :=
  y.tag = x.tag ∧ (y.val ≠ x.val → owner = some x.tag)

theorem MxModule.ownedChange_refl (owner : Option Tag) (x : MxModule) : x.ownedChange owner x :=
  ⟨rfl, fun h => absurd rfl h⟩

/-- `MXDATA` changes data modules (44_matrix.md R223). -/
theorem placeStream_ownedChange (m : Mx) (side : Nat) (fin : List Byte) (r c : Nat) :
    (m.at r c).ownedChange (some .data) ((placeStream m side fin).at r c) := by
  refine ⟨placeStream_tag m side fin r c, fun hv => ?_⟩
  have hmem : (r, c) ∈ placementOrder m side := by
    by_contra hn
    exact hv (by rw [placeStream_at_of_notMem fin hn])
  rw [eq_of_beq (List.mem_filter.mp hmem).2]

/-- `MKAPPLY` changes data modules (45_mask.md R259). -/
theorem maskMatrix_ownedChange (k : Nat) (m : Mx) (r c : Nat) :
    (m.at r c).ownedChange (some .data) ((maskMatrix k m).at r c) := by
  rcases maskMatrix_at_cases k m r c with h | h <;> rw [h]
  · refine ⟨maskModule_tag .., fun hv => ?_⟩
    rw [maskModule] at hv
    split at hv
    · rename_i hdata
      rw [hdata.1]
    · exact absurd rfl hv
  · exact MxModule.ownedChange_refl ..

/-- `MKFMT` changes format modules, those that `MXFUNC` tagged (45_mask.md R262). -/
theorem writeFormat_ownedChange {v : Nat} (fmt : Nat)
    (htag : (m.at r c).tag = ((functionMatrix v).at r c).tag) :
    (m.at r c).ownedChange (some .formatInfo) ((writeFormat (sideOf v) fmt m).at r c) := by
  refine ⟨writeFormat_tag _ fmt m r c, fun hv => ?_⟩
  have hmem : (r, c) ∈ formatPlaces (sideOf v) := by
    by_contra hn
    exact hv (by rw [writeFormat_at_of_notMem fmt hn])
  rw [htag, functionMatrix_format_tag hmem]

/-- `MKVER` changes version modules, those that `MXFUNC` tagged from version 7 on (45_mask.md R265). -/
theorem writeVersion_ownedChange {v : Nat} (h7 : 7 ≤ v) (vinfo : Nat)
    (htag : (m.at r c).tag = ((functionMatrix v).at r c).tag) :
    (m.at r c).ownedChange (some .versionInfo) ((writeVersion (sideOf v) vinfo m).at r c) := by
  refine ⟨writeVersion_tag _ vinfo m r c, fun hv => ?_⟩
  have hmem : (r, c) ∈ versionPlaces (sideOf v) := by
    by_contra hn
    exact hv (by rw [writeVersion_at_of_notMem vinfo hn])
  rw [htag, functionMatrix_version_tag h7 hmem]

/-- Every completed stage but that of `MXFUNC` changes modules as its command's tag allows. -/
theorem Completes.ownedChange (h : Completes s i t) (hpipe : s.Pipeline) (hi : i ≠ .mxfunc) (r c : Nat) :
    (s.mx.at r c).ownedChange (valueOwner i) (t.mx.at r c) := by
  cases h with
  | start | release | wrregCfg | wrregLen | wrpay | append | rsgen | ecc | mkeval | mksel =>
    exact MxModule.ownedChange_refl ..
  | mxfunc hp => exact absurd rfl hi
  | mxdata hp => exact placeStream_ownedChange ..
  | mkapply hp => exact maskMatrix_ownedChange ..
  | mkfmt hp =>
    have htag : (s.mx.at r c).tag = ((functionMatrix s.version).at r c).tag := by
      rw [hpipe.masked hp, maskedMatrix_tag]
    dsimp only
    exact writeFormat_ownedChange _ htag
  | mkver hp =>
    have htag : (s.mx.at r c).tag = ((functionMatrix s.version).at r c).tag := by
      rw [hpipe.formatted hp, formattedMatrix, writeFormat_tag, maskedMatrix_tag]
    dsimp only
    split
    · rename_i h7
      exact writeVersion_ownedChange h7 _ htag
    · exact MxModule.ownedChange_refl ..

/-- Settles O15: a command that completes changes modules as its tag allows, and every other answer leaves the matrix
as it is. -/
theorem tagGovernsOverwriting : Obligations.TagGovernsOverwriting := by
  unfold Obligations.TagGovernsOverwriting
  intro i s t _ hpipe h hfunc hrun hreset r c
  rcases exec_cases h with hr | ⟨hi, -⟩ | ⟨hi, -⟩ | ⟨-, u, hu, rfl⟩
  · rw [hr.mx]
    exact MxModule.ownedChange_refl ..
  · exact absurd hi hreset
  · exact absurd hi hrun
  · exact hu.ownedChange hpipe hfunc r c

end Sys2Proof.Machine
end

section
/-! The configuration and the payload: what writes them, what the registers show of a state, and what can be read
after a reset. -/

namespace Sys2Proof.Machine

variable {s t : State}

/-! ## What writes the configuration -/

/-- `RUN` writes neither `CFG`, `PAYLEN` nor `PAY`, whether it completes or faults (46_control.md R275). -/
theorem runThrough_config (s : State) :
    (runThrough runStages s).cfg = s.cfg ∧ (runThrough runStages s).payLen = s.payLen ∧
      (runThrough runStages s).pay = s.pay := by
  refine runThrough_keeps (P := fun u => u.cfg = s.cfg ∧ u.payLen = s.payLen ∧ u.pay = s.pay)
    (fun _ _ h => h) (fun _ _ _ h => h) runStages_stage (fun f hf u v huv hu => ?_) s ⟨rfl, rfl, rfl⟩
  have hinputs := runStages_inputs f hf u v huv
  simp only [State.inputs, Prod.mk.injEq] at hinputs
  obtain ⟨hcfg, hlen, hpay, -⟩ := hinputs
  rwa [hcfg, hlen, hpay]

/-- Settles O13: of the commands that complete only `WRREG` and `WRPAY` write these fields, and every other answer
keeps them. -/
theorem configurationFrozen : Obligations.ConfigurationFrozen := by
  unfold Obligations.ConfigurationFrozen
  intro i s t h hreset
  rcases exec_cases h with hr | ⟨hi, -⟩ | ⟨-, rfl⟩ | ⟨hf, u, hu, rfl⟩
  · exact ⟨fun hne => absurd hr.cfg hne, fun hne => absurd hr.payLen hne, fun hne => absurd hr.pay hne⟩
  · exact absurd hi hreset
  · obtain ⟨hcfg, hlen, hpay⟩ := runThrough_config s
    exact ⟨fun hne => absurd hcfg hne, fun hne => absurd hlen hne, fun hne => absurd hpay hne⟩
  · cases hu with
    | wrregCfg hp val =>
      exact ⟨fun _ => ⟨hp, hf, val, rfl⟩, fun hne => absurd rfl hne, fun hne => absurd rfl hne⟩
    | wrregLen hp val =>
      exact ⟨fun hne => absurd rfl hne, fun _ => ⟨hp, hf, val, rfl⟩, fun hne => absurd rfl hne⟩
    | wrpay hp _ val =>
      exact ⟨fun hne => absurd rfl hne, fun hne => absurd rfl hne, fun _ => ⟨hp, hf, _, val, rfl, rfl⟩⟩
    | start | release | append | rsgen | ecc | mxfunc | mxdata | mkeval | mksel | mkapply | mkfmt | mkver =>
      exact ⟨fun hne => absurd rfl hne, fun hne => absurd rfl hne, fun hne => absurd rfl hne⟩

/-! ## Words and their fields -/

/-- Bits put above `w` bits are a multiple of `2 ^ w` (20_memory.md R93). -/
theorem toNat_append_eq_add {k w : Nat} (x : BitVec k) (y : BitVec w) :
    (x ++ y).toNat = y.toNat + 2 ^ w * x.toNat := by
  rw [BitVec.toNat_append, ← Nat.shiftLeft_add_eq_or_of_lt y.isLt, Nat.shiftLeft_eq]
  ring

/-- The `CFG` word (10_state.md R22). -/
theorem Cfg.word_eq (c : Cfg) : c.word =
    BitVec.ofNat 32 (c.version.toNat + 2 ^ 6 * c.ecLevel.code.toNat + 2 ^ 8 * c.mode.code.toNat) := by
  apply BitVec.eq_of_toNat_eq
  simp only [Cfg.word, toNat_append_eq_add, BitVec.toNat_ofNat]
  omega

theorem Phase.code_lt (p : Phase) : p.code < 2 ^ 4 := by cases p <;> decide

theorem Cause.code_lt (c : Cause) : c.code < 2 ^ 8 := by cases c <;> decide

/-- The `STATUS` word (10_state.md R22). -/
theorem State.statusWord_eq (s : State) : s.statusWord =
    BitVec.ofNat 32
      (s.phase.code + 2 ^ 4 * s.fault.toNat + 2 ^ 8 * s.cause.code + 2 ^ 16 * s.evalid.toNat) := by
  have hphase := s.phase.code_lt
  have hcause := s.cause.code_lt
  have hfault := s.fault.toNat_lt
  apply BitVec.eq_of_toNat_eq
  simp only [State.statusWord, toNat_append_eq_add, BitVec.toNat_ofNat, BitVec.toNat_ofBool]
  omega

/-- What holds of every element of a list and of the default holds of every look-up. -/
theorem getD_of_forall {α : Type} {P : α → Prop} {l : List α} {d : α} (hl : ∀ x ∈ l, P x) (hd : P d) (k : Nat) :
    P (l.getD k d) := by
  rw [List.getD_eq_getElem?_getD]
  cases h : l[k]? with
  | none => exact hd
  | some x => exact hl x (List.mem_of_getElem? h)

/-- Each part of a block structure fits its field of `BLKINFO` (10_state.md R22). -/
def BlockInfo.fits (b : BlockInfo) : Prop := b.ecLen < 2 ^ 5 ∧ b.n1 < 2 ^ 7 ∧ b.k1 < 2 ^ 8 ∧ b.n2 < 2 ^ 7

/-- The block structures of the table fit (11_rom_tables.md R71). -/
theorem blockInfo_fits (v : Nat) (l : EcLevel) : (blockInfo v l).fits := by
  have table : ∀ row ∈ ecRows, ∀ b ∈ row, b.fits := by
    simp only [BlockInfo.fits]; decide
  have zero : BlockInfo.fits ⟨0, 0, 0, 0⟩ := by simp [BlockInfo.fits]
  rw [blockInfo]
  split
  · have row : ∀ b ∈ ecRows.getD (v - 1) [], b.fits :=
      getD_of_forall (P := fun row : List BlockInfo => ∀ b ∈ row, b.fits) table (by simp) (v - 1)
    exact getD_of_forall row zero _
  · exact zero

/-- The `BLKINFO` word (10_state.md R22). -/
theorem BlockInfo.word_eq {b : BlockInfo} (hb : b.fits) : b.word =
    BitVec.ofNat 32 (b.ecLen + 2 ^ 5 * b.n1 + 2 ^ 12 * b.k1 + 2 ^ 20 * b.n2) := by
  obtain ⟨hec, hn1, hk1, hn2⟩ := hb
  apply BitVec.eq_of_toNat_eq
  simp only [BlockInfo.word, toNat_append_eq_add, BitVec.toNat_ofNat]
  omega

/-- A view is 0 unless the version is 1 to 40 (10_state.md R28). -/
theorem State.view_ofNat (s : State) (n : Nat) :
    s.view (BitVec.ofNat 32 n) = BitVec.ofNat 32 (if 1 ≤ s.version ∧ s.version ≤ 40 then n else 0) := by
  simp only [State.view, versionLegal_iff]
  split <;> rfl

/-! ## Register reads -/

/-- The numbers that have a value are the assigned ones (10_state.md R22). -/
theorem State.regValue_isSome (s : State) (reg : BitVec 8) : (s.regValue reg).isSome = assignedReg reg := by
  unfold State.regValue
  split <;> simp_all [assignedReg]
  omega

/-- `RDREG` of a number with a value responds it, in the fault state too (41_config_access.md R140). -/
theorem exec_rdreg {reg : BitVec 8} {v : Data} (h : s.regValue reg = some v) :
    exec (.rdreg reg) s = .next { s with resp := some ⟨true, v⟩ } := by
  simp only [exec, execRdreg, h]
  rfl

/-- `RDREG` of an unassigned number raises RANGE (41_config_access.md R140). -/
theorem exec_rdreg_unassigned {reg : BitVec 8} (h : assignedReg reg = false) (hf : s.fault = false) :
    exec (.rdreg reg) s = .next (s.raise .range) := by
  have hnone : s.regValue reg = none := by
    rw [← Option.not_isSome_iff_eq_none, State.regValue_isSome, h]
    exact Bool.false_ne_true
  simp only [exec, execRdreg, hnone, State.answer_error hf]

theorem State.regValue_score (s : State) (m : Fin 8) :
    s.regValue (BitVec.ofNat 8 (0x10 + m.val)) = some s.scores[m] := by
  fin_cases m <;> rfl

/-- Settles O24: each register's word is the sum of its fields. -/
theorem registerWords : Obligations.RegisterWords := by
  unfold Obligations.RegisterWords
  intro s
  refine ⟨exec_rdreg (congrArg some s.cfg.word_eq), exec_rdreg ?payLen,
    exec_rdreg (congrArg some s.statusWord_eq), exec_rdreg rfl, exec_rdreg rfl, exec_rdreg ?maskId, exec_rdreg rfl,
    exec_rdreg ?side, exec_rdreg ?dcap, exec_rdreg ?totcw, exec_rdreg ?blkinfo, exec_rdreg ?cntw,
    fun m => exec_rdreg ?score, fun reg hreg hf => exec_rdreg_unassigned hreg hf⟩
  case payLen | maskId => rw [BitVec.ofNat_toNat]; rfl
  case side | dcap | cntw => rw [← State.view_ofNat]; rfl
  case totcw =>
    have htot : s.regValue 0x09 = some (s.view (BitVec.ofNat 32 (totalCodewords s.version))) := rfl
    rw [htot, State.view_ofNat, totalCodewords]
    simp only [versionLegal_iff]
    split <;> rfl
  case blkinfo => rw [← State.view_ofNat, ← BlockInfo.word_eq (b := s.blocks) (blockInfo_fits _ _)]; rfl
  case score => rw [BitVec.ofNat_toNat, BitVec.setWidth_eq, State.regValue_score]

/-! ## Reading after a reset -/

/-- What either reset leaves: the reset state with the inputs still to come and a response. -/
def State.resetWith (pending : List Input) (resp : Option Response) : State :=
  { State.reset with pending := pending, resp := resp }

variable (pending : List Input) (resp : Option Response)

/-- Every register of the reset state is 0 (10_state.md R40). -/
theorem State.resetWith_regValue {reg : BitVec 8} (h : assignedReg reg = true) :
    (State.resetWith pending resp).regValue reg = some 0 := by
  obtain ⟨v, hv⟩ := Option.isSome_iff_exists.mp ((State.reset.regValue_isSome reg).trans h)
  have hzero : v = 0 := by
    unfold State.regValue at hv
    split at hv <;> cases hv <;> decide
  exact hzero ▸ hv

theorem exec_rdgen_resetWith {idx : Index} (h : idx ≠ 0) :
    exec (.rdgen idx) (State.resetWith pending resp) = .next ((State.resetWith pending resp).raise .range) := by
  have hpos : (State.resetWith pending resp).genLen < idx.toNat :=
    Nat.pos_of_ne_zero fun h0 => h (BitVec.eq_of_toNat_eq h0)
  rw [exec, execRdgen, if_pos hpos, State.answer_error rfl]

theorem exec_rdpay_resetWith {idx : Index} (h : idx.toNat < 8192) :
    exec (.rdpay idx) (State.resetWith pending resp) = .next ((State.resetWith pending resp).raise .uninit) := by
  rw [exec, execRdpay, if_neg (show ¬ Config.payDepth ≤ idx.toNat from Nat.not_le.mpr h)]
  exact State.answer_error rfl _

/-- Settles O7: both resets leave the reset state, and each read of it is evaluated. -/
theorem resetLeavesNothingReadable : Obligations.ResetLeavesNothingReadable := by
  unfold Obligations.ResetLeavesNothingReadable
  intro s t h
  obtain ⟨pending, resp, rfl⟩ : ∃ pending resp, t = State.resetWith pending resp := by
    rcases h with h | ⟨rest, hp, h⟩
    · cases h
      exact ⟨s.pending, some ⟨true, 0⟩, rfl⟩
    · rw [step, hp] at h
      cases h
      exact ⟨s.taken.pending, none, rfl⟩
  exact ⟨fun reg hreg => exec_rdreg (State.resetWith_regValue pending resp hreg), rfl,
    fun idx hidx => exec_rdgen_resetWith pending resp hidx,
    fun idx hidx => exec_rdpay_resetWith pending resp hidx, fun idx => ⟨rfl, rfl⟩, fun row col => rfl⟩

end Sys2Proof.Machine
end

section
/-! The host's planner (47_host_contract.md R291 to R297): what a symbol holds, and which candidate the search
returns. -/

namespace Sys2Proof.Machine

variable {mode : Mode} {n v : Nat} {level : EcLevel}

/-! ## The character capacity -/

/-- `unitsIn` is the greatest number of units whose data bits fit into the room (11_rom_tables.md R74). -/
theorem payloadBits_le_iff (mode : Mode) (n room : Nat) : payloadBits mode n ≤ room ↔ n ≤ unitsIn mode room := by
  cases mode with
  | numeric =>
    have hrest : n % 3 = 0 ∨ n % 3 = 1 ∨ n % 3 = 2 := by omega
    rcases hrest with h | h | h <;>
      simp only [payloadBits, unitsIn, h, List.getD_cons_zero, List.getD_cons_succ] <;> split_ifs <;> omega
  | alphanumeric => simp only [payloadBits, unitsIn]; split_ifs <;> omega
  | byte | kanji => simp only [payloadBits, unitsIn]; omega

/-- No symbol holds fewer data codewords than 1-H, which holds 9 (11_rom_tables.md R72). -/
theorem versionLegal_dataCapacity (h : versionLegal v = true) (l : EcLevel) : 9 ≤ dataCapacity v l := by
  have rows : ∀ k < 40, 9 ≤ dataCapacity (k + 1) l := by cases l <;> decide +kernel
  obtain ⟨hlo, hhi⟩ := versionLegal_iff.mp h
  simpa [Nat.sub_add_cancel hlo] using rows (v - 1) (by omega)

theorem cntWidth_le (mode : Mode) (v : Nat) : cntWidth mode v ≤ 16 := by
  unfold cntWidth versionClass
  cases mode <;> split_ifs <;> decide

/-- A payload fits exactly up to the character capacity (11_rom_tables.md R74). -/
theorem payloadFits_iff_le_charCap (h : versionLegal v = true) :
    payloadFits v level mode n = true ↔ n ≤ charCap v level mode := by
  have hheader : 4 + cntWidth mode v ≤ 8 * dataCapacity v level := by
    have := cntWidth_le mode v
    have := versionLegal_dataCapacity h level
    omega
  have hcount : n < 2 ^ cntWidth mode v ↔ n ≤ 2 ^ cntWidth mode v - 1 :=
    Nat.lt_iff_le_pred (Nat.two_pow_pos _)
  rw [payloadFits, charCap, Bool.and_eq_true, decide_eq_true_iff, decide_eq_true_iff, Nat.le_min, hcount,
    ← payloadBits_le_iff, Nat.le_sub_iff_add_le' hheader]

/-! ## The search order -/

/-- One candidate is tried before another: the smaller version first, in a version the more redundant level first
(47_host_contract.md R293, R295). -/
def TriedBefore (p q : Nat × EcLevel) : Prop := p.1 < q.1 ∨ p.1 = q.1 ∧ q.2.code < p.2.code

theorem TriedBefore.asymm {p q : Nat × EcLevel} (hpq : TriedBefore p q) : ¬ TriedBefore q p := by
  simp only [TriedBefore, BitVec.lt_def] at *
  omega

/-- In a list whose order is the relation's, the element found is the one that passes with none before it passing. -/
theorem find?_eq_some_iff_of_pairwise {α : Type} {r : α → α → Prop} (hr : ∀ {a b}, r a b → ¬ r b a)
    {ok : α → Bool} {a : α} : ∀ {l : List α}, l.Pairwise r →
      (l.find? ok = some a ↔ a ∈ l ∧ ok a = true ∧ ∀ b ∈ l, r b a → ok b = false)
  | [], _ => by simp
  | x :: xs, h => by
    obtain ⟨hx, hxs⟩ := List.pairwise_cons.mp h
    by_cases hok : ok x = true
    · rw [List.find?_cons_of_pos hok]
      constructor
      · rintro ⟨⟩
        refine ⟨List.mem_cons_self, hok, fun b hb hbx => ?_⟩
        rcases List.mem_cons.mp hb with rfl | hb
        · exact absurd hbx (hr hbx)
        · exact absurd hbx (hr (hx b hb))
      · rintro ⟨ha, -, hfirst⟩
        rcases List.mem_cons.mp ha with rfl | ha
        · rfl
        · simp [hfirst x List.mem_cons_self (hx a ha)] at hok
    · rw [List.find?_cons_of_neg hok, find?_eq_some_iff_of_pairwise hr hxs]
      grind

/-- The search returns the candidate that fits with none tried before it fitting. -/
theorem firstFit_eq_ok_iff {candidates : List (Nat × EcLevel)} {p : Nat × EcLevel}
    (h : candidates.Pairwise TriedBefore) : firstFit mode n candidates = .ok p ↔
      p ∈ candidates ∧ payloadFits p.1 p.2 mode n = true ∧
        ∀ q ∈ candidates, TriedBefore q p → payloadFits q.1 q.2 mode n = false := by
  refine Iff.trans ?_ (find?_eq_some_iff_of_pairwise (ok := fun q => payloadFits q.1 q.2 mode n) TriedBefore.asymm h)
  rw [firstFit]
  cases candidates.find? fun q => payloadFits q.1 q.2 mode n <;> simp

/-! ## The candidates of each hint -/

theorem mem_versionsUp : v ∈ versionsUp ↔ 1 ≤ v ∧ v ≤ 40 := by
  simp only [versionsUp, List.mem_map, List.mem_range]
  exact ⟨fun ⟨k, hk, hv⟩ => by omega, fun hv => ⟨v - 1, by omega⟩⟩

theorem mem_levelsHtoL (l : EcLevel) : l ∈ levelsHtoL := by cases l <;> decide

theorem versionsUp_pairwise : versionsUp.Pairwise (· < ·) := by decide

theorem levelsHtoL_pairwise : levelsHtoL.Pairwise fun k l => l.code < k.code := by decide

theorem levelCandidates_pairwise (v : Nat) : (levelsHtoL.map fun l => (v, l)).Pairwise TriedBefore :=
  List.pairwise_map.mpr (levelsHtoL_pairwise.imp fun h => .inr ⟨rfl, h⟩)

theorem versionCandidates_pairwise (l : EcLevel) : (versionsUp.map fun v => (v, l)).Pairwise TriedBefore :=
  List.pairwise_map.mpr (versionsUp_pairwise.imp .inl)

theorem allCandidates_pairwise :
    (versionsUp.flatMap fun v => levelsHtoL.map fun l => (v, l)).Pairwise TriedBefore := by
  refine List.pairwise_flatMap.mpr ⟨fun v _ => levelCandidates_pairwise v, versionsUp_pairwise.imp ?_⟩
  intro v w hvw p hp q hq
  obtain ⟨k, -, rfl⟩ := List.mem_map.mp hp
  obtain ⟨l, -, rfl⟩ := List.mem_map.mp hq
  exact .inl hvw

/-! ## What the planner returns -/

/-- With nothing fixed: the smallest version that fits at any level, and its most redundant level that fits
(47_host_contract.md R295). -/
theorem planSymbol_none_none : planSymbol mode n none none = .ok (v, level) ↔
    1 ≤ v ∧ v ≤ 40 ∧ payloadFits v level mode n = true ∧
      (∀ v' l', 1 ≤ v' → v' < v → payloadFits v' l' mode n = false) ∧
      ∀ l' : EcLevel, level.code < l'.code → payloadFits v l' mode n = false := by
  have hmem : ∀ q : Nat × EcLevel,
      q ∈ (versionsUp.flatMap fun v => levelsHtoL.map fun l => (v, l)) ↔ 1 ≤ q.1 ∧ q.1 ≤ 40 := by
    intro q
    simp [mem_versionsUp, mem_levelsHtoL, Prod.ext_iff]
  rw [planSymbol, firstFit_eq_ok_iff allCandidates_pairwise]
  simp only [hmem, TriedBefore]
  constructor
  · rintro ⟨⟨hlo, hhi⟩, hfit, hfirst⟩
    exact ⟨hlo, hhi, hfit, fun v' l' hlo' hlt => hfirst (v', l') ⟨hlo', by omega⟩ (.inl hlt),
      fun l' hlt => hfirst (v, l') ⟨hlo, hhi⟩ (.inr ⟨rfl, hlt⟩)⟩
  · rintro ⟨hlo, hhi, hfit, hversion, hlevel⟩
    refine ⟨⟨hlo, hhi⟩, hfit, ?_⟩
    rintro ⟨v', l'⟩ ⟨hlo', -⟩ (hlt | ⟨rfl, hlt⟩)
    · exact hversion v' l' hlo' hlt
    · exact hlevel l' hlt

/-- With the level fixed: the smallest version that fits at it (47_host_contract.md R295). -/
theorem planSymbol_none_some {l : EcLevel} : planSymbol mode n none (some l) = .ok (v, level) ↔
    level = l ∧ 1 ≤ v ∧ v ≤ 40 ∧ payloadFits v l mode n = true ∧
      ∀ v', 1 ≤ v' → v' < v → payloadFits v' l mode n = false := by
  rw [planSymbol, firstFit_eq_ok_iff (versionCandidates_pairwise l)]
  simp only [List.mem_map, mem_versionsUp, TriedBefore]
  constructor
  · rintro ⟨⟨_, ⟨hlo, hhi⟩, ⟨⟩⟩, hfit, hfirst⟩
    exact ⟨rfl, hlo, hhi, hfit, fun v' hlo' hlt => hfirst (v', level) ⟨v', ⟨hlo', by omega⟩, rfl⟩ (.inl hlt)⟩
  · rintro ⟨rfl, hlo, hhi, hfit, hversion⟩
    refine ⟨⟨v, ⟨hlo, hhi⟩, rfl⟩, hfit, ?_⟩
    rintro _ ⟨v', ⟨hlo', -⟩, rfl⟩ (hlt | ⟨-, hlt⟩)
    · exact hversion v' hlo' hlt
    · exact absurd hlt (BitVec.lt_irrefl _)

/-- A fixed version must be legal (47_host_contract.md R292). -/
theorem ite_versionLegal_eq_ok {r : Except HostError (Nat × EcLevel)} {p : Nat × EcLevel} :
    (if versionLegal v then r else .error .versionError) = .ok p ↔ (1 ≤ v ∧ v ≤ 40) ∧ r = .ok p := by
  rw [← versionLegal_iff]
  split <;> simp_all

/-- With the version fixed: the most redundant level that fits (47_host_contract.md R293). -/
theorem planSymbol_some_none {v' : Nat} : planSymbol mode n (some v) none = .ok (v', level) ↔
    v' = v ∧ 1 ≤ v ∧ v ≤ 40 ∧ payloadFits v level mode n = true ∧
      ∀ l' : EcLevel, level.code < l'.code → payloadFits v l' mode n = false := by
  rw [planSymbol, ite_versionLegal_eq_ok, firstFit_eq_ok_iff (levelCandidates_pairwise v)]
  simp only [List.mem_map, mem_levelsHtoL, true_and, TriedBefore]
  constructor
  · rintro ⟨⟨hlo, hhi⟩, ⟨_, ⟨⟩⟩, hfit, hfirst⟩
    exact ⟨rfl, hlo, hhi, hfit, fun l' hlt => hfirst (v, l') ⟨l', rfl⟩ (.inr ⟨rfl, hlt⟩)⟩
  · rintro ⟨rfl, hlo, hhi, hfit, hlevel⟩
    refine ⟨⟨hlo, hhi⟩, ⟨level, rfl⟩, hfit, ?_⟩
    rintro _ ⟨l', rfl⟩ (hlt | ⟨-, hlt⟩)
    · exact absurd hlt (Nat.lt_irrefl _)
    · exact hlevel l' hlt

/-- With both fixed: that symbol, exactly if it fits (47_host_contract.md R296). -/
theorem planSymbol_some_some {v' : Nat} {l : EcLevel} : planSymbol mode n (some v) (some l) = .ok (v', level) ↔
    v' = v ∧ level = l ∧ 1 ≤ v ∧ v ≤ 40 ∧ payloadFits v l mode n = true := by
  rw [planSymbol, ite_versionLegal_eq_ok, firstFit_eq_ok_iff (List.pairwise_singleton _ _)]
  simp only [List.mem_singleton, Prod.mk.injEq]
  constructor
  · rintro ⟨⟨hlo, hhi⟩, ⟨rfl, rfl⟩, hfit, -⟩
    exact ⟨rfl, rfl, hlo, hhi, hfit⟩
  · rintro ⟨rfl, rfl, hlo, hhi, hfit⟩
    exact ⟨⟨hlo, hhi⟩, ⟨rfl, rfl⟩, hfit, fun q hq hlt => absurd hlt (hq ▸ fun h => h.asymm h)⟩

/-- Settles O56: the capacity by `payloadFits_iff_le_charCap`, the search by the order of the candidates of each of
the four hints. -/
theorem plannerFindsFirstFit : Obligations.PlannerFindsFirstFit := by
  unfold Obligations.PlannerFindsFirstFit
  exact ⟨fun _ _ _ _ h => payloadFits_iff_le_charCap h, by decide, by decide, by decide, by decide, by decide,
    by decide, by decide, fun _ _ _ _ => planSymbol_none_none, fun _ _ _ _ _ => planSymbol_none_some,
    fun _ _ _ _ _ => planSymbol_some_none, fun _ _ _ _ _ _ => planSymbol_some_some⟩

end Sys2Proof.Machine
end

section
/-! Reads and their frame (20_memory.md R97), and the codewords of a bit string with the bits of a codeword stream
(20_memory.md R93 to R95). -/

namespace Sys2Proof.Machine

variable {s t : State} {i : Instr}

/-! ## Reads -/

/-- A read answers with a result, or, as `RDREG` of an assigned number, responds in the fault state too. -/
theorem exec_eq_answer_or_respond (hi : isRead i = true) (s : State) :
    (∃ r, exec i s = s.answer r) ∨ ∃ d, exec i s = .next (s.respond d) := by
  cases i with
  | nop => exact .inl ⟨.ok 0, rfl⟩
  | rdreg reg =>
    cases hv : s.regValue reg with
    | some v => exact .inr ⟨v, exec_rdreg hv⟩
    | none => exact .inl ⟨.error .range, by simp only [exec, execRdreg, hv]⟩
  | rdpay | rdbit | rdcw | rdmod | rdgen | gflog => exact .inl ⟨_, rfl⟩
  | gfexp | gfmul | gfadd => exact .inl ⟨.ok _, rfl⟩
  | reset | start | release | run | wrreg | wrpay | pushb | pkmode | pkcnt | pkdata | pkterm | pkalign | pkpad
  | rsgen | ecc | mxfunc | mxdata | mkeval | mksel | mkapply | mkfmt | mkver => cases hi

/-- A read that takes no fault writes the response alone (20_memory.md R97). -/
theorem read_eq_withResp (hi : isRead i = true) (h : exec i s = .next t) (hf : t.fault = s.fault) :
    t = s.withResp t := by
  rcases exec_eq_answer_or_respond hi s with ⟨r, hr⟩ | ⟨d, hd⟩
  · rw [hr] at h
    rcases State.answer_cases h with ⟨-, rfl⟩ | ⟨hclear, c, -, rfl⟩ | ⟨-, d, -, rfl⟩
    · rfl
    · rw [State.raise_fault, hclear] at hf
      cases hf
    · rfl
  · rw [hd] at h
    cases h
    rfl

/-- A read does not depend on the latest response, which its own replaces. -/
theorem exec_withResp (hi : isRead i = true) (s w : State) : exec i (s.withResp w) = exec i s := by
  cases i with
  | nop | rdreg | rdpay | rdbit | rdcw | rdmod | rdgen | gfexp | gflog | gfmul | gfadd => rfl
  | reset | start | release | run | wrreg | wrpay | pushb | pkmode | pkcnt | pkdata | pkterm | pkalign | pkpad
  | rsgen | ecc | mxfunc | mxdata | mkeval | mksel | mkapply | mkfmt | mkver => cases hi

/-- Settles O14: a read without a fault writes the response alone, on which no read depends. -/
theorem readsChangeNothing : Obligations.ReadsChangeNothing := by
  unfold Obligations.ReadsChangeNothing
  intro i s t hi h hf
  have ht : t = s.withResp t := read_eq_withResp hi h hf
  refine ⟨ht, ?_⟩
  calc exec i t = exec i (s.withResp t) := by rw [← ht]
    _ = exec i s := exec_withResp hi s t
    _ = .next t := h

/-! ## The number a list of bits spells -/

/-- A bit put last is the least significant (20_memory.md R93). -/
theorem numOf_map_range_succ (f : Nat → Bool) (n : Nat) :
    numOf ((List.range (n + 1)).map f) = Nat.bit (f n) (numOf ((List.range n).map f)) := by
  simp [numOf, List.range_succ, Nat.bit_val]

theorem numOf_map_range_lt (f : Nat → Bool) : ∀ n, numOf ((List.range n).map f) < 2 ^ n
  | 0 => Nat.two_pow_pos 0
  | n + 1 => by
    rw [numOf_map_range_succ, Nat.bit_lt_two_pow_succ_iff]
    exact numOf_map_range_lt f n

/-- Bit `j` of `n` has the weight `2 ^ (n - 1 - j)` (20_memory.md R94). -/
theorem numOf_map_range_eq_sum (f : Nat → Bool) :
    ∀ n, numOf ((List.range n).map f) = ((List.range n).map fun j => (f j).toNat * 2 ^ (n - 1 - j)).sum
  | 0 => rfl
  | n + 1 => by
    have hdouble : (List.range n).map (fun j => (f j).toNat * 2 ^ (n - j)) =
        (List.range n).map fun j => 2 * ((f j).toNat * 2 ^ (n - 1 - j)) := by
      refine List.map_congr_left fun j hj => ?_
      have hexp : n - j = n - 1 - j + 1 := by have := List.mem_range.mp hj; omega
      rw [hexp, Nat.pow_succ]
      ring
    rw [numOf_map_range_succ, Nat.bit_val, numOf_map_range_eq_sum f n, ← List.sum_map_mul_left, ← hdouble]
    simp [List.range_succ]

/-- Bit `j` of `n` is found at place `n - 1 - j` of the number. -/
theorem testBit_numOf_map_range (f : Nat → Bool) :
    ∀ {n j : Nat}, j < n → (numOf ((List.range n).map f)).testBit (n - 1 - j) = f j
  | n + 1, j, hj => by
    rw [numOf_map_range_succ, Nat.add_sub_cancel]
    rcases Nat.lt_succ_iff_lt_or_eq.mp hj with hlt | rfl
    · rw [show n - j = n - 1 - j + 1 by omega, Nat.testBit_bit_succ, testBit_numOf_map_range f hlt]
    · rw [Nat.sub_self, Nat.testBit_bit_zero]

/-! ## Codewords from bits, and bits from codewords -/

/-- Codeword `k` is spelled by the bits from `8 * k` on (20_memory.md R94). -/
theorem codewordsOf_getD {bits : List Bool} {k : Nat} (hk : k < bits.length / 8) :
    (codewordsOf bits).getD k 0 =
      BitVec.ofNat 8 (numOf ((List.range 8).map fun j => bits.getD (8 * k + j) false)) := by
  induction bits using codewordsOf.induct generalizing k with
  | case1 b0 b1 b2 b3 b4 b5 b6 b7 rest ih =>
    cases k with
    | zero => rfl
    | succ k =>
      rw [codewordsOf, List.getD_cons_succ, ih (by simp only [List.length_cons] at hk; omega)]
      rfl
  | case2 bits hshort =>
    rw [← codewordsOf_length, codewordsOf] at hk
    · cases hk
    · exact hshort

/-- A codeword as the number its bits spell (20_memory.md R94). -/
theorem codewordsOf_getD_toNat {bits : List Bool} {k : Nat} (hk : k < bits.length / 8) :
    ((codewordsOf bits).getD k 0).toNat =
      numOf ((List.range 8).map fun j => bits.getD (8 * k + j) false) := by
  rw [codewordsOf_getD hk, BitVec.toNat_ofNat, Nat.mod_eq_of_lt (numOf_map_range_lt _ 8)]

/-- The stream bits of the codewords of a bit string are its bits (20_memory.md R94, R95). -/
theorem streamBit_codewordsOf {bits : List Bool} {i : Nat} (hi : i < 8 * (bits.length / 8)) :
    streamBit (codewordsOf bits) i = bits.getD i false := by
  have hk : i / 8 < bits.length / 8 := Nat.div_lt_of_lt_mul hi
  rw [streamBit, codewordsOf_length, if_pos hi, BitVec.getLsbD, codewordsOf_getD_toNat hk,
    testBit_numOf_map_range (n := 8) _ (Nat.mod_lt i (by decide)), Nat.div_add_mod]

/-- A bit of the stream as a shift of its codeword (20_memory.md R95). -/
theorem streamBit_toNat {fin : List Byte} {i : Nat} (hi : i < 8 * fin.length) :
    (streamBit fin i).toNat = (fin.getD (i / 8) 0).toNat >>> (7 - i % 8) % 2 := by
  rw [streamBit, if_pos hi, BitVec.getLsbD, Nat.toNat_testBit, Nat.shiftRight_eq_div_pow]

/-- From CODED on the bit buffer holds `DCAP` codewords (10_state.md R41; 20_memory.md R94). -/
theorem State.Inv.bb_length_div (hs : s.Inv) (h2 : 2 ≤ s.phase.code) : s.bb.length / 8 = s.dcap := by
  have hfull : s.bb.length = 8 * s.dcap := hs.bbFull h2
  rw [hfull, Nat.mul_div_cancel_left _ (by decide)]

/-- Settles O17: the bits of the number eight bits spell are those bits, at the places the stream reads. -/
theorem codewordsAndBitsAgree : Obligations.CodewordsAndBitsAgree := by
  unfold Obligations.CodewordsAndBitsAgree
  refine ⟨fun s hs h2 => ?_, by decide,
    fun fin i => ⟨streamBit_toNat, fun hi => if_neg (Nat.not_lt.mpr hi)⟩, fun bits i => streamBit_codewordsOf⟩
  rw [codewordsOf_length, hs.bb_length_div h2]
  refine ⟨rfl, fun k hk => ?_⟩
  rw [codewordsOf_getD_toNat (by rwa [hs.bb_length_div h2]), numOf_map_range_eq_sum]

end Sys2Proof.Machine
end

section
/-! The codec (30_encoding.md R110 to R115): what each of the nine formats decodes, and that each row of the opcode map
says which words of its opcode decode, and to which command. -/

namespace Sys2Proof

variable {m n l : Nat} {op : BitVec 8} {a : BitVec 24} {b : BitVec 32} {i : Instr} {w : Descriptor} {r : OpcodeRow}

/-! ## Words as high bits before low bits -/

/-- Every word splits into high and low bits (20_memory.md R93). -/
theorem exists_eq_append (x : BitVec (m + n)) : ∃ (hi : BitVec m) (lo : BitVec n), x = hi ++ lo :=
  ⟨_, _, BitVec.extractLsb'_append_extractLsb'.symm⟩

theorem append_inj {hi hi' : BitVec m} {lo lo' : BitVec n} : hi ++ lo = hi' ++ lo' ↔ hi = hi' ∧ lo = lo' := by
  constructor
  · intro h
    have hhi := congrArg (BitVec.extractLsb' n m) h
    have hlo := congrArg (BitVec.extractLsb' 0 n) h
    rw [BitVec.extractLsb'_append_eq_left, BitVec.extractLsb'_append_eq_left] at hhi
    rw [BitVec.extractLsb'_append_eq_right, BitVec.extractLsb'_append_eq_right] at hlo
    exact ⟨hhi, hlo⟩
  · rintro ⟨rfl, rfl⟩
    rfl

/-- Reserved high bits are 0 exactly when the word is its one operand (30_encoding.md R111, R112). -/
theorem high_zero_and_iff {x : BitVec (m + n)} {P : BitVec n → Prop} :
    x.extractLsb' n m = 0#m ∧ P (x.extractLsb' 0 n) ↔ ∃ y, x = 0#m ++ y ∧ P y := by
  obtain ⟨hi, lo, rfl⟩ := exists_eq_append x
  simp only [BitVec.extractLsb'_append_eq_left, BitVec.extractLsb'_append_eq_right, append_inj, and_assoc,
    exists_and_left, exists_eq_left']

/-- The same for two operands. -/
theorem high_zero_and_iff₂ {x : BitVec (m + (n + l))} {P : BitVec n → BitVec l → Prop} :
    x.extractLsb' (n + l) m = 0#m ∧ P (x.extractLsb' l n) (x.extractLsb' 0 l) ↔
      ∃ y z, x = 0#m ++ (y ++ z) ∧ P y z := by
  obtain ⟨hi, lo, rfl⟩ := exists_eq_append x
  obtain ⟨y, z, rfl⟩ := exists_eq_append lo
  have hy : (hi ++ (y ++ z)).extractLsb' l n = y := by
    rw [BitVec.extractLsb'_append_eq_of_add_le (by omega), BitVec.extractLsb'_append_eq_left]
  have hz : (hi ++ (y ++ z)).extractLsb' 0 l = z := by
    rw [BitVec.extractLsb'_append_eq_of_add_le (by omega), BitVec.extractLsb'_append_eq_right]
  simp only [hy, hz, BitVec.extractLsb'_append_eq_left, append_inj, and_assoc, exists_and_left, exists_eq_left']

/-- A mask of the high bits finds them all 0 (30_encoding.md R113). -/
theorem and_highMask_eq_zero_iff {x : BitVec (m + n)} :
    x &&& (BitVec.allOnes m ++ 0#n) = 0#(m + n) ↔ x.extractLsb' n m = 0#m := by
  obtain ⟨hi, lo, rfl⟩ := exists_eq_append x
  simp only [BitVec.and_append, BitVec.and_allOnes, BitVec.and_zero, ← BitVec.zero_append_zero, append_inj, and_true,
    BitVec.extractLsb'_append_eq_left]

/-- A descriptor is its three fields (30_encoding.md R111). -/
theorem descriptor_fields (w : Descriptor) : descriptor (opField w) (aField w) (bField w) = w := by
  obtain ⟨op, ab, rfl⟩ := exists_eq_append (m := 8) (n := 56) w
  obtain ⟨a, b, rfl⟩ := exists_eq_append (m := 24) (n := 32) ab
  have hfields : op ++ (a ++ b) = descriptor op a b := rfl
  rw [hfields, opField_descriptor, aField_descriptor, bField_descriptor]

theorem descriptor_inj {op' : BitVec 8} {a' : BitVec 24} {b' : BitVec 32} :
    descriptor op a b = descriptor op' a' b' ↔ op = op' ∧ a = a' ∧ b = b' := by
  rw [descriptor, descriptor, append_inj, append_inj]

theorem descriptor_and (op op' : BitVec 8) (a a' : BitVec 24) (b b' : BitVec 32) :
    descriptor op a b &&& descriptor op' a' b' = descriptor (op &&& op') (a &&& a') (b &&& b') := by
  rw [descriptor, descriptor, BitVec.and_append, BitVec.and_append]
  rfl

/-- The number a descriptor spells (30_encoding.md R115). -/
theorem descriptor_toNat (op : BitVec 8) (a : BitVec 24) (b : BitVec 32) :
    (descriptor op a b).toNat = b.toNat + 2 ^ 32 * a.toNat + 2 ^ 56 * op.toNat := by
  rw [descriptor, Machine.toNat_append_eq_add, Machine.toNat_append_eq_add]

/-! ## What each format decodes -/

theorem unreserved_ok {clear : Bool} {j : Instr} : unreserved op clear j = .ok i ↔ clear = true ∧ j = i := by
  cases clear <;> simp [unreserved]

theorem unreserved_isOk {clear : Bool} {j : Instr} : (∃ i, unreserved op clear j = .ok i) ↔ clear = true := by
  simp only [unreserved_ok, exists_and_left, exists_eq', and_true]

theorem formatZ_ok {j : Instr} : formatZ j op a b = .ok i ↔ a = 0 ∧ b = 0 ∧ j = i := by
  simp only [formatZ, unreserved_ok, Bool.and_eq_true, beq_iff_eq, and_assoc]

theorem formatR_ok {k : BitVec 8 → Instr} :
    formatR k op a b = .ok i ↔ ∃ reg, a = 0#16 ++ reg ∧ b = 0 ∧ k reg = i := by
  simp only [formatR, unreserved_ok, Bool.and_eq_true, beq_iff_eq, and_assoc]
  exact high_zero_and_iff (m := 16) (n := 8) (P := fun reg => b = 0 ∧ k reg = i)

theorem formatW_ok {k : BitVec 8 → BitVec 32 → Instr} :
    formatW k op a b = .ok i ↔ ∃ reg, a = 0#16 ++ reg ∧ k reg b = i := by
  simp only [formatW, unreserved_ok, beq_iff_eq]
  exact high_zero_and_iff (m := 16) (n := 8) (P := fun reg => k reg b = i)

theorem formatI_ok {k : BitVec 24 → Instr} : formatI k op a b = .ok i ↔ b = 0 ∧ k a = i := by
  simp only [formatI, unreserved_ok, beq_iff_eq]

theorem formatIW_ok {k : BitVec 24 → BitVec 16 → Instr} :
    formatIW k op a b = .ok i ↔ ∃ val, b = 0#16 ++ val ∧ k a val = i := by
  simp only [formatIW, unreserved_ok, beq_iff_eq]
  exact high_zero_and_iff (m := 16) (n := 16) (P := fun val => k a val = i)

theorem formatM_ok {k : BitVec 8 → BitVec 8 → Instr} :
    formatM k op a b = .ok i ↔ ∃ row col, a = 0#8 ++ (row ++ col) ∧ b = 0 ∧ k row col = i := by
  simp only [formatM, unreserved_ok, Bool.and_eq_true, beq_iff_eq, and_assoc]
  exact high_zero_and_iff₂ (m := 8) (n := 8) (l := 8) (P := fun row col => b = 0 ∧ k row col = i)

theorem formatG1_ok {k : BitVec 8 → Instr} :
    formatG1 k op a b = .ok i ↔ a = 0 ∧ ∃ x, b = 0#24 ++ x ∧ k x = i := by
  simp only [formatG1, unreserved_ok, Bool.and_eq_true, beq_iff_eq, and_assoc]
  exact and_congr_right' (high_zero_and_iff (m := 24) (n := 8) (P := fun x => k x = i))

theorem formatG2_ok {k : BitVec 8 → BitVec 8 → Instr} :
    formatG2 k op a b = .ok i ↔ a = 0 ∧ ∃ y x, b = 0#16 ++ (y ++ x) ∧ k x y = i := by
  simp only [formatG2, unreserved_ok, Bool.and_eq_true, beq_iff_eq, and_assoc]
  exact and_congr_right' (high_zero_and_iff₂ (m := 16) (n := 8) (l := 8) (P := fun y x => k x y = i))

theorem formatP_ok {k : BitVec 16 → BitVec 5 → Instr} :
    formatP k op a b = .ok i ↔ ∃ width, a = 0#19 ++ width ∧ ∃ val, b = 0#16 ++ val ∧ k val width = i := by
  simp only [formatP, unreserved_ok, Bool.and_eq_true, beq_iff_eq, and_assoc]
  rw [← high_zero_and_iff (m := 19) (n := 5) (P := fun width => ∃ val, b = 0#16 ++ val ∧ k val width = i)]
  exact and_congr_right' (high_zero_and_iff (m := 16) (n := 16) (P := fun val => k val _ = i))

/-! ## Decoding an encoded command -/

/-- Decoding gives an encoded command back: each operand is found in the field it was put (30_encoding.md R115). -/
theorem decode_encode (i : Instr) : decode (encode i) = .ok i := by
  cases i <;> refine (decode_descriptor _ _ _).trans ?_
  case nop | reset | start | release | run | pkmode | pkcnt | pkdata | pkterm | pkalign | pkpad | ecc | mxfunc | mxdata
      | mksel | mkapply | mkfmt | mkver => exact formatZ_ok.mpr ⟨rfl, rfl, rfl⟩
  case rdreg => exact formatR_ok.mpr ⟨_, rfl, rfl, rfl⟩
  case wrreg => exact formatW_ok.mpr ⟨_, rfl, rfl⟩
  case rdpay | rdbit | rdcw | rdgen | rsgen | mkeval => exact formatI_ok.mpr ⟨rfl, rfl⟩
  case wrpay => exact formatIW_ok.mpr ⟨_, rfl, rfl⟩
  case rdmod => exact formatM_ok.mpr ⟨_, _, rfl, rfl, rfl⟩
  case gfexp | gflog => exact formatG1_ok.mpr ⟨rfl, _, rfl, rfl⟩
  case gfmul | gfadd => exact formatG2_ok.mpr ⟨rfl, _, _, rfl, rfl⟩
  case pushb => exact formatP_ok.mpr ⟨_, rfl, _, rfl, rfl⟩

/-! ## The rows of the opcode map -/

/-- A row tells the decoding of the words of its opcode: they decode exactly if the row accepts them, and what they
decode to is a command of the row's mnemonic, of which they are the encoding (30_encoding.md R113, R115). -/
structure OpcodeRow.Describes (r : OpcodeRow) : Prop where
  accepts_iff : ∀ w, opField w = opField r.pattern → (r.accepts w = true ↔ ∃ i, decode w = .ok i)
  decoded : ∀ w i, opField w = opField r.pattern → decode w = .ok i → w = encode i ∧ mnemonicOf i = r.mnemonic

theorem exists_descriptor (h : opField w = op) : ∃ a b, w = descriptor op a b :=
  ⟨aField w, bField w, by rw [← h, descriptor_fields]⟩

/-- A row describes its opcode if its pattern is the opcode alone and its mask is the opcode with the bits that the
opcode's format reserves (30_encoding.md R111, R113). -/
theorem describes_of_format {name : String} {maskA : BitVec 24} {maskB : BitVec 32}
    {format : BitVec 8 → BitVec 24 → BitVec 32 → Except DecodeError Instr}
    (hformat : decodeFields op = format op)
    (hclear : ∀ a b, (a &&& maskA = 0 ∧ b &&& maskB = 0) ↔ ∃ i, format op a b = .ok i)
    (hok : ∀ a b i, format op a b = .ok i → descriptor op a b = encode i ∧ mnemonicOf i = name) :
    OpcodeRow.Describes ⟨name, descriptor op 0 0, descriptor 0xFF maskA maskB⟩ := by
  have hdecode : ∀ a b, decode (descriptor op a b) = format op a b := by
    intro a b
    rw [decode_descriptor, hformat]
  constructor <;> intro w
  case accepts_iff =>
    intro hop
    obtain ⟨a, b, rfl⟩ := exists_descriptor (hop.trans (opField_descriptor _ _ _))
    have hmask : op &&& 0xFF = op := BitVec.and_allOnes
    rw [hdecode, ← hclear, OpcodeRow.accepts, beq_iff_eq, descriptor_and, descriptor_inj, hmask]
    exact and_iff_right rfl
  case decoded =>
    intro i hop
    obtain ⟨a, b, rfl⟩ := exists_descriptor (hop.trans (opField_descriptor _ _ _))
    rw [hdecode]
    exact hok a b i

theorem formatZ_describes (op : BitVec 8) (i : Instr) (hformat : decodeFields op = formatZ i op)
    (henc : descriptor op 0 0 = encode i) :
    OpcodeRow.Describes
      ⟨mnemonicOf i, descriptor op 0 0, descriptor 0xFF (BitVec.allOnes 24) (BitVec.allOnes 32)⟩ := by
  refine describes_of_format hformat (fun a b => ?_) (fun a b j h => ?_)
  · simp only [formatZ, unreserved_isOk, Bool.and_eq_true, beq_iff_eq, BitVec.and_allOnes]
  · obtain ⟨rfl, rfl, rfl⟩ := formatZ_ok.mp h
    exact ⟨henc, rfl⟩

theorem formatR_describes {name : String} (op : BitVec 8) (k : BitVec 8 → Instr)
    (hformat : decodeFields op = formatR k op)
    (hk : ∀ reg, descriptor op (0#16 ++ reg) 0 = encode (k reg) ∧ mnemonicOf (k reg) = name) :
    OpcodeRow.Describes
      ⟨name, descriptor op 0 0, descriptor 0xFF (BitVec.allOnes 16 ++ 0#8) (BitVec.allOnes 32)⟩ := by
  refine describes_of_format hformat (fun a b => ?_) (fun a b i h => ?_)
  · simp only [formatR, unreserved_isOk, Bool.and_eq_true, beq_iff_eq, BitVec.and_allOnes]
    exact and_congr_left' (and_highMask_eq_zero_iff (m := 16) (n := 8))
  · obtain ⟨reg, rfl, rfl, rfl⟩ := formatR_ok.mp h
    exact hk reg

theorem formatW_describes {name : String} (op : BitVec 8) (k : BitVec 8 → BitVec 32 → Instr)
    (hformat : decodeFields op = formatW k op)
    (hk : ∀ reg val, descriptor op (0#16 ++ reg) val = encode (k reg val) ∧ mnemonicOf (k reg val) = name) :
    OpcodeRow.Describes ⟨name, descriptor op 0 0, descriptor 0xFF (BitVec.allOnes 16 ++ 0#8) 0⟩ := by
  refine describes_of_format hformat (fun a b => ?_) (fun a b i h => ?_)
  · simp only [formatW, unreserved_isOk, beq_iff_eq, BitVec.ofNat_eq_ofNat, BitVec.and_zero, and_true]
    exact and_highMask_eq_zero_iff (m := 16) (n := 8)
  · obtain ⟨reg, rfl, rfl⟩ := formatW_ok.mp h
    exact hk reg b

theorem formatI_describes {name : String} (op : BitVec 8) (k : BitVec 24 → Instr)
    (hformat : decodeFields op = formatI k op)
    (hk : ∀ idx, descriptor op idx 0 = encode (k idx) ∧ mnemonicOf (k idx) = name) :
    OpcodeRow.Describes ⟨name, descriptor op 0 0, descriptor 0xFF 0 (BitVec.allOnes 32)⟩ := by
  refine describes_of_format hformat (fun a b => ?_) (fun a b i h => ?_)
  · simp only [formatI, unreserved_isOk, beq_iff_eq, BitVec.ofNat_eq_ofNat, BitVec.and_zero, BitVec.and_allOnes,
      true_and]
  · obtain ⟨rfl, rfl⟩ := formatI_ok.mp h
    exact hk a

theorem formatIW_describes {name : String} (op : BitVec 8) (k : BitVec 24 → BitVec 16 → Instr)
    (hformat : decodeFields op = formatIW k op)
    (hk : ∀ idx val, descriptor op idx (0#16 ++ val) = encode (k idx val) ∧ mnemonicOf (k idx val) = name) :
    OpcodeRow.Describes ⟨name, descriptor op 0 0, descriptor 0xFF 0 (BitVec.allOnes 16 ++ 0#16)⟩ := by
  refine describes_of_format hformat (fun a b => ?_) (fun a b i h => ?_)
  · simp only [formatIW, unreserved_isOk, beq_iff_eq, BitVec.ofNat_eq_ofNat, BitVec.and_zero, true_and]
    exact and_highMask_eq_zero_iff (m := 16) (n := 16)
  · obtain ⟨val, rfl, rfl⟩ := formatIW_ok.mp h
    exact hk a val

theorem formatM_describes {name : String} (op : BitVec 8) (k : BitVec 8 → BitVec 8 → Instr)
    (hformat : decodeFields op = formatM k op)
    (hk : ∀ row col, descriptor op (0#8 ++ (row ++ col)) 0 = encode (k row col) ∧ mnemonicOf (k row col) = name) :
    OpcodeRow.Describes
      ⟨name, descriptor op 0 0, descriptor 0xFF (BitVec.allOnes 8 ++ 0#16) (BitVec.allOnes 32)⟩ := by
  refine describes_of_format hformat (fun a b => ?_) (fun a b i h => ?_)
  · simp only [formatM, unreserved_isOk, Bool.and_eq_true, beq_iff_eq, BitVec.and_allOnes]
    exact and_congr_left' (and_highMask_eq_zero_iff (m := 8) (n := 16))
  · obtain ⟨row, col, rfl, rfl, rfl⟩ := formatM_ok.mp h
    exact hk row col

theorem formatG1_describes {name : String} (op : BitVec 8) (k : BitVec 8 → Instr)
    (hformat : decodeFields op = formatG1 k op)
    (hk : ∀ x, descriptor op 0 (0#24 ++ x) = encode (k x) ∧ mnemonicOf (k x) = name) :
    OpcodeRow.Describes
      ⟨name, descriptor op 0 0, descriptor 0xFF (BitVec.allOnes 24) (BitVec.allOnes 24 ++ 0#8)⟩ := by
  refine describes_of_format hformat (fun a b => ?_) (fun a b i h => ?_)
  · simp only [formatG1, unreserved_isOk, Bool.and_eq_true, beq_iff_eq, BitVec.and_allOnes]
    exact and_congr_right' (and_highMask_eq_zero_iff (m := 24) (n := 8))
  · obtain ⟨rfl, x, rfl, rfl⟩ := formatG1_ok.mp h
    exact hk x

theorem formatG2_describes {name : String} (op : BitVec 8) (k : BitVec 8 → BitVec 8 → Instr)
    (hformat : decodeFields op = formatG2 k op)
    (hk : ∀ x y, descriptor op 0 (0#16 ++ (y ++ x)) = encode (k x y) ∧ mnemonicOf (k x y) = name) :
    OpcodeRow.Describes
      ⟨name, descriptor op 0 0, descriptor 0xFF (BitVec.allOnes 24) (BitVec.allOnes 16 ++ 0#16)⟩ := by
  refine describes_of_format hformat (fun a b => ?_) (fun a b i h => ?_)
  · simp only [formatG2, unreserved_isOk, Bool.and_eq_true, beq_iff_eq, BitVec.and_allOnes]
    exact and_congr_right' (and_highMask_eq_zero_iff (m := 16) (n := 16))
  · obtain ⟨rfl, y, x, rfl, rfl⟩ := formatG2_ok.mp h
    exact hk x y

theorem formatP_describes {name : String} (op : BitVec 8) (k : BitVec 16 → BitVec 5 → Instr)
    (hformat : decodeFields op = formatP k op)
    (hk : ∀ val width, descriptor op (0#19 ++ width) (0#16 ++ val) = encode (k val width) ∧
      mnemonicOf (k val width) = name) :
    OpcodeRow.Describes
      ⟨name, descriptor op 0 0, descriptor 0xFF (BitVec.allOnes 19 ++ 0#5) (BitVec.allOnes 16 ++ 0#16)⟩ := by
  refine describes_of_format hformat (fun a b => ?_) (fun a b i h => ?_)
  · simp only [formatP, unreserved_isOk, Bool.and_eq_true, beq_iff_eq]
    exact and_congr (and_highMask_eq_zero_iff (m := 19) (n := 5)) (and_highMask_eq_zero_iff (m := 16) (n := 16))
  · obtain ⟨width, rfl, val, rfl, rfl⟩ := formatP_ok.mp h
    exact hk val width

/-- Every row of the opcode map describes its opcode (30_encoding.md R113). -/
theorem opcodeRows_describe : ∀ r ∈ opcodeRows, r.Describes := by
  simp only [opcodeRows, opcodeRowsControl, opcodeRowsUnits, List.cons_append, List.nil_append, List.forall_mem_cons,
    List.not_mem_nil, false_imp_iff, implies_true, and_true]
  exact ⟨formatZ_describes 0x00 .nop rfl rfl, formatZ_describes 0x01 .reset rfl rfl,
    formatZ_describes 0x02 .start rfl rfl, formatZ_describes 0x03 .release rfl rfl,
    formatZ_describes 0x04 .run rfl rfl,
    formatR_describes 0x08 .rdreg rfl fun _ => ⟨rfl, rfl⟩,
    formatW_describes 0x09 .wrreg rfl fun _ _ => ⟨rfl, rfl⟩,
    formatI_describes 0x0A .rdpay rfl fun _ => ⟨rfl, rfl⟩,
    formatIW_describes 0x0B .wrpay rfl fun _ _ => ⟨rfl, rfl⟩,
    formatI_describes 0x0C .rdbit rfl fun _ => ⟨rfl, rfl⟩,
    formatI_describes 0x0D .rdcw rfl fun _ => ⟨rfl, rfl⟩,
    formatM_describes 0x0E .rdmod rfl fun _ _ => ⟨rfl, rfl⟩,
    formatI_describes 0x0F .rdgen rfl fun _ => ⟨rfl, rfl⟩,
    formatG1_describes 0x10 .gfexp rfl fun _ => ⟨rfl, rfl⟩,
    formatG1_describes 0x11 .gflog rfl fun _ => ⟨rfl, rfl⟩,
    formatG2_describes 0x12 .gfmul rfl fun _ _ => ⟨rfl, rfl⟩,
    formatG2_describes 0x13 .gfadd rfl fun _ _ => ⟨rfl, rfl⟩,
    formatP_describes 0x20 .pushb rfl fun _ _ => ⟨rfl, rfl⟩,
    formatZ_describes 0x21 .pkmode rfl rfl, formatZ_describes 0x22 .pkcnt rfl rfl,
    formatZ_describes 0x23 .pkdata rfl rfl, formatZ_describes 0x24 .pkterm rfl rfl,
    formatZ_describes 0x25 .pkalign rfl rfl, formatZ_describes 0x26 .pkpad rfl rfl,
    formatI_describes 0x30 .rsgen rfl fun _ => ⟨rfl, rfl⟩,
    formatZ_describes 0x31 .ecc rfl rfl, formatZ_describes 0x40 .mxfunc rfl rfl,
    formatZ_describes 0x41 .mxdata rfl rfl,
    formatI_describes 0x50 .mkeval rfl fun _ => ⟨rfl, rfl⟩,
    formatZ_describes 0x51 .mksel rfl rfl, formatZ_describes 0x52 .mkapply rfl rfl,
    formatZ_describes 0x53 .mkfmt rfl rfl, formatZ_describes 0x54 .mkver rfl rfl⟩

/-! ## The opcodes of the map -/

/-- The opcodes that no command has (30_encoding.md R113). -/
def UnassignedOpcode (op : BitVec 8) : Prop :=
  (0x05 ≤ op.toNat ∧ op.toNat ≤ 0x07) ∨ (0x14 ≤ op.toNat ∧ op.toNat ≤ 0x1F) ∨
    (0x27 ≤ op.toNat ∧ op.toNat ≤ 0x2F) ∨ (0x32 ≤ op.toNat ∧ op.toNat ≤ 0x3F) ∨
    (0x42 ≤ op.toNat ∧ op.toNat ≤ 0x4F) ∨ 0x55 ≤ op.toNat

/-- Every opcode is unassigned or that of a row (30_encoding.md R113). -/
theorem unassigned_or_row (op : BitVec 8) : UnassignedOpcode op ∨ ∃ r ∈ opcodeRows, opField r.pattern = op := by
  revert op
  unfold UnassignedOpcode
  decide

/-- No two rows have one opcode (30_encoding.md R113). -/
theorem eq_of_opField_pattern_eq : ∀ r ∈ opcodeRows, ∀ r' ∈ opcodeRows,
    opField r.pattern = opField r'.pattern → r = r' := by decide

/-- An unassigned opcode is rejected by name (30_encoding.md R114). -/
theorem decodeFields_of_unassigned (h : UnassignedOpcode op) :
    decodeFields op a b = .error (.unassignedOpcode op) := by
  unfold UnassignedOpcode at h
  unfold decodeFields
  split
  case h_34 => rfl
  all_goals omega

/-- A word that decodes has the opcode of a row. -/
theorem exists_row_of_decode (h : decode w = .ok i) : ∃ r ∈ opcodeRows, opField w = opField r.pattern := by
  rcases unassigned_or_row (opField w) with hun | ⟨r, hr, hop⟩
  · rw [decode, decodeFields_of_unassigned hun] at h
    cases h
  · exact ⟨r, hr, hop.symm⟩

/-- Decoding inverts encoding: what a word decodes to is told by the row of its opcode (30_encoding.md R115). -/
theorem decode_eq_ok_iff : decode w = .ok i ↔ w = encode i := by
  constructor
  · intro h
    obtain ⟨r, hr, hop⟩ := exists_row_of_decode h
    exact ((opcodeRows_describe r hr).decoded w i hop h).1
  · rintro rfl
    exact decode_encode i

/-- Settles O1, one direction by the rows of the opcode map, the other by the formats of the commands. -/
theorem decodeInvertsEncode : Obligations.DecodeInvertsEncode := by
  unfold Obligations.DecodeInvertsEncode
  exact fun _ _ => decode_eq_ok_iff

/-! ## Decoding as a look-up -/

/-- A row accepts words of its opcode alone: its mask holds the whole opcode (30_encoding.md R113). -/
theorem opField_of_accepts (hr : r ∈ opcodeRows) (h : r.accepts w = true) : opField w = opField r.pattern := by
  have hmask : ∀ r ∈ opcodeRows, opField r.mask = BitVec.allOnes 8 := by decide
  calc opField w = opField w &&& opField r.mask := by rw [hmask r hr, BitVec.and_allOnes]
    _ = opField (w &&& r.mask) := BitVec.extractLsb'_and.symm
    _ = opField r.pattern := by rw [eq_of_beq h]

/-- A word that decodes is accepted by a row of the command's mnemonic. -/
theorem exists_row_accepts (h : decode w = .ok i) :
    ∃ r ∈ opcodeRows, r.mnemonic = mnemonicOf i ∧ r.accepts w = true := by
  obtain ⟨r, hr, hop⟩ := exists_row_of_decode h
  have hdesc := opcodeRows_describe r hr
  exact ⟨r, hr, (hdesc.decoded w i hop h).2.symm, (hdesc.accepts_iff w hop).mpr ⟨i, h⟩⟩

/-- A word that a row accepts decodes. -/
theorem exists_decode_of_accepts (hr : r ∈ opcodeRows) (h : r.accepts w = true) : ∃ i, decode w = .ok i :=
  ((opcodeRows_describe r hr).accepts_iff w (opField_of_accepts hr h)).mp h

/-- The illegal words are those that no row accepts (30_encoding.md R114). -/
theorem exists_decode_error_iff : (∃ e, decode w = .error e) ↔ ∀ r ∈ opcodeRows, r.accepts w = false := by
  constructor
  · rintro ⟨e, he⟩ r hr
    rw [← Bool.not_eq_true]
    intro hacc
    obtain ⟨i, hi⟩ := exists_decode_of_accepts hr hacc
    rw [he] at hi
    cases hi
  · intro hnone
    cases hd : decode w with
    | error e => exact ⟨e, rfl⟩
    | ok i =>
      obtain ⟨r, hr, -, hacc⟩ := exists_row_accepts hd
      rw [hnone r hr] at hacc
      cases hacc

/-- At most one row accepts a word. -/
theorem accepts_unique {r' : OpcodeRow} (hr : r ∈ opcodeRows) (hr' : r' ∈ opcodeRows) (h : r.accepts w = true)
    (h' : r'.accepts w = true) : r = r' :=
  eq_of_opField_pattern_eq r hr r' hr' ((opField_of_accepts hr h).symm.trans (opField_of_accepts hr' h'))

/-- Settles O2: the look-up by the rows, and each operand by its weight in the number of the encoded command. -/
theorem decodeFollowsOpcodeMap : Obligations.DecodeFollowsOpcodeMap := by
  unfold Obligations.DecodeFollowsOpcodeMap
  refine ⟨rfl, fun w i => exists_row_accepts, fun w e he => exists_decode_error_iff.mp ⟨e, he⟩,
    fun w r hr r' hr' => accepts_unique hr hr', fun w i h => ?_⟩
  obtain rfl := decode_eq_ok_iff.mp h
  -- The division cuts off what stands below the field, the remainder what stands above it.
  cases i
  all_goals
    simp only [encode, descriptor_toNat, Machine.toNat_append_eq_add, BitVec.ofNat_eq_ofNat, BitVec.toNat_ofNat]
    omega

/-- Settles O3, by decoding each word. -/
theorem sampleWordsDecode : Obligations.SampleWordsDecode := by
  unfold Obligations.SampleWordsDecode
  decide

end Sys2Proof
end

section
/-! Illegal descriptors and what a step does with one (30_encoding.md R114). -/

namespace Sys2Proof.Machine

/-- The illegal words, by the masks and patterns of the opcode map. -/
theorem exists_decode_error_iff_masks {w : Descriptor} :
    (∃ e, decode w = .error e) ↔ ∀ r ∈ opcodeRows, w &&& r.mask ≠ r.pattern := by
  simp only [exists_decode_error_iff, OpcodeRow.accepts, beq_eq_false_iff_ne]

/-- The opcode of a row with all other bits 0 decodes. -/
theorem exists_decode_of_row {r : OpcodeRow} (hr : r ∈ opcodeRows) :
    ∃ i, decode (descriptor (opField r.pattern) 0 0) = .ok i := by
  have hself : ∀ r ∈ opcodeRows, r.accepts (descriptor (opField r.pattern) 0 0) = true := by decide
  exact exists_decode_of_accepts hr (hself r hr)

/-- The opcodes rejected whatever the other fields are the unassigned ones (30_encoding.md R113, R114). -/
theorem decode_eq_unassigned_iff {op : BitVec 8} :
    (∀ a b, decode (descriptor op a b) = .error (.unassignedOpcode op)) ↔ UnassignedOpcode op := by
  constructor
  · intro h
    refine (unassigned_or_row op).resolve_right ?_
    rintro ⟨r, hr, rfl⟩
    obtain ⟨i, hi⟩ := exists_decode_of_row hr
    rw [h 0 0] at hi
    cases hi
  · intro h a b
    rw [decode_descriptor, decodeFields_of_unassigned h]

/-- A step on an illegal word takes its fault (30_encoding.md R114). -/
theorem step_illegal {s : State} {w : Descriptor} {e : DecodeError} {rest : List Input}
    (hp : s.pending = .command w :: rest) (hd : decode w = .error e) :
    step s = State.illegal { s with pending := rest } := by
  simp [step, hp, hd, State.taken_eq hp]

/-- Settles O4: the words by the opcode map, the step by the one way to take a fault. -/
theorem illegalDescriptorFaults : Obligations.IllegalDescriptorFaults := by
  unfold Obligations.IllegalDescriptorFaults
  refine ⟨fun op => decode_eq_unassigned_iff, fun w => exists_decode_error_iff_masks, fun s w rest hp hnone => ?_⟩
  obtain ⟨e, he⟩ := exists_decode_error_iff_masks.mpr hnone
  rw [step_illegal hp he]
  exact ⟨fun hf => State.answer_error (s := { s with pending := rest }) hf .illegal,
    fun hf => State.answer_fault (s := { s with pending := rest }) hf _⟩

end Sys2Proof.Machine
end

section
/-! How a command ends: every command answers a next state, with one response (30_encoding.md R116). -/

namespace Sys2Proof.Machine

variable {i : Instr} {s t : State} {f : State → Except Cause State}

/-- A read is answered with a result, which the fault state ignores, but for `RDREG` of an assigned number
(41_config_access.md R140; 60_exceptions.md R313). -/
theorem exec_eq_answer_or_rdreg (hi : isRead i = true) (s : State) :
    (∃ r, exec i s = s.answer r) ∨ ∃ reg d, i = .rdreg reg ∧ exec i s = .next (s.respond d) := by
  cases i with
  | nop => exact .inl ⟨.ok 0, rfl⟩
  | rdreg reg =>
    cases hv : s.regValue reg with
    | some v => exact .inr ⟨reg, v, rfl, exec_rdreg hv⟩
    | none => exact .inl ⟨.error .range, by simp only [exec, execRdreg, hv]⟩
  | rdpay | rdbit | rdcw | rdmod | rdgen | gflog => exact .inl ⟨_, rfl⟩
  | gfexp | gfmul | gfadd => exact .inl ⟨.ok _, rfl⟩
  | reset | start | release | run | wrreg | wrpay | pushb | pkmode | pkcnt | pkdata | pkterm | pkalign | pkpad
  | rsgen | ecc | mxfunc | mxdata | mkeval | mksel | mkapply | mkfmt | mkver => cases hi

/-- How a command ends: ignored, in a fault, or completed, with the response each gives; in the fault state only
`RDREG` and `RESET` complete (30_encoding.md R116; 60_exceptions.md R312, R313). -/
inductive Ends (s : State) : Instr → State → Prop
  | ignored {i : Instr} (hf : s.fault = true) : Ends s i s.ignored
  | raised {i : Instr} {u : State} (hf : s.fault = false) (hp : u.pending = s.pending) (c : Cause) :
      Ends s i (u.raise c)
  | completed {i : Instr} {u : State} {d : Data} (hf : s.fault = false) (huf : u.fault = false)
      (hp : u.pending = s.pending) (hd : isRead i = false → d = 0) : Ends s i (u.respond d)
  | rdreg (reg : BitVec 8) (d : Data) : Ends s (.rdreg reg) (s.respond d)
  | reset : Ends s .reset (s.restart.respond 0)

/-- A read ends in its answer, or as `RDREG` of an assigned number does in the fault state too. -/
theorem read_ends (hi : isRead i = true) (s : State) : ∃ t, exec i s = .next t ∧ Ends s i t := by
  rcases exec_eq_answer_or_rdreg hi s with ⟨r, hr⟩ | ⟨reg, d, rfl, hd⟩
  · obtain ⟨t, ht⟩ := s.answer_next r
    refine ⟨t, hr.trans ht, ?_⟩
    rcases State.answer_cases ht with ⟨hf, rfl⟩ | ⟨hf, c, -, rfl⟩ | ⟨hf, d, -, rfl⟩
    · exact .ignored hf
    · exact .raised hf rfl c
    · exact .completed hf hf rfl fun hn => by rw [hi] at hn; cases hn
  · exact ⟨_, hd, .rdreg reg d⟩

/-- A stage that completes writes neither the fault state nor the host's inputs. -/
theorem Completes.fault (h : Completes s i t) : t.fault = s.fault := by cases h <;> rfl

theorem Completes.pending (h : Completes s i t) : t.pending = s.pending := by cases h <;> rfl

/-- A command with a stage is ignored, faults or completes. -/
theorem stage_ends (hst : Stage i f) (s : State) : ∃ t, exec i s = .next t ∧ Ends s i t := by
  rw [hst.exec_eq]
  obtain ⟨t, ht⟩ := s.perform_next (f s)
  refine ⟨t, ht, ?_⟩
  rcases State.perform_cases ht with ⟨hf, rfl⟩ | ⟨hf, c, -, rfl⟩ | ⟨hf, u, hu, rfl⟩
  · exact .ignored hf
  · exact .raised hf rfl c
  · have hu := hst.completes hu
    exact .completed hf (hu.fault.trans hf) hu.pending fun _ => rfl

/-- Nor do the stages of `RUN`, run in order. -/
theorem stagesOk_fault_pending {fs : List (State → Except Cause State)} (hfs : ∀ f ∈ fs, f ∈ runStages)
    (h : stagesOk fs s t) : t.fault = s.fault ∧ t.pending = s.pending := by
  have hinputs : t.inputs = s.inputs := stagesOk_inputs (fun f hf => runStages_inputs f (hfs f hf)) h
  simp only [State.inputs, Prod.mk.injEq] at hinputs
  obtain ⟨-, -, -, hfault, -, hpending⟩ := hinputs
  exact ⟨hfault, hpending⟩

/-- `RUN` ends with its stages or at the first fault (46_control.md R275). -/
theorem run_ends (s : State) : ∃ t, exec .run s = .next t ∧ Ends s .run t := by
  cases hf : s.fault with
  | true => exact ⟨s.ignored, by simp [exec, execRun, hf], .ignored hf⟩
  | false =>
    by_cases hp : s.phase = .idle
    · refine ⟨runThrough runStages s, by simp [exec, execRun, hf, hp], ?_⟩
      rcases runThrough_cases runStages s with ⟨u, hu, hr⟩ | ⟨pre, f, post, u, c, hsplit, hu, -, hr⟩ <;> rw [hr]
      · obtain ⟨hfault, hpending⟩ := stagesOk_fault_pending (fun _ hg => hg) hu
        exact .completed hf (hfault.trans hf) hpending fun _ => rfl
      · have hpre : ∀ g ∈ pre, g ∈ runStages := fun g hg => hsplit ▸ List.mem_append_left _ hg
        exact .raised hf (stagesOk_fault_pending hpre hu).2 c
    · exact ⟨s.raise .seq, by simp [exec, execRun, hf, hp], .raised hf rfl .seq⟩

/-- Every command ends (70_reset_and_hazards.md R350). -/
theorem exec_ends (i : Instr) (s : State) : ∃ t, exec i s = .next t ∧ Ends s i t := by
  rcases command_cases i with rfl | rfl | hread | ⟨f, hst⟩
  · exact ⟨_, rfl, .reset⟩
  · exact run_ends s
  · exact read_ends hread s
  · exact stage_ends hst s

/-- Settles O8, by the ways a command ends. -/
theorem everyCommandResponds : Obligations.EveryCommandResponds := by
  unfold Obligations.EveryCommandResponds
  intro i s
  obtain ⟨t, ht, hend⟩ := exec_ends i s
  refine ⟨t, ?_⟩
  cases hend with
  | ignored hf => exact ⟨⟨false, 0⟩, ht, rfl, rfl, by simp [hf]⟩
  | raised hf hp c => exact ⟨⟨false, 0⟩, ht, rfl, hp, by simp [hf]⟩
  | completed hf huf hp hd => exact ⟨⟨true, _⟩, ht, rfl, hp, nofun, hd, fun _ => iff_of_true rfl huf, by simp [hf]⟩
  | rdreg reg d => exact ⟨⟨true, d⟩, ht, rfl, rfl, nofun, nofun, iff_of_true rfl, fun _ _ => .inr ⟨reg, rfl⟩⟩
  | reset =>
    exact ⟨⟨true, 0⟩, ht, rfl, rfl, nofun, fun _ => rfl, fun _ => iff_of_true rfl rfl, fun _ _ => .inl rfl⟩

end Sys2Proof.Machine
end

section
/-! What the GF commands' formats decode, as an equation: one or two bytes, or a reserved bit (30_encoding.md R114). -/

namespace Sys2Proof

/-- The high part of a word is zero exactly if its number fits the low part. -/
theorem extractLsb'_high_eq_zero_iff {m n : Nat} (b : BitVec (m + n)) :
    b.extractLsb' n m = 0 ↔ b.toNat < 2 ^ n := by
  have hb : b.toNat / 2 ^ n < 2 ^ m := by
    rw [Nat.div_lt_iff_lt_mul (Nat.two_pow_pos n), ← Nat.pow_add]
    exact b.isLt
  rw [← BitVec.toNat_inj, BitVec.extractLsb'_toNat, Nat.shiftRight_eq_div_pow, Nat.mod_eq_of_lt hb]
  simp [Nat.div_eq_zero_iff]

variable {op : BitVec 8} {a : BitVec 24} {b : BitVec 32}

/-- Format G1 takes one byte, the number of `B` (30_encoding.md R111, R114). -/
theorem formatG1_eq (k : BitVec 8 → Instr) : formatG1 k op a b =
    if a = 0 ∧ b.toNat < 2 ^ 8 then .ok (k (b.setWidth 8)) else .error (.reservedBits op) := by
  have hlow : b.extractLsb' 0 8 = b.setWidth 8 := rfl
  simp only [formatG1, unreserved, Bool.and_eq_true, beq_iff_eq,
    extractLsb'_high_eq_zero_iff (m := 24) (n := 8) b, hlow]

/-- Format G2 takes two bytes, the low one first (30_encoding.md R111, R114). -/
theorem formatG2_eq (k : BitVec 8 → BitVec 8 → Instr) : formatG2 k op a b =
    if a = 0 ∧ b.toNat < 2 ^ 16 then .ok (k (b.setWidth 8) ((b >>> 8).setWidth 8))
    else .error (.reservedBits op) := by
  have hlow : b.extractLsb' 0 8 = b.setWidth 8 := rfl
  have hmid : b.extractLsb' 8 8 = (b >>> 8).setWidth 8 := rfl
  simp only [formatG2, unreserved, Bool.and_eq_true, beq_iff_eq,
    extractLsb'_high_eq_zero_iff (m := 16) (n := 16) b, hlow, hmid]

end Sys2Proof
end

section
/-! The GF(256) commands (40_gf.md R130 to R134): multiplication by the polynomial `x` is linear and of order 255,
the tables of powers and logarithms follow it, and so multiplication by a non-zero byte is repeated multiplication by
`x`. The field laws and the product of polynomials are read off from that. -/

namespace Sys2Proof.Machine

/-! ## Multiplication by `x` -/

/-- Shifting out the top bit adds the lower part of the field modulus (11_rom_tables.md R60). -/
theorem xtime_eq (a : Byte) : xtime a = a <<< 1 ^^^ if a.msb then 0x1D else 0 := by
  revert a
  decide

/-- Multiplication by `x` is linear. -/
theorem xtime_xor (a b : Byte) : xtime (a ^^^ b) = xtime a ^^^ xtime b := by
  have hcarry : ∀ p q : Bool,
      (if p ^^ q then 0x1D else 0 : Byte) = (if p then 0x1D else 0) ^^^ if q then 0x1D else 0 := by decide
  rw [xtime_eq, xtime_eq, xtime_eq, BitVec.shiftLeft_xor_distrib, BitVec.msb_xor, hcarry]
  ac_rfl

theorem xtime_eq_zero {a : Byte} : xtime a = 0 ↔ a = 0 := by
  revert a
  decide

theorem xtimes_add (m n : Nat) (a : Byte) : xtimes (m + n) a = xtimes m (xtimes n a) := by
  induction m with
  | zero => rw [Nat.zero_add, xtimes]
  | succ m ih => rw [Nat.succ_add, xtimes, xtimes, ih]

theorem xtimes_comm (m n : Nat) (a : Byte) : xtimes m (xtimes n a) = xtimes n (xtimes m a) := by
  rw [← xtimes_add, Nat.add_comm, xtimes_add]

theorem xtimes_xor (k : Nat) (a b : Byte) : xtimes k (a ^^^ b) = xtimes k a ^^^ xtimes k b := by
  induction k with
  | zero => rfl
  | succ k ih => rw [xtimes, xtimes, xtimes, ih, xtime_xor]

theorem xtimes_eq_zero {k : Nat} {a : Byte} : xtimes k a = 0 ↔ a = 0 := by
  induction k with
  | zero => rfl
  | succ k ih => rw [xtimes, xtime_eq_zero, ih]

theorem xtimes_zero_right (k : Nat) : xtimes k 0 = 0 := xtimes_eq_zero.mpr rfl

/-! ## The tables of powers and logarithms -/

theorem gfExp_succ {i : Byte} (hi : i ≠ 255) : gfExp (i.toNat + 1) = xtime (gfExp i.toNat) := by
  revert i
  decide

/-- The table of powers: `EXP[i]` is `xⁱ` (11_rom_tables.md R61). -/
theorem gfExp_eq_xtimes {i : Nat} (hi : i ≤ 255) : gfExp i = xtimes i 1 := by
  induction i with
  | zero => rfl
  | succ i ih =>
    have hnat : (BitVec.ofNat 8 i).toNat = i := Nat.mod_eq_of_lt (by omega)
    have hne : BitVec.ofNat 8 i ≠ 255 := mt (congrArg BitVec.toNat) (hnat.symm ▸ Nat.ne_of_lt hi)
    rw [xtimes, ← ih (Nat.le_of_succ_le hi), ← hnat, gfExp_succ hne, hnat]

/-- The table of logarithms inverts the table of powers (11_rom_tables.md R62). -/
theorem gfLog_spec {a : Byte} (ha : a ≠ 0) : (gfLog a).toNat ≤ 254 ∧ gfExp (gfLog a).toNat = a := by
  revert a
  decide

/-- A non-zero byte is the power of `x` that its logarithm tells. -/
theorem xtimes_gfLog {a : Byte} (ha : a ≠ 0) : xtimes (gfLog a).toNat 1 = a := by
  obtain ⟨hle, hexp⟩ := gfLog_spec ha
  rw [← gfExp_eq_xtimes (by omega), hexp]

/-- `x` has order 255: 255 multiplications change no byte. -/
theorem xtimes_255 (a : Byte) : xtimes 255 a = a := by
  by_cases ha : a = 0
  · rw [ha, xtimes_zero_right]
  · have hone : xtimes 255 1 = 1 := (gfExp_eq_xtimes (Nat.le_refl 255)).symm
    rw [← xtimes_gfLog ha, xtimes_comm, hone]

theorem xtimes_255_mul (q : Nat) (a : Byte) : xtimes (255 * q) a = a := by
  induction q with
  | zero => rfl
  | succ q ih => rw [Nat.mul_succ, xtimes_add, xtimes_255, ih]

theorem xtimes_mod_255 (k : Nat) (a : Byte) : xtimes (k % 255) a = xtimes k a := by
  conv_rhs => rw [← Nat.mod_add_div k 255, xtimes_add, xtimes_255_mul]

/-- Every power of `x` stands in the table, at its exponent modulo 255. -/
theorem gfExp_mod_255 (k : Nat) : gfExp (k % 255) = xtimes k 1 := by
  rw [gfExp_eq_xtimes (by omega), xtimes_mod_255]

/-! ## Multiplication -/

theorem gfMul_comm (a b : Byte) : gfMul a b = gfMul b a := by
  simp only [gfMul, or_comm (a := a = 0), Nat.add_comm (gfLog a).toNat]

theorem gfMul_zero_left (b : Byte) : gfMul 0 b = 0 := if_pos (.inl rfl)

theorem gfMul_zero_right (a : Byte) : gfMul a 0 = 0 := if_pos (.inr rfl)

/-- Multiplication by the power of `x` with exponent `LOG[a]` (11_rom_tables.md R63). -/
theorem gfMul_eq_xtimes {a : Byte} (ha : a ≠ 0) (b : Byte) : gfMul a b = xtimes (gfLog a).toNat b := by
  by_cases hb : b = 0
  · rw [hb, gfMul_zero_right, xtimes_zero_right]
  · rw [gfMul, if_neg (not_or.mpr ⟨ha, hb⟩), gfExp_mod_255, xtimes_add, xtimes_gfLog hb]

theorem gfMul_one_right (a : Byte) : gfMul a 1 = a := by
  by_cases ha : a = 0
  · rw [ha, gfMul_zero_left]
  · rw [gfMul_eq_xtimes ha, xtimes_gfLog ha]

theorem gfMul_one_left (a : Byte) : gfMul 1 a = a := by
  rw [gfMul_comm, gfMul_one_right]

theorem gfMul_two_left (a : Byte) : gfMul 2 a = xtime a :=
  gfMul_eq_xtimes (by decide) a

theorem gfMul_xor (a b c : Byte) : gfMul a (b ^^^ c) = gfMul a b ^^^ gfMul a c := by
  by_cases ha : a = 0
  · rw [ha, gfMul_zero_left, gfMul_zero_left, gfMul_zero_left]
    exact BitVec.xor_self.symm
  · simp only [gfMul_eq_xtimes ha, xtimes_xor]

theorem gfMul_xtimes (k : Nat) (a b : Byte) : gfMul a (xtimes k b) = xtimes k (gfMul a b) := by
  by_cases ha : a = 0
  · rw [ha, gfMul_zero_left, gfMul_zero_left, xtimes_zero_right]
  · rw [gfMul_eq_xtimes ha, gfMul_eq_xtimes ha, xtimes_comm]

theorem gfMul_assoc (a b c : Byte) : gfMul a (gfMul b c) = gfMul (gfMul a b) c := by
  by_cases ha : a = 0
  · rw [ha, gfMul_zero_left, gfMul_zero_left, gfMul_zero_left]
  · rw [gfMul_eq_xtimes ha, gfMul_eq_xtimes ha, gfMul_comm b, gfMul_comm _ c, gfMul_xtimes]

/-- The inverse that R134 names (40_gf.md R134). -/
theorem gfMul_inverse {a : Byte} (ha : a ≠ 0) : gfMul a (gfExp ((255 - (gfLog a).toNat) % 255)) = 1 := by
  obtain ⟨hle, -⟩ := gfLog_spec ha
  have hsum : (gfLog a).toNat + (255 - (gfLog a).toNat) = 255 := by omega
  rw [gfMul_eq_xtimes ha, gfExp_mod_255, ← xtimes_add, hsum, xtimes_255]

/-- There is no other inverse: one factor of a product that is 1 has one partner. -/
theorem gfMul_eq_one_iff {a : Byte} (ha : a ≠ 0) (b : Byte) :
    gfMul a b = 1 ↔ b = gfExp ((255 - (gfLog a).toNat) % 255) := by
  refine ⟨fun h => ?_, fun h => h ▸ gfMul_inverse ha⟩
  set c := gfExp ((255 - (gfLog a).toNat) % 255)
  calc b = gfMul (gfMul a c) b := by rw [gfMul_inverse ha, gfMul_one_left]
    _ = gfMul c (gfMul a b) := by rw [gfMul_comm a c, gfMul_assoc]
    _ = c := by rw [h, gfMul_one_right]

/-! ## The product of polynomials -/

/-- The sum of the shifts `a·xⁱ` that the bits of `b` pick, added to `acc` (11_rom_tables.md R63). -/
def addShifts (a b acc : Byte) (is : List Nat) : Byte :=
  is.foldl (fun sum i => if b.getLsbD i then sum ^^^ xtimes i a else sum) acc

theorem polyProduct_eq_addShifts (a b : Byte) : polyProduct a b = addShifts a b 0 (List.range 8) := rfl

/-- Multiplication distributes over a sum of shifts. -/
theorem gfMul_addShifts (a b c acc : Byte) (is : List Nat) :
    gfMul a (addShifts b c acc is) = addShifts (gfMul a b) c (gfMul a acc) is := by
  induction is generalizing acc with
  | nil => rfl
  | cons i is ih =>
    have hstep : gfMul a (if c.getLsbD i then acc ^^^ xtimes i b else acc) =
        if c.getLsbD i then gfMul a acc ^^^ xtimes i (gfMul a b) else gfMul a acc := by
      rw [apply_ite (gfMul a), gfMul_xor, gfMul_xtimes]
    exact (ih _).trans (congrArg (addShifts _ _ · is) hstep)

/-- A byte is the sum of the powers of `x` at its bits. -/
theorem polyProduct_one_left (b : Byte) : polyProduct 1 b = b := by
  revert b
  decide

/-- The product by logarithms is the product of polynomials (11_rom_tables.md R63). -/
theorem polyProduct_eq_gfMul (a b : Byte) : polyProduct a b = gfMul a b := by
  calc polyProduct a b = addShifts (gfMul a 1) b (gfMul a 0) (List.range 8) := by
        rw [gfMul_one_right, gfMul_zero_right, polyProduct_eq_addShifts]
    _ = gfMul a (polyProduct 1 b) := (gfMul_addShifts a 1 b 0 _).symm
    _ = gfMul a b := by rw [polyProduct_one_left]

/-! ## The obligations -/

/-- The commands of GF(256) arithmetic (40_gf.md R130 to R133). -/
inductive GfCommand : Instr → Prop
  | gfexp (a : Byte) : GfCommand (.gfexp a)
  | gflog (a : Byte) : GfCommand (.gflog a)
  | gfmul (a b : Byte) : GfCommand (.gfmul a b)
  | gfadd (a b : Byte) : GfCommand (.gfadd a b)

/-- A GF command only responds, and its one fault is LOG0 (40_gf.md R134). -/
theorem GfCommand.exec_eq_answer {i : Instr} (hi : GfCommand i) (s : State) :
    ∃ r, exec i s = s.answer r ∧ ∀ c, r = .error c → c = .log0 := by
  cases hi with
  | gfexp | gfmul | gfadd => exact ⟨.ok _, rfl, nofun⟩
  | gflog a =>
    refine ⟨_, rfl, fun c hc => ?_⟩
    split at hc
    · exact (Except.error.inj hc).symm
    · cases hc

/-- Settles O28: the format of one byte, and the table of powers as multiplications by `x`. -/
theorem gfexpIsPowerOfAlpha : Obligations.GfexpIsPowerOfAlpha := by
  unfold Obligations.GfexpIsPowerOfAlpha
  refine ⟨fun a b => (decode_descriptor _ _ _).trans (formatG1_eq .gfexp), fun a s hf => State.answer_ok hf _,
    fun a => ?_, rfl, rfl, by decide, by decide, rfl⟩
  have hpow : gfExp a.toNat = xtimes a.toNat 1 := gfExp_eq_xtimes (Nat.le_of_lt_succ a.isLt)
  exact ⟨hpow, fun h => absurd (xtimes_eq_zero.mp (hpow ▸ h)) (by decide)⟩

/-- Settles O29: the format of one byte, and the table of logarithms as the inverse of the table of powers. -/
theorem gflogInvertsGfexp : Obligations.GflogInvertsGfexp := by
  unfold Obligations.GflogInvertsGfexp
  refine ⟨fun a b => (decode_descriptor _ _ _).trans (formatG1_eq .gflog), fun a s hf ha => ?_,
    fun s hf => State.answer_error hf _, fun a ha => gfLog_spec ha, by decide, by decide, by decide, by decide, rfl⟩
  exact (congrArg s.answer (if_neg ha)).trans (State.answer_ok hf _)

/-- Settles O30: the format of two bytes, and the product by logarithms as the product of polynomials. -/
theorem gfmulIsPolynomialProduct : Obligations.GfmulIsPolynomialProduct := by
  unfold Obligations.GfmulIsPolynomialProduct
  simp only [polyProduct_eq_gfMul]
  refine ⟨fun a b => (decode_descriptor _ _ _).trans (formatG2_eq .gfmul), fun a b s hf => State.answer_ok hf _,
    fun a b => rfl, fun a b ha hb => ⟨?_, fun hsum => ?_⟩,
    fun a => ⟨gfMul_zero_right a, gfMul_zero_left a, gfMul_one_right a, gfMul_one_left a⟩,
    by decide, by decide, by decide, by decide, gfMul_zero_left 77⟩
  · obtain ⟨hla, -⟩ := gfLog_spec ha
    obtain ⟨hlb, -⟩ := gfLog_spec hb
    omega
  · rw [gfMul, if_neg (not_or.mpr ⟨ha, hb⟩), hsum, gfExp_mod_255, xtimes_255]

/-- Settles O31: the format of two bytes, and addition as the exclusive or. -/
theorem gfaddIsXor : Obligations.GfaddIsXor := by
  unfold Obligations.GfaddIsXor
  exact ⟨fun a b => (decode_descriptor _ _ _).trans (formatG2_eq .gfadd), fun a b s hf => State.answer_ok hf _,
    fun a => ⟨BitVec.xor_self, BitVec.xor_zero⟩, by decide, rfl⟩

/-- Settles O32: the laws from multiplication as repeated multiplication by `x`, the frame from the one way a GF
command answers. -/
theorem fieldLaws : Obligations.FieldLaws := by
  unfold Obligations.FieldLaws
  refine ⟨gfMul_comm, gfMul_assoc, fun a => ⟨gfMul_one_right a, gfMul_zero_right a⟩, gfMul_xor,
    fun a b ha => gfMul_eq_one_iff ha b, gfMul_two_left, fun i s t hi ht => ?_⟩
  have hgf : GfCommand i := by
    obtain ⟨a, b, rfl | rfl | rfl | rfl⟩ := hi <;> constructor
  obtain ⟨r, hr, hlog⟩ := hgf.exec_eq_answer s
  rcases State.answer_cases (hr ▸ ht) with ⟨hf, rfl⟩ | ⟨hf, c, hc, rfl⟩ | ⟨hf, d, -, rfl⟩
  · exact ⟨rfl, fun _ hn => absurd (hf.symm.trans hn) nofun, fun _ => rfl⟩
  · exact ⟨rfl, fun _ _ => hlog c hc, fun h => absurd (h.trans hf) nofun⟩
  · exact ⟨rfl, fun h => absurd (hf.symm.trans h) nofun, fun _ => rfl⟩

end Sys2Proof.Machine
end

section
/-! The configuration and payload commands and the buffer reads (41_config_access.md R141 to R147): what each stage or
check answers in each case, and the element a read finds inside its extent. -/

namespace Sys2Proof.Machine

variable {s t : State} {i : Instr} {f : State → Except Cause State} {c : Cause}

/-! ## Writes -/

/-- A command whose stage completes responds 0. -/
theorem Stage.exec_of_ok (hst : Stage i f) (hf : s.fault = false) (h : f s = .ok t) :
    exec i s = .next (t.respond 0) := by
  rw [hst.exec_eq, h, State.perform_ok hf]

/-- A command whose stage fails takes its fault (60_exceptions.md R312). -/
theorem Stage.exec_of_error (hst : Stage i f) (hf : s.fault = false) (h : f s = .error c) :
    exec i s = .next (s.raise c) := by
  rw [hst.exec_eq, h, State.perform_error hf]

/-- `WRREG` of `CFG` takes the values below `2 ^ 10` (41_config_access.md R141). -/
theorem State.writeReg_cfg (s : State) (val : Data) : s.writeReg 0x00 val =
    s.inPhase .idle (if val.toNat < 2 ^ 10 then .ok { s with cfg := Cfg.ofWord val } else .error .range) := by
  simp only [← extractLsb'_high_eq_zero_iff (m := 22) (n := 10) val]
  rfl

/-- `WRREG` of `PAYLEN` takes the values below `2 ^ 13` (41_config_access.md R141). -/
theorem State.writeReg_payLen (s : State) (val : Data) : s.writeReg 0x01 val =
    s.inPhase .idle
      (if val.toNat < 2 ^ 13 then .ok { s with payLen := val.extractLsb' 0 13 } else .error .range) := by
  simp only [← extractLsb'_high_eq_zero_iff (m := 19) (n := 13) val]
  rfl

/-- No other register can be written (41_config_access.md R141). -/
theorem State.writeReg_other {reg : BitVec 8} (h : 1 < reg.toNat) (s : State) (val : Data) :
    s.writeReg reg val = .error .range := by
  rw [State.writeReg, if_neg (by omega), if_neg (by omega)]

/-! ## The fields of `CFG` -/

theorem EcLevel.code_ofCode (c : BitVec 2) : (EcLevel.ofCode c).code = c := by
  revert c
  decide

theorem Mode.code_ofCode (c : BitVec 2) : (Mode.ofCode c).code = c := by
  revert c
  decide

theorem Cfg.ofWord_version (val : Data) : (Cfg.ofWord val).version.toNat = val.toNat % 2 ^ 6 := by
  simp [Cfg.ofWord]

theorem Cfg.ofWord_ecLevel (val : Data) : (Cfg.ofWord val).ecLevel.code.toNat = val.toNat / 2 ^ 6 % 4 := by
  rw [Cfg.ofWord, EcLevel.code_ofCode, BitVec.extractLsb'_toNat, Nat.shiftRight_eq_div_pow]

theorem Cfg.ofWord_mode {val : Data} (h : val.toNat < 2 ^ 10) :
    (Cfg.ofWord val).mode.code.toNat = val.toNat / 2 ^ 8 := by
  rw [Cfg.ofWord, Mode.code_ofCode, BitVec.extractLsb'_toNat, Nat.shiftRight_eq_div_pow]
  omega

/-- A value of ten bits written to `CFG` reads back (10_state.md R22, R23). -/
theorem Cfg.word_ofWord {val : Data} (h : val.toNat < 2 ^ 10) : (Cfg.ofWord val).word = val := by
  rw [Cfg.word_eq, Cfg.ofWord_version, Cfg.ofWord_ecLevel, Cfg.ofWord_mode h]
  apply BitVec.eq_of_toNat_eq
  rw [BitVec.toNat_ofNat]
  omega

/-- Settles O25: the two registers that can be written by their stage, the read back by the fields of `CFG`. -/
theorem writeRegister : Obligations.WriteRegister := by
  unfold Obligations.WriteRegister
  intro s val hf
  have hcfg := Stage.wrreg 0x00 val
  have hlen := Stage.wrreg 0x01 val
  refine ⟨fun hp hval => ⟨Cfg.ofWord val, hcfg.exec_of_ok (t := { s with cfg := Cfg.ofWord val }) hf ?cfg,
      Cfg.ofWord_version val, Cfg.ofWord_ecLevel val, Cfg.ofWord_mode hval, Cfg.word_ofWord hval⟩,
    fun hp hval => ⟨val.extractLsb' 0 13,
      hlen.exec_of_ok (t := { s with payLen := val.extractLsb' 0 13 }) hf ?len, ?lenValue⟩,
    fun hp hval => hcfg.exec_of_error hf ?cfgRange, fun hp hval => hlen.exec_of_error hf ?lenRange,
    fun hp => ⟨hcfg.exec_of_error hf ?cfgSeq, hlen.exec_of_error hf ?lenSeq⟩,
    fun reg hreg => (Stage.wrreg reg val).exec_of_error hf (State.writeReg_other hreg s val)⟩
  case cfg => rw [State.writeReg_cfg, State.inPhase_eq hp, if_pos hval]
  case len => rw [State.writeReg_payLen, State.inPhase_eq hp, if_pos hval]
  case lenValue => rw [BitVec.extractLsb'_toNat, Nat.shiftRight_zero, Nat.mod_eq_of_lt hval]
  case cfgRange => rw [State.writeReg_cfg, State.inPhase_eq hp, if_neg (Nat.not_lt.mpr hval)]
  case lenRange => rw [State.writeReg_payLen, State.inPhase_eq hp, if_neg (Nat.not_lt.mpr hval)]
  case cfgSeq => rw [State.writeReg_cfg, State.inPhase_ne hp]
  case lenSeq => rw [State.writeReg_payLen, State.inPhase_ne hp]

/-! ## The payload -/

/-- `RDPAY` outside the 8192 entries (41_config_access.md R142). -/
theorem exec_rdpay_outside {idx : Index} (hf : s.fault = false) (h : 8192 ≤ idx.toNat) :
    exec (.rdpay idx) s = .next (s.raise .range) := by
  rw [exec, execRdpay, if_pos (show Config.payDepth ≤ idx.toNat from h), State.answer_error hf]

/-- `RDPAY` of a written entry responds it (41_config_access.md R142). -/
theorem exec_rdpay_written {idx : Index} {u : PayUnit} (hf : s.fault = false) (h : idx.toNat < 8192)
    (hu : s.pay.read idx.toNat = some u) : exec (.rdpay idx) s = .next (s.respond (BitVec.ofNat 32 u.toNat)) := by
  rw [exec, execRdpay, if_neg (show ¬ Config.payDepth ≤ idx.toNat from Nat.not_le.mpr h), hu, BitVec.ofNat_toNat]
  exact State.answer_ok hf _

/-- `RDPAY` of an unwritten entry raises UNINIT (41_config_access.md R142). -/
theorem exec_rdpay_unwritten {idx : Index} (hf : s.fault = false) (h : idx.toNat < 8192)
    (hu : s.pay.read idx.toNat = none) : exec (.rdpay idx) s = .next (s.raise .uninit) := by
  rw [exec, execRdpay, if_neg (show ¬ Config.payDepth ≤ idx.toNat from Nat.not_le.mpr h), hu]
  exact State.answer_error hf _

/-- Settles O26: `WRPAY` by its stage and the laws of an element memory, `RDPAY` by its checks. -/
theorem payloadAccess : Obligations.PayloadAccess := by
  unfold Obligations.PayloadAccess
  refine ⟨fun s idx val hf hp hidx => ⟨s.pay.write idx.toNat val, ?_, s.pay.read_write_same _ _,
      fun k hk => s.pay.read_write_ne _ hk, s.pay.write_wf _ _⟩,
    fun s idx val hf => ⟨fun hp => (Stage.wrpay idx val).exec_of_error hf (State.inPhase_ne hp _),
      fun hp hidx => (Stage.wrpay idx val).exec_of_error hf ?_⟩,
    fun s idx u hf hidx hu => exec_rdpay_written hf hidx hu,
    fun s idx hf => ⟨exec_rdpay_outside hf, exec_rdpay_unwritten hf⟩⟩
  · exact (Stage.wrpay idx val).exec_of_ok hf (State.writePay_ok.mpr ⟨hp, hidx, rfl⟩)
  · rw [State.writePay, State.inPhase_eq hp, if_pos (show Config.payDepth ≤ idx.toNat from hidx)]

/-! ## Buffer reads -/

section
variable {early outside : Prop} [Decidable early] [Decidable outside] {e : Cause} {d : Data} {r : Except Cause Data}

/-- A read whose first check fails takes that check's fault. -/
theorem State.answer_forbidden (hf : s.fault = false) (h : outside) :
    s.answer (if outside then .error c else r) = .next (s.raise c) := by
  rw [if_pos h, State.answer_error hf]

/-- A read whose one check passes responds. -/
theorem State.answer_allowed (hf : s.fault = false) (h : ¬ outside) :
    s.answer (if outside then .error c else .ok d) = .next (s.respond d) := by
  rw [if_neg h, State.answer_ok hf]

/-- A read whose second check alone fails takes that check's fault. -/
theorem State.answer_forbidden_second (hf : s.fault = false) (hearly : ¬ early) (h : outside) :
    s.answer (if early then .error e else if outside then .error c else r) = .next (s.raise c) := by
  rw [if_neg hearly, State.answer_forbidden hf h]

/-- A read whose two checks pass responds. -/
theorem State.answer_allowed_both (hf : s.fault = false) (hearly : ¬ early) (h : ¬ outside) :
    s.answer (if early then .error e else if outside then .error c else .ok d) = .next (s.respond d) := by
  rw [if_neg hearly, State.answer_allowed hf h]

end

/-- An element inside a list is found, and it is what a look-up with a default gives. -/
theorem getElem?_eq_some_getD {α : Type} {l : List α} {k : Nat} (h : k < l.length) (d : α) :
    l[k]? = some (l.getD k d) := by
  rw [List.getElem?_eq_getElem h, List.getD_eq_getElem l d h]

/-- A place inside the square is found in its row, and it is what `Mx.at` gives. -/
theorem Mx.square.exists_cells {n : Nat} {m : Mx} (h : m.square n) {row col : Nat} (hrow : row < n) (hcol : col < n) :
    ∃ cells, m[row]? = some cells ∧ cells[col]? = some (m.at row col) := by
  obtain ⟨hrows, hcols⟩ := h
  have hfound := getElem?_eq_some_getD (hrows.symm ▸ hrow) []
  exact ⟨_, hfound, getElem?_eq_some_getD ((hcols _ (List.mem_of_getElem? hfound)).symm ▸ hcol) blankModule⟩

/-- The value in bit 0, the tag above it (41_config_access.md R146). -/
theorem MxModule.word_eq (x : MxModule) : x.word = BitVec.ofNat 32 (x.val.toNat + 2 * x.tag.code) := by
  rw [MxModule.word, Nat.lor_comm, ← Nat.shiftLeft_add_eq_or_of_lt x.val.toNat_lt, Nat.shiftLeft_eq,
    Nat.add_comm, Nat.mul_comm, pow_one]

/-- `GEN` has a leading coefficient, so its length is one more than its degree (10_state.md R27, R34). -/
theorem State.Inv.gen_length (hs : s.Inv) : s.gen.length = s.genLen + 1 := by
  have hpos : 0 < s.gen.length := List.length_pos_of_mem (List.mem_of_mem_head? hs.genMonic)
  rw [State.genLen]
  omega

/-- Settles O27: the two checks of each read in turn, then the element inside its buffer. -/
theorem bufferReads : Obligations.BufferReads := by
  unfold Obligations.BufferReads
  intro s idx row col hs hf
  refine ⟨fun hp hidx => ⟨_, getElem?_eq_some_getD hidx false, ?bit⟩,
    fun hp hidx => ⟨_, getElem?_eq_some_getD hidx 0, ?codeword⟩, fun hp hrow hcol => ?module,
    fun hidx => ⟨_, getElem?_eq_some_getD (by rw [hs.gen_length]; omega) 0, ?coefficient⟩,
    fun hp => State.answer_forbidden hf (by rw [hp]; decide), State.answer_forbidden hf, State.answer_forbidden hf,
    fun hp => State.answer_forbidden_second hf (not_lt.mpr hp),
    fun hp => State.answer_forbidden_second hf (not_lt.mpr hp),
    fun hp => State.answer_forbidden_second hf (not_lt.mpr hp), State.answer_forbidden hf⟩
  case bit => exact State.answer_allowed_both hf (not_lt.mpr hp) (not_le.mpr hidx)
  case codeword =>
    rw [BitVec.ofNat_toNat]
    exact State.answer_allowed_both hf (not_lt.mpr hp) (not_le.mpr hidx)
  case module =>
    obtain ⟨cells, hcells, hx⟩ := (hs.mxSound hp).1.exists_cells hrow hcol
    refine ⟨cells, _, hcells, hx, ?_⟩
    rw [← MxModule.word_eq]
    exact State.answer_allowed_both hf (not_lt.mpr hp) (not_or.mpr ⟨not_le.mpr hrow, not_le.mpr hcol⟩)
  case coefficient =>
    rw [BitVec.ofNat_toNat]
    exact State.answer_allowed hf (not_lt.mpr hidx)

end Sys2Proof.Machine
end

section
/-! The bits of a value and `append` (20_memory.md R93; 42_bitstream.md R161): what is appended spells the value, and
the commands that append leave the bits that were there. -/

namespace Sys2Proof.Machine

variable {s t : State} {i : Instr} {f : State → Except Cause State} {v w : Nat}

/-! ## The bits of a value -/

/-- Bit `j` of `w` bits is bit `w - 1 - j` of the value (20_memory.md R93). -/
theorem bitsOf_eq_map_range (v w : Nat) :
    bitsOf v w = (List.range w).map fun j => v.testBit (w - 1 - j) :=
  List.ext_getElem (by simp) fun j _ _ => by simp [bitsOf]

theorem bitsOf_getElem? {j : Nat} (h : j < w) : (bitsOf v w)[j]? = some (v.testBit (w - 1 - j)) := by
  simp [bitsOf_eq_map_range, h]

/-- The bits of a value spell it (20_memory.md R93). -/
theorem numOf_bitsOf (h : v < 2 ^ w) : numOf (bitsOf v w) = v := by
  rw [bitsOf_eq_map_range]
  refine Nat.eq_of_testBit_eq fun k => ?_
  by_cases hk : k < w
  · have hplace : w - 1 - (w - 1 - k) = k := by omega
    have hbit := testBit_numOf_map_range (fun j => v.testBit (w - 1 - j)) (n := w) (j := w - 1 - k) (by omega)
    rwa [hplace] at hbit
  · have hpow : 2 ^ w ≤ 2 ^ k := Nat.pow_le_pow_right Nat.two_pos (Nat.not_lt.mp hk)
    rw [Nat.testBit_lt_two_pow ((numOf_map_range_lt _ w).trans_le hpow), Nat.testBit_lt_two_pow (h.trans_le hpow)]

/-! ## `append` -/

theorem State.append_of_room (v : Nat) (h : s.bbLen + w ≤ s.capBits) :
    s.append v w = .ok { s with bb := s.bb ++ bitsOf v w } :=
  State.append_ok.mpr ⟨h, rfl⟩

theorem State.append_of_no_room (v : Nat) (h : s.capBits < s.bbLen + w) : s.append v w = .error .ovf := if_pos h

/-- A report leaves the bit buffer. -/
theorem State.Reported.bb (h : s.Reported t) : t.bb = s.bb := by cases h <;> rfl

/-- Of the completed stages only that of `START` drops bits; a packer command puts its own after them
(42_bitstream.md R161). -/
theorem Completes.bb_prefix (h : Completes s i t) (hstart : i ≠ .start) : s.bb <+: t.bb := by
  cases h with
  | start => exact absurd rfl hstart
  | append => exact List.prefix_append _ _
  | release | wrregCfg | wrregLen | wrpay | rsgen | ecc | mxfunc | mxdata | mkeval | mksel | mkapply | mkfmt
  | mkver => exact List.prefix_rfl

/-- Settles O16: the bits of a value by their places, the commands by the one way each can end. -/
theorem appendIsAllOrNothing : Obligations.AppendIsAllOrNothing := by
  unfold Obligations.AppendIsAllOrNothing
  refine ⟨fun s v w hv => ⟨State.append_of_no_room v, fun hroom => ?_⟩, fun i s t h hstart hrun hreset => ?_⟩
  · refine ⟨_, State.append_of_room v hroom, rfl, ?length, fun k hk => List.getElem?_append_left hk,
      fun j hj => ?bit, ?value⟩
    case length => simp [State.bbLen]
    case bit =>
      show (s.bb ++ bitsOf v w)[s.bb.length + j]? = _
      rw [List.getElem?_append_right (Nat.le_add_right _ _), Nat.add_sub_cancel_left, bitsOf_getElem? hj]
    case value => simp [State.bbLen, numOf_bitsOf hv]
  · rcases exec_cases h with hr | ⟨hi, -⟩ | ⟨hi, -⟩ | ⟨-, u, hu, rfl⟩
    · rw [hr.bb]
    · exact absurd hi hreset
    · exact absurd hi hrun
    · exact hu.bb_prefix hstart

end Sys2Proof.Machine
end

section
/-! What a packer command leaves, and the commands that append one value: `PUSHB` and the header (42_bitstream.md R160,
R163, R164). -/

namespace Sys2Proof.Machine

variable {s : State} {i : Instr} {f : State → Except Cause State} {v w : Nat} {bits : List Bool}

/-! ## The state a packer command leaves -/

/-- What a packer command that completes leaves: its bits after those that were there, and the response. -/
def State.appended (s : State) (bits : List Bool) : State :=
  { s with bb := s.bb ++ bits, resp := some ⟨true, 0⟩ }

@[simp] theorem State.appended_cfg (s : State) (bits : List Bool) : (s.appended bits).cfg = s.cfg := rfl
@[simp] theorem State.appended_payLen (s : State) (bits : List Bool) : (s.appended bits).payLen = s.payLen := rfl
@[simp] theorem State.appended_pay (s : State) (bits : List Bool) : (s.appended bits).pay = s.pay := rfl
@[simp] theorem State.appended_phase (s : State) (bits : List Bool) : (s.appended bits).phase = s.phase := rfl
@[simp] theorem State.appended_fault (s : State) (bits : List Bool) : (s.appended bits).fault = s.fault := rfl
@[simp] theorem State.appended_version (s : State) (bits : List Bool) : (s.appended bits).version = s.version := rfl
@[simp] theorem State.appended_capBits (s : State) (bits : List Bool) : (s.appended bits).capBits = s.capBits := rfl
@[simp] theorem State.appended_bb (s : State) (bits : List Bool) : (s.appended bits).bb = s.bb ++ bits := rfl

@[simp] theorem State.appended_bbLen (s : State) (bits : List Bool) :
    (s.appended bits).bbLen = s.bbLen + bits.length := List.length_append

@[simp] theorem State.appended_appended (s : State) (xs ys : List Bool) :
    (s.appended xs).appended ys = s.appended (xs ++ ys) := by
  simp [State.appended]

/-- A stage that appends bits leaves `State.appended`. -/
theorem Stage.exec_appended (hst : Stage i f) (hf : s.fault = false)
    (h : f s = .ok { s with bb := s.bb ++ bits }) : exec i s = .next (s.appended bits) :=
  hst.exec_of_ok hf h

/-! ## One value -/

/-- A stage that appends a value completes with as many bits as its width, which spell the value. -/
theorem Stage.exec_appends_value (hst : Stage i f) (hf : s.fault = false) (hv : v < 2 ^ w)
    (h : f s = .ok { s with bb := s.bb ++ bitsOf v w }) : ∃ bits,
      exec i s = .next { s with bb := s.bb ++ bits, resp := some ⟨true, 0⟩ } ∧
      bits.length = w ∧ numOf bits = v :=
  ⟨bitsOf v w, hst.exec_appended hf h, bitsOf_length v w, numOf_bitsOf hv⟩

/-- `PUSHB` of a width or a value out of range (42_bitstream.md R160). -/
theorem State.pushBits_of_range {val : BitVec 16} {width : BitVec 5} (hp : s.phase = .packing)
    (h : 16 < width.toNat ∨ 2 ^ width.toNat ≤ val.toNat) : s.pushBits val width = .error .range := by
  rw [State.pushBits, State.inPhase_eq hp]
  by_cases hwidth : 16 < width.toNat
  · rw [if_pos hwidth]
  · rw [if_neg hwidth, if_pos (h.resolve_left hwidth)]

/-- `PUSHB` of operands in range appends or overflows (42_bitstream.md R160, R161). -/
theorem State.pushBits_eq_append {val : BitVec 16} {width : BitVec 5} (hp : s.phase = .packing)
    (hwidth : width.toNat ≤ 16) (hval : val.toNat < 2 ^ width.toNat) :
    s.pushBits val width = s.append val.toNat width.toNat := by
  rw [State.pushBits, State.inPhase_eq hp, if_neg (Nat.not_lt.mpr hwidth), if_neg (Nat.not_le.mpr hval)]

/-- Settles O33: the checks of the phase, of the operands and of the room, in that order. -/
theorem pushbAppendsBits : Obligations.PushbAppendsBits := by
  unfold Obligations.PushbAppendsBits
  intro s val width hf
  have hst := Stage.pushb val width
  refine ⟨fun hp hwidth hval hroom => hst.exec_appends_value hf hval ?_,
    fun hp => hst.exec_of_error hf (State.inPhase_ne hp _),
    fun hp hrange => hst.exec_of_error hf (State.pushBits_of_range hp hrange),
    fun hp hwidth hval hroom => hst.exec_of_error hf ?_⟩
  · exact (State.pushBits_eq_append hp hwidth hval).trans (State.append_of_room _ hroom)
  · exact (State.pushBits_eq_append hp hwidth hval).trans (State.append_of_no_room _ hroom)

/-- `PKCNT` of a count that does not fit its width (42_bitstream.md R164). -/
theorem State.packCount_of_count (hp : s.phase = .packing)
    (h : 2 ^ cntWidth s.cfg.mode s.version ≤ s.payLen.toNat) : s.packCount = .error .count := by
  rw [State.packCount, State.inPhase_eq hp]
  exact if_pos h

/-- `PKCNT` of a count that fits appends or overflows (42_bitstream.md R164, R161). -/
theorem State.packCount_eq_append (hp : s.phase = .packing)
    (h : s.payLen.toNat < 2 ^ cntWidth s.cfg.mode s.version) :
    s.packCount = s.append s.payLen.toNat (cntWidth s.cfg.mode s.version) := by
  rw [State.packCount, State.inPhase_eq hp]
  exact if_neg (Nat.not_le.mpr h)

/-- The four mode indicators are powers of two in four bits (11_rom_tables.md R66). -/
theorem modeIndicator_lt (mode : Mode) : modeIndicator mode < 2 ^ 4 := by cases mode <;> decide

/-- The widths of the unit count by mode and version class (11_rom_tables.md R67). -/
theorem cntWidth_eq (mode : Mode) (version : Nat) : cntWidth mode version = match mode with
    | .numeric => if version ≤ 9 then 10 else if version ≤ 26 then 12 else 14
    | .alphanumeric => if version ≤ 9 then 9 else if version ≤ 26 then 11 else 13
    | .byte => if version ≤ 9 then 8 else 16
    | .kanji => if version ≤ 9 then 8 else if version ≤ 26 then 10 else 12 := by
  unfold cntWidth versionClass
  cases mode <;> split_ifs <;> rfl

/-- Settles O34: the tables of indicators and widths, and the checks of `PKMODE` and `PKCNT` in order. -/
theorem headerBits : Obligations.HeaderBits := by
  unfold Obligations.HeaderBits
  intro s hf indicator width
  have hindicator : modeIndicator s.cfg.mode = indicator := by
    simp only [indicator]
    cases s.cfg.mode <;> rfl
  have hmode : s.phase = .packing → s.packMode = s.append indicator 4 := fun hp => by
    rw [State.packMode, State.inPhase_eq hp, hindicator]
  refine ⟨?width, fun hp hroom => ?mode, fun hp hcount hroom => ?count, fun hp => ⟨?modeSeq, ?countSeq⟩,
    fun hp hroom => ?modeOvf, fun hp hcount => ?countCount, fun hp hcount hroom => ?countOvf⟩
  case width =>
    refine (cntWidth_eq s.cfg.mode s.version).trans ?_
    cases s.cfg.mode <;> rfl
  case mode =>
    exact Stage.pkmode.exec_appends_value hf (hindicator ▸ modeIndicator_lt _)
      ((hmode hp).trans (State.append_of_room _ hroom))
  case count =>
    exact Stage.pkcnt.exec_appends_value hf hcount
      ((State.packCount_eq_append hp hcount).trans (State.append_of_room _ hroom))
  case modeSeq => exact Stage.pkmode.exec_of_error hf (State.inPhase_ne hp _)
  case countSeq => exact Stage.pkcnt.exec_of_error hf (State.inPhase_ne hp _)
  case modeOvf => exact Stage.pkmode.exec_of_error hf ((hmode hp).trans (State.append_of_no_room _ hroom))
  case countCount => exact Stage.pkcnt.exec_of_error hf (State.packCount_of_count hp hcount)
  case countOvf =>
    exact Stage.pkcnt.exec_of_error hf
      ((State.packCount_eq_append hp hcount).trans (State.append_of_no_room _ hroom))

end Sys2Proof.Machine
end

section
/-! The groups of a payload in closed form (42_bitstream.md R166 to R169; 11_rom_tables.md R68, R74). -/

namespace Sys2Proof.Machine

variable {mode : Mode} {us : List PayUnit}

/-! ## Alphanumeric codes -/

/-- The characters with a code below 45 are those of the table (11_rom_tables.md R68). -/
theorem alnumCode_lt_iff {u : Nat} : alnumCode u < 45 ↔ u ∈ alnumSet := List.idxOf_lt_length_iff

theorem lt_of_mem_alnumSet {u : Nat} (h : u ∈ alnumSet) : u < 2 ^ 16 := by
  have hall : ∀ x ∈ alnumSet, x < 2 ^ 16 := by decide
  exact hall u h

theorem validUnit_alphanumeric {u : PayUnit} : validUnit .alphanumeric u = true ↔ alnumCode u.toNat < 45 := by
  rw [alnumCode_lt_iff, validUnit, List.contains_iff_mem]

theorem alnumCode_lt_iff_validUnit (i : Nat) :
    alnumCode i < 45 ↔ validUnit .alphanumeric (BitVec.ofNat 16 i) = true ∧ i < 2 ^ 16 := by
  rw [validUnit_alphanumeric, BitVec.toNat_ofNat]
  constructor
  · intro h
    have hlt := lt_of_mem_alnumSet (alnumCode_lt_iff.mp h)
    rw [Nat.mod_eq_of_lt hlt]
    exact ⟨h, hlt⟩
  · rintro ⟨h, hlt⟩
    rwa [Nat.mod_eq_of_lt hlt] at h

/-! ## The widths of the groups -/

@[simp] theorem groupWidth_cons (g : Nat × Nat) (gs : List (Nat × Nat)) :
    groupWidth (g :: gs) = g.2 + groupWidth gs := by simp [groupWidth]

theorem payloadBits_numeric_add_three (n : Nat) : payloadBits .numeric (n + 3) = 10 + payloadBits .numeric n := by
  have hdiv : (n + 3) / 3 = n / 3 + 1 := by omega
  rw [payloadBits, payloadBits, Nat.add_mod_right, hdiv]
  omega

theorem groupWidth_numericGroups (us : List PayUnit) :
    groupWidth (numericGroups us) = payloadBits .numeric us.length := by
  induction us using numericGroups.induct with
  | case1 a b c rest ih =>
    rw [numericGroups, groupWidth_cons, ih]
    exact (payloadBits_numeric_add_three rest.length).symm
  | case2 | case3 | case4 => simp [numericGroups, groupWidth, payloadBits]

theorem groupWidth_alnumGroups (us : List PayUnit) :
    groupWidth (alnumGroups us) = payloadBits .alphanumeric us.length := by
  induction us using alnumGroups.induct with
  | case1 a b rest ih =>
    rw [alnumGroups, groupWidth_cons, ih]
    simp only [payloadBits, List.length_cons]
    omega
  | case2 | case3 => simp [alnumGroups, groupWidth, payloadBits]

/-- The groups of `n` units take `payload_bits(mode, n)` bits (11_rom_tables.md R74). -/
theorem groupWidth_groupsOf (mode : Mode) (us : List PayUnit) :
    groupWidth (groupsOf mode us) = payloadBits mode us.length := by
  cases mode with
  | numeric => exact groupWidth_numericGroups us
  | alphanumeric => exact groupWidth_alnumGroups us
  | byte | kanji => simp [groupWidth, groupsOf, payloadBits, Function.comp_def, Nat.mul_comm]

/-! ## The values of the groups -/

theorem digitValue_le {u : PayUnit} (h : validUnit .numeric u = true) : digitValue u ≤ 9 := by
  simp only [validUnit, Bool.and_eq_true, decide_eq_true_eq] at h
  rw [digitValue]
  omega

theorem kanjiValue_eq (u : PayUnit) : kanjiValue u =
    let d := if u.toNat ≤ 0x9FFC then u.toNat - 0x8140 else u.toNat - 0xC140
    d / 2 ^ 8 * 0xC0 + d % 2 ^ 8 := by
  simp only [kanjiValue, Nat.shiftRight_eq_div_pow, ← Nat.and_two_pow_sub_one_eq_mod]

/-- The double-byte codes reduce to thirteen bits (42_bitstream.md R169). -/
theorem kanjiValue_lt {u : PayUnit} (h : validUnit .kanji u = true) : kanjiValue u < 2 ^ 13 := by
  simp only [validUnit, Bool.or_eq_true, Bool.and_eq_true, decide_eq_true_eq] at h
  simp only [kanjiValue_eq]
  split <;> omega

/-- The value of a group fits its width, and no group is wider than 13 bits (42_bitstream.md R166 to R169). -/
def GroupFits (g : Nat × Nat) : Prop := g.1 < 2 ^ g.2 ∧ g.2 ≤ 13

theorem numericGroups_fit (h : ∀ u ∈ us, validUnit .numeric u = true) : ∀ g ∈ numericGroups us, GroupFits g := by
  induction us using numericGroups.induct with
  | case1 a b c rest ih =>
    simp only [List.forall_mem_cons] at h
    obtain ⟨ha, hb, hc, hrest⟩ := h
    have := digitValue_le ha
    have := digitValue_le hb
    have := digitValue_le hc
    simp only [numericGroups, List.forall_mem_cons, GroupFits]
    exact ⟨by omega, ih hrest⟩
  | case2 a b =>
    simp only [List.forall_mem_cons] at h
    obtain ⟨ha, hb, -⟩ := h
    have := digitValue_le ha
    have := digitValue_le hb
    simp only [numericGroups, List.forall_mem_singleton, GroupFits]
    omega
  | case3 a =>
    have := digitValue_le (h a List.mem_cons_self)
    simp only [numericGroups, List.forall_mem_singleton, GroupFits]
    omega
  | case4 => exact nofun

theorem alnumGroups_fit (h : ∀ u ∈ us, validUnit .alphanumeric u = true) : ∀ g ∈ alnumGroups us, GroupFits g := by
  induction us using alnumGroups.induct with
  | case1 a b rest ih =>
    simp only [List.forall_mem_cons, validUnit_alphanumeric] at h ih
    obtain ⟨ha, hb, hrest⟩ := h
    simp only [alnumGroups, List.forall_mem_cons, GroupFits]
    exact ⟨by omega, ih hrest⟩
  | case2 a =>
    have := validUnit_alphanumeric.mp (h a List.mem_cons_self)
    simp only [alnumGroups, List.forall_mem_singleton, GroupFits]
    omega
  | case3 => exact nofun

/-- Valid units give groups that fit their widths. -/
theorem groupsOf_fit (h : ∀ u ∈ us, validUnit mode u = true) : ∀ g ∈ groupsOf mode us, GroupFits g := by
  cases mode with
  | numeric => exact numericGroups_fit h
  | alphanumeric => exact alnumGroups_fit h
  | byte =>
    refine List.forall_mem_map.mpr fun u hu => ?_
    have hbyte := h u hu
    simp only [validUnit, decide_eq_true_eq] at hbyte
    exact ⟨Nat.lt_succ_of_le hbyte, (by decide : 8 ≤ 13)⟩
  | kanji => exact List.forall_mem_map.mpr fun u hu => ⟨kanjiValue_lt (h u hu), le_rfl⟩

/-! ## The groups by their places -/

theorem numericGroups_length (us : List PayUnit) : (numericGroups us).length = (us.length + 2) / 3 := by
  induction us using numericGroups.induct with
  | case1 a b c rest ih => simp only [numericGroups, List.length_cons, ih]; omega
  | case2 | case3 | case4 => simp [numericGroups]

/-- Group `k` of a numeric payload is spelled by three digits (42_bitstream.md R166). -/
theorem numericGroups_getElem? {k : Nat} (hk : k < us.length / 3) : (numericGroups us)[k]? =
    some (100 * digitValue (us.getD (3 * k) 0) + 10 * digitValue (us.getD (3 * k + 1) 0) +
      digitValue (us.getD (3 * k + 2) 0), 10) := by
  induction us using numericGroups.induct generalizing k with
  | case1 a b c rest ih =>
    cases k with
    | zero => rfl
    | succ k => exact ih (by simp only [List.length_cons] at hk; omega)
  | case2 | case3 | case4 => simp at hk

/-- A final pair of digits (42_bitstream.md R166). -/
theorem numericGroups_last_pair {k : Nat} (h : us.length = 3 * k + 2) : (numericGroups us)[k]? =
    some (10 * digitValue (us.getD (3 * k) 0) + digitValue (us.getD (3 * k + 1) 0), 7) := by
  induction us using numericGroups.induct generalizing k with
  | case1 a b c rest ih =>
    simp only [List.length_cons] at h
    cases k with
    | zero => omega
    | succ k => exact ih (by omega)
  | case2 a b =>
    obtain rfl : k = 0 := by simpa using h
    rfl
  | case3 | case4 => simp at h

/-- A final digit (42_bitstream.md R166). -/
theorem numericGroups_last_digit {k : Nat} (h : us.length = 3 * k + 1) :
    (numericGroups us)[k]? = some (digitValue (us.getD (3 * k) 0), 4) := by
  induction us using numericGroups.induct generalizing k with
  | case1 a b c rest ih =>
    simp only [List.length_cons] at h
    cases k with
    | zero => omega
    | succ k => exact ih (by omega)
  | case3 a =>
    obtain rfl : k = 0 := by simpa using h
    rfl
  | case2 | case4 => simp at h

theorem alnumGroups_length (us : List PayUnit) : (alnumGroups us).length = (us.length + 1) / 2 := by
  induction us using alnumGroups.induct with
  | case1 a b rest ih => simp only [alnumGroups, List.length_cons, ih]; omega
  | case2 | case3 => simp [alnumGroups]

/-- Group `k` of an alphanumeric payload is spelled by two characters (42_bitstream.md R167). -/
theorem alnumGroups_getElem? {k : Nat} (hk : k < us.length / 2) : (alnumGroups us)[k]? =
    some (45 * alnumCode (us.getD (2 * k) 0).toNat + alnumCode (us.getD (2 * k + 1) 0).toNat, 11) := by
  induction us using alnumGroups.induct generalizing k with
  | case1 a b rest ih =>
    cases k with
    | zero => rfl
    | succ k => exact ih (by simp only [List.length_cons] at hk; omega)
  | case2 | case3 => simp at hk

/-- A final character (42_bitstream.md R167). -/
theorem alnumGroups_last {k : Nat} (h : us.length = 2 * k + 1) :
    (alnumGroups us)[k]? = some (alnumCode (us.getD (2 * k) 0).toNat, 6) := by
  induction us using alnumGroups.induct generalizing k with
  | case1 a b rest ih =>
    simp only [List.length_cons] at h
    cases k with
    | zero => omega
    | succ k => exact ih (by omega)
  | case2 a =>
    obtain rfl : k = 0 := by simpa using h
    rfl
  | case3 => simp at h

/-- Settles O36: widths, values and places of the groups, each by the recursion of its mode. -/
theorem payloadGroups : Obligations.PayloadGroups := by
  unfold Obligations.PayloadGroups
  intro us n digit code
  refine ⟨fun mode h => ⟨groupWidth_groupsOf mode us, groupsOf_fit h⟩,
    ⟨fun k hk => numericGroups_getElem? hk, fun h => ?pair, fun h => ?digit, numericGroups_length us⟩,
    ⟨fun k hk => alnumGroups_getElem? hk, fun h => ?character, alnumGroups_length us⟩, rfl,
    List.map_congr_left fun u _ => congrArg (·, 13) (kanjiValue_eq u), alnumCode_lt_iff_validUnit⟩
  case pair =>
    rw [show n - 2 = 3 * (n / 3) by omega, show n - 1 = 3 * (n / 3) + 1 by omega]
    exact numericGroups_last_pair (show n = _ by omega)
  case digit =>
    rw [show n - 1 = 3 * (n / 3) by omega]
    exact numericGroups_last_digit (show n = _ by omega)
  case character =>
    rw [show n - 1 = 2 * (n / 2) by omega]
    exact alnumGroups_last (show n = _ by omega)

end Sys2Proof.Machine
end

section
/-! `PKDATA` (42_bitstream.md R165): the payload read in order, and its first failing index. -/

namespace Sys2Proof.Machine

variable {s : State} {mode : Mode} {pay : Memory} {is js : List Nat} {c : Cause}

/-! ## Reading the payload -/

/-- The entry of an index is written and valid (10_state.md R30, R36). -/
def UnitOk (mode : Mode) (pay : Memory) (i : Nat) : Prop := ∃ u, pay.read i = some u ∧ validUnit mode u = true

/-- Indices that pass leave the answer to those after them (42_bitstream.md R165 step 2). -/
theorem readUnits_append_error (h : ∀ i ∈ is, UnitOk mode pay i) (hjs : readUnits mode pay js = .error c) :
    readUnits mode pay (is ++ js) = .error c := by
  induction is with
  | nil => exact hjs
  | cons i is ih =>
    obtain ⟨⟨u, hu, hv⟩, his⟩ := List.forall_mem_cons.mp h
    simp [readUnits, hu, hv, ih his]

theorem readUnits_cons_unwritten {i : Nat} (h : pay.read i = none) :
    readUnits mode pay (i :: is) = .error .uninit := by
  rw [readUnits, h]

theorem readUnits_cons_invalid {i : Nat} {u : PayUnit} (h : pay.read i = some u) (hv : validUnit mode u = false) :
    readUnits mode pay (i :: is) = .error .unit := by
  rw [readUnits, h]
  simp [hv]

/-- The answer of the lowest index that fails is the payload's (42_bitstream.md R165 step 2). -/
theorem readUnits_range_error {n k : Nat} (hk : k < n) (h : ∀ i < k, UnitOk mode pay i)
    (hfail : ∀ is, readUnits mode pay (k :: is) = .error c) : readUnits mode pay (List.range n) = .error c := by
  obtain ⟨m, rfl⟩ : ∃ m, n = k + (m + 1) := ⟨n - k - 1, by omega⟩
  rw [List.range_add, List.range_succ_eq_map]
  exact readUnits_append_error (fun i hi => h i (List.mem_range.mp hi)) (hfail _)

/-- A payload that is written and valid is read whole (42_bitstream.md R165). -/
theorem State.payloadOk.readUnits_eq (h : s.payloadOk) :
    readUnits s.cfg.mode s.pay (List.range s.payLen.toNat) = .ok s.payloadUnits := by
  refine readUnits_eq_ok ?_ ?_
  · rw [State.payloadUnits, List.map_map]
    refine List.map_congr_left fun i hi => ?_
    obtain ⟨u, hu, -⟩ := h i (List.mem_range.mp hi)
    simp [hu]
  · refine List.forall_mem_map.mpr fun i hi => ?_
    obtain ⟨u, hu, hv⟩ := h i (List.mem_range.mp hi)
    simpa [hu] using hv

@[simp] theorem State.payloadUnits_length (s : State) : s.payloadUnits.length = s.payLen.toNat := by
  simp [State.payloadUnits]

/-! ## The command -/

/-- The groups of a payload take `payload_bits` bits (42_bitstream.md R165; 11_rom_tables.md R74). -/
theorem State.groupWidth_payload (s : State) :
    groupWidth (groupsOf s.cfg.mode s.payloadUnits) = payloadBits s.cfg.mode s.payLen.toNat := by
  rw [groupWidth_groupsOf, State.payloadUnits_length]

theorem State.packData_of_room (hp : s.phase = .packing) (h : s.payloadOk)
    (hroom : s.bbLen + payloadBits s.cfg.mode s.payLen.toNat ≤ s.capBits) :
    s.packData = .ok { s with bb := s.bb ++ groupBits (groupsOf s.cfg.mode s.payloadUnits) } :=
  State.packData_ok.mpr ⟨hp, _, h.readUnits_eq, by rwa [s.groupWidth_payload], rfl⟩

theorem State.packData_of_no_room (hp : s.phase = .packing) (h : s.payloadOk)
    (hroom : s.capBits < s.bbLen + payloadBits s.cfg.mode s.payLen.toNat) : s.packData = .error .ovf := by
  rw [State.packData, State.inPhase_eq hp, h.readUnits_eq]
  exact if_pos (by rwa [s.groupWidth_payload])

theorem State.packData_of_readUnits (hp : s.phase = .packing)
    (h : readUnits s.cfg.mode s.pay (List.range s.payLen.toNat) = .error c) : s.packData = .error c := by
  rw [State.packData, State.inPhase_eq hp, h]

/-- Settles O35: the payload is read up to its lowest failing index, then the room is checked. -/
theorem pkdataAppendsPayload : Obligations.PkdataAppendsPayload := by
  unfold Obligations.PkdataAppendsPayload
  intro s hf
  refine ⟨fun hp hpay hroom => ⟨_, Stage.pkdata.exec_appended hf (State.packData_of_room hp hpay hroom), rfl, ?_⟩,
    fun hp hpay hroom => Stage.pkdata.exec_of_error hf (State.packData_of_no_room hp hpay hroom),
    fun k hk hp hbefore => ⟨fun hu => ?_, fun u hu hv => ?_⟩,
    fun hp => Stage.pkdata.exec_of_error hf (State.inPhase_ne hp _)⟩
  · rw [groupBits_length, s.groupWidth_payload]
  · exact Stage.pkdata.exec_of_error hf (State.packData_of_readUnits hp
      (readUnits_range_error hk hbefore fun _ => readUnits_cons_unwritten hu))
  · exact Stage.pkdata.exec_of_error hf (State.packData_of_readUnits hp
      (readUnits_range_error hk hbefore fun _ => readUnits_cons_invalid hu hv))

end Sys2Proof.Machine
end

section
/-! Terminator, alignment and pad bytes (42_bitstream.md R170 to R173): each command that pads appends bits to any
packing state whose buffer fits. -/

namespace Sys2Proof.Machine

variable {s : State}

/-! ## The three commands -/

/-- `PKTERM` (42_bitstream.md R170). -/
theorem exec_pkterm (hf : s.fault = false) (hp : s.phase = .packing) (hfit : s.bbLen ≤ s.capBits) :
    exec .pkterm s = .next (s.appended (List.replicate (min 4 (s.capBits - s.bbLen)) false)) :=
  Stage.pkterm.exec_appended hf (State.packTerminator_ok.mpr ⟨hp, by omega, by rw [bitsOf_zero]⟩)

/-- `PKALIGN`: the capacity is a multiple of 8, so there is room up to the next one (42_bitstream.md R171). -/
theorem exec_pkalign (hf : s.fault = false) (hp : s.phase = .packing) (hfit : s.bbLen ≤ s.capBits) :
    exec .pkalign s = .next (s.appended (List.replicate ((8 - s.bbLen % 8) % 8) false)) := by
  have hcap := s.capBits_mod
  exact Stage.pkalign.exec_appended hf (State.packAlign_ok.mpr ⟨hp, by omega, by rw [bitsOf_zero]⟩)

/-- `PKPAD` of an aligned buffer (42_bitstream.md R172). -/
theorem exec_pkpad (hf : s.fault = false) (hp : s.phase = .packing) (halign : s.bbLen % 8 = 0) :
    exec .pkpad s = .next (s.appended (padBits ((s.capBits - s.bbLen) / 8))) :=
  Stage.pkpad.exec_appended hf (State.packPad_ok.mpr ⟨hp, halign, rfl⟩)

/-! ## The pad codewords -/

/-- Whole codewords followed by bits (20_memory.md R94). -/
theorem codewordsOf_append {xs : List Bool} (h : xs.length % 8 = 0) (ys : List Bool) :
    codewordsOf (xs ++ ys) = codewordsOf xs ++ codewordsOf ys := by
  induction xs using codewordsOf.induct with
  | case1 b0 b1 b2 b3 b4 b5 b6 b7 rest ih =>
    have hrest : rest.length % 8 = 0 := by simpa [Nat.add_assoc] using h
    simp only [List.cons_append, codewordsOf, ih hrest]
  | case2 bits hshort =>
    have hnil : bits = [] := by
      have hnone : (codewordsOf bits).length = 0 := by rw [codewordsOf]; exacts [rfl, hshort]
      rw [codewordsOf_length] at hnone
      exact List.length_eq_zero_iff.mp (by omega)
    subst hnil
    rfl

/-- The codewords of the pad bits are the pad bytes in turn (42_bitstream.md R172). -/
theorem codewordsOf_padBits (n : Nat) :
    codewordsOf (padBits n) = (List.range n).map fun k => if k % 2 = 0 then 0xEC else 0x11 := by
  induction n with
  | zero => rfl
  | succ n ih =>
    have hsucc : padBits (n + 1) = padBits n ++ bitsOf (if n % 2 = 0 then Config.padEven else Config.padOdd) 8 := by
      simp [padBits, List.range_succ]
    have hbyte : codewordsOf (bitsOf (if n % 2 = 0 then Config.padEven else Config.padOdd) 8) =
        [if n % 2 = 0 then 0xEC else 0x11] := by split <;> decide
    rw [hsucc, codewordsOf_append (by simp), ih, hbyte, List.range_succ, List.map_append]
    rfl

/-- Settles O37: each command as `State.appended`, its bits counted against the room. -/
theorem terminatorAlignmentPads : Obligations.TerminatorAlignmentPads := by
  unfold Obligations.TerminatorAlignmentPads
  intro s hf
  have hcap := s.capBits_mod
  refine ⟨exec_pkterm hf, fun hp hfit => ⟨(8 - s.bbLen % 8) % 8, by omega, exec_pkalign hf hp hfit, by omega⟩,
    fun hp hfit halign => ⟨_, exec_pkpad hf hp halign, ?length, ?codewords⟩,
    fun hp halign => Stage.pkpad.exec_of_error hf ?len, fun hp => ⟨?term, ?align, ?pad⟩⟩
  case length =>
    rw [padBits_length]
    omega
  case codewords => rw [codewordsOf_padBits, padBits_length, Nat.mul_div_cancel_left _ (by decide)]
  case len => rw [State.packPad, State.inPhase_eq hp, if_pos halign]
  case term => exact Stage.pkterm.exec_of_error hf (State.inPhase_ne hp _)
  case align => exact Stage.pkalign.exec_of_error hf (State.inPhase_ne hp _)
  case pad => exact Stage.pkpad.exec_of_error hf (State.inPhase_ne hp _)

end Sys2Proof.Machine
end

section
/-! Sequences of packer commands (42_bitstream.md R173, R174): what `PACK` and its parts leave, and that a sequence
without a fault is one in which every stage completed. -/

namespace Sys2Proof.Machine

variable {s : State} {i : Instr} {is : List Instr} {f : State → Except Cause State} {us : List PayUnit} {v : Nat}

/-! ## Faults in a sequence -/

/-- Only `RESET` leaves the fault state (60_exceptions.md R313, R316). -/
theorem State.after_fault (hf : s.fault = true) (hreset : .reset ∉ is) : (s.after is).fault = true := by
  induction is generalizing s with
  | nil => exact hf
  | cons i is ih =>
    rw [List.mem_cons, not_or] at hreset
    obtain ⟨t, ht, hend⟩ := exec_ends i s
    rw [State.after_cons, State.after_of_exec ht]
    refine ih ?_ hreset.2
    cases hend with
    | ignored hf => exact hf
    | raised => rfl
    | completed hclear => rw [hf] at hclear; cases hclear
    | rdreg => exact hf
    | reset => exact absurd rfl hreset.1

/-- In a sequence without a fault the first stage completes. -/
theorem Stage.ok_of_after (hst : Stage i f) (hf : s.fault = false) (hreset : .reset ∉ is)
    (h : (s.after (i :: is)).fault = false) :
    ∃ t, f s = .ok t ∧ s.after (i :: is) = (t.respond 0).after is := by
  cases hr : f s with
  | error c =>
    rw [State.after_cons, State.after_of_exec (hst.exec_of_error hf hr), State.after_fault rfl hreset] at h
    cases h
  | ok t => exact ⟨t, rfl, by rw [State.after_cons, State.after_of_exec (hst.exec_of_ok hf hr)]⟩

/-! ## Header and payload -/

/-- The mode indicator (42_bitstream.md R163). -/
def State.modeBits (s : State) : List Bool := bitsOf (modeIndicator s.cfg.mode) 4

/-- The unit count (42_bitstream.md R164). -/
def State.countBits (s : State) : List Bool := bitsOf s.payLen.toNat (cntWidth s.cfg.mode s.version)

/-- The groups of a payload (42_bitstream.md R165). -/
def State.unitBits (s : State) (us : List PayUnit) : List Bool := groupBits (groupsOf s.cfg.mode us)

/-- The number of bits of header and payload (11_rom_tables.md R74). -/
def State.dataWidth (s : State) : Nat :=
  4 + cntWidth s.cfg.mode s.version + payloadBits s.cfg.mode s.payLen.toNat

@[simp] theorem State.modeBits_length (s : State) : s.modeBits.length = 4 := bitsOf_length _ _

@[simp] theorem State.countBits_length (s : State) : s.countBits.length = cntWidth s.cfg.mode s.version :=
  bitsOf_length _ _

@[simp] theorem State.unitBits_length (s : State) (us : List PayUnit) :
    (s.unitBits us).length = payloadBits s.cfg.mode us.length := by
  rw [State.unitBits, groupBits_length, groupWidth_groupsOf]

/-- Header and payload in order (42_bitstream.md R174). -/
def State.dataBits (s : State) (us : List PayUnit) : List Bool := s.modeBits ++ s.countBits ++ s.unitBits us

theorem State.dataBits_length (h : us.length = s.payLen.toNat) : (s.dataBits us).length = s.dataWidth := by
  rw [State.dataBits, List.length_append, List.length_append, State.modeBits_length, State.countBits_length,
    State.unitBits_length, h, State.dataWidth]

theorem readUnits_length {mode : Mode} {pay : Memory} {js : List Nat} (h : readUnits mode pay js = .ok us) :
    us.length = js.length := by
  simpa using (congrArg List.length (readUnits_of_ok h).1).symm

/-- Header and payload of a payload that fits (42_bitstream.md R174). -/
theorem State.after_data_of_fits (hf : s.fault = false) (hp : s.phase = .packing) (hpay : s.payloadOk)
    (hcount : s.payLen.toNat < 2 ^ cntWidth s.cfg.mode s.version) (hroom : s.bbLen + s.dataWidth ≤ s.capBits) :
    s.after [.pkmode, .pkcnt, .pkdata] = s.appended (s.dataBits s.payloadUnits) := by
  rw [State.dataWidth] at hroom
  have hmode : exec .pkmode s = .next (s.appended s.modeBits) :=
    Stage.pkmode.exec_appended hf (State.packMode_ok.mpr ⟨hp, by omega, rfl⟩)
  have hcnt : exec .pkcnt (s.appended s.modeBits) = .next ((s.appended s.modeBits).appended s.countBits) := by
    refine Stage.pkcnt.exec_appended hf (State.packCount_ok.mpr ⟨hp, Nat.not_le.mpr hcount, ?_, rfl⟩)
    simp only [State.appended_bbLen, State.modeBits_length, State.appended_cfg, State.appended_version,
      State.appended_capBits]
    omega
  have hdata : exec .pkdata ((s.appended s.modeBits).appended s.countBits) =
      .next (((s.appended s.modeBits).appended s.countBits).appended (s.unitBits s.payloadUnits)) := by
    refine Stage.pkdata.exec_appended hf (State.packData_of_room hp hpay ?_)
    simp only [State.appended_bbLen, State.modeBits_length, State.countBits_length, State.appended_cfg,
      State.appended_payLen, State.appended_capBits]
    omega
  rw [State.after_cons, State.after_of_exec hmode, State.after_cons _ .pkcnt, State.after_of_exec hcnt,
    State.after_of_exec hdata, State.appended_appended, State.appended_appended, ← List.append_assoc,
    State.dataBits]

/-- Header and payload without a fault: the count fits, there is room, and as many units as it counts are packed
(42_bitstream.md R174). -/
theorem State.fits_of_after_data (hf : s.fault = false) (hreset : .reset ∉ is)
    (h : (s.after (.pkmode :: .pkcnt :: .pkdata :: is)).fault = false) :
    s.payLen.toNat < 2 ^ cntWidth s.cfg.mode s.version ∧ s.bbLen + s.dataWidth ≤ s.capBits ∧
      ∃ us, us.length = s.payLen.toNat ∧
        s.after (.pkmode :: .pkcnt :: .pkdata :: is) = (s.appended (s.dataBits us)).after is := by
  obtain ⟨_, hmode, hafter₁⟩ := Stage.pkmode.ok_of_after hf (by simpa using hreset) h
  obtain ⟨-, -, rfl⟩ := State.packMode_ok.mp hmode
  obtain ⟨_, hcnt, hafter₂⟩ := Stage.pkcnt.ok_of_after (s := s.appended s.modeBits) hf
    (by simpa using hreset) (hafter₁ ▸ h)
  obtain ⟨-, hcount, -, rfl⟩ := State.packCount_ok.mp hcnt
  obtain ⟨_, hdata, hafter₃⟩ := Stage.pkdata.ok_of_after (s := (s.appended s.modeBits).appended s.countBits) hf
    hreset (hafter₂ ▸ hafter₁ ▸ h)
  obtain ⟨-, us, hus, hroom, rfl⟩ := State.packData_ok.mp hdata
  have hlen : us.length = s.payLen.toNat := by simpa using readUnits_length hus
  refine ⟨Nat.not_le.mp hcount, ?_, us, hlen, (hafter₁.trans hafter₂).trans (hafter₃.trans ?_)⟩
  · simp only [State.appended_bbLen, State.modeBits_length, State.countBits_length, State.appended_cfg,
      State.appended_capBits, groupWidth_groupsOf, hlen] at hroom
    rw [State.dataWidth]
    omega
  · rw [State.dataBits, ← State.appended_appended, ← State.appended_appended]
    rfl

/-! ## Padding -/

/-- The zeros `PKTERM` and `PKALIGN` append: the terminator and fewer than 8 more, up to a multiple of 8
(42_bitstream.md R170, R171). -/
theorem State.after_zeros (hf : s.fault = false) (hp : s.phase = .packing) (hfit : s.bbLen ≤ s.capBits) :
    ∃ z, s.after [.pkterm, .pkalign] = s.appended (List.replicate z false) ∧
      min 4 (s.capBits - s.bbLen) ≤ z ∧ z < min 4 (s.capBits - s.bbLen) + 8 ∧ (s.bbLen + z) % 8 = 0 := by
  obtain ⟨w, hw⟩ : ∃ w, w = min 4 (s.capBits - s.bbLen) := ⟨_, rfl⟩
  have hterm := exec_pkterm hf hp hfit
  rw [← hw] at hterm ⊢
  have hlen : (s.appended (List.replicate w false)).bbLen = s.bbLen + w := by simp
  have halign := exec_pkalign (s := s.appended (List.replicate w false)) hf hp (by
    rw [hlen, State.appended_capBits]; omega)
  rw [hlen] at halign
  refine ⟨w + (8 - (s.bbLen + w) % 8) % 8, ?_, by omega, by omega, by omega⟩
  rw [State.after_cons, State.after_of_exec hterm, State.after_of_exec halign, State.appended_appended,
    List.replicate_append_replicate]

/-- `PKTERM`, `PKALIGN` and `PKPAD` fill the buffer (42_bitstream.md R173). -/
theorem State.after_padding (hf : s.fault = false) (hp : s.phase = .packing) (hfit : s.bbLen ≤ s.capBits) :
    ∃ z k, s.after [.pkterm, .pkalign, .pkpad] = s.appended (List.replicate z false ++ padBits k) ∧ z < 12 ∧
      s.bbLen + z + 8 * k = s.capBits := by
  have hcap := s.capBits_mod
  obtain ⟨z, hz, hlo, hhi, halign⟩ := State.after_zeros hf hp hfit
  have hpad := exec_pkpad (s := s.appended (List.replicate z false)) hf hp (by simpa using halign)
  simp only [State.appended_capBits, State.appended_bbLen, List.length_replicate] at hpad
  refine ⟨z, (s.capBits - (s.bbLen + z)) / 8, ?_, by omega, by omega⟩
  rw [show [Instr.pkterm, .pkalign, .pkpad] = [.pkterm, .pkalign] ++ [.pkpad] from rfl, State.after_append, hz,
    State.after_of_exec hpad, State.appended_appended]

/-! ## The most pad bytes -/

/-- The capacities of the symbols: 40-L holds 2956 data codewords, no other version more than 2953
(11_rom_tables.md R72). -/
theorem dataCapacity_le (h : versionLegal v = true) (l : EcLevel) :
    dataCapacity v l ≤ 2956 ∧ (dataCapacity v l ≤ 2953 ∨ v = 40) := by
  have rows : ∀ k < 40, dataCapacity (k + 1) l ≤ 2956 ∧ (dataCapacity (k + 1) l ≤ 2953 ∨ k + 1 = 40) := by
    cases l <;> decide +kernel
  obtain ⟨hlo, hhi⟩ := versionLegal_iff.mp h
  simpa [Nat.sub_add_cancel hlo] using rows (v - 1) (by omega)

/-- The header of version 40 takes at least 16 bits (11_rom_tables.md R67). -/
theorem State.le_dataWidth_of_forty (h : s.version = 40) : 16 ≤ s.dataWidth := by
  have hcnt : 12 ≤ cntWidth s.cfg.mode 40 := by cases s.cfg.mode <;> decide
  rw [State.dataWidth, h]
  omega

/-- The header of an empty payload takes at most 20 bits (11_rom_tables.md R67, R74). -/
theorem State.dataWidth_le_of_empty (h : s.payLen = 0) : s.dataWidth ≤ 20 := by
  have hbits : payloadBits s.cfg.mode s.payLen.toNat = 0 := by rw [h]; cases s.cfg.mode <;> rfl
  have hcnt := cntWidth_le s.cfg.mode s.version
  rw [State.dataWidth, hbits]
  omega

/-- The state a completed `START` leaves (46_control.md R272). -/
def State.started (s : State) : State :=
  { s with bb := [], fin := [], evalid := 0, scores := Vector.replicate 8 0, maskId := 0, phase := .packing,
           resp := some ⟨true, 0⟩ }

/-- A standard run up to `PKALIGN` without a fault: the bits of header and payload, then the zeros of
`State.after_zeros` (42_bitstream.md R173). -/
theorem State.after_aligned (hf : s.fault = false)
    (h : (s.after [.start, .pkmode, .pkcnt, .pkdata, .pkterm, .pkalign]).fault = false) :
    versionLegal s.version = true ∧ s.dataWidth ≤ s.capBits ∧ ∃ z,
      (s.after [.start, .pkmode, .pkcnt, .pkdata, .pkterm, .pkalign]).bbLen = s.dataWidth + z ∧
      min 4 (s.capBits - s.dataWidth) ≤ z ∧ z < min 4 (s.capBits - s.dataWidth) + 8 ∧
      (s.dataWidth + z) % 8 = 0 := by
  obtain ⟨_, hstart, hafter⟩ := Stage.start.ok_of_after hf (by simp) h
  obtain ⟨-, hlegal, rfl⟩ := State.startEncode_ok.mp hstart
  replace hafter : s.after [.start, .pkmode, .pkcnt, .pkdata, .pkterm, .pkalign] =
    s.started.after [.pkmode, .pkcnt, .pkdata, .pkterm, .pkalign] := hafter
  rw [hafter] at h ⊢
  obtain ⟨-, hroom, us, hus, hdata⟩ := State.fits_of_after_data (s := s.started) hf (by simp) h
  replace hroom : s.dataWidth ≤ s.capBits := (Nat.zero_add s.dataWidth).symm.trans_le hroom
  have hlen : (s.started.appended (s.started.dataBits us)).bbLen = s.dataWidth := by
    rw [State.appended_bbLen, State.dataBits_length hus]
    exact Nat.zero_add _
  obtain ⟨z, hz, hzeros⟩ := State.after_zeros (s := s.started.appended (s.started.dataBits us)) hf rfl
    (hlen.trans_le hroom)
  rw [hlen] at hzeros
  refine ⟨hlegal, hroom, z, ?_, hzeros⟩
  rw [hdata, hz, State.appended_bbLen, hlen, List.length_replicate]

/-- Settles O38: what is left after alignment is counted in `State.after_aligned`; only 40-L has room for more than
2953 codewords, and there the header takes three. -/
theorem paddingReachesCapacity : Obligations.PaddingReachesCapacity := by
  unfold Obligations.PaddingReachesCapacity
  refine ⟨fun s hf hp hfit => ?_, fun s hf hp hlen => Stage.ecc.exec_of_error hf ?_, fun s hf _ h => ?_⟩
  · obtain ⟨z, k, hpad, -, hfull⟩ := State.after_padding hf hp hfit
    rw [hpad, State.appended_bbLen]
    refine ⟨hf, ?_⟩
    simp only [List.length_append, List.length_replicate, padBits_length]
    omega
  · rw [State.encodeBlocks, State.inPhase_eq hp]
    exact if_pos hlen
  · obtain ⟨hlegal, hroom, z, hlen, hlo, hhi, halign⟩ := State.after_aligned hf h
    have hcap : s.capBits = 8 * dataCapacity s.version s.cfg.ecLevel := rfl
    rw [hlen]
    refine ⟨?_, fun hv hl hempty => ?_⟩
    · rcases dataCapacity_le hlegal s.cfg.ecLevel with ⟨hmost, hless | hv⟩
      · omega
      · have hheader := State.le_dataWidth_of_forty hv
        omega
    · have hmost : dataCapacity s.version s.cfg.ecLevel = 2956 := by rw [hv, hl]; decide +kernel
      have hheader := State.le_dataWidth_of_forty hv
      have hshort := State.dataWidth_le_of_empty hempty
      omega

/-- `PACK` of a payload that fits (42_bitstream.md R174). -/
theorem State.after_pack_of_fits (hf : s.fault = false) (hp : s.phase = .packing) (hpay : s.payloadOk)
    (hcount : s.payLen.toNat < 2 ^ cntWidth s.cfg.mode s.version) (hroom : s.bbLen + s.dataWidth ≤ s.capBits) :
    ∃ z k, s.after pack =
        s.appended (s.dataBits s.payloadUnits ++ (List.replicate z false ++ padBits k)) ∧ z < 12 ∧
      s.bbLen + s.dataWidth + z + 8 * k = s.capBits := by
  have hlen := State.dataBits_length s.payloadUnits_length
  obtain ⟨z, k, hpad, hz, hfull⟩ := State.after_padding (s := s.appended (s.dataBits s.payloadUnits)) hf hp
    (by rwa [State.appended_bbLen, hlen])
  rw [State.appended_bbLen, hlen, State.appended_capBits] at hfull
  refine ⟨z, k, ?_, hz, hfull⟩
  rw [show pack = [.pkmode, .pkcnt, .pkdata] ++ [.pkterm, .pkalign, .pkpad] from rfl, State.after_append,
    State.after_data_of_fits hf hp hpay hcount hroom, hpad, State.appended_appended]

/-- Settles O39: header and payload are the only part of `PACK` that can fault, and the padding fills the buffer. -/
theorem packFitsExactly : Obligations.PackFitsExactly := by
  unfold Obligations.PackFitsExactly
  intro s hf hp hbb _ hpay
  have hempty : s.bbLen = 0 := by rw [State.bbLen, hbb]; rfl
  have hfits : (s.after pack).fault = false →
      s.payLen.toNat < 2 ^ cntWidth s.cfg.mode s.version ∧ s.bbLen + s.dataWidth ≤ s.capBits := fun h => by
    obtain ⟨hcount, hroom, -⟩ := State.fits_of_after_data (is := [.pkterm, .pkalign, .pkpad]) hf (by simp) h
    exact ⟨hcount, hroom⟩
  refine ⟨⟨fun h => ?_, fun ⟨hcount, hroom⟩ => ?_⟩, fun h => ?_⟩
  · obtain ⟨hcount, hroom⟩ := hfits h
    exact ⟨hcount, by rwa [hempty, Nat.zero_add] at hroom⟩
  · obtain ⟨z, k, hpack, -⟩ := State.after_pack_of_fits hf hp hpay hcount (by rwa [hempty, Nat.zero_add])
    rw [hpack]
    exact hf
  · obtain ⟨hcount, hroom⟩ := hfits h
    obtain ⟨z, k, hpack, hz, hfull⟩ := State.after_pack_of_fits hf hp hpay hcount hroom
    have hlen := State.dataBits_length s.payloadUnits_length
    refine ⟨?_, z, k, ?_, hz⟩
    · rw [hpack]
      simp [hlen, ← hfull, Nat.add_assoc]
    · rw [hpack, State.appended_bb, hbb, List.nil_append, ← List.append_assoc]
      rfl

end Sys2Proof.Machine
end

section
/-! The pipeline property of the reachable states: from CODED on every buffer is a function of the configuration and the
packed bits, and every command that writes a buffer writes that function's value (43_reed_solomon.md R197;
44_matrix.md R224; 45_mask.md R266). -/

namespace Sys2Proof.Machine

variable {s t : State} {i : Instr}

/-! ## States with the pipeline property -/

/-- In IDLE and PACKING the pipeline asks nothing of any buffer. -/
theorem State.Pipeline.of_early (h : s.phase.code ≤ 1) : s.Pipeline :=
  have not_phase {p : Phase} (hp : s.phase = p) : p.code ≤ 1 := hp ▸ h
  { stream := fun _ => by omega
    laid := fun hp => nomatch not_phase hp
    placed := fun hp => by rcases hp with hp | hp <;> nomatch not_phase hp
    scored := fun _ => by omega
    chosen := fun _ => by omega
    masked := fun hp => nomatch not_phase hp
    formatted := fun hp => nomatch not_phase hp
    done := fun hp => nomatch not_phase hp }

theorem State.Pipeline.respond (hs : s.Pipeline) (d : Data) : (s.respond d).Pipeline := { hs with }

theorem State.Pipeline.raise (hs : s.Pipeline) (c : Cause) : (s.raise c).Pipeline := { hs with }

theorem State.Pipeline.wait (hs : s.Pipeline) : s.wait.Pipeline := { hs with }

theorem State.Pipeline.taken (hs : s.Pipeline) : s.taken.Pipeline := { hs with }

theorem State.Pipeline.reported (hs : s.Pipeline) (h : s.Reported t) : t.Pipeline := by
  cases h with
  | ignored => exact { hs with }
  | raise hc => exact hs.raise _
  | respond d => exact hs.respond d

/-! ## Updates that keep the property -/

/-- `MKEVAL` scores the mask it marks and no other (45_mask.md R257). -/
theorem State.Pipeline.evaluateMask (hs : s.Pipeline) (hp : s.phase = .placed) {m : Nat} (hm : m < 8) :
    State.Pipeline { s with scores := s.scores.set m (BitVec.ofNat 32 (score (candidate m s.mx))) hm,
                            evalid := evalidMark s.evalid m } :=
  have hcode : s.phase.code = 4 := by rw [hp]; rfl
  { hs with
    scored := fun h4 k hk => by
      rw [evalidMark_getLsbD _ k.isLt, Bool.or_eq_true, decide_eq_true_iff] at hk
      show (s.scores.set m _ hm)[k.val] = BitVec.ofNat 32 (score (candidate k (placedMatrix s.version s.fin)))
      rw [Vector.getElem_set, hs.placed (.inl hp)]
      split
      · next hmk => rw [hmk]
      · next hmk => exact hs.scored h4 k (hk.resolve_right (Ne.symm hmk))
    chosen := fun h => absurd (show 5 ≤ s.phase.code from h) (by omega) }

/-- From PLACED on the stream and the scores stay as they are while the matrix goes on (45_mask.md R259 to R265). -/
theorem State.Pipeline.advance (hs : s.Pipeline) (h5 : 5 ≤ s.phase.code) {m : Mx} {p : Phase}
    (hmasked : p = .masked → m = maskMatrix s.maskId.toNat (placedMatrix s.version s.fin))
    (hformatted : p = .formatted → m = formattedMatrix s.version s.cfg.ecLevel s.maskId.toNat s.fin)
    (hdone : p = .done → m = finalMatrix s.version s.cfg.ecLevel s.maskId.toNat s.fin) (h6 : 6 ≤ p.code) :
    State.Pipeline { s with mx := m, phase := p } where
  stream _ := hs.stream (by omega)
  laid hp := by
    obtain rfl : p = .laid := hp
    nomatch h6
  placed hp := by
    obtain rfl | rfl : p = .placed ∨ p = .selected := hp <;> nomatch h6
  scored _ := hs.scored (by omega)
  chosen _ := hs.chosen h5
  masked := hmasked
  formatted := hformatted
  done := hdone

/-! ## Commands and steps -/

/-- A completed stage keeps the pipeline property. -/
theorem Completes.pipeline (h : Completes s i t) (hs : s.Pipeline) : t.Pipeline := by
  cases h with
  | start hp hv => exact .of_early (Nat.le_refl 1)
  | release hp => exact .of_early (Nat.zero_le 1)
  | wrregCfg hp val => exact .of_early (by simp [hp, Phase.code])
  | wrregLen hp val => exact { hs with }
  | wrpay hp hi val => exact { hs with }
  | append hi hp hb => exact .of_early (by simp [hp, Phase.code])
  | rsgen hn => exact { hs with }
  | ecc hp hfull =>
    exact { stream := fun _ => rfl, laid := nofun, placed := nofun, scored := nofun, chosen := nofun, masked := nofun
            formatted := nofun, done := nofun }
  | mxfunc hp =>
    have hcode : s.phase.code = 2 := by rw [hp]; rfl
    exact { stream := fun _ => hs.stream (by omega), laid := fun _ => rfl, placed := nofun, scored := nofun
            chosen := nofun, masked := nofun, formatted := nofun, done := nofun }
  | mxdata hp =>
    have hcode : s.phase.code = 3 := by rw [hp]; rfl
    have hmx : placeStream s.mx s.side s.fin = placedMatrix s.version s.fin := by rw [hs.laid hp]; rfl
    exact { stream := fun _ => hs.stream (by omega), laid := nofun, placed := fun _ => hmx
            scored := fun _ m hm => by simp at hm
            chosen := nofun, masked := nofun, formatted := nofun, done := nofun }
  | mkeval hp hm => exact hs.evaluateMask hp hm
  | mksel hp hall =>
    have hcode : s.phase.code = 4 := by rw [hp]; rfl
    exact { stream := fun _ => hs.stream (by omega), laid := nofun, placed := fun _ => hs.placed (.inl hp)
            scored := fun _ => hs.scored (by omega), chosen := fun _ => rfl, masked := nofun
            formatted := nofun, done := nofun }
  | mkapply hp =>
    refine hs.advance (by simp [hp, Phase.code]) (fun _ => ?_) nofun nofun (by decide)
    rw [hs.placed (.inr hp)]
  | mkfmt hp =>
    refine hs.advance (by simp [hp, Phase.code]) nofun (fun _ => ?_) nofun (by decide)
    rw [hs.masked hp]
    rfl
  | mkver hp =>
    refine hs.advance (by simp [hp, Phase.code]) nofun nofun (fun _ => ?_) (by decide)
    rw [hs.formatted hp]
    rfl

/-- Every command keeps the pipeline property. -/
theorem exec_pipeline (hs : s.Pipeline) (h : exec i s = .next t) : t.Pipeline := by
  rcases exec_cases h with hr | ⟨-, rfl⟩ | ⟨-, rfl⟩ | ⟨-, u, hu, rfl⟩
  · exact hs.reported hr
  · exact .of_early (Nat.zero_le 1)
  · refine runThrough_keeps (P := State.Pipeline) (fun _ d hs => hs.respond d) (fun _ c _ hs => hs.raise c)
      runStages_stage (fun f hf s t ht hs => ?_) s hs
    obtain ⟨j, hst⟩ := runStages_stage f hf
    exact (hst.completes ht).pipeline hs
  · exact (hu.pipeline hs).respond 0

/-- Settles O60, by the cases of a step; the pipeline property keeps itself, without the invariant's help. -/
theorem stepKeepsPipeline : Obligations.StepKeepsPipeline := by
  unfold Obligations.StepKeepsPipeline
  intro s t _ hs h
  rcases step_cases h with ⟨-, rfl⟩ | ⟨-, -, rfl⟩ | ⟨-, -, i, -, -, hexec⟩ | ⟨-, -, -, -, -, hill⟩
  · exact hs.wait
  · exact .of_early (Nat.zero_le 1)
  · exact exec_pipeline hs.taken hexec
  · exact hs.taken.reported (State.answer_reported (by simp) hill)

end Sys2Proof.Machine
end

section
/-! Polynomials over GF(256), highest degree first (43_reed_solomon.md R190 to R192, R197): their values by Horner's
rule, the roots of the generator, and the division register beside long division. -/

namespace Sys2Proof.Machine

/-! ## Sums and products of bytes -/

@[simp] theorem gfAdd_zero (a : Byte) : gfAdd a 0 = a := BitVec.xor_zero

@[simp] theorem zero_gfAdd (a : Byte) : gfAdd 0 a = a := BitVec.zero_xor

@[simp] theorem gfAdd_self (a : Byte) : gfAdd a a = 0 := BitVec.xor_self

/-- Sums of sums may be regrouped. -/
theorem gfAdd_gfAdd_comm (a b c d : Byte) : gfAdd (gfAdd a b) (gfAdd c d) = gfAdd (gfAdd a c) (gfAdd b d) := by
  simp only [gfAdd]
  ac_rfl

theorem gfMul_gfAdd (a b c : Byte) : gfMul a (gfAdd b c) = gfAdd (gfMul a b) (gfMul a c) := gfMul_xor a b c

theorem gfAdd_gfMul (a b c : Byte) : gfMul (gfAdd a b) c = gfAdd (gfMul a c) (gfMul b c) := by
  rw [gfMul_comm, gfMul_gfAdd, gfMul_comm c, gfMul_comm c]

theorem gfMul_right_comm (a b c : Byte) : gfMul (gfMul a b) c = gfMul (gfMul a c) b := by
  rw [← gfMul_assoc, gfMul_comm b, gfMul_assoc]

/-! ## Values -/

/-- Horner's rule begun with the value `acc` of the coefficients before. -/
def horner (y acc : Byte) (c : List Byte) : Byte := c.foldl (fun acc x => gfAdd (gfMul acc y) x) acc

theorem polyEval_eq_horner (c : List Byte) (y : Byte) : polyEval c y = horner y 0 c := rfl

@[simp] theorem horner_nil (y acc : Byte) : horner y acc [] = acc := rfl

@[simp] theorem horner_cons (y acc x : Byte) (c : List Byte) :
    horner y acc (x :: c) = horner y (gfAdd (gfMul acc y) x) c := rfl

theorem polyEval_cons (x : Byte) (c : List Byte) (y : Byte) : polyEval (x :: c) y = horner y x c := by
  rw [polyEval_eq_horner, horner_cons, gfMul_zero_left, zero_gfAdd]

/-- One more coefficient multiplies the value by the point. -/
theorem polyEval_append_zero (c : List Byte) (y : Byte) : polyEval (c ++ [0]) y = gfMul (polyEval c y) y := by
  rw [polyEval, List.foldl_append]
  exact gfAdd_zero _

theorem polyEval_zeros (n : Nat) (y : Byte) : polyEval (List.replicate n 0) y = 0 := by
  induction n with
  | zero => rfl
  | succ n ih => rw [List.replicate_succ', polyEval_append_zero, ih, gfMul_zero_left]

/-- The value of a sum is the sum of the values. -/
theorem horner_zipWith_gfAdd (y : Byte) : ∀ {c d : List Byte} (a b : Byte), c.length = d.length →
    horner y (gfAdd a b) (List.zipWith gfAdd c d) = gfAdd (horner y a c) (horner y b d)
  | [], [], _, _, _ => rfl
  | x :: c, z :: d, a, b, h => by
    rw [List.zipWith_cons_cons, horner_cons, horner_cons, horner_cons, gfAdd_gfMul, gfAdd_gfAdd_comm]
    exact horner_zipWith_gfAdd y _ _ (Nat.succ.inj h)

/-- The value of a multiple is the multiple of the value. -/
theorem horner_map_gfMul (y r a : Byte) (c : List Byte) :
    horner y (gfMul a r) (c.map fun x => gfMul x r) = gfMul (horner y a c) r := by
  induction c generalizing a with
  | nil => rfl
  | cons x c ih => rw [List.map_cons, horner_cons, horner_cons, gfMul_right_comm, ← gfAdd_gfMul, ih]

/-! ## The generator polynomial -/

/-- Multiplication by `x + r` multiplies the value at `y` by `y + r` (43_reed_solomon.md R190). -/
theorem polyEval_mulRoot (g : List Byte) (r y : Byte) :
    polyEval (mulRoot g r) y = gfMul (polyEval g y) (gfAdd y r) := by
  have hlen : (g ++ [0]).length = (0 :: g.map fun x => gfMul x r).length := by simp
  have hscaled : polyEval (0 :: g.map fun x => gfMul x r) y = gfMul (polyEval g y) r := by
    have h := horner_map_gfMul y r 0 g
    rwa [gfMul_zero_left, ← polyEval_cons] at h
  calc polyEval (mulRoot g r) y
      = gfAdd (polyEval (g ++ [0]) y) (polyEval (0 :: g.map fun x => gfMul x r) y) :=
        horner_zipWith_gfAdd y 0 0 hlen
    _ = gfMul (polyEval g y) (gfAdd y r) := by rw [polyEval_append_zero, hscaled, gfMul_gfAdd]

/-- The generator of degree `n` vanishes at the first `n` powers of α (43_reed_solomon.md R190). -/
theorem polyEval_rsGenerator {n i : Nat} (hi : i < n) : polyEval (rsGenerator n) (gfExp i) = 0 := by
  induction n with
  | zero => omega
  | succ n ih =>
    rw [rsGenerator, polyEval_mulRoot]
    rcases Nat.lt_succ_iff_lt_or_eq.mp hi with hlt | rfl
    · rw [ih hlt, gfMul_zero_left]
    · rw [gfAdd_self, gfMul_zero_right]

theorem rsGenerator_eq_cons (n : Nat) : rsGenerator n = 1 :: (rsGenerator n).tail :=
  List.eq_cons_of_mem_head? (rsGenerator_head n)

theorem rsGenerator_tail_length (n : Nat) : (rsGenerator n).tail.length = n := by
  rw [List.length_tail, rsGenerator_length, Nat.add_sub_cancel]

/-- Settles O40: the generator is monic by construction, and each factor brings its root. -/
theorem rsgenLoadsGenerator : Obligations.RsgenLoadsGenerator := by
  unfold Obligations.RsgenLoadsGenerator
  intro s n hf
  refine ⟨fun h1 h30 => ⟨rsGenerator n.toNat, ?_, rsGenerator_length _, rsGenerator_head _, fun i hi =>
    polyEval_rsGenerator hi⟩, fun hn => ?_⟩
  · exact (Stage.rsgen n).exec_of_ok hf (State.loadGenerator_ok.mpr ⟨⟨h1, h30⟩, rfl⟩)
  · exact (Stage.rsgen n).exec_of_error hf (if_pos (hn.imp_left Nat.lt_one_iff.mpr))

/-! ## Long division -/

theorem subtractScaled_nil_left (f : Byte) (c : List Byte) : subtractScaled [] f c = c := rfl

@[simp] theorem subtractScaled_length (f : Byte) : ∀ g c : List Byte, (subtractScaled g f c).length = c.length
  | [], _ => rfl
  | _ :: _, [] => rfl
  | _ :: g, _ :: c => congrArg Nat.succ (subtractScaled_length f g c)

/-- A multiple of a polynomial that vanishes at `y` may be subtracted without a change of the value at `y`. -/
theorem horner_subtractScaled {y f : Byte} : ∀ {g c : List Byte} {a b : Byte}, g.length ≤ c.length →
    horner y b g = 0 → horner y (gfAdd a (gfMul b f)) (subtractScaled g f c) = horner y a c
  | [], c, a, b, _, hb => by
    obtain rfl : b = 0 := hb
    rw [gfMul_zero_left, gfAdd_zero, subtractScaled_nil_left]
  | z :: g, x :: c, a, b, hlen, hb => by
    have hsum : gfAdd (gfMul (gfAdd a (gfMul b f)) y) (gfAdd x (gfMul z f)) =
        gfAdd (gfAdd (gfMul a y) x) (gfMul (gfAdd (gfMul b y) z) f) := by
      rw [gfAdd_gfMul, gfAdd_gfMul, gfAdd_gfAdd_comm, gfMul_right_comm]
    rw [subtractScaled, horner_cons, hsum]
    exact horner_subtractScaled (Nat.le_of_succ_le_succ hlen) hb

/-- Long division keeps the value at every root of the divisor (43_reed_solomon.md R197 (b)). -/
theorem polyEval_longDivide {g : List Byte} {y : Byte} (hroot : polyEval (1 :: g) y = 0) {k : Nat} {c : List Byte}
    (hlen : k + g.length ≤ c.length) : polyEval (longDivide g k c) y = polyEval c y := by
  induction k generalizing c with
  | zero => rfl
  | succ k ih =>
    cases c with
    | nil => simp at hlen
    | cons x c =>
      rw [List.length_cons] at hlen
      have hdrop := horner_subtractScaled (f := x) (c := c) (a := x) (by omega) (polyEval_cons 1 g y ▸ hroot)
      rw [gfMul_one_left, gfAdd_self] at hdrop
      rw [longDivide, ih (by rw [subtractScaled_length]; omega), polyEval_cons]
      exact hdrop

/-! ## The division register -/

/-- The sum of a register and `f` times the coefficients of a polynomial. -/
def addScaled (f : Byte) (r g : List Byte) : List Byte := List.zipWith (fun x z => gfAdd x (gfMul z f)) r g

@[simp] theorem addScaled_cons_cons (f x z : Byte) (r g : List Byte) :
    addScaled f (x :: r) (z :: g) = gfAdd x (gfMul z f) :: addScaled f r g := rfl

/-- The register shifts by one place and adds the multiple of the divisor that its feedback tells
(43_reed_solomon.md R192). -/
theorem remStep_eq_addScaled (g rem : List Byte) (d : Byte) :
    remStep g rem d = addScaled (gfAdd d (rem.headD 0)) (rem.tail ++ [0]) g := rfl

/-- Subtracting the register and then a multiple of the divisor is subtracting the register one step later. -/
theorem subtractScaled_subtractScaled (f : Byte) : ∀ {g r c : List Byte}, g.length = r.length + 1 →
    subtractScaled g f (subtractScaled r 1 c) = subtractScaled (addScaled f (r ++ [0]) g) 1 c
  | [_], [], [], _ => rfl
  | [_], [], _ :: _, _ => by
    simp only [subtractScaled, addScaled, List.nil_append, List.zipWith_cons_cons, List.zipWith_nil_left, zero_gfAdd,
      gfMul_one_right]
  | _ :: _ :: _, [], _, h => nomatch h
  | _ :: _, _ :: _, [], _ => rfl
  | z :: g, x :: r, w :: c, h => by
    have hsum : gfAdd (gfAdd w x) (gfMul z f) = gfAdd w (gfAdd x (gfMul z f)) := BitVec.xor_assoc _ _ _
    simp only [subtractScaled, List.cons_append, addScaled_cons_cons, gfMul_one_right, hsum,
      subtractScaled_subtractScaled f (Nat.succ.inj h)]

theorem subtractScaled_one : ∀ {r c : List Byte}, r.length = c.length →
    subtractScaled r 1 c = List.zipWith gfAdd c r
  | [], [], _ => rfl
  | z :: r, x :: c, h => by
    rw [subtractScaled, gfMul_one_right, subtractScaled_one (Nat.succ.inj h), List.zipWith_cons_cons]

/-- Long division of the data followed by coefficients `e`, with the register added to the first of them all, leaves `e`
with the register run over the data added. -/
theorem longDivide_append {g : List Byte} (hg : g ≠ []) {e : List Byte} (he : e.length = g.length) :
    ∀ {rem : List Byte} (d : List Byte), rem.length = g.length →
      longDivide g d.length (subtractScaled rem 1 (d ++ e)) = List.zipWith gfAdd e (d.foldl (remStep g) rem)
  | rem, [], h => subtractScaled_one (h.trans he.symm)
  | [], _ :: _, h => absurd (List.length_eq_zero_iff.mp h.symm) hg
  | r :: rs, x :: d, h => by
    have hstep := subtractScaled_subtractScaled (gfAdd x r) (c := d ++ e) h.symm
    have ih := longDivide_append hg he (rem := remStep g (r :: rs) x) d (remStep_length h x)
    rw [List.cons_append, subtractScaled, gfMul_one_right, List.length_cons, longDivide, hstep, List.foldl_cons, ← ih]
    rfl

theorem subtractScaled_zeros (n : Nat) (c : List Byte) : subtractScaled (List.replicate n 0) 1 c = c := by
  induction n generalizing c with
  | zero => rfl
  | succ n ih =>
    cases c with
    | nil => rfl
    | cons x c => rw [List.replicate_succ, subtractScaled, ih, gfMul_zero_left, gfAdd_zero]

theorem polyEval_polyRemainder {n : Nat} {y : Byte} (hroot : polyEval (rsGenerator n) y = 0) {c : List Byte}
    (hlen : n ≤ c.length) : polyEval (polyRemainder (rsGenerator n) c) y = polyEval c y := by
  refine polyEval_longDivide (rsGenerator_eq_cons n ▸ hroot) ?_
  rw [rsGenerator_length, rsGenerator_tail_length]
  omega

/-- The remainder of the data followed by `n` coefficients is the register added to these
(43_reed_solomon.md R191, R192). -/
theorem polyRemainder_append {n : Nat} (hn : 1 ≤ n) (d : List Byte) {e : List Byte} (he : e.length = n) :
    polyRemainder (rsGenerator n) (d ++ e) = List.zipWith gfAdd e (rsRemainder d n) := by
  have hlen := rsGenerator_tail_length n
  have hsteps : (d ++ e).length + 1 - (rsGenerator n).length = d.length := by
    rw [List.length_append, rsGenerator_length, he]
    omega
  have h := longDivide_append (List.ne_nil_of_length_pos (hlen.symm ▸ hn)) (he.trans hlen.symm) d
    (rem := List.replicate n 0) (List.length_replicate.trans hlen.symm)
  rw [subtractScaled_zeros] at h
  rw [polyRemainder, hsteps, h]
  rfl

theorem zipWith_gfAdd_self (c : List Byte) : List.zipWith gfAdd c c = List.replicate c.length 0 := by
  simp [List.zipWith_self]

theorem zipWith_gfAdd_zeros (c : List Byte) : List.zipWith gfAdd (List.replicate c.length 0) c = c := by
  induction c with
  | nil => rfl
  | cons x c ih => rw [List.length_cons, List.replicate_succ, List.zipWith_cons_cons, zero_gfAdd, ih]

/-- Settles O43: the register added to itself is zero, and long division keeps the value at each root. -/
theorem codewordBlocksDivisible : Obligations.CodewordBlocksDivisible := by
  unfold Obligations.CodewordBlocksDivisible
  intro d n hn _
  have hlen := rsRemainder_length d n
  have hzero : polyRemainder (rsGenerator n) (d ++ rsRemainder d n) = List.replicate n 0 := by
    rw [polyRemainder_append hn d hlen, zipWith_gfAdd_self, hlen]
  refine ⟨hzero, fun i hi => ?_⟩
  rw [← polyEval_polyRemainder (polyEval_rsGenerator hi) (by simp), hzero, polyEval_zeros]

/-! ## Linearity -/

theorem addScaled_zipWith_gfAdd (f f' : Byte) : ∀ {p q : List Byte} (g : List Byte), p.length = q.length →
    addScaled (gfAdd f f') (List.zipWith gfAdd p q) g = List.zipWith gfAdd (addScaled f p g) (addScaled f' q g)
  | [], [], _, _ => rfl
  | _ :: _, _ :: _, [], _ => rfl
  | x :: p, w :: q, z :: g, h => by
    simp only [List.zipWith_cons_cons, addScaled_cons_cons, gfMul_gfAdd, gfAdd_gfAdd_comm x w,
      addScaled_zipWith_gfAdd f f' g (Nat.succ.inj h)]

/-- One step of the register is linear in the register and the codeword together. -/
theorem remStep_zipWith_gfAdd (g : List Byte) {p q : List Byte} (h : p.length = q.length) (a b : Byte) :
    remStep g (List.zipWith gfAdd p q) (gfAdd a b) = List.zipWith gfAdd (remStep g p a) (remStep g q b) := by
  have hhead : (List.zipWith gfAdd p q).headD 0 = gfAdd (p.headD 0) (q.headD 0) :=
    match p, q, h with
    | [], [], _ => rfl
    | _ :: _, _ :: _, _ => rfl
  have hshift : (List.zipWith gfAdd p q).tail ++ [0] = List.zipWith gfAdd (p.tail ++ [0]) (q.tail ++ [0]) := by
    rw [List.zipWith_append (by simp [h]), List.tail_zipWith]
    rfl
  rw [remStep_eq_addScaled, hhead, hshift, gfAdd_gfAdd_comm, addScaled_zipWith_gfAdd _ _ g (by simp [h])]
  rfl

/-- The register run over a sum of blocks holds the sum of the registers. -/
theorem foldl_remStep_zipWith_gfAdd (g : List Byte) : ∀ {a b p q : List Byte}, a.length = b.length →
    p.length = q.length → (List.zipWith gfAdd a b).foldl (remStep g) (List.zipWith gfAdd p q) =
      List.zipWith gfAdd (a.foldl (remStep g) p) (b.foldl (remStep g) q)
  | [], [], _, _, _, _ => rfl
  | x :: a, w :: b, p, q, hab, hpq => by
    have hlen : (remStep g p x).length = (remStep g q w).length := by simp [remStep, hpq]
    rw [List.zipWith_cons_cons, List.foldl_cons, remStep_zipWith_gfAdd g hpq]
    exact foldl_remStep_zipWith_gfAdd g (Nat.succ.inj hab) hlen

theorem rsRemainder_zipWith_gfAdd {a b : List Byte} (h : a.length = b.length) (n : Nat) :
    rsRemainder (List.zipWith gfAdd a b) n = List.zipWith gfAdd (rsRemainder a n) (rsRemainder b n) := by
  have hzero : List.zipWith gfAdd (List.replicate n 0) (List.replicate n 0) = List.replicate n 0 := by
    rw [zipWith_gfAdd_self, List.length_replicate]
  rw [rsRemainder, ← hzero]
  exact foldl_remStep_zipWith_gfAdd _ h rfl

/-- Settles O42: the register added to the zeros that follow the data is the remainder of long division. -/
theorem remainderIsPolynomialRemainder : Obligations.RemainderIsPolynomialRemainder := by
  unfold Obligations.RemainderIsPolynomialRemainder
  refine ⟨fun d n hn _ => ⟨?_, rsRemainder_length d n⟩, fun a b n _ h => rsRemainder_zipWith_gfAdd h n⟩
  have hzeros := zipWith_gfAdd_zeros (rsRemainder d n)
  rw [rsRemainder_length] at hzeros
  rw [polyRemainder_append hn d List.length_replicate, hzeros]

end Sys2Proof.Machine
end

section
/-! The interleave (43_reed_solomon.md R194 to R196): where each codeword of each block stands in the stream. -/

namespace Sys2Proof.Machine

/-! ## Rounds over sequences -/

section

variable {α β : Type} {g : α → Option β} {l : List α}

/-- A filter that drops nothing keeps every element at its place. -/
theorem getElem?_filterMap_of_isSome (h : ∀ x ∈ l, (g x).isSome) (k : Nat) :
    (l.filterMap g)[k]? = l[k]?.bind g := by
  induction l generalizing k with
  | nil => simp
  | cons x l ih =>
    obtain ⟨hx, hl⟩ := List.forall_mem_cons.mp h
    obtain ⟨y, hy⟩ := Option.isSome_iff_exists.mp hx
    cases k with
    | zero => simp [hy]
    | succ k => simp [hy, ih hl k]

/-- A filter that drops exactly the first `n` elements keeps the others at their places less `n`. -/
theorem getElem?_filterMap_of_drop {n : Nat} (htake : ∀ x ∈ l.take n, g x = none)
    (hdrop : ∀ x ∈ l.drop n, (g x).isSome) (k : Nat) : (l.filterMap g)[k]? = l[n + k]?.bind g := by
  have hsplit : l.filterMap g = (l.drop n).filterMap g := by
    conv_lhs => rw [← List.take_append_drop n l, List.filterMap_append, List.filterMap_eq_nil_iff.mpr htake]
    rfl
  rw [hsplit, getElem?_filterMap_of_isSome hdrop, List.getElem?_drop]

end

/-- Round `i` of the interleave: the elements of index `i`, of the sequences that have one. -/
def roundOf (i : Nat) (seqs : List (List Byte)) : List Byte := seqs.filterMap fun q => q[i]?

theorem roundRobin_succ (n : Nat) (seqs : List (List Byte)) :
    roundRobin (n + 1) seqs = roundRobin n seqs ++ roundOf n seqs := by
  simp [roundRobin, roundOf, List.range_succ, List.flatMap_append]

theorem roundRobin_prefix {m n : Nat} (h : m ≤ n) (seqs : List (List Byte)) :
    roundRobin m seqs <+: roundRobin n seqs := by
  induction n, h using Nat.le_induction with
  | base => exact List.prefix_refl _
  | succ n _ ih => exact ih.trans (roundRobin_succ n seqs ▸ List.prefix_append _ _)

/-- As long as every sequence has an element, a round takes one of each. -/
theorem roundRobin_length_of_le {n : Nat} {seqs : List (List Byte)} (h : ∀ q ∈ seqs, n ≤ q.length) :
    (roundRobin n seqs).length = n * seqs.length := by
  rw [roundRobin_length, List.map_congr_left fun q hq => Nat.min_eq_left (h q hq), List.map_const', List.sum_replicate,
    smul_eq_mul, Nat.mul_comm]

/-- An element of round `i`, when the first `short` sequences have just run out: it follows `i` full rounds. -/
theorem getElem?_roundRobin {seqs : List (List Byte)} {i n short k : Nat} {q : List Byte} (hi : i < n)
    (hshort : ∀ p ∈ seqs.take short, p.length = i) (hlong : ∀ p ∈ seqs.drop short, i < p.length)
    (hq : seqs[short + k]? = some q) (rest : List Byte) :
    (roundRobin n seqs ++ rest)[i * seqs.length + k]? = q[i]? := by
  have hiq : i < q.length := hlong q (List.mem_of_getElem? (List.getElem?_drop.trans hq))
  have hfull : ∀ p ∈ seqs, i ≤ p.length := by
    rw [← List.take_append_drop short seqs]
    exact List.forall_mem_append.mpr ⟨fun p hp => (hshort p hp).ge, fun p hp => (hlong p hp).le⟩
  have hround : (roundOf i seqs)[k]? = q[i]? := by
    rw [roundOf, getElem?_filterMap_of_drop (fun p hp => List.getElem?_eq_none (hshort p hp).le)
      (fun p hp => by simp [hlong p hp]), hq]
    rfl
  have hk : k < (roundOf i seqs).length :=
    (List.getElem?_eq_some_iff.mp (hround.trans (List.getElem?_eq_getElem hiq))).1
  obtain ⟨later, hlater⟩ := roundRobin_prefix hi seqs
  rw [← hlater, roundRobin_succ, List.append_assoc, List.append_assoc, ← roundRobin_length_of_le hfull,
    List.getElem?_append_right (Nat.le_add_right _ _), Nat.add_sub_cancel_left, List.getElem?_append_left hk, hround]

/-- An element of a round in which every sequence still has one. -/
theorem getElem?_roundRobin_of_forall_lt {seqs : List (List Byte)} {i n j : Nat} {q : List Byte} (hi : i < n)
    (hall : ∀ p ∈ seqs, i < p.length) (hq : seqs[j]? = some q) (rest : List Byte) :
    (roundRobin n seqs ++ rest)[i * seqs.length + j]? = q[i]? :=
  getElem?_roundRobin (short := 0) hi nofun hall (by rwa [Nat.zero_add]) rest

/-! ## The blocks -/

/-- A block starts where the blocks before it end. -/
theorem splitBlocks_getElem? : ∀ (ns : List Nat) (d : List Byte) (j : Nat),
    (splitBlocks ns d)[j]? = ns[j]?.map fun n => (d.drop (ns.take j).sum).take n
  | [], _, _ => by simp [splitBlocks]
  | n :: ns, d, 0 => by simp [splitBlocks]
  | n :: ns, d, j + 1 => by simp [splitBlocks, splitBlocks_getElem? ns (d.drop n) j, List.drop_drop]

variable {b : BlockInfo} {dcw : List Byte} {i j : Nat}

/-- Where the data of block `j` begins in the sequence of data codewords (43_reed_solomon.md R194). -/
def BlockInfo.offset (b : BlockInfo) (j : Nat) : Nat := j * b.k1 + (j - b.n1)

/-- How many data codewords block `j` has (43_reed_solomon.md R194). -/
def BlockInfo.dataLen (b : BlockInfo) (j : Nat) : Nat := if j < b.n1 then b.k1 else b.k1 + 1

/-- The data codewords of block `j` (43_reed_solomon.md R194). -/
def BlockInfo.block (b : BlockInfo) (dcw : List Byte) (j : Nat) : List Byte :=
  (dcw.drop (b.offset j)).take (b.dataLen j)

/-- The blocks of a symbol's data, as `ECC` cuts them. -/
def BlockInfo.dataBlocks (b : BlockInfo) (dcw : List Byte) : List (List Byte) := splitBlocks (blockLengths b) dcw

/-- Their EC codewords, block by block. -/
def BlockInfo.ecBlocks (b : BlockInfo) (dcw : List Byte) : List (List Byte) :=
  (b.dataBlocks dcw).map fun d => rsRemainder d b.ecLen

theorem codewordStream_eq (b : BlockInfo) (dcw : List Byte) : codewordStream b dcw =
    roundRobin (dataRounds b) (b.dataBlocks dcw) ++ roundRobin b.ecLen (b.ecBlocks dcw) := rfl

theorem blockLengths_take_sum (hj : j ≤ b.n1 + b.n2) : ((blockLengths b).take j).sum = b.offset j := by
  rw [blockLengths, List.take_append, List.take_replicate, List.take_replicate, List.length_replicate, List.sum_append,
    List.sum_replicate, List.sum_replicate, smul_eq_mul, smul_eq_mul, BlockInfo.offset,
    Nat.min_eq_left (Nat.sub_le_iff_le_add'.mpr hj)]
  rcases Nat.le_total j b.n1 with h | h
  · rw [Nat.min_eq_left h, Nat.sub_eq_zero_of_le h, Nat.zero_mul]
  · obtain ⟨d, rfl⟩ := Nat.exists_eq_add_of_le h
    rw [Nat.min_eq_right h, Nat.add_sub_cancel_left]
    ring

theorem blockLengths_getElem? (hj : j < b.n1 + b.n2) : (blockLengths b)[j]? = some (b.dataLen j) := by
  rw [blockLengths, BlockInfo.dataLen, List.getElem?_append, List.length_replicate]
  split
  · next h => exact List.getElem?_replicate_of_lt h
  · next h => exact List.getElem?_replicate_of_lt (by omega)

theorem dataBlocks_getElem? (hj : j < b.n1 + b.n2) : (b.dataBlocks dcw)[j]? = some (b.block dcw j) := by
  rw [BlockInfo.dataBlocks, splitBlocks_getElem?, blockLengths_getElem? hj, blockLengths_take_sum hj.le]
  rfl

theorem block_getElem? (hi : i < b.dataLen j) : (b.block dcw j)[i]? = dcw[b.offset j + i]? := by
  rw [BlockInfo.block, List.getElem?_take_of_lt hi, List.getElem?_drop]

section

-- The data codewords fill the blocks (11_rom_tables.md R72).
variable (hdcw : dcw.length = b.n1 * b.k1 + b.n2 * (b.k1 + 1))
include hdcw

theorem dataBlocks_map_length : (b.dataBlocks dcw).map List.length = blockLengths b :=
  splitBlocks_map_length _ _ (by rw [blockLengths_sum, hdcw])

theorem dataBlocks_length : (b.dataBlocks dcw).length = b.n1 + b.n2 := by
  rw [← List.length_map (f := List.length), dataBlocks_map_length hdcw]
  simp [blockLengths]

theorem length_of_mem_dataBlocks_take : ∀ q ∈ (b.dataBlocks dcw).take b.n1, q.length = b.k1 := by
  intro q hq
  have hmem := List.mem_map_of_mem (f := List.length) hq
  rw [List.map_take, dataBlocks_map_length hdcw, blockLengths, List.take_left' List.length_replicate] at hmem
  exact List.eq_of_mem_replicate hmem

theorem length_of_mem_dataBlocks_drop : ∀ q ∈ (b.dataBlocks dcw).drop b.n1, q.length = b.k1 + 1 := by
  intro q hq
  have hmem := List.mem_map_of_mem (f := List.length) hq
  rw [List.map_drop, dataBlocks_map_length hdcw, blockLengths, List.drop_left' List.length_replicate] at hmem
  exact List.eq_of_mem_replicate hmem

theorem le_length_of_mem_dataBlocks : ∀ q ∈ b.dataBlocks dcw, b.k1 ≤ q.length := by
  rw [← List.take_append_drop b.n1 (b.dataBlocks dcw)]
  refine List.forall_mem_append.mpr ⟨fun q hq => ?_, fun q hq => ?_⟩
  · exact (length_of_mem_dataBlocks_take hdcw q hq).ge
  · exact Nat.le_of_succ_le (length_of_mem_dataBlocks_drop hdcw q hq).ge

/-! ## The stream -/

/-- The data codewords that every block has stand first, a round of all blocks at a time (43_reed_solomon.md R195). -/
theorem codewordStream_getElem?_data (hj : j < b.n1 + b.n2) (hi : i < b.k1) :
    (codewordStream b dcw)[i * (b.n1 + b.n2) + j]? = dcw[b.offset j + i]? := by
  have hrounds : i < dataRounds b := by rw [dataRounds]; split <;> omega
  have hlen : i < b.dataLen j := by rw [BlockInfo.dataLen]; split <;> omega
  rw [← block_getElem? hlen, ← dataBlocks_length hdcw]
  exact getElem?_roundRobin_of_forall_lt hrounds
    (fun q hq => hi.trans_le (le_length_of_mem_dataBlocks hdcw q hq)) (dataBlocks_getElem? hj) _

/-- The last data codeword of each long block follows them (43_reed_solomon.md R195). -/
theorem codewordStream_getElem?_last (hj : j < b.n1 + b.n2) (hlong : b.n1 ≤ j) :
    (codewordStream b dcw)[b.k1 * (b.n1 + b.n2) + (j - b.n1)]? = dcw[b.offset j + b.k1]? := by
  have hrounds : b.k1 < dataRounds b := by rw [dataRounds, if_pos (by omega)]; omega
  have hlen : b.k1 < b.dataLen j := by rw [BlockInfo.dataLen, if_neg (by omega)]; omega
  have hblock : (b.dataBlocks dcw)[b.n1 + (j - b.n1)]? = some (b.block dcw j) := by
    rw [Nat.add_sub_cancel' hlong]
    exact dataBlocks_getElem? hj
  rw [← block_getElem? hlen, ← dataBlocks_length hdcw]
  exact getElem?_roundRobin hrounds (length_of_mem_dataBlocks_take hdcw)
    (fun q hq => (length_of_mem_dataBlocks_drop hdcw q hq).ge) hblock _

/-- The EC codewords stand last, a round of all blocks at a time (43_reed_solomon.md R195). -/
theorem codewordStream_getElem?_ec (hj : j < b.n1 + b.n2) (hi : i < b.ecLen) :
    (codewordStream b dcw)[b.n1 * b.k1 + b.n2 * (b.k1 + 1) + i * (b.n1 + b.n2) + j]? =
      (rsRemainder (b.block dcw j) b.ecLen)[i]? := by
  have hecs : ∀ q ∈ b.ecBlocks dcw, q.length = b.ecLen := by simp [BlockInfo.ecBlocks]
  have hnum : (b.ecBlocks dcw).length = b.n1 + b.n2 := by
    rw [BlockInfo.ecBlocks, List.length_map, dataBlocks_length hdcw]
  have hec : (b.ecBlocks dcw)[j]? = some (rsRemainder (b.block dcw j) b.ecLen) := by
    rw [BlockInfo.ecBlocks, List.getElem?_map, dataBlocks_getElem? hj]
    rfl
  have hdata : (roundRobin (dataRounds b) (b.dataBlocks dcw)).length = b.n1 * b.k1 + b.n2 * (b.k1 + 1) := by
    have htotal := codewordStream_length b dcw hdcw
    rw [codewordStream_eq, List.length_append, roundRobin_length_of_le fun q hq => (hecs q hq).ge, hnum,
      Nat.mul_comm] at htotal
    exact Nat.add_right_cancel htotal
  have h := getElem?_roundRobin_of_forall_lt hi (fun q hq => hi.trans_le (hecs q hq).ge) hec []
  rw [List.append_nil, hnum] at h
  rw [codewordStream_eq, ← hdata, Nat.add_assoc, List.getElem?_append_right (Nat.le_add_right _ _),
    Nat.add_sub_cancel_left, h]

end

/-- Settles O41: a full buffer holds exactly the data codewords of the blocks. -/
theorem eccInterleavesBlocks : Obligations.EccInterleavesBlocks := by
  unfold Obligations.EccInterleavesBlocks
  refine ⟨fun s hs hf hp hfull => ?_, fun s hf => ⟨fun hp => ?_, fun hp hne => ?_⟩⟩
  · have hdcw : (codewordsOf s.bb).length = s.blocks.n1 * s.blocks.k1 + s.blocks.n2 * (s.blocks.k1 + 1) := by
      rw [codewordsOf_length, ← State.bbLen, hfull, Nat.mul_div_cancel_left _ (by decide)]
      rfl
    refine ⟨codewordStream s.blocks (codewordsOf s.bb), ?_, ?_, fun j hj =>
      ⟨fun i hi => ?_, fun hlong => ?_, fun i hi => ?_⟩⟩
    · exact Stage.ecc.exec_of_ok hf (State.encodeBlocks_ok.mpr ⟨hp, hfull, rfl⟩)
    · exact codewordStream_of_full (hs.versionOk (by simp [hp])) hfull
    · exact codewordStream_getElem?_data hdcw hj hi
    · exact codewordStream_getElem?_last hdcw hj hlong
    · exact codewordStream_getElem?_ec hdcw hj hi
  · exact Stage.ecc.exec_of_error hf (State.inPhase_ne hp _)
  · exact Stage.ecc.exec_of_error hf ((State.inPhase_eq hp _).trans (if_pos hne))

end Sys2Proof.Machine
end

section
/-! The zig-zag walk (44_matrix.md R222, R223): it meets each place of the square off column 6 once, so the placement
order has no repetition and `MXDATA` leaves each bit of the stream at its own module. -/

namespace Sys2Proof.Machine

variable {s : State} {m : Mx} {n r c side right fuel : Nat} {upward : Bool}

/-! ## Strips -/

/-- A strip holds the places of its two columns (44_matrix.md R222). -/
theorem mem_stripPlaces :
    (r, c) ∈ stripPlaces side right upward ↔ r < side ∧ (c = right ∨ c = right - 1) := by
  cases upward <;> simp [stripPlaces, ← and_or_left]

/-- A strip lists its places row by row, so each once. -/
theorem stripPlaces_nodup (h : 1 ≤ right) : (stripPlaces side right upward).Nodup := by
  have hrows : (if upward then (List.range side).reverse else List.range side).Nodup := by
    split
    · exact List.nodup_reverse.mpr List.nodup_range
    · exact List.nodup_range
  refine List.nodup_flatMap.mpr ⟨fun r _ => ?_, hrows.imp fun {q r} hqr => ?_⟩
  · simp only [List.nodup_cons, List.mem_singleton, Prod.mk.injEq, true_and, List.not_mem_nil, not_false_eq_true,
      List.nodup_nil, and_true]
    omega
  · simp [Function.onFun, hqr.symm]

/-- The column the next strip starts from: column 6 belongs to no strip (44_matrix.md R222). -/
def stripColumn (right : Nat) : Nat := if right = 6 then 5 else right

theorem stripColumn_bounds (h : 1 ≤ right) : 1 ≤ stripColumn right ∧ stripColumn right ≤ right := by
  rw [stripColumn]; split <;> omega

theorem strips_succ (h : 1 ≤ right) : strips side (fuel + 1) right upward =
    stripPlaces side (stripColumn right) upward ++ strips side fuel (stripColumn right - 2) (!upward) := by
  rw [strips, if_pos h, stripColumn]

/-- The strips from column `right` leftward stay in the square and right of no column but `right`'s. -/
theorem bounds_of_mem_strips (h : (r, c) ∈ strips side fuel right upward) : 1 ≤ right ∧ r < side ∧ c ≤ right := by
  induction fuel generalizing right upward with
  | zero => cases h
  | succ fuel ih =>
    rcases Nat.eq_zero_or_pos right with rfl | hright
    · cases h
    · rw [strips_succ hright, List.mem_append, mem_stripPlaces] at h
      obtain ⟨-, hle⟩ := stripColumn_bounds hright
      rcases h with ⟨hr, hc⟩ | h
      · exact ⟨hright, hr, by omega⟩
      · obtain ⟨-, hr, hc⟩ := ih h
        exact ⟨hright, hr, by omega⟩

/-- The strips share no place, since each lies left of the ones before. -/
theorem strips_nodup : (strips side fuel right upward).Nodup := by
  induction fuel generalizing right upward with
  | zero => exact List.nodup_nil
  | succ fuel ih =>
    rcases Nat.eq_zero_or_pos right with rfl | hright
    · exact List.nodup_nil
    · rw [strips_succ hright]
      refine (stripPlaces_nodup (stripColumn_bounds hright).1).append ih ?_
      rintro ⟨r, c⟩ hstrip hrest
      obtain ⟨-, hc⟩ := mem_stripPlaces.mp hstrip
      obtain ⟨hnext, -, hle⟩ := bounds_of_mem_strips hrest
      omega

/-- Strips that start at an even column right of 6, or at an odd one left of it, leave out no column but 6. -/
theorem mem_strips_of_le (hstart : right % 2 = 0 ↔ 6 ≤ right) (hfuel : right < 2 * fuel) (hr : r < side)
    (hc : c ≤ right) (hc6 : c ≠ 6) : (r, c) ∈ strips side fuel right upward := by
  induction fuel generalizing right upward with
  | zero => omega
  | succ fuel ih =>
    have hright : 1 ≤ right := by omega
    have hcol : stripColumn right = if right = 6 then 5 else right := rfl
    rw [strips_succ hright, List.mem_append, mem_stripPlaces]
    by_cases hstrip : stripColumn right ≤ c + 1
    · exact .inl ⟨hr, by split at hcol <;> omega⟩
    · exact .inr (ih (by split at hcol <;> omega) (by split at hcol <;> omega) (by omega))

/-! ## The walk and the order -/

/-- The walk of a version's square meets every place off column 6 (44_matrix.md R222). -/
theorem mem_walk_of_ne {v : Nat} (hr : r < sideOf v) (hc : c < sideOf v) (hc6 : c ≠ 6) : (r, c) ∈ walk (sideOf v) := by
  rw [sideOf] at hr hc ⊢
  exact mem_strips_of_le (by omega) (by omega) hr (by omega) hc6

theorem bounds_of_mem_walk (h : (r, c) ∈ walk side) : r < side ∧ c < side := by
  obtain ⟨-, hr, hc⟩ := bounds_of_mem_strips h
  exact ⟨hr, by omega⟩

theorem mem_placementOrder :
    (r, c) ∈ placementOrder m side ↔ (r, c) ∈ walk side ∧ (m.at r c).tag = .data := by
  rw [placementOrder, List.mem_filter, beq_iff_eq]

theorem placementOrder_nodup : (placementOrder m side).Nodup := strips_nodup.filter _

/-! ## Placing the stream -/

/-- Values written at distinct places of the square: each place ends with its own. -/
theorem Mx.at_foldl_putVal_zipIdx {ps : List (Nat × Nat)} (f : Nat → Bool) (h : m.square n) (hnd : ps.Nodup)
    (hin : ∀ p ∈ ps, p.1 < n ∧ p.2 < n) {k : Nat} {p : Nat × Nat} (hk : ps[k]? = some p) :
    (Mx.at (ps.zipIdx.foldl (fun m q => Mx.putVal m q.1.1 q.1.2 (f q.2)) m) p.1 p.2).val = f k := by
  induction ps using List.reverseRecOn with
  | nil => cases hk
  | append_singleton ps q ih =>
    obtain ⟨hnd, -, hq⟩ := List.nodup_append.mp hnd
    rw [List.zipIdx_append, List.foldl_append, Nat.zero_add, List.zipIdx_singleton, List.foldl_cons, List.foldl_nil]
    rcases Nat.lt_trichotomy k ps.length with hlt | rfl | hgt
    · rw [List.getElem?_append_left hlt] at hk
      have hne : p ≠ q := hq p (List.mem_of_getElem? hk) q List.mem_cons_self
      rw [Mx.at_putVal_of_ne hne]
      exact ih hnd (fun p hp => hin p (List.mem_append_left _ hp)) hk
    · have hpq : p = q := by simpa using hk.symm
      subst hpq
      obtain ⟨hr, hc⟩ := hin p (by simp)
      have hsquare := foldl_keeps (fun m => Mx.square n m) (fun m q hm => Mx.putVal_square hm q.1.1 q.1.2 (f q.2))
        ps.zipIdx m h
      rw [Mx.putVal, Mx.at_put_same hsquare hr hc]
    · rw [List.getElem?_eq_none (by simpa using hgt)] at hk
      cases hk

theorem placeStream_square (h : m.square n) (side : Nat) (fin : List Byte) : (placeStream m side fin).square n :=
  foldl_keeps (fun m => Mx.square n m) (fun _ _ hm => Mx.putVal_square hm _ _ _) _ _ h

/-- Module `k` of `ORDER` gets bit `k` of the stream and stays a data module (44_matrix.md R223). -/
theorem placeStream_at_of_getElem? (h : m.square side) (fin : List Byte) {k : Nat} {p : Nat × Nat}
    (hk : (placementOrder m side)[k]? = some p) : (placeStream m side fin).at p.1 p.2 = ⟨streamBit fin k, .data⟩ := by
  obtain ⟨-, hdata⟩ := mem_placementOrder.mp (List.mem_of_getElem? hk)
  have hval := Mx.at_foldl_putVal_zipIdx (streamBit fin) h placementOrder_nodup
    (fun q hq => bounds_of_mem_walk (mem_placementOrder.mp hq).1) hk
  have htag := (placeStream_tag m side fin p.1 p.2).trans hdata
  rw [← hval, ← htag]
  rfl

/-- Settles O47: distinct modules each keep the bit written to them, and no other module is written. -/
theorem mxdataPlacesStream : Obligations.MxdataPlacesStream := by
  unfold Obligations.MxdataPlacesStream
  refine ⟨fun s hs hf hp => ?_, fun s hf hp => Stage.mxdata.exec_of_error hf (State.inPhase_ne hp _)⟩
  have hsquare : s.mx.square s.side := (hs.mxSound (by simp [hp, Phase.code])).1
  obtain ⟨hrows, hcols⟩ := placeStream_square hsquare s.side s.fin
  exact ⟨placeStream s.mx s.side s.fin, Stage.mxdata.exec_of_ok hf (State.placeData_ok.mpr ⟨hp, rfl⟩), hrows, hcols,
    fun k p hk => placeStream_at_of_getElem? hsquare s.fin hk,
    fun r c hp => placeStream_at_of_notMem s.fin hp⟩

end Sys2Proof.Machine
end

section
/-! The function patterns (44_matrix.md R210 to R221): what each step of `MXFUNC` leaves at each place. -/

namespace Sys2Proof.Machine

variable {α : Type} {m : Mx} {n r c r0 c0 i j side : Nat}

/-! ## Painting -/

/-- Write the module `x a` at the place `pos a`, for each `a` of a list in turn. -/
def Mx.paint (pos : α → Nat × Nat) (x : α → MxModule) (l : List α) (m : Mx) : Mx :=
  l.foldl (fun m a => m.put (pos a).1 (pos a).2 (x a)) m

section
variable {pos : α → Nat × Nat} {x : α → MxModule} {l : List α}

theorem Mx.paint_square (h : m.square n) : (m.paint pos x l).square n :=
  foldl_keeps (fun m => Mx.square n m) (fun _ _ hm => Mx.put_square hm _ _ _) l m h

theorem Mx.paint_cons (a : α) : m.paint pos x (a :: l) = (m.put (pos a).1 (pos a).2 (x a)).paint pos x l := rfl

theorem Mx.paint_concat (a : α) : m.paint pos x (l ++ [a]) = (m.paint pos x l).put (pos a).1 (pos a).2 (x a) := by
  rw [Mx.paint, List.foldl_append]
  rfl

/-- A place that is not painted keeps its module. -/
theorem Mx.at_paint_of_notMem (h : ∀ a ∈ l, pos a ≠ (r, c)) : (m.paint pos x l).at r c = m.at r c :=
  List.foldlRecOn (motive := fun m' : Mx => m'.at r c = m.at r c) l _ rfl fun m' hm' a ha => by
    rw [Mx.at_put_of_ne (h a ha).symm, hm']

/-- A painted place holds its paint, if all paint put there is the same. -/
theorem Mx.at_paint_of_mem (h : m.square n) (hr : r < n) (hc : c < n) {a : α} (ha : a ∈ l) (hpos : pos a = (r, c))
    (hsame : ∀ b ∈ l, pos b = (r, c) → x b = x a) : (m.paint pos x l).at r c = x a := by
  induction l using List.reverseRecOn with
  | nil => cases ha
  | append_singleton l b ih =>
    rw [Mx.paint_concat]
    by_cases hb : pos b = (r, c)
    · rw [hb, Mx.at_put_same (Mx.paint_square h) hr hc, hsame b (by simp) hb]
    · rw [Mx.at_put_of_ne (Ne.symm hb)]
      have hal : a ∈ l := (List.mem_append.mp ha).resolve_right fun hab => hb (List.mem_singleton.mp hab ▸ hpos)
      exact ih hal fun b hbl => hsame b (List.mem_append_left _ hbl)

/-- A place holds one of the modules painted there, or what it held before. -/
theorem Mx.at_paint_cases (l : List α) :
    (m.paint pos x l).at r c = m.at r c ∨ ∃ a ∈ l, pos a = (r, c) ∧ (m.paint pos x l).at r c = x a := by
  induction l using List.reverseRecOn with
  | nil => exact .inl rfl
  | append_singleton l b ih =>
    rw [Mx.paint_concat]
    have hput : (((m.paint pos x l).put (pos b).1 (pos b).2 (x b)).at r c = (m.paint pos x l).at r c) ∨
        pos b = (r, c) ∧ ((m.paint pos x l).put (pos b).1 (pos b).2 (x b)).at r c = x b := by
      by_cases hb : pos b = (r, c)
      · rw [hb]
        rcases Mx.put_at (m.paint pos x l) r c (x b) with h | h
        · exact .inr ⟨rfl, h⟩
        · exact .inl (by rw [h])
      · exact .inl (Mx.at_put_of_ne (Ne.symm hb) _)
    rcases hput with h | ⟨hb, h⟩
    · rw [h]
      exact ih.imp_right fun ⟨a, ha, hpos, hat⟩ => ⟨a, List.mem_append_left _ ha, hpos, hat⟩
    · exact .inr ⟨b, by simp, hb, h⟩

end

/-! ## Finder patterns and separators (44_matrix.md R212) -/

/-- The place is in the 9 × 9 frame of the finder pattern whose top-left module is at `(r0, c0)`. -/
def InFrame (r0 c0 r c : Nat) : Prop := (r0 ≤ r + 1 ∧ r ≤ r0 + 7) ∧ c0 ≤ c + 1 ∧ c ≤ c0 + 7

/-- The top-left modules of the three finder patterns. -/
def finderCorners (side : Nat) : List (Nat × Nat) := [(0, 0), (0, side - 7), (side - 7, 0)]

/-- The offsets of a finder pattern's frame that are not before the matrix's first row or column. -/
def frameCells (r0 c0 : Nat) : List (Nat × Nat) :=
  (squarePlaces 9).filter fun p => 1 ≤ r0 + p.1 ∧ 1 ≤ c0 + p.2

theorem mem_squarePlaces : (i, j) ∈ squarePlaces n ↔ i < n ∧ j < n := by
  simp [squarePlaces]

theorem mem_frameCells : (i, j) ∈ frameCells r0 c0 ↔ (i < 9 ∧ j < 9) ∧ 1 ≤ r0 + i ∧ 1 ≤ c0 + j := by
  rw [frameCells, List.mem_filter, mem_squarePlaces, decide_eq_true_iff]

theorem putFinder_eq_paint (m : Mx) (r0 c0 : Nat) : putFinder m r0 c0 =
    m.paint (fun p => (r0 + p.1 - 1, c0 + p.2 - 1)) (fun p => finderModule p.1 p.2) (frameCells r0 c0) := by
  rw [putFinder, Mx.paint, frameCells, List.foldl_filter]
  simp only [decide_eq_true_eq]

theorem putFinder_square (h : m.square n) (r0 c0 : Nat) : (putFinder m r0 c0).square n := by
  rw [putFinder_eq_paint]
  exact Mx.paint_square h

/-- Inside its frame a finder pattern draws itself and its separator. -/
theorem putFinder_at_of_inFrame (h : m.square n) (hr : r < n) (hc : c < n) (hin : InFrame r0 c0 r c) :
    (putFinder m r0 c0).at r c = finderModule (r + 1 - r0) (c + 1 - c0) := by
  obtain ⟨hrow, hcol⟩ := hin
  have hmem : (r + 1 - r0, c + 1 - c0) ∈ frameCells r0 c0 := mem_frameCells.mpr (by omega)
  rw [putFinder_eq_paint]
  refine Mx.at_paint_of_mem h hr hc hmem (Prod.ext (by dsimp only; omega) (by dsimp only; omega)) ?_
  rintro ⟨i, j⟩ hij hpos
  obtain ⟨hi, hj⟩ := Prod.mk.inj hpos
  have hcell := mem_frameCells.mp hij
  obtain rfl : i = r + 1 - r0 := by dsimp only at hi; omega
  obtain rfl : j = c + 1 - c0 := by dsimp only at hj; omega
  rfl

/-- Outside its frame a finder pattern draws nothing. -/
theorem putFinder_at_of_not_inFrame (hout : ¬ InFrame r0 c0 r c) : (putFinder m r0 c0).at r c = m.at r c := by
  rw [putFinder_eq_paint]
  refine Mx.at_paint_of_notMem ?_
  rintro ⟨i, j⟩ hij hpos
  obtain ⟨hi, hj⟩ := Prod.mk.inj hpos
  have hcell := mem_frameCells.mp hij
  rw [InFrame] at hout
  dsimp only at hi hj
  omega

/-- The matrix after steps 0 and 1 (44_matrix.md R211, R212). -/
def finderMatrix (side : Nat) : Mx := putFinders side (blankMatrix side)

theorem finderMatrix_square (side : Nat) : (finderMatrix side).square side := by
  rw [finderMatrix, putFinders]
  exact putFinder_square (putFinder_square (putFinder_square (blankMatrix_sound side).1 0 0) 0 _) _ 0

theorem blankMatrix_at (side r c : Nat) : (blankMatrix side).at r c = blankModule := by
  have hrow : ∀ row ∈ blankMatrix side, ∀ x ∈ row, x = blankModule := by
    intro row hrow x hx
    rw [List.eq_of_mem_replicate hrow] at hx
    exact List.eq_of_mem_replicate hx
  exact Mx.at_all (P := (· = blankModule)) hrow rfl r c

/-- Each finder pattern stands at its corner, and their frames do not overlap (44_matrix.md R212). -/
theorem finderMatrix_at_of_inFrame (hs : 21 ≤ side) (hr : r < side) (hc : c < side)
    (hp : (r0, c0) ∈ finderCorners side) (hin : InFrame r0 c0 r c) :
    (finderMatrix side).at r c = finderModule (r + 1 - r0) (c + 1 - c0) := by
  have htl := putFinder_square (blankMatrix_sound side).1 0 0
  have htr := putFinder_square htl 0 (side - 7)
  have hbounds := hin
  rw [InFrame] at hbounds
  simp only [finderCorners, List.mem_cons, Prod.mk.injEq, List.not_mem_nil, or_false] at hp
  rw [finderMatrix, putFinders]
  rcases hp with ⟨rfl, rfl⟩ | ⟨rfl, rfl⟩ | ⟨rfl, rfl⟩
  · rw [putFinder_at_of_not_inFrame (by rw [InFrame]; omega), putFinder_at_of_not_inFrame (by rw [InFrame]; omega),
      putFinder_at_of_inFrame (blankMatrix_sound side).1 hr hc hin]
  · rw [putFinder_at_of_not_inFrame (by rw [InFrame]; omega), putFinder_at_of_inFrame htl hr hc hin]
  · exact putFinder_at_of_inFrame htr hr hc hin

/-- The place is in no finder pattern's frame. -/
def OffFrames (side r c : Nat) : Prop :=
  (8 ≤ r ∨ 8 ≤ c) ∧ (8 ≤ r ∨ c + 8 < side) ∧ (r + 8 < side ∨ 8 ≤ c)

/-- Off the finder frames the matrix is still blank. -/
theorem finderMatrix_at_of_offFrames (hs : 21 ≤ side) (h : OffFrames side r c) :
    (finderMatrix side).at r c = blankModule := by
  rw [OffFrames] at h
  rw [finderMatrix, putFinders, putFinder_at_of_not_inFrame (by rw [InFrame]; omega),
    putFinder_at_of_not_inFrame (by rw [InFrame]; omega), putFinder_at_of_not_inFrame (by rw [InFrame]; omega),
    blankMatrix_at]

theorem exists_inFrame_of_not_offFrames (hr : r < side) (hc : c < side) (h : ¬ OffFrames side r c) :
    ∃ p ∈ finderCorners side, InFrame p.1 p.2 r c := by
  rw [OffFrames] at h
  by_cases hr7 : r ≤ 7
  · by_cases hc7 : c ≤ 7
    · exact ⟨(0, 0), by simp [finderCorners], by rw [InFrame]; omega⟩
    · exact ⟨(0, side - 7), by simp [finderCorners], by rw [InFrame]; omega⟩
  · exact ⟨(side - 7, 0), by simp [finderCorners], by rw [InFrame]; omega⟩

/-- Inside the frame stands the pattern (44_matrix.md R212). -/
theorem finderModule_of_pattern (h : (1 ≤ i ∧ i ≤ 7) ∧ 1 ≤ j ∧ j ≤ 7) :
    finderModule i j = ⟨finderRing (i - 1) (j - 1), .finder⟩ := by
  rw [finderModule, if_pos (by omega)]

/-- The rest of the frame is the separator (44_matrix.md R212). -/
theorem finderModule_of_separator (h : i = 0 ∨ i = 8 ∨ j = 0 ∨ j = 8) : finderModule i j = ⟨false, .separator⟩ := by
  rw [finderModule, if_neg (by omega)]

theorem finderModule_tag_ne_data (i j : Nat) : (finderModule i j).tag ≠ .data := by
  rw [finderModule]; split <;> nofun

/-- The modules still tagged data are those off the finder frames. -/
theorem finderMatrix_tag_data_iff (hs : 21 ≤ side) (hr : r < side) (hc : c < side) :
    ((finderMatrix side).at r c).tag = .data ↔ OffFrames side r c := by
  refine ⟨fun hdata => by_contra fun hin => ?_, fun hoff => by rw [finderMatrix_at_of_offFrames hs hoff]; rfl⟩
  obtain ⟨p, hp, hin⟩ := exists_inFrame_of_not_offFrames hr hc hin
  rw [finderMatrix_at_of_inFrame hs hr hc hp hin] at hdata
  exact finderModule_tag_ne_data _ _ hdata

end Sys2Proof.Machine
end

section
/-! The timing patterns (44_matrix.md R213): the lines between the finder patterns. -/

namespace Sys2Proof.Machine

variable {m : Mx} {r c i side : Nat}

/-- A timing pattern's module (44_matrix.md R213). -/
def timingModule (i : Nat) : MxModule := ⟨i % 2 == 0, .timing⟩

theorem putTiming_eq (m : Mx) (r c i : Nat) :
    putTiming m r c i = if (m.at r c).tag = .data then m.put r c (timingModule i) else m := rfl

/-- A timing pattern paints the places of its line that are still tagged data. -/
theorem foldl_putTiming_eq_paint {pos : Nat → Nat × Nat} (hinj : pos.Injective) {l : List Nat} (hnd : l.Nodup) :
    l.foldl (fun m i => putTiming m (pos i).1 (pos i).2 i) m =
      m.paint pos timingModule (l.filter fun i => (m.at (pos i).1 (pos i).2).tag = .data) := by
  induction l generalizing m with
  | nil => rfl
  | cons i l ih =>
    obtain ⟨hi, hl⟩ := List.nodup_cons.mp hnd
    rw [List.foldl_cons, ih hl, putTiming_eq]
    by_cases hdata : (m.at (pos i).1 (pos i).2).tag = .data
    · have hrest : ∀ k ∈ l, (m.put (pos i).1 (pos i).2 (timingModule i)).at (pos k).1 (pos k).2 =
          m.at (pos k).1 (pos k).2 :=
        fun k hk => Mx.at_put_of_ne (fun he => hi ((hinj he : k = i) ▸ hk)) _
      rw [if_pos hdata, List.filter_cons_of_pos (by simpa using hdata),
        List.filter_congr fun k hk => by rw [hrest k hk]]
      rfl
    · rw [if_neg hdata, List.filter_cons_of_neg (by simpa using hdata)]

/-- The indices of a timing pattern's modules. -/
def timingIndices (side : Nat) : List Nat := (List.range side).filter fun i => 8 ≤ i ∧ i + 8 < side

theorem mem_timingIndices : i ∈ timingIndices side ↔ 8 ≤ i ∧ i + 8 < side := by
  rw [timingIndices, List.mem_filter, List.mem_range, decide_eq_true_iff]
  omega

/-- The matrix after steps 0 to 2 (44_matrix.md R211 to R213). -/
def timedMatrix (side : Nat) : Mx := putTimings side (finderMatrix side)

/-- Row 6 is painted first, then column 6, both at the indices from 8 to `S - 9` (44_matrix.md R213). -/
theorem timedMatrix_eq_paint (hs : 21 ≤ side) : timedMatrix side =
    ((finderMatrix side).paint (fun i => (6, i)) timingModule (timingIndices side)).paint
      (fun i => (i, 6)) timingModule (timingIndices side) := by
  have hrow : (List.range side).filter (fun i => ((finderMatrix side).at 6 i).tag = .data) = timingIndices side := by
    refine List.filter_congr fun i hi => decide_eq_decide.mpr ?_
    rw [finderMatrix_tag_data_iff hs (by omega) (List.mem_range.mp hi), OffFrames]
    omega
  have hcol : (List.range side).filter (fun i => (((finderMatrix side).paint (fun i => (6, i)) timingModule
      (timingIndices side)).at i 6).tag = .data) = timingIndices side := by
    refine List.filter_congr fun i hi => decide_eq_decide.mpr ?_
    rw [Mx.at_paint_of_notMem fun k hk he => ?_,
      finderMatrix_tag_data_iff hs (List.mem_range.mp hi) (by omega), OffFrames]
    · omega
    · have := mem_timingIndices.mp hk
      cases he
      omega
  rw [timedMatrix, putTimings, foldl_putTiming_eq_paint (fun i k h => (Prod.mk.inj h).2) List.nodup_range, hrow,
    foldl_putTiming_eq_paint (pos := fun i => (i, 6)) (fun i k h => (Prod.mk.inj h).1) List.nodup_range]
  exact congrArg _ hcol

theorem timedMatrix_square (hs : 21 ≤ side) : (timedMatrix side).square side := by
  rw [timedMatrix_eq_paint hs]
  exact Mx.paint_square (Mx.paint_square (finderMatrix_square side))

theorem timedMatrix_at_row (hs : 21 ≤ side) (hi : 8 ≤ i) (hi8 : i + 8 < side) :
    (timedMatrix side).at 6 i = timingModule i := by
  rw [timedMatrix_eq_paint hs, Mx.at_paint_of_notMem fun k hk he => ?_]
  · refine Mx.at_paint_of_mem (finderMatrix_square side) (by omega) (by omega) (mem_timingIndices.mpr ⟨hi, hi8⟩) rfl ?_
    intro k _ he
    rw [(Prod.mk.inj he).2]
  · have := mem_timingIndices.mp hk
    cases he
    omega

theorem timedMatrix_at_column (hs : 21 ≤ side) (hi : 8 ≤ i) (hi8 : i + 8 < side) :
    (timedMatrix side).at i 6 = timingModule i := by
  rw [timedMatrix_eq_paint hs]
  refine Mx.at_paint_of_mem (Mx.paint_square (finderMatrix_square side)) (by omega) (by omega)
    (mem_timingIndices.mpr ⟨hi, hi8⟩) rfl ?_
  intro k _ he
  rw [(Prod.mk.inj he).1]

/-- Off row 6 and column 6, and at their ends, no timing module is drawn. -/
theorem timedMatrix_at_of_off_lines (hs : 21 ≤ side) (h : r = 6 → ¬ (8 ≤ c ∧ c + 8 < side))
    (h' : c = 6 → ¬ (8 ≤ r ∧ r + 8 < side)) : (timedMatrix side).at r c = (finderMatrix side).at r c := by
  rw [timedMatrix_eq_paint hs, Mx.at_paint_of_notMem, Mx.at_paint_of_notMem]
  · intro k hk he
    cases he
    exact h rfl (mem_timingIndices.mp hk)
  · intro k hk he
    cases he
    exact h' rfl (mem_timingIndices.mp hk)

/-- Off the finder frames the places of row 6 and column 6 are timing modules, and the others still data. -/
theorem timedMatrix_tag_of_offFrames (hs : 21 ≤ side) (h : OffFrames side r c) :
    ((timedMatrix side).at r c).tag = if r = 6 ∨ c = 6 then .timing else .data := by
  have hoff := h
  rw [OffFrames] at hoff
  by_cases hr : r = 6
  · subst hr
    rw [timedMatrix_at_row hs (by omega) (by omega), if_pos (.inl rfl), timingModule]
  · by_cases hc : c = 6
    · subst hc
      rw [timedMatrix_at_column hs (by omega) (by omega), if_pos (.inr rfl), timingModule]
    · rw [timedMatrix_at_of_off_lines hs (by omega) (by omega), finderMatrix_at_of_offFrames hs h, if_neg (by omega),
        blankModule]

end Sys2Proof.Machine
end

section
/-! The alignment patterns (44_matrix.md R214 to R216, 11_rom_tables.md R69): which candidates are skipped, and that the
patterns placed overlap neither each other nor a finder pattern's frame. -/

namespace Sys2Proof.Machine

variable {m : Mx} {r c r0 c0 i j side v : Nat}

/-! ## The alignment coordinates (11_rom_tables.md R69) -/

/-- The coordinates are even: the first is 6, the last `S - 7`, and the others are at least 16 from both. -/
theorem alignCoords_cases (hv : 1 ≤ v) (hv40 : v ≤ 40) (hr : r ∈ alignCoords v) :
    (2 ≤ v ∧ r % 2 = 0) ∧ (r = 6 ∨ r = 4 * v + 10 ∨ 22 ≤ r ∧ r + 6 ≤ 4 * v) := by
  have key : ∀ v, 1 ≤ v → v ≤ 40 → ∀ r ∈ alignCoords v, (2 ≤ v ∧ r % 2 = 0) ∧
      (r = 6 ∨ r = 4 * v + 10 ∨ 22 ≤ r ∧ r + 6 ≤ 4 * v) := by decide +kernel
  exact key v hv hv40 r hr

theorem alignCoords_pairwise (hv : 1 ≤ v) (hv40 : v ≤ 40) : (alignCoords v).Pairwise (· + 12 ≤ ·) := by
  decide +revert +kernel

/-- Two coordinates with a place within two modules of both are the same. -/
theorem alignCoords_eq_of_overlap (hv : 1 ≤ v) (hv40 : v ≤ 40) {p q : Nat} (hp : p ∈ alignCoords v)
    (hq : q ∈ alignCoords v) (hi : i < 5) (hj : j < 5) (h : p + i = q + j) : p = q := by
  have hsymm : Std.Symm fun p q : Nat => p + 12 ≤ q ∨ q + 12 ≤ p := ⟨fun _ _ => Or.symm⟩
  by_contra hne
  have := ((alignCoords_pairwise hv hv40).imp Or.inl).forall (R := fun p q => p + 12 ≤ q ∨ q + 12 ≤ p) hp hq hne
  omega

/-! ## Alignment patterns (44_matrix.md R214 to R216) -/

/-- The three candidates that would overlap a finder pattern (44_matrix.md R216). -/
def skippedCentres (side : Nat) : List (Nat × Nat) := [(6, 6), (6, side - 7), (side - 7, 6)]

/-- The candidates that get a pattern (44_matrix.md R216). -/
def placedCentres (v : Nat) : List (Nat × Nat) :=
  (alignmentCentres v).filter fun p => p ∉ skippedCentres (sideOf v)

/-- The modules of the alignment patterns: a centre and an offset. -/
def alignmentCells (v : Nat) : List ((Nat × Nat) × (Nat × Nat)) := placedCentres v ×ˢ squarePlaces 5

/-- The place of an alignment pattern's module. -/
def alignmentPlace (a : (Nat × Nat) × (Nat × Nat)) : Nat × Nat := (a.1.1 + a.2.1 - 2, a.1.2 + a.2.2 - 2)

/-- An alignment pattern's module (44_matrix.md R214). -/
def alignmentModule (a : (Nat × Nat) × (Nat × Nat)) : MxModule := ⟨alignmentRing a.2.1 a.2.2, .alignment⟩

theorem mem_alignmentCentres : (r, c) ∈ alignmentCentres v ↔ r ∈ alignCoords v ∧ c ∈ alignCoords v := by
  simp [alignmentCentres]

theorem mem_placedCentres : (r, c) ∈ placedCentres v ↔
    (r ∈ alignCoords v ∧ c ∈ alignCoords v) ∧ (r, c) ∉ skippedCentres (sideOf v) := by
  rw [placedCentres, List.mem_filter, mem_alignmentCentres, decide_eq_true_iff]

theorem mem_alignmentCells {p q : Nat × Nat} :
    (p, q) ∈ alignmentCells v ↔ p ∈ placedCentres v ∧ q.1 < 5 ∧ q.2 < 5 := by
  rw [alignmentCells, List.mem_product, ← mem_squarePlaces]

/-- A placed pattern lies across the horizontal timing pattern, across the vertical one, or off both. -/
theorem placedCentre_cases (hv : 1 ≤ v) (hv40 : v ≤ 40) (hp : (r, c) ∈ placedCentres v) :
    (r = 6 ∧ 22 ≤ c ∧ c + 6 ≤ 4 * v) ∨ (c = 6 ∧ 22 ≤ r ∧ r + 6 ≤ 4 * v) ∨
    ((18 ≤ r ∧ r ≤ 4 * v + 10) ∧ 18 ≤ c ∧ c ≤ 4 * v + 10) := by
  obtain ⟨⟨hr, hc⟩, hskip⟩ := mem_placedCentres.mp hp
  simp only [skippedCentres, sideOf, List.mem_cons, Prod.mk.injEq, List.not_mem_nil, or_false] at hskip
  have := alignCoords_cases hv hv40 hr
  have := alignCoords_cases hv hv40 hc
  omega

/-- The rows and columns an alignment pattern can reach. -/
def InAlignmentReach (v r c : Nat) : Prop :=
  ((4 ≤ r ∧ r ≤ 8) ∧ 20 ≤ c ∧ c + 4 ≤ 4 * v) ∨ ((4 ≤ c ∧ c ≤ 8) ∧ 20 ≤ r ∧ r + 4 ≤ 4 * v) ∨
    ((16 ≤ r ∧ r ≤ 4 * v + 12) ∧ 16 ≤ c ∧ c ≤ 4 * v + 12)

theorem InAlignmentReach.offFrames (h : InAlignmentReach v r c) : OffFrames (sideOf v) r c := by
  rw [InAlignmentReach] at h
  rw [OffFrames, sideOf]
  omega

theorem inAlignmentReach_of_cell (hv : 1 ≤ v) (hv40 : v ≤ 40) {a : (Nat × Nat) × (Nat × Nat)}
    (ha : a ∈ alignmentCells v) (hpos : alignmentPlace a = (r, c)) : InAlignmentReach v r c := by
  obtain ⟨⟨r0, c0⟩, i, j⟩ := a
  obtain ⟨hp, hi, hj⟩ := mem_alignmentCells.mp ha
  obtain ⟨rfl, rfl⟩ := Prod.mk.inj hpos
  have := placedCentre_cases hv hv40 hp
  dsimp only at hi hj ⊢
  rw [InAlignmentReach]
  omega

/-- No two alignment patterns overlap (44_matrix.md R215). -/
theorem alignmentPlace_injOn (hv : 1 ≤ v) (hv40 : v ≤ 40) {a b : (Nat × Nat) × (Nat × Nat)}
    (ha : a ∈ alignmentCells v) (hb : b ∈ alignmentCells v) (h : alignmentPlace a = alignmentPlace b) : a = b := by
  obtain ⟨⟨r, c⟩, i, j⟩ := a
  obtain ⟨⟨r', c'⟩, i', j'⟩ := b
  obtain ⟨hp, hi, hj⟩ := mem_alignmentCells.mp ha
  obtain ⟨hp', hi', hj'⟩ := mem_alignmentCells.mp hb
  obtain ⟨⟨hr, hc⟩, -⟩ := mem_placedCentres.mp hp
  obtain ⟨⟨hr', hc'⟩, -⟩ := mem_placedCentres.mp hp'
  obtain ⟨hrow, hcol⟩ := Prod.mk.inj h
  have hr6 := alignCoords_cases hv hv40 hr
  have hr6' := alignCoords_cases hv hv40 hr'
  have hc6 := alignCoords_cases hv hv40 hc
  have hc6' := alignCoords_cases hv hv40 hc'
  dsimp only at hi hj hi' hj' hrow hcol
  obtain rfl : r = r' := alignCoords_eq_of_overlap hv hv40 hr hr' hi hi' (by omega)
  obtain rfl : c = c' := alignCoords_eq_of_overlap hv hv40 hc hc' hj hj' (by omega)
  obtain rfl : i = i' := by omega
  obtain rfl : j = j' := by omega
  rfl

/-! ## Which candidates are skipped (44_matrix.md R216) -/

/-- An alignment pattern is drawn on no finder module, so it leaves the finder modules as they are. -/
theorem putAlignment_finder_iff :
    ((putAlignment m r0 c0).at r c).tag = .finder ↔ (m.at r c).tag = .finder := by
  rw [putAlignment]
  split
  · rfl
  · rename_i hover
    rw [overlapsFinder, List.any_eq_true, not_exists] at hover
    rcases Mx.at_paint_cases (m := m) (r := r) (c := c) (pos := fun p => (r0 + p.1 - 2, c0 + p.2 - 2))
      (x := fun p => ⟨alignmentRing p.1 p.2, .alignment⟩) (squarePlaces 5) with h | ⟨q, hq, hpos, h⟩
    · exact iff_of_eq (congrArg (·.tag = .finder) h)
    · refine iff_of_false (fun ht => ?_) fun hm => hover q ⟨hq, ?_⟩
      · exact absurd ((congrArg MxModule.tag h).symm.trans ht) nofun
      · obtain ⟨rfl, rfl⟩ := Prod.mk.inj hpos
        exact beq_iff_eq.mpr hm

/-- Whether a candidate is skipped does not depend on the candidates before it. -/
theorem overlapsFinder_putAlignment : overlapsFinder (putAlignment m r0 c0) r c = overlapsFinder m r c := by
  have h : ∀ r c, (((putAlignment m r0 c0).at r c).tag == .finder) = ((m.at r c).tag == .finder) := fun r c =>
    Bool.eq_iff_iff.mpr (by rw [beq_iff_eq, beq_iff_eq, putAlignment_finder_iff])
  simp only [overlapsFinder, h]

/-- The patterns of the candidates that overlap no finder, painted cell by cell. -/
theorem foldl_putAlignment_eq_paint (l : List (Nat × Nat)) :
    l.foldl (fun m p => putAlignment m p.1 p.2) m =
      m.paint alignmentPlace alignmentModule ((l.filter fun p => !overlapsFinder m p.1 p.2) ×ˢ squarePlaces 5) := by
  induction l generalizing m with
  | nil => rfl
  | cons p l ih =>
    rw [List.foldl_cons, ih]
    simp only [overlapsFinder_putAlignment]
    by_cases hover : overlapsFinder m p.1 p.2
    · rw [putAlignment, if_pos hover, List.filter_cons_of_neg (by simp [hover])]
    · rw [putAlignment, if_neg hover, List.filter_cons_of_pos (by simp [hover]), List.product_cons, Mx.paint, Mx.paint,
        List.foldl_append, List.foldl_map]
      rfl

/-- The matrix after steps 0 to 3 (44_matrix.md R211 to R216). -/
def alignedMatrix (v : Nat) : Mx := putAlignments v (timedMatrix (sideOf v))

/-- The centre of a skipped candidate is a finder module. -/
theorem timedMatrix_at_skippedCentre (hs : 21 ≤ side) (h : (r, c) ∈ skippedCentres side) :
    ((timedMatrix side).at r c).tag = .finder := by
  simp only [skippedCentres, List.mem_cons, Prod.mk.injEq, List.not_mem_nil, or_false] at h
  obtain ⟨p, hp, hr, hc⟩ : ∃ p ∈ finderCorners side, (r = p.1 + 6 ∨ r = p.1) ∧ (c = p.2 + 6 ∨ c = p.2) := by
    rcases h with ⟨rfl, rfl⟩ | ⟨rfl, rfl⟩ | ⟨rfl, rfl⟩
    · exact ⟨(0, 0), by simp [finderCorners]⟩
    · exact ⟨(0, side - 7), by simp [finderCorners]⟩
    · exact ⟨(side - 7, 0), by simp [finderCorners]⟩
  rw [timedMatrix_at_of_off_lines hs (by omega) (by omega),
    finderMatrix_at_of_inFrame hs (by omega) (by omega) hp ⟨by omega, by omega⟩, finderModule_of_pattern (by omega)]

/-- Exactly the three candidates are skipped (44_matrix.md R216). -/
theorem overlapsFinder_timedMatrix (hv : 1 ≤ v) (hv40 : v ≤ 40) (hr : r ∈ alignCoords v) (hc : c ∈ alignCoords v) :
    overlapsFinder (timedMatrix (sideOf v)) r c = decide ((r, c) ∈ skippedCentres (sideOf v)) := by
  have hside : 21 ≤ sideOf v := by rw [sideOf]; omega
  by_cases hskip : (r, c) ∈ skippedCentres (sideOf v)
  · rw [decide_eq_true hskip, overlapsFinder, List.any_eq_true]
    exact ⟨(2, 2), by decide, beq_iff_eq.mpr (timedMatrix_at_skippedCentre hside hskip)⟩
  · rw [decide_eq_false hskip, overlapsFinder, List.any_eq_false]
    rintro q hq hfinder
    have hcell : ((r, c), q) ∈ alignmentCells v :=
      mem_alignmentCells.mpr ⟨mem_placedCentres.mpr ⟨⟨hr, hc⟩, hskip⟩, mem_squarePlaces.mp hq⟩
    have hreach := inAlignmentReach_of_cell hv hv40 hcell rfl
    have htag := timedMatrix_tag_of_offFrames hside hreach.offFrames
    rw [beq_iff_eq] at hfinder
    rw [show _ = Tag.finder from hfinder] at htag
    split at htag <;> cases htag

theorem alignedMatrix_eq_paint (hv : 1 ≤ v) (hv40 : v ≤ 40) : alignedMatrix v =
    (timedMatrix (sideOf v)).paint alignmentPlace alignmentModule (alignmentCells v) := by
  have hplaced : (alignmentCentres v).filter (fun p => !overlapsFinder (timedMatrix (sideOf v)) p.1 p.2) =
      placedCentres v := by
    refine List.filter_congr fun p hp => ?_
    obtain ⟨hr, hc⟩ := mem_alignmentCentres.mp hp
    rw [overlapsFinder_timedMatrix hv hv40 hr hc, decide_not]
  rw [alignedMatrix, putAlignments, foldl_putAlignment_eq_paint, hplaced, alignmentCells]

/-- Each module of a placed pattern (44_matrix.md R214). -/
theorem alignedMatrix_at_of_cell (hv : 1 ≤ v) (hv40 : v ≤ 40) {a : (Nat × Nat) × (Nat × Nat)}
    (ha : a ∈ alignmentCells v) (hpos : alignmentPlace a = (r, c)) : (alignedMatrix v).at r c = alignmentModule a := by
  have hreach := inAlignmentReach_of_cell hv hv40 ha hpos
  rw [InAlignmentReach] at hreach
  rw [alignedMatrix_eq_paint hv hv40]
  refine Mx.at_paint_of_mem (timedMatrix_square (by rw [sideOf]; omega)) (by rw [sideOf]; omega)
    (by rw [sideOf]; omega) ha hpos fun b hb hb' => ?_
  rw [alignmentPlace_injOn hv hv40 hb ha (hb'.trans hpos.symm)]

theorem alignedMatrix_at_of_not_reach (hv : 1 ≤ v) (hv40 : v ≤ 40) (h : ¬ InAlignmentReach v r c) :
    (alignedMatrix v).at r c = (timedMatrix (sideOf v)).at r c := by
  rw [alignedMatrix_eq_paint hv hv40]
  exact Mx.at_paint_of_notMem fun a ha hpos => h (inAlignmentReach_of_cell hv hv40 ha hpos)

theorem alignedMatrix_at_cases (hv : 1 ≤ v) (hv40 : v ≤ 40) :
    (∃ a ∈ alignmentCells v, alignmentPlace a = (r, c) ∧ (alignedMatrix v).at r c = alignmentModule a) ∨
    (alignedMatrix v).at r c = (timedMatrix (sideOf v)).at r c := by
  rw [alignedMatrix_eq_paint hv hv40]
  exact (Mx.at_paint_cases _).symm

end Sys2Proof.Machine
end

section
/-! The reserved modules (44_matrix.md R217 to R220), and what every step of `MXFUNC` leaves in the finished matrix. -/

namespace Sys2Proof.Machine

variable {r c i side v : Nat}

/-! ## Format, version and dark modules (44_matrix.md R217, R218, R220) -/

/-- The format modules, by row and column (44_matrix.md R217). -/
theorem mem_formatPlaces (hs : 17 ≤ side) : (r, c) ∈ formatPlaces side ↔
    (c = 8 ∧ ((r ≤ 8 ∧ r ≠ 6) ∨ side ≤ r + 7 ∧ r < side)) ∨
    (r = 8 ∧ ((c ≤ 8 ∧ c ≠ 6) ∨ side ≤ c + 8 ∧ c < side)) := by
  rw [formatPlaces, List.mem_append, List.mem_map, List.mem_map]
  constructor
  · rintro (⟨i, hi, he⟩ | ⟨i, hi, he⟩) <;> rw [List.mem_range] at hi
    · rw [formatPosA] at he
      split_ifs at he <;> cases he <;> omega
    · rw [formatPosB] at he
      split_ifs at he <;> cases he <;> omega
  · have hA : ∀ k < 9, k ≠ 6 → (∃ i ∈ List.range 15, formatPosA i = (k, 8)) ∧
        ∃ i ∈ List.range 15, formatPosA i = (8, k) := by decide
    rintro (⟨rfl, ⟨hr, hr6⟩ | ⟨hr, hr'⟩⟩ | ⟨rfl, ⟨hc, hc6⟩ | ⟨hc, hc'⟩⟩)
    · exact .inl (hA r (by omega) hr6).1
    · refine .inr ⟨r + 15 - side, List.mem_range.mpr (by omega), ?_⟩
      rw [formatPosB, if_neg (by omega), Prod.mk.injEq]
      omega
    · exact .inl (hA c (by omega) hc6).2
    · refine .inr ⟨side - 1 - c, List.mem_range.mpr (by omega), ?_⟩
      rw [formatPosB, if_pos (by omega), Prod.mk.injEq]
      omega

/-- The version modules, by row and column (44_matrix.md R218). -/
theorem mem_versionPlaces (hs : 11 ≤ side) : (r, c) ∈ versionPlaces side ↔
    (r ≤ 5 ∧ side ≤ c + 11 ∧ c + 9 ≤ side) ∨ (c ≤ 5 ∧ side ≤ r + 11 ∧ r + 9 ≤ side) := by
  rw [versionPlaces, List.mem_append, List.mem_map, List.mem_map]
  constructor
  · rintro (⟨i, hi, he⟩ | ⟨i, hi, he⟩) <;> rw [List.mem_range] at hi <;> cases he <;> omega
  · rintro (⟨hr, hc, hc'⟩ | ⟨hc, hr, hr'⟩)
    · exact .inl ⟨3 * r + (c + 11 - side), List.mem_range.mpr (by omega), by rw [versionPosA, Prod.mk.injEq]; omega⟩
    · exact .inr ⟨3 * c + (r + 11 - side), List.mem_range.mpr (by omega), by rw [versionPosB, Prod.mk.injEq]; omega⟩

/-- The places steps 4 to 6 write (44_matrix.md R217, R218, R220). -/
def Reserved (v r c : Nat) : Prop :=
  (r, c) = (sideOf v - 8, 8) ∨ (r, c) ∈ formatPlaces (sideOf v) ∨ 7 ≤ v ∧ (r, c) ∈ versionPlaces (sideOf v)

/-- The matrix after steps 0 to 5 (44_matrix.md R211 to R218). -/
def reservedMatrix (v : Nat) : Mx := reserveVersion v (reserveFormat (sideOf v) (alignedMatrix v))

theorem functionMatrix_eq_putDark (v : Nat) : functionMatrix v = putDark (sideOf v) (reservedMatrix v) := rfl

theorem alignedMatrix_square (v : Nat) : (alignedMatrix v).square (sideOf v) := (alignedMatrix_sound v).1

theorem reservedMatrix_square (v : Nat) : (reservedMatrix v).square (sideOf v) := by
  rw [reservedMatrix, reserveVersion]
  split
  · exact foldl_keeps (fun m => Mx.square (sideOf v) m) (fun _ _ hm => Mx.put_square hm _ _ _) _ _
      (reserveFormat_square (alignedMatrix_square v))
  · exact reserveFormat_square (alignedMatrix_square v)

/-- Step 6 wins over every other (44_matrix.md R220). -/
theorem functionMatrix_at_dark (v : Nat) : (functionMatrix v).at (sideOf v - 8) 8 = ⟨true, .formatInfo⟩ := by
  rw [functionMatrix_eq_putDark, putDark,
    Mx.at_put_same (reservedMatrix_square v) (by rw [sideOf]; omega) (by rw [sideOf]; omega)]

theorem functionMatrix_at_of_ne_dark (h : (r, c) ≠ (sideOf v - 8, 8)) :
    (functionMatrix v).at r c = (reservedMatrix v).at r c := by
  rw [functionMatrix_eq_putDark, putDark, Mx.at_put_ne h]

/-- Step 5 (44_matrix.md R218). -/
theorem functionMatrix_at_version (h7 : 7 ≤ v) (hp : (r, c) ∈ versionPlaces (sideOf v)) :
    (functionMatrix v).at r c = ⟨false, .versionInfo⟩ := by
  obtain ⟨hr, hc, -, hc8⟩ := versionPlaces_bounds (by rw [sideOf]; omega) hp
  rw [functionMatrix_at_of_ne_dark fun he => hc8 (Prod.mk.inj he).2, reservedMatrix, reserveVersion, if_pos h7,
    Mx.at_foldl_put_of_mem (reserveFormat_square (alignedMatrix_square v)) hr hc _ hp]

/-- The dark module is not one of the format modules (44_matrix.md R220). -/
theorem dark_notMem_formatPlaces (v : Nat) : (sideOf v - 8, 8) ∉ formatPlaces (sideOf v) := by
  rw [mem_formatPlaces (by rw [sideOf]; omega), sideOf]
  omega

/-- Step 4 (44_matrix.md R217). -/
theorem functionMatrix_at_format (hp : (r, c) ∈ formatPlaces (sideOf v)) :
    (functionMatrix v).at r c = ⟨false, .formatInfo⟩ := by
  obtain ⟨hr, hc, -⟩ := formatPlaces_bounds (by simp [sideOf]) hp
  rw [functionMatrix_at_of_ne_dark fun he => dark_notMem_formatPlaces v (he ▸ hp), reservedMatrix,
    reserveVersion_at_format hp, reserveFormat, Mx.at_foldl_put_of_mem (alignedMatrix_square v) hr hc _ hp]

/-- Steps 4 and 5 leave every other place alone. -/
theorem reservedMatrix_at_of_notMem (hformat : (r, c) ∉ formatPlaces (sideOf v))
    (hversion : 7 ≤ v → (r, c) ∉ versionPlaces (sideOf v)) :
    (reservedMatrix v).at r c = (alignedMatrix v).at r c := by
  rw [reservedMatrix, reserveVersion]
  split
  · rename_i h7
    rw [Mx.at_foldl_put_of_notMem _ (hversion h7), reserveFormat, Mx.at_foldl_put_of_notMem _ hformat]
  · rw [reserveFormat, Mx.at_foldl_put_of_notMem _ hformat]

/-- Steps 4 to 6 leave every other place alone. -/
theorem functionMatrix_at_of_not_reserved (h : ¬ Reserved v r c) :
    (functionMatrix v).at r c = (alignedMatrix v).at r c := by
  rw [Reserved, not_or, not_or, not_and] at h
  obtain ⟨hdark, hformat, hversion⟩ := h
  rw [functionMatrix_at_of_ne_dark hdark, reservedMatrix_at_of_notMem hformat hversion]

/-- The rows and columns of the reserved places. -/
theorem Reserved.cases (h : Reserved v r c) :
    (c = 8 ∧ (r ≤ 8 ∧ r ≠ 6 ∨ 4 * v + 9 ≤ r ∧ r < 4 * v + 17)) ∨
    (r = 8 ∧ (c ≤ 8 ∧ c ≠ 6 ∨ 4 * v + 9 ≤ c ∧ c < 4 * v + 17)) ∨
    (7 ≤ v ∧ r ≤ 5 ∧ 4 * v + 6 ≤ c ∧ c ≤ 4 * v + 8) ∨ (7 ≤ v ∧ c ≤ 5 ∧ 4 * v + 6 ≤ r ∧ r ≤ 4 * v + 8) := by
  rcases h with he | hp | ⟨h7, hp⟩
  · obtain ⟨rfl, rfl⟩ := Prod.mk.inj he
    rw [sideOf]
    omega
  · rw [mem_formatPlaces (by rw [sideOf]; omega), sideOf] at hp
    omega
  · rw [mem_versionPlaces (by rw [sideOf]; omega), sideOf] at hp
    omega

/-! ## The patterns of the whole matrix -/

/-- A finder frame keeps what step 1 drew, its pattern and its separator (44_matrix.md R212). -/
theorem functionMatrix_at_of_inFrame (hv : 1 ≤ v) (hv40 : v ≤ 40) (hr : r < sideOf v) (hc : c < sideOf v)
    {r0 c0 : Nat} (hp : (r0, c0) ∈ finderCorners (sideOf v)) (hin : InFrame r0 c0 r c) :
    (functionMatrix v).at r c = finderModule (r + 1 - r0) (c + 1 - c0) := by
  have hbounds := hin
  have hp' := hp
  simp only [finderCorners, sideOf, List.mem_cons, Prod.mk.injEq, List.not_mem_nil, or_false, InFrame] at hbounds hp'
  rw [sideOf] at hr hc
  rw [functionMatrix_at_of_not_reserved fun h => by have := h.cases; omega,
    alignedMatrix_at_of_not_reach hv hv40 (by rw [InAlignmentReach]; omega),
    timedMatrix_at_of_off_lines (by rw [sideOf]; omega) (by rw [sideOf]; omega) (by rw [sideOf]; omega),
    finderMatrix_at_of_inFrame (by rw [sideOf]; omega) (by rw [sideOf]; omega) (by rw [sideOf]; omega) hp hin]

/-- The alignment patterns keep what step 3 drew (44_matrix.md R214). -/
theorem functionMatrix_at_of_cell (hv : 1 ≤ v) (hv40 : v ≤ 40) {a : (Nat × Nat) × (Nat × Nat)}
    (ha : a ∈ alignmentCells v) (hpos : alignmentPlace a = (r, c)) : (functionMatrix v).at r c = alignmentModule a := by
  have hreach := inAlignmentReach_of_cell hv hv40 ha hpos
  rw [InAlignmentReach] at hreach
  rw [functionMatrix_at_of_not_reserved fun h => by have := h.cases; omega, alignedMatrix_at_of_cell hv hv40 ha hpos]

/-- Where an alignment pattern lies across a timing pattern it has the same values (44_matrix.md R216). -/
theorem alignmentModule_val_of_line (hv : 1 ≤ v) (hv40 : v ≤ 40) {a : (Nat × Nat) × (Nat × Nat)}
    (ha : a ∈ alignmentCells v) (hpos : alignmentPlace a = (6, i) ∨ alignmentPlace a = (i, 6)) :
    (alignmentModule a).val = (i % 2 == 0) := by
  obtain ⟨⟨r, c⟩, k, l⟩ := a
  obtain ⟨hp, hk, hl⟩ := mem_alignmentCells.mp ha
  obtain ⟨⟨hr, hc⟩, -⟩ := mem_placedCentres.mp hp
  have hr6 := alignCoords_cases hv hv40 hr
  have hc6 := alignCoords_cases hv hv40 hc
  have hcross : ∀ k < 5, alignmentRing k 2 = (k % 2 == 0) ∧ alignmentRing 2 k = (k % 2 == 0) := by decide
  dsimp only at hk hl
  rcases hpos with hpos | hpos <;> obtain ⟨hrow, hcol⟩ := Prod.mk.inj hpos <;> dsimp only at hrow hcol
  · obtain rfl : k = 2 := by omega
    rw [alignmentModule, (hcross l hl).2, show i % 2 = l % 2 by omega]
  · obtain rfl : l = 2 := by omega
    rw [alignmentModule, (hcross k hk).1, show i % 2 = k % 2 by omega]

/-- A place of a timing pattern holds a timing module, or an alignment module of the same value (44_matrix.md R213,
R216). -/
theorem functionMatrix_at_line (hv : 1 ≤ v) (hv40 : v ≤ 40) (hi : 8 ≤ i) (hi8 : i + 8 < sideOf v)
    (hline : (r, c) = (6, i) ∨ (r, c) = (i, 6)) : ((functionMatrix v).at r c).val = (i % 2 == 0) ∧
      (((functionMatrix v).at r c).tag = .timing ∨ ((functionMatrix v).at r c).tag = .alignment) := by
  have hside : 21 ≤ sideOf v := by rw [sideOf]; omega
  have hres : ¬ Reserved v r c := fun h => by
    have := h.cases
    rw [sideOf] at hi8
    rcases hline with he | he <;> cases he <;> omega
  rw [functionMatrix_at_of_not_reserved hres]
  rcases alignedMatrix_at_cases (r := r) (c := c) hv hv40 with ⟨a, ha, hpos, h⟩ | h <;> rw [h]
  · exact ⟨alignmentModule_val_of_line hv hv40 ha (hline.imp hpos.trans hpos.trans), .inr rfl⟩
  · have htimed : (timedMatrix (sideOf v)).at r c = timingModule i := by
      rcases hline with he | he <;> cases he
      · exact timedMatrix_at_row hside hi hi8
      · exact timedMatrix_at_column hside hi hi8
    rw [htimed]
    exact ⟨rfl, .inl rfl⟩

end Sys2Proof.Machine
end

section
/-! The function matrix as a whole: the places and values of its patterns, and the order of its data modules. -/

namespace Sys2Proof.Machine

variable {r c i j v : Nat}

section
variable (hv : 1 ≤ v) (hv40 : v ≤ 40)
include hv hv40

/-- The three finder patterns (44_matrix.md R212). -/
theorem functionMatrix_at_finder {p : Nat × Nat} (hp : p ∈ finderCorners (sideOf v)) (hi : i < 7) (hj : j < 7) :
    (functionMatrix v).at (p.1 + i) (p.2 + j) = ⟨finderRing i j, .finder⟩ := by
  have hbounds : p.1 + 7 ≤ sideOf v ∧ p.2 + 7 ≤ sideOf v := by
    simp only [finderCorners, List.mem_cons, List.not_mem_nil, or_false, sideOf] at hp ⊢
    rcases hp with rfl | rfl | rfl <;> dsimp only <;> omega
  rw [functionMatrix_at_of_inFrame hv hv40 (by omega) (by omega) hp ⟨by omega, by omega⟩,
    finderModule_of_pattern (by omega), show p.1 + i + 1 - p.1 - 1 = i by omega,
    show p.2 + j + 1 - p.2 - 1 = j by omega]

/-- The separators: the row and the column beside each finder pattern (44_matrix.md R212). -/
theorem functionMatrix_at_separator (hi : i < 8) {p : Nat × Nat}
    (hp : p ∈ [(7, i), (i, 7), (7, sideOf v - 8 + i), (i, sideOf v - 8), (sideOf v - 8, i), (sideOf v - 8 + i, 7)]) :
    (functionMatrix v).at p.1 p.2 = ⟨false, .separator⟩ := by
  obtain ⟨q, hq, hin, hedge⟩ : ∃ q ∈ finderCorners (sideOf v), InFrame q.1 q.2 p.1 p.2 ∧
      (p.1 + 1 - q.1 = 0 ∨ p.1 + 1 - q.1 = 8 ∨ p.2 + 1 - q.2 = 0 ∨ p.2 + 1 - q.2 = 8) := by
    simp only [finderCorners, List.exists_mem_cons_iff, InFrame, List.not_mem_nil, false_and, exists_false, or_false]
    simp only [List.mem_cons, List.not_mem_nil, or_false, sideOf] at hp ⊢
    rcases hp with rfl | rfl | rfl | rfl | rfl | rfl <;> dsimp only <;> omega
  have hbounds : p.1 < sideOf v ∧ p.2 < sideOf v := by
    simp only [List.mem_cons, List.not_mem_nil, or_false, sideOf] at hp ⊢
    rcases hp with rfl | rfl | rfl | rfl | rfl | rfl <;> dsimp only <;> omega
  rw [functionMatrix_at_of_inFrame hv hv40 hbounds.1 hbounds.2 hq hin, finderModule_of_separator hedge]

/-- Every alignment pattern but the three skipped (44_matrix.md R214, R216). -/
theorem functionMatrix_at_alignment (hr : r ∈ alignCoords v) (hc : c ∈ alignCoords v)
    (hskip : (r, c) ∉ skippedCentres (sideOf v)) (hi : i < 5) (hj : j < 5) :
    (functionMatrix v).at (r + i - 2) (c + j - 2) = ⟨alignmentRing i j, .alignment⟩ :=
  functionMatrix_at_of_cell hv hv40 (a := ((r, c), (i, j)))
    (mem_alignmentCells.mpr ⟨mem_placedCentres.mpr ⟨⟨hr, hc⟩, hskip⟩, hi, hj⟩) rfl

end

/-- Settles O44: each step's patterns are drawn at their places, and no later step writes there. -/
theorem mxfuncDrawsPatterns : Obligations.MxfuncDrawsPatterns := by
  unfold Obligations.MxfuncDrawsPatterns
  refine ⟨fun s hf hp => Stage.mxfunc.exec_of_ok hf (State.buildFunction_ok.mpr ⟨hp, rfl⟩),
    fun s hf hp => Stage.mxfunc.exec_of_error hf (State.inPhase_ne hp _), fun v hv hv40 => ?_⟩
  have hformat {r c : Nat} (h : (c = 8 ∧ ((r ≤ 8 ∧ r ≠ 6) ∨ sideOf v ≤ r + 7 ∧ r < sideOf v)) ∨
      (r = 8 ∧ ((c ≤ 8 ∧ c ≠ 6) ∨ sideOf v ≤ c + 8 ∧ c < sideOf v))) :
      (functionMatrix v).at r c = ⟨false, .formatInfo⟩ :=
    functionMatrix_at_format ((mem_formatPlaces (by rw [sideOf]; omega)).mpr h)
  obtain ⟨hrows, hcols⟩ := (functionMatrix_sound v).1
  refine ⟨hrows, hcols, fun p hp i hi j hj => functionMatrix_at_finder hv hv40 hp hi hj,
    fun i hi p hp => functionMatrix_at_separator hv hv40 hi hp, fun i hi hi8 => ?_,
    fun r hr c hc hskip i hi j hj => functionMatrix_at_alignment hv hv40 hr hc hskip hi hj,
    fun p hp => functionMatrix_at_format (List.mem_append_left _ hp),
    fun i hi => hformat (.inr ⟨rfl, by rw [sideOf]; omega⟩), fun i hi => hformat (.inl ⟨rfl, by rw [sideOf]; omega⟩),
    functionMatrix_at_dark v, fun h7 i hi j hj => ⟨?_, ?_⟩⟩
  · obtain ⟨hrow, hrowTag⟩ := functionMatrix_at_line hv hv40 hi (by rw [sideOf]; omega) (.inl rfl)
    obtain ⟨hcol, hcolTag⟩ := functionMatrix_at_line hv hv40 hi (by rw [sideOf]; omega) (.inr rfl)
    exact ⟨hrow, hcol, hrowTag, hcolTag⟩
  · exact functionMatrix_at_version h7 ((mem_versionPlaces (by rw [sideOf]; omega)).mpr (by rw [sideOf]; omega))
  · exact functionMatrix_at_version h7 ((mem_versionPlaces (by rw [sideOf]; omega)).mpr (by rw [sideOf]; omega))

/-! ## The placement order of the function matrix -/

/-- Column 6 holds no data module: the walk may leave it out (44_matrix.md R222). -/
theorem functionMatrix_column_six (hv : 1 ≤ v) (hv40 : v ≤ 40) (hr : r < sideOf v) :
    ((functionMatrix v).at r 6).tag ≠ .data := by
  by_cases hoff : OffFrames (sideOf v) r 6
  · rw [OffFrames] at hoff
    obtain ⟨-, h | h⟩ := functionMatrix_at_line hv hv40 (i := r) (by omega) (by omega) (.inr rfl) <;> rw [h] <;> nofun
  · obtain ⟨p, hp, hin⟩ := exists_inFrame_of_not_offFrames hr (by rw [sideOf]; omega) hoff
    rw [functionMatrix_at_of_inFrame hv hv40 hr (by rw [sideOf]; omega) hp hin]
    exact finderModule_tag_ne_data _ _

/-- Settles O46: the walk meets every place off column 6 once, and column 6 holds no data module. -/
theorem placementOrderComplete : Obligations.PlacementOrderComplete := by
  unfold Obligations.PlacementOrderComplete
  refine fun v hv hv40 => ⟨placementOrder_nodup, fun r c => ?_⟩
  rw [mem_placementOrder]
  constructor
  · rintro ⟨hwalk, hdata⟩
    obtain ⟨hr, hc⟩ := bounds_of_mem_walk hwalk
    exact ⟨hr, hc, hdata⟩
  · rintro ⟨hr, hc, hdata⟩
    refine ⟨mem_walk_of_ne hr hc ?_, hdata⟩
    rintro rfl
    exact functionMatrix_column_six hv hv40 hr hdata

end Sys2Proof.Machine
end

section
/-! How many modules of each tag the function matrix holds (44_matrix.md R219, R224 (b)): each step of `MXFUNC` paints
distinct places whose tags are known, so it moves known numbers of modules from one tag to another. -/

namespace Sys2Proof.Machine

variable {α : Type} {m : Mx} {n r c r0 c0 i side : Nat} {t : Tag}

/-! ## Counting -/

/-- The number of modules with a tag. -/
def Mx.tagCount (t : Tag) (m : Mx) : Nat := (m.map fun row => row.countP fun x => x.tag == t).sum

/-- A sum after one term is replaced. -/
theorem sum_set_add_getElem (l : List Nat) (h : i < l.length) (a : Nat) : (l.set i a).sum + l[i] = l.sum + a := by
  have hset := List.sum_set l i a
  have hself := List.sum_set l i l[i]
  rw [List.set_getElem_self] at hself
  rw [if_pos h] at hset hself
  omega

/-- A count after one element is replaced. -/
theorem countP_set_add (p : α → Bool) (l : List α) (h : i < l.length) (a : α) :
    (l.set i a).countP p + (if p l[i] then 1 else 0) = l.countP p + (if p a then 1 else 0) := by
  rw [List.countP_set h]
  by_cases hp : p l[i] = true
  · have hpos : 0 < l.countP p := List.countP_pos_iff.mpr ⟨l[i], List.getElem_mem h, hp⟩
    rw [if_pos hp]
    omega
  · rw [if_neg hp]
    omega

/-- Writing a module takes one from its old tag and gives one to its new tag. -/
theorem Mx.tagCount_put (h : m.square n) (hr : r < n) (hc : c < n) (x : MxModule) :
    (m.put r c x).tagCount t + (if (m.at r c).tag == t then 1 else 0) =
      m.tagCount t + (if x.tag == t then 1 else 0) := by
  have hrl : r < m.length := by rw [h.1]; exact hr
  have hcl : c < (m[r]).length := by rw [h.2 _ (List.getElem_mem hrl)]; exact hc
  have hrow := countP_set_add (fun x : MxModule => x.tag == t) m[r] hcl x
  have hsum := sum_set_add_getElem (m.map fun row => row.countP fun x => x.tag == t) (i := r) (by simpa using hrl)
    ((m[r].set c x).countP fun x => x.tag == t)
  rw [List.getElem_map, ← List.map_set] at hsum
  rw [Mx.tagCount, Mx.tagCount, Mx.put, Mx.at, List.getD_eq_getElem _ _ hrl, List.getD_eq_getElem _ _ hcl]
  omega

/-- How painting distinct places of the square changes the counts. -/
theorem Mx.tagCount_paint {pos : α → Nat × Nat} {x : α → MxModule} {l : List α} (h : m.square n)
    (hin : ∀ a ∈ l, (pos a).1 < n ∧ (pos a).2 < n) (hnd : (l.map pos).Nodup) :
    (m.paint pos x l).tagCount t + l.countP (fun a => (m.at (pos a).1 (pos a).2).tag == t) =
      m.tagCount t + l.countP (fun a => (x a).tag == t) := by
  induction l generalizing m with
  | nil => rfl
  | cons a l ih =>
    rw [List.map_cons, List.nodup_cons] at hnd
    obtain ⟨ha, hnd⟩ := hnd
    obtain ⟨har, hac⟩ := hin a List.mem_cons_self
    have hrest : l.countP (fun b => ((m.put (pos a).1 (pos a).2 (x a)).at (pos b).1 (pos b).2).tag == t) =
        l.countP (fun b => (m.at (pos b).1 (pos b).2).tag == t) :=
      List.countP_congr fun b hb => by rw [Mx.at_put_of_ne fun he => ha (List.mem_map.mpr ⟨b, hb, he⟩)]
    have hput := Mx.tagCount_put (t := t) h har hac (x a)
    have hpaint := ih (Mx.put_square h (pos a).1 (pos a).2 (x a)) (fun b hb => hin b (List.mem_cons_of_mem _ hb)) hnd
    rw [hrest] at hpaint
    rw [Mx.paint_cons, List.countP_cons, List.countP_cons]
    omega

/-- A list whose elements have one tag. -/
theorem countP_tag_of_forall {g : α → Tag} {u : Tag} {l : List α} (h : ∀ a ∈ l, g a = u) :
    l.countP (fun a => g a == t) = if t = u then l.length else 0 := by
  split
  · rename_i htu
    exact List.countP_eq_length.mpr fun a ha => beq_iff_eq.mpr ((h a ha).trans htu.symm)
  · rename_i htu
    exact List.countP_eq_zero.mpr fun a ha he => htu ((beq_iff_eq.mp he).symm.trans (h a ha))

/-- Painting distinct places of one tag in another. -/
theorem Mx.tagCount_paint_const {pos : α → Nat × Nat} {x : α → MxModule} {l : List α} {old new : Tag}
    (h : m.square n) (hin : ∀ a ∈ l, (pos a).1 < n ∧ (pos a).2 < n) (hnd : (l.map pos).Nodup)
    (hold : ∀ a ∈ l, (m.at (pos a).1 (pos a).2).tag = old) (hnew : ∀ a ∈ l, (x a).tag = new) :
    (m.paint pos x l).tagCount t + (if t = old then l.length else 0) =
      m.tagCount t + (if t = new then l.length else 0) := by
  have hpaint := Mx.tagCount_paint (t := t) (x := x) h hin hnd
  rwa [countP_tag_of_forall hold, countP_tag_of_forall hnew] at hpaint

/-! ## Finder patterns -/

theorem blankMatrix_tagCount (side : Nat) : (blankMatrix side).tagCount t = if t = .data then side * side else 0 := by
  rw [Mx.tagCount, blankMatrix, List.map_replicate, List.sum_replicate, smul_eq_mul,
    countP_tag_of_forall (u := .data) fun x hx => by rw [List.eq_of_mem_replicate hx]; rfl, List.length_replicate]
  split <;> rfl

/-- A place outside the square is dropped (44_matrix.md R210). -/
theorem Mx.put_of_outside (h : m.square n) (hout : ¬ (r < n ∧ c < n)) (x : MxModule) : m.put r c x = m := by
  by_cases hr : r < m.length
  · have hcol : (m[r]).length ≤ c := by
      rw [h.2 _ (List.getElem_mem hr)]
      rw [h.1] at hr
      omega
    rw [Mx.put, List.getD_eq_getElem _ _ hr, List.set_eq_of_length_le hcol, List.set_getElem_self]
  · rw [Mx.put, List.set_eq_of_length_le (by omega)]

/-- Painting is painting inside the square. -/
theorem Mx.paint_filter_inside {pos : α → Nat × Nat} {x : α → MxModule} {l : List α} (h : m.square n) :
    m.paint pos x (l.filter fun a => (pos a).1 < n ∧ (pos a).2 < n) = m.paint pos x l := by
  induction l generalizing m with
  | nil => rfl
  | cons a l ih =>
    by_cases ha : (pos a).1 < n ∧ (pos a).2 < n
    · rw [List.filter_cons_of_pos (by simpa using ha)]
      exact ih (Mx.put_square h _ _ _)
    · rw [List.filter_cons_of_neg (by simpa using ha), ih h, Mx.paint_cons, Mx.put_of_outside h ha]

/-- The modules of a finder pattern and its separator: 49 and 15 (44_matrix.md R212). -/
def frameCount : Tag → Nat
  | .finder => 49
  | .separator => 15
  | _ => 0

theorem squarePlaces_nodup : (squarePlaces n).Nodup := List.nodup_range.product List.nodup_range

/-- The offsets of a finder pattern's frame that lie in the matrix. -/
def innerFrameCells (side r0 c0 : Nat) : List (Nat × Nat) :=
  (frameCells r0 c0).filter fun p => r0 + p.1 - 1 < side ∧ c0 + p.2 - 1 < side

/-- The offsets of a frame at the matrix's edges: on each axis one outer line is left out, the first one at the near
edge and the last one at the far edge. -/
def edgeCells (near near' : Bool) : List (Nat × Nat) :=
  (squarePlaces 9).filter fun p => (if near then 1 ≤ p.1 else p.1 ≤ 7) ∧ (if near' then 1 ≤ p.2 else p.2 ≤ 7)

theorem innerFrameCells_eq (hs : 21 ≤ side) (hp : (r0, c0) ∈ finderCorners side) :
    innerFrameCells side r0 c0 = edgeCells (r0 == 0) (c0 == 0) := by
  simp only [finderCorners, List.mem_cons, Prod.mk.injEq, List.not_mem_nil, or_false] at hp
  rw [innerFrameCells, frameCells, List.filter_filter, edgeCells]
  refine List.filter_congr fun p hp9 => ?_
  obtain ⟨hi, hj⟩ := mem_squarePlaces.mp hp9
  rw [← Bool.decide_and, decide_eq_decide]
  rcases hp with ⟨rfl, rfl⟩ | ⟨rfl, rfl⟩ | ⟨rfl, rfl⟩ <;> simp only [beq_iff_eq] <;> split_ifs <;> omega

theorem edgeCells_length (near near' : Bool) : (edgeCells near near').length = 64 := by
  decide +revert +kernel

theorem edgeCells_count (near near' : Bool) (t : Tag) :
    (edgeCells near near').countP (fun p => (finderModule p.1 p.2).tag == t) = frameCount t := by
  cases t <;> decide +revert +kernel

/-- A finder pattern drawn on data modules (44_matrix.md R212). -/
theorem putFinder_tagCount (hs : 21 ≤ side) (h : m.square side) (hp : (r0, c0) ∈ finderCorners side)
    (hdata : ∀ r c, r < side → c < side → InFrame r0 c0 r c → (m.at r c).tag = .data) :
    (putFinder m r0 c0).tagCount t + (if t = .data then 64 else 0) = m.tagCount t + frameCount t := by
  have hlength := edgeCells_length (r0 == 0) (c0 == 0)
  have hcount := edgeCells_count (r0 == 0) (c0 == 0) t
  rw [← innerFrameCells_eq hs hp] at hlength hcount
  have hmem : ∀ p ∈ innerFrameCells side r0 c0, ((p.1 < 9 ∧ p.2 < 9) ∧ 1 ≤ r0 + p.1 ∧ 1 ≤ c0 + p.2) ∧
      r0 + p.1 - 1 < side ∧ c0 + p.2 - 1 < side := by
    intro p hp
    obtain ⟨hp, hin⟩ := List.mem_filter.mp hp
    exact ⟨mem_frameCells.mp hp, of_decide_eq_true hin⟩
  have hnd : ((innerFrameCells side r0 c0).map fun p => (r0 + p.1 - 1, c0 + p.2 - 1)).Nodup := by
    refine List.Nodup.map_on (fun p hp q hq he => ?_) ?_
    · have := hmem p hp
      have := hmem q hq
      obtain ⟨hr, hc⟩ := Prod.mk.inj he
      exact Prod.ext (by omega) (by omega)
    · exact (squarePlaces_nodup.filter _).filter _
  have hpaint := Mx.tagCount_paint (t := t) (x := fun p => finderModule p.1 p.2) h
    (fun p hp => (hmem p hp).2) hnd
  rw [hcount, countP_tag_of_forall (u := .data) fun p hp => ?_, hlength] at hpaint
  · rwa [innerFrameCells, Mx.paint_filter_inside h, ← putFinder_eq_paint] at hpaint
  · have := hmem p hp
    exact hdata _ _ (by omega) (by omega) ⟨by omega, by omega⟩

/-- The three finder patterns (44_matrix.md R212). -/
theorem finderMatrix_tagCount (hs : 21 ≤ side) : (finderMatrix side).tagCount t + (if t = .data then 3 * 64 else 0) =
    (if t = .data then side * side else 0) + 3 * frameCount t := by
  have hblank := (blankMatrix_sound side).1
  have htl := putFinder_tagCount (t := t) hs hblank (r0 := 0) (c0 := 0) (by simp [finderCorners])
    fun r c _ _ _ => by rw [blankMatrix_at]; rfl
  have htr := putFinder_tagCount (t := t) hs (putFinder_square hblank 0 0) (r0 := 0) (c0 := side - 7)
    (by simp [finderCorners]) fun r c _ _ hin => by
      rw [InFrame] at hin
      rw [putFinder_at_of_not_inFrame (by rw [InFrame]; omega), blankMatrix_at]
      rfl
  have hbl := putFinder_tagCount (t := t) hs (putFinder_square (putFinder_square hblank 0 0) 0 (side - 7))
    (r0 := side - 7) (c0 := 0) (by simp [finderCorners]) fun r c _ _ hin => by
      rw [InFrame] at hin
      rw [putFinder_at_of_not_inFrame (by rw [InFrame]; omega), putFinder_at_of_not_inFrame (by rw [InFrame]; omega),
        blankMatrix_at]
      rfl
  rw [blankMatrix_tagCount] at htl
  rw [finderMatrix, putFinders]
  split_ifs at * <;> omega

/-! ## Timing patterns -/

theorem timingIndices_nodup : (timingIndices side).Nodup := List.nodup_range.filter _

theorem timingIndices_length (hs : 21 ≤ side) : (timingIndices side).length = side - 16 := by
  have hset : (timingIndices side).toFinset = Finset.Ico 8 (side - 8) := by
    ext i
    rw [List.mem_toFinset, mem_timingIndices, Finset.mem_Ico]
    omega
  rw [← List.toFinset_card_of_nodup timingIndices_nodup, hset, Nat.card_Ico]
  omega

/-- The two timing patterns are drawn on data modules (44_matrix.md R213). -/
theorem timedMatrix_tagCount (hs : 21 ≤ side) :
    (timedMatrix side).tagCount t + (if t = .data then 2 * (side - 16) else 0) =
      (finderMatrix side).tagCount t + (if t = .timing then 2 * (side - 16) else 0) := by
  have hnd := timingIndices_nodup (side := side)
  have hin : ∀ i ∈ timingIndices side, 6 < side ∧ i < side := fun i hi => by
    have := mem_timingIndices.mp hi
    omega
  have hdata : ∀ i ∈ timingIndices side, ((finderMatrix side).at 6 i).tag = .data ∧
      ((finderMatrix side).at i 6).tag = .data := fun i hi => by
    have := mem_timingIndices.mp hi
    rw [finderMatrix_tag_data_iff hs (by omega) (by omega), finderMatrix_tag_data_iff hs (by omega) (by omega),
      OffFrames, OffFrames]
    omega
  have hrow := Mx.tagCount_paint_const (t := t) (pos := fun i => (6, i)) (x := timingModule) (finderMatrix_square side)
    hin (hnd.map fun i k h => (Prod.mk.inj h).2) (fun i hi => (hdata i hi).1) fun _ _ => rfl
  have hcol := Mx.tagCount_paint_const (t := t) (pos := fun i => (i, 6)) (x := timingModule) (old := .data)
    (Mx.paint_square (pos := fun i => (6, i)) (x := timingModule) (l := timingIndices side) (finderMatrix_square side))
    (fun i hi => (hin i hi).symm) (hnd.map fun i k h => (Prod.mk.inj h).1) (fun i hi => by
      rw [Mx.at_paint_of_notMem fun k hk he => ?_]
      · exact (hdata i hi).2
      · have := mem_timingIndices.mp hi
        obtain ⟨h6, -⟩ := Prod.mk.inj he
        omega) fun _ _ => rfl
  rw [← timedMatrix_eq_paint hs, timingIndices_length hs] at hcol
  rw [timingIndices_length hs] at hrow
  split_ifs at * <;> omega

end Sys2Proof.Machine
end

section
/-! The counts of the alignment, format and version modules, and the codewords the data modules carry (44_matrix.md
R219, R224 (b), 11_rom_tables.md R70, R71). -/

namespace Sys2Proof.Machine

variable {α β : Type} {r c side v : Nat} {t : Tag}

/-! ## Alignment patterns -/

/-- A list whose elements have one of two tags. -/
theorem countP_tag_of_ite {g : α → Tag} {q : α → Bool} {u w : Tag} {l : List α} (huw : u ≠ w)
    (h : ∀ a ∈ l, g a = if q a then u else w) :
    l.countP (fun a => g a == t) + (if t = w then l.countP q else 0) =
      (if t = u then l.countP q else 0) + (if t = w then l.length else 0) := by
  by_cases hu : t = u
  · subst hu
    rw [if_neg huw, if_pos rfl, if_neg huw]
    exact List.countP_congr fun a ha => by rw [h a ha]; cases q a <;> simp [huw.symm]
  · rw [if_neg hu]
    split
    · rename_i hw
      subst hw
      rw [l.length_eq_countP_add_countP q, Nat.zero_add, Nat.add_comm]
      refine congrArg _ (List.countP_congr fun a ha => ?_)
      rw [h a ha]
      cases q a <;> simp [huw]
    · rename_i hw
      rw [List.countP_eq_zero.mpr fun a ha => ?_]
      rw [h a ha]
      cases q a <;> simp [Ne.symm hu, Ne.symm hw]

/-- A count over pairs, if every first component's count is a constant or zero. -/
theorem countP_product_of_forall {p : α × β → Bool} {q : α → Bool} {l : List α} {l' : List β} {k : Nat}
    (h : ∀ a ∈ l, l'.countP (fun b => p (a, b)) = if q a then k else 0) :
    (l ×ˢ l').countP p = k * l.countP q := by
  induction l with
  | nil => rfl
  | cons a l ih =>
    rw [List.product_cons, List.countP_append, List.countP_map, ih fun b hb => h b (List.mem_cons_of_mem _ hb),
      List.countP_cons, show p ∘ Prod.mk a = fun b => p (a, b) from rfl, h a List.mem_cons_self]
    split
    · rw [Nat.mul_add, Nat.mul_one, Nat.add_comm]
    · rw [Nat.zero_add, Nat.add_zero]

/-- The place is on row 6 or column 6. -/
def onTimingLine (p : Nat × Nat) : Bool := p.1 == 6 || p.2 == 6

theorem onTimingLine_iff {p : Nat × Nat} : onTimingLine p = true ↔ p.1 = 6 ∨ p.2 = 6 := by
  rw [onTimingLine, Bool.or_eq_true, beq_iff_eq, beq_iff_eq]

/-- How many candidates get a pattern, and how many of these lie across a timing pattern (44_matrix.md R216). -/
theorem placedCentres_count (hv : 1 ≤ v) (hv40 : v ≤ 40) :
    (placedCentres v).length = (alignCoords v).length * (alignCoords v).length - 3 ∧
    (placedCentres v).countP onTimingLine = 2 * ((alignCoords v).length - 2) := by
  decide +revert +kernel

/-- The modules of the alignment patterns. -/
theorem alignmentCells_length (v : Nat) : (alignmentCells v).length = 25 * (placedCentres v).length := by
  rw [alignmentCells, List.length_product, Nat.mul_comm, show (squarePlaces 5).length = 25 by decide]

/-- A pattern across a timing pattern covers five of its modules (44_matrix.md R216). -/
theorem alignmentCells_countP_line (hv : 1 ≤ v) (hv40 : v ≤ 40) :
    (alignmentCells v).countP (fun a => onTimingLine (alignmentPlace a)) = 10 * ((alignCoords v).length - 2) := by
  have hcount : ∀ p ∈ placedCentres v, (squarePlaces 5).countP (fun q => onTimingLine (alignmentPlace (p, q))) =
      if onTimingLine p then 5 else 0 := by
    rintro ⟨r, c⟩ hp
    rcases placedCentre_cases hv hv40 hp with ⟨rfl, hc, -⟩ | ⟨rfl, hr, -⟩ | ⟨⟨hr, -⟩, hc, -⟩
    · rw [if_pos (onTimingLine_iff.mpr (.inl rfl)), ← show (squarePlaces 5).countP (fun q => q.1 == 2) = 5 by decide]
      refine List.countP_congr fun q _ => ?_
      simp only [alignmentPlace, onTimingLine_iff, beq_iff_eq]
      omega
    · rw [if_pos (onTimingLine_iff.mpr (.inr rfl)), ← show (squarePlaces 5).countP (fun q => q.2 == 2) = 5 by decide]
      refine List.countP_congr fun q _ => ?_
      simp only [alignmentPlace, onTimingLine_iff, beq_iff_eq]
      omega
    · rw [if_neg (by rw [onTimingLine_iff]; omega)]
      refine List.countP_eq_zero.mpr fun q _ => ?_
      rw [onTimingLine_iff, alignmentPlace]
      dsimp only
      omega
  rw [alignmentCells, countP_product_of_forall hcount, (placedCentres_count hv hv40).2]
  omega

theorem alignmentCells_nodup (hv : 1 ≤ v) (hv40 : v ≤ 40) : (alignmentCells v).Nodup := by
  have hcoords : (alignCoords v).Nodup := (alignCoords_pairwise hv hv40).imp fun h he => by omega
  exact ((hcoords.product hcoords).filter _).product squarePlaces_nodup

/-- The alignment patterns are drawn on data modules and, where they lie across a timing pattern, on its modules
(44_matrix.md R216). -/
theorem alignedMatrix_tagCount (hv : 1 ≤ v) (hv40 : v ≤ 40) :
    (alignedMatrix v).tagCount t + (if t = .data then 25 * (placedCentres v).length else 0) +
        (if t = .timing then 10 * ((alignCoords v).length - 2) else 0) =
      (timedMatrix (sideOf v)).tagCount t + (if t = .data then 10 * ((alignCoords v).length - 2) else 0) +
        (if t = .alignment then 25 * (placedCentres v).length else 0) := by
  have hside : 21 ≤ sideOf v := by rw [sideOf]; omega
  have hreach {a : (Nat × Nat) × (Nat × Nat)} (ha : a ∈ alignmentCells v) :
      InAlignmentReach v (alignmentPlace a).1 (alignmentPlace a).2 := inAlignmentReach_of_cell hv hv40 ha rfl
  have hin : ∀ a ∈ alignmentCells v, (alignmentPlace a).1 < sideOf v ∧ (alignmentPlace a).2 < sideOf v := fun a ha => by
    have h := hreach ha
    rw [InAlignmentReach] at h
    rw [sideOf]
    omega
  have hnd : ((alignmentCells v).map alignmentPlace).Nodup :=
    (alignmentCells_nodup hv hv40).map_on fun a ha b hb h => alignmentPlace_injOn hv hv40 ha hb h
  have hold := countP_tag_of_ite (t := t) (q := fun a => onTimingLine (alignmentPlace a)) (u := .timing) (w := .data)
    (l := alignmentCells v) (g := fun a => ((timedMatrix (sideOf v)).at (alignmentPlace a).1 (alignmentPlace a).2).tag)
    nofun fun a ha => by rw [timedMatrix_tag_of_offFrames hside (hreach ha).offFrames]; simp only [onTimingLine_iff]
  have hnew := countP_tag_of_forall (t := t) (g := fun a => (alignmentModule a).tag) (u := .alignment)
    (l := alignmentCells v) fun _ _ => rfl
  have hpaint := Mx.tagCount_paint (t := t) (x := alignmentModule) (timedMatrix_square hside) hin hnd
  rw [← alignedMatrix_eq_paint hv hv40] at hpaint
  rw [alignmentCells_countP_line hv hv40, alignmentCells_length] at hold
  rw [alignmentCells_length] at hnew
  omega

/-! ## Reserved modules -/

theorem formatPlaces_nodup (hs : 17 ≤ side) : (formatPlaces side).Nodup := by
  refine List.Nodup.append (by decide) (List.nodup_range.map_on fun i hi k hk he => ?_) fun p hA hB => ?_
  · rw [List.mem_range] at hi hk
    rw [formatPosB, formatPosB] at he
    split_ifs at he <;> obtain ⟨hr, hc⟩ := Prod.mk.inj he <;> omega
  · have hnear : ∀ p ∈ (List.range 15).map formatPosA, p.1 ≤ 8 ∧ p.2 ≤ 8 := by decide
    obtain ⟨hr, hc⟩ := hnear p hA
    obtain ⟨i, hi, rfl⟩ := List.mem_map.mp hB
    rw [List.mem_range] at hi
    rw [formatPosB] at hr hc
    split_ifs at hr hc <;> dsimp only at hr hc <;> omega

theorem versionPlaces_nodup (hs : 17 ≤ side) : (versionPlaces side).Nodup := by
  refine List.Nodup.append (List.nodup_range.map_on fun i _ k _ he => ?_)
    (List.nodup_range.map_on fun i _ k _ he => ?_) fun p hA hB => ?_
  · obtain ⟨hr, hc⟩ := Prod.mk.inj he
    omega
  · obtain ⟨hr, hc⟩ := Prod.mk.inj he
    omega
  · obtain ⟨i, hi, rfl⟩ := List.mem_map.mp hA
    obtain ⟨k, -, he⟩ := List.mem_map.mp hB
    rw [List.mem_range] at hi
    have hr := (Prod.mk.inj he).1
    omega

/-- The reserved places are data modules before step 4. -/
theorem alignedMatrix_tag_of_reserved (hv : 1 ≤ v) (hv40 : v ≤ 40) (h : Reserved v r c) :
    ((alignedMatrix v).at r c).tag = .data := by
  have hcases := h.cases
  rw [alignedMatrix_at_of_not_reach hv hv40 (by rw [InAlignmentReach]; omega),
    timedMatrix_tag_of_offFrames (by rw [sideOf]; omega) (by rw [OffFrames, sideOf]; omega), if_neg (by omega)]

/-- The format modules are reserved on data modules (44_matrix.md R217). -/
theorem reserveFormat_tagCount (hv : 1 ≤ v) (hv40 : v ≤ 40) :
    (reserveFormat (sideOf v) (alignedMatrix v)).tagCount t + (if t = .data then 30 else 0) =
      (alignedMatrix v).tagCount t + (if t = .formatInfo then 30 else 0) := by
  have hside : 17 ≤ sideOf v := by rw [sideOf]; omega
  refine Mx.tagCount_paint_const (l := formatPlaces (sideOf v)) (pos := id) (x := fun _ => ⟨false, .formatInfo⟩)
    (alignedMatrix_square v) (fun p hp => ?_) (by rw [List.map_id]; exact formatPlaces_nodup hside)
    (fun p hp => alignedMatrix_tag_of_reserved hv hv40 (.inr (.inl hp))) fun _ _ => rfl
  obtain ⟨hr, hc, -⟩ := formatPlaces_bounds hside hp
  exact ⟨hr, hc⟩

/-- The version modules are reserved on data modules (44_matrix.md R218). -/
theorem reservedMatrix_tagCount (hv : 1 ≤ v) (hv40 : v ≤ 40) :
    (reservedMatrix v).tagCount t + (if t = .data then (if 7 ≤ v then 36 else 0) else 0) =
      (reserveFormat (sideOf v) (alignedMatrix v)).tagCount t +
        (if t = .versionInfo then (if 7 ≤ v then 36 else 0) else 0) := by
  rw [reservedMatrix, reserveVersion]
  split
  · rename_i h7
    have hside : 45 ≤ sideOf v := by rw [sideOf]; omega
    refine Mx.tagCount_paint_const (l := versionPlaces (sideOf v)) (pos := id) (x := fun _ => ⟨false, .versionInfo⟩)
      (reserveFormat_square (alignedMatrix_square v)) (fun p hp => ?_)
      (by rw [List.map_id]; exact versionPlaces_nodup (by omega)) (fun p hp => ?_) fun _ _ => rfl
    · obtain ⟨hr, hc, -⟩ := versionPlaces_bounds hside hp
      exact ⟨hr, hc⟩
    · have hformat : (p.1, p.2) ∉ formatPlaces (sideOf v) := fun hf => by
        obtain ⟨-, -, h8⟩ := formatPlaces_bounds (by omega) hf
        obtain ⟨-, -, hr, hc⟩ := versionPlaces_bounds hside hp
        omega
      rw [id, reserveFormat, Mx.at_foldl_put_of_notMem _ hformat]
      exact alignedMatrix_tag_of_reserved hv hv40 (.inr (.inr ⟨h7, hp⟩))
  · rw [ite_self, ite_self]

/-- The dark module takes one data module more (44_matrix.md R220). -/
theorem functionMatrix_tagCount_dark (hv : 1 ≤ v) (hv40 : v ≤ 40) :
    (functionMatrix v).tagCount t + (if t = .data then 1 else 0) =
      (reservedMatrix v).tagCount t + (if t = .formatInfo then 1 else 0) := by
  have hside : 17 ≤ sideOf v := by rw [sideOf]; omega
  have hversion (h7 : 7 ≤ v) : (sideOf v - 8, 8) ∉ versionPlaces (sideOf v) := fun h => by
    obtain ⟨-, -, -, hc⟩ := versionPlaces_bounds (by rw [sideOf]; omega) h
    exact hc rfl
  have hput := Mx.tagCount_put (t := t) (reservedMatrix_square v) (r := sideOf v - 8) (c := 8) (by omega) (by omega)
    ⟨true, .formatInfo⟩
  rw [reservedMatrix_at_of_notMem (dark_notMem_formatPlaces v) hversion,
    alignedMatrix_tag_of_reserved hv hv40 (.inl rfl)] at hput
  rw [functionMatrix_eq_putDark, putDark]
  simpa only [beq_iff_eq, eq_comm (b := t)] using hput

/-! ## The whole matrix -/

/-- How many modules of each tag the seven steps leave (44_matrix.md R224 (b)). -/
theorem functionMatrix_tagCount (hv : 1 ≤ v) (hv40 : v ≤ 40) :
    (functionMatrix v).tagCount t + (if t = .data then 192 + 2 * (sideOf v - 16) + 25 * (placedCentres v).length +
        31 + (if 7 ≤ v then 36 else 0) else 0) + (if t = .timing then 10 * ((alignCoords v).length - 2) else 0) =
      (if t = .data then sideOf v * sideOf v + 10 * ((alignCoords v).length - 2) else 0) + 3 * frameCount t +
        (if t = .timing then 2 * (sideOf v - 16) else 0) +
        (if t = .alignment then 25 * (placedCentres v).length else 0) + (if t = .formatInfo then 31 else 0) +
        (if t = .versionInfo then (if 7 ≤ v then 36 else 0) else 0) := by
  have hside : 21 ≤ sideOf v := by rw [sideOf]; omega
  have hfinder := finderMatrix_tagCount (t := t) hside
  have htimed := timedMatrix_tagCount (t := t) hside
  have haligned := alignedMatrix_tagCount (t := t) hv hv40
  have hformat := reserveFormat_tagCount (t := t) hv hv40
  have hversion := reservedMatrix_tagCount (t := t) hv hv40
  have hdark := functionMatrix_tagCount_dark (t := t) hv hv40
  split_ifs at * <;> omega

/-- No difference in the formula of the number of data modules is cut off at zero (44_matrix.md R219). -/
theorem nData_balance (hv : 1 ≤ v) (hv40 : v ≤ 40) :
    nData v + (192 + 2 * (sideOf v - 16) + 25 * ((alignCoords v).length * (alignCoords v).length - 3) + 31 +
      (if 7 ≤ v then 36 else 0)) = sideOf v * sideOf v + 10 * ((alignCoords v).length - 2) := by
  decide +revert +kernel

/-- The closed form of the number of data modules (44_matrix.md R219), and the remainder bits of each version
(11_rom_tables.md R70). -/
theorem nData_table (hv : 1 ≤ v) (hv40 : v ≤ 40) :
    nData v = (16 * v + 128) * v + 64 -
      (if 2 ≤ v then (25 * (v / 7 + 2) - 10) * (v / 7 + 2) - 55 else 0) - (if 7 ≤ v then 36 else 0) ∧
    remainderBits v = (if v = 1 then 0 else if v ≤ 6 then 7 else if v ≤ 13 then 0 else if v ≤ 20 then 3
      else if v ≤ 27 then 4 else if v ≤ 34 then 3 else 0) := by
  decide +revert +kernel

/-- The data modules carry the codewords of the EC block table and the remainder bits (11_rom_tables.md R70, R71). -/
theorem eight_mul_codewords_add_remainderBits (hv : 1 ≤ v) (hv40 : v ≤ 40) (level : EcLevel) :
    8 * (dataCapacity v level + ((blockInfo v level).n1 + (blockInfo v level).n2) * (blockInfo v level).ecLen) +
      remainderBits v = nData v := by
  have hlegal : versionLegal v = true := versionLegal_iff.mpr ⟨hv, hv40⟩
  have hrow := rowConsistent_of_legal hlegal level
  simp only [rowConsistent, Bool.and_eq_true, beq_iff_eq] at hrow
  obtain ⟨⟨⟨hsum, -⟩, -⟩, -⟩ := hrow
  rw [dataCapacity, hsum, totalCodewords, if_pos hlegal, remainderBits, Nat.div_add_mod]

/-- Settles O45: the counts of the steps add up, and the data modules are those of the block table. -/
theorem moduleCounts : Obligations.ModuleCounts := by
  unfold Obligations.ModuleCounts
  intro v hv hv40
  -- For each tag the conditions of this equation compute, which leaves the terms that concern the tag.
  have hcount (t : Tag) := functionMatrix_tagCount (t := t) hv hv40
  simp only [(placedCentres_count hv hv40).1] at hcount
  have hdata : (functionMatrix v).tagCount .data = nData v :=
    Nat.add_right_cancel ((hcount .data).trans (nData_balance hv hv40).symm)
  have htiming : (functionMatrix v).tagCount .timing = 2 * (sideOf v - 16) - 10 * ((alignCoords v).length - 2) :=
    Nat.eq_sub_of_add_eq ((hcount .timing).trans (Nat.zero_add _))
  have halignment : (functionMatrix v).tagCount .alignment =
      25 * ((alignCoords v).length * (alignCoords v).length - 3) := (hcount .alignment).trans (Nat.zero_add _)
  have hpatterns : 25 * ((alignCoords v).length * (alignCoords v).length - 3) =
      if v = 1 then 0 else 25 * ((alignCoords v).length * (alignCoords v).length - 3) := by
    split
    · rename_i h1
      rw [h1]
      rfl
    · rfl
  exact ⟨hdata, (nData_table hv hv40).1, eight_mul_codewords_add_remainderBits hv hv40, (nData_table hv hv40).2,
    hcount .finder, hcount .separator, hcount .formatInfo, (hcount .versionInfo).trans (Nat.zero_add _), htiming,
    halignment.trans hpatterns, hcount .quiet⟩

end Sys2Proof.Machine
end

section
/-! The format and version values (45_mask.md R260, R263): finitely many, so each is evaluated. -/

namespace Sys2Proof.Machine

/-- The data bits of a format value, and its divisibility by the generator (45_mask.md R260, R266 (e)). -/
theorem formatValue_code (level : EcLevel) {mask : Nat} (hm : mask < 8) :
    formatValue level mask ^^^ 0x5412 < 2 ^ 15 ∧ (formatValue level mask ^^^ 0x5412) / 2 ^ 10 % 2 ^ 3 = mask ∧
      (formatValue level mask ^^^ 0x5412) / 2 ^ 13 = levelFormatBits level ∧
      gf2Remainder 0x537 10 5 (formatValue level mask ^^^ 0x5412) = 0 := by
  cases level <;> decide +revert

/-- The data bits of a version value, and its divisibility by the generator (45_mask.md R263, R266 (e)). -/
theorem versionValue_code {v : Nat} (hv7 : 7 ≤ v) (hv40 : v ≤ 40) :
    versionValue v < 2 ^ 18 ∧ versionValue v / 2 ^ 12 = v ∧ gf2Remainder 0x1F25 12 6 (versionValue v) = 0 := by
  decide +revert +kernel

/-- Settles O54: each code by its data bits and its remainder, the tables by evaluation. -/
theorem formatAndVersionCodes : Obligations.FormatAndVersionCodes := by
  unfold Obligations.FormatAndVersionCodes
  refine ⟨fun level mask hm => ?_, ⟨rfl, rfl, rfl, rfl⟩, fun v hv7 hv40 => versionValue_code hv7 hv40, rfl⟩
  obtain ⟨hlt, hmask, hlevel, hrem⟩ := formatValue_code level hm
  exact ⟨hlt, hmask, by rw [hlevel]; cases level <;> rfl, hrem⟩

end Sys2Proof.Machine
end

section
/-! The format and version modules written (45_mask.md R261 to R265): each bit ends at its place in both copies. -/

namespace Sys2Proof.Machine

variable {s : State} {m : Mx} {n r c i k side : Nat} {posA posB : Nat → Nat × Nat} {p : Nat × Nat}
  {bit : Nat → Bool}

/-- A stage that leaves a new matrix in a new phase. -/
theorem Stage.exec_of_matrix {i : Instr} {f : State → Except Cause State} {ph : Phase} (hst : Stage i f)
    (hf : s.fault = false) (h : f s = .ok { s with mx := m, phase := ph }) :
    exec i s = .next { s with mx := m, phase := ph, resp := some ⟨true, 0⟩ } :=
  hst.exec_of_ok hf h

/-! ## Bits written in two copies -/

/-- Write the bits `0` to `k - 1`, each at its place in copy A and in copy B. -/
def Mx.putCopies (posA posB : Nat → Nat × Nat) (bit : Nat → Bool) (k : Nat) (m : Mx) : Mx :=
  (List.range k).foldl
    (fun m i => Mx.putVal (Mx.putVal m (posA i).1 (posA i).2 (bit i)) (posB i).1 (posB i).2 (bit i)) m

theorem Mx.putCopies_succ : m.putCopies posA posB bit (k + 1) =
    ((m.putCopies posA posB bit k).putVal (posA k).1 (posA k).2 (bit k)).putVal (posB k).1 (posB k).2 (bit k) := by
  rw [putCopies, List.range_succ, List.foldl_append]
  rfl

theorem Mx.putCopies_square (h : m.square n) : (m.putCopies posA posB bit k).square n :=
  foldl_keeps (fun m => Mx.square n m) (fun _ _ hm => Mx.putVal_square (Mx.putVal_square hm _ _ _) _ _ _) _ _ h

theorem Mx.putCopies_tag : ((m.putCopies posA posB bit k).at r c).tag = (m.at r c).tag := by
  induction k with
  | zero => rfl
  | succ k ih => rw [putCopies_succ, putVal_tag, putVal_tag, ih]

/-- A place holds its bit, if no other bit is written there. -/
theorem Mx.putCopies_val (h : m.square n) (hr : r < n) (hc : c < n) (hi : i < k)
    (hp : posA i = (r, c) ∨ posB i = (r, c)) (honly : ∀ j < k, posA j = (r, c) ∨ posB j = (r, c) → j = i) :
    ((m.putCopies posA posB bit k).at r c).val = bit i := by
  induction k with
  | zero => omega
  | succ k ih =>
    have hlast (hk : posA k = (r, c) ∨ posB k = (r, c)) : k = i := honly k (Nat.lt_succ_self k) hk
    rw [putCopies_succ]
    by_cases hB : posB k = (r, c)
    · rw [hB, putVal, at_put_same (putVal_square (putCopies_square h) _ _ _) hr hc, hlast (.inr hB)]
    · rw [at_putVal_of_ne (Ne.symm hB)]
      by_cases hA : posA k = (r, c)
      · rw [hA, putVal, at_put_same (putCopies_square h) hr hc, hlast (.inl hA)]
      · rw [at_putVal_of_ne (Ne.symm hA)]
        have hik : i ≠ k := by
          rintro rfl
          exact hp.elim hA hB
        exact ih (by omega) fun j hj => honly j (by omega)

/-- The places of a bit are among the listed places. -/
theorem mem_places_of_pos (hi : i < k) (hp : posA i = p ∨ posB i = p) :
    p ∈ (List.range k).map posA ++ (List.range k).map posB := by
  rw [List.mem_append, List.mem_map, List.mem_map]
  exact hp.imp (fun he => ⟨i, List.mem_range.mpr hi, he⟩) fun he => ⟨i, List.mem_range.mpr hi, he⟩

/-- Places that do not repeat carry one bit each. -/
theorem index_eq_of_nodup (hnd : ((List.range k).map posA ++ (List.range k).map posB).Nodup) {j : Nat}
    (hi : i < k) (hj : j < k) (hpi : posA i = p ∨ posB i = p) (hpj : posA j = p ∨ posB j = p) : j = i := by
  obtain ⟨hA, hB, hAB⟩ := List.nodup_append.mp hnd
  rw [← List.mem_range] at hi hj
  have hcross {a b : Nat} (ha : a ∈ List.range k) (hb : b ∈ List.range k) : posA a ≠ posB b :=
    hAB _ (List.mem_map_of_mem ha) _ (List.mem_map_of_mem hb)
  rcases hpi with rfl | rfl <;> rcases hpj with hpj | hpj
  · exact List.inj_on_of_nodup_map hA hj hi hpj
  · exact absurd hpj.symm (hcross hi hj)
  · exact absurd hpj (hcross hj hi)
  · exact List.inj_on_of_nodup_map hB hj hi hpj

/-- Distinct places of the square each end with their bit, and keep their tag. -/
theorem Mx.putCopies_at_of_pos (h : m.square n)
    (hnd : ((List.range k).map posA ++ (List.range k).map posB).Nodup) (hin : p.1 < n ∧ p.2 < n)
    (hi : i < k) (hp : posA i = p ∨ posB i = p) :
    (m.putCopies posA posB bit k).at p.1 p.2 = ⟨bit i, (m.at p.1 p.2).tag⟩ := by
  rw [← Mx.putCopies_val (bit := bit) h hin.1 hin.2 hi hp fun j hj hpj => index_eq_of_nodup hnd hi hj hp hpj,
    ← Mx.putCopies_tag (posA := posA) (posB := posB) (bit := bit) (k := k)]

/-! ## Format information -/

theorem writeFormat_eq_putCopies (side fmt : Nat) (m : Mx) :
    writeFormat side fmt m = m.putCopies formatPosA (formatPosB side) fmt.testBit 15 := rfl

/-- Format bit `i` ends at both its places, whose tags stay (45_mask.md R261, R262). -/
theorem writeFormat_at_of_pos (h : m.square side) (hs : 17 ≤ side) (fmt : Nat) (hi : i < 15)
    (hp : formatPosA i = p ∨ formatPosB side i = p) :
    (writeFormat side fmt m).at p.1 p.2 = ⟨fmt.testBit i, (m.at p.1 p.2).tag⟩ := by
  obtain ⟨hr, hc, -⟩ := formatPlaces_bounds hs (mem_places_of_pos hi hp)
  rw [writeFormat_eq_putCopies]
  exact Mx.putCopies_at_of_pos h (formatPlaces_nodup hs) ⟨hr, hc⟩ hi hp

/-- An entry of a list made from the numbers below `k`. -/
theorem getElem?_map_range {α : Type} {f : Nat → α} {a : α} (h : ((List.range k).map f)[i]? = some a) :
    i < k ∧ f i = a := by
  obtain ⟨hi, he⟩ := List.getElem?_eq_some_iff.mp h
  rw [List.getElem_map, List.getElem_range] at he
  exact ⟨by simpa using hi, he⟩

/-- Settles O52: bit by bit at the places of both copies, and no other place is written. -/
theorem mkfmtWritesFormat : Obligations.MkfmtWritesFormat := by
  unfold Obligations.MkfmtWritesFormat
  refine ⟨fun s hs hf hp => ?_, fun s hf hp => Stage.mkfmt.exec_of_error hf (State.inPhase_ne hp _)⟩
  have hsound : s.mx.sound s.side := hs.mxSound (by simp [hp, Phase.code])
  have hside : 17 ≤ s.side := Nat.le_add_left ..
  obtain ⟨⟨hrows, hcols⟩, -⟩ := writeFormat_sound hsound s.side (formatValue s.cfg.ecLevel s.maskId.toNat)
  refine ⟨_, Stage.mkfmt.exec_of_matrix hf (State.putFormat_ok.mpr ⟨hp, rfl⟩), hrows, hcols, ?_⟩
  intro fmt copyA copyB
  refine ⟨fun i p hA => ?_, fun i p hB => ?_, fun r c hA hB => writeFormat_at_of_notMem _ fun hmem => ?_⟩
  · obtain ⟨hi, hpos⟩ := getElem?_map_range (f := formatPosA) (k := 15) hA
    exact writeFormat_at_of_pos hsound.1 hside _ hi (.inl hpos)
  · obtain ⟨hi, hpos⟩ := getElem?_map_range (f := formatPosB s.side) (k := 15) hB
    exact writeFormat_at_of_pos hsound.1 hside _ hi (.inr hpos)
  · exact (List.mem_append.mp hmem).elim hA hB

/-! ## Version information -/

theorem writeVersion_eq_putCopies (side vinfo : Nat) (m : Mx) :
    writeVersion side vinfo m = m.putCopies (versionPosA side) (versionPosB side) vinfo.testBit 18 := rfl

/-- Version bit `i` ends at both its places, whose tags stay (45_mask.md R264, R265). -/
theorem writeVersion_at_of_pos (h : m.square side) (hs : 45 ≤ side) (vinfo : Nat) (hi : i < 18)
    (hp : versionPosA side i = p ∨ versionPosB side i = p) :
    (writeVersion side vinfo m).at p.1 p.2 = ⟨vinfo.testBit i, (m.at p.1 p.2).tag⟩ := by
  obtain ⟨hr, hc, -⟩ := versionPlaces_bounds hs (mem_places_of_pos hi hp)
  rw [writeVersion_eq_putCopies]
  exact Mx.putCopies_at_of_pos h (versionPlaces_nodup (by omega)) ⟨hr, hc⟩ hi hp

/-- Settles O53: from version 7 on bit by bit at the places of both blocks, and no other place is written. -/
theorem mkverWritesVersion : Obligations.MkverWritesVersion := by
  unfold Obligations.MkverWritesVersion
  refine ⟨fun s hs hf hp => ?_, fun s hf hp => Stage.mkver.exec_of_error hf (State.inPhase_ne hp _)⟩
  have hsound : s.mx.sound s.side := hs.mxSound (by simp [hp, Phase.code])
  refine ⟨_, Stage.mkver.exec_of_matrix hf (State.putVersion_ok.mpr ⟨hp, rfl⟩), fun h7 => if_neg (by omega),
    fun h7 => ?_⟩
  have hside : 45 ≤ s.side := by rw [State.side, sideOf]; omega
  obtain ⟨⟨hrows, hcols⟩, -⟩ := writeVersion_sound hsound s.side (versionValue s.version)
  rw [if_pos h7]
  refine ⟨hrows, hcols, fun i hi =>
    ⟨writeVersion_at_of_pos (p := versionPosA s.side i) hsound.1 hside _ hi (.inl rfl),
      writeVersion_at_of_pos (p := versionPosB s.side i) hsound.1 hside _ hi (.inr rfl)⟩,
    fun r c hother => writeVersion_at_of_notMem _ fun hmem => ?_⟩
  rcases List.mem_append.mp hmem with hmem | hmem <;> obtain ⟨i, hi, he⟩ := List.mem_map.mp hmem
  · exact (hother i (List.mem_range.mp hi)).1 he.symm
  · exact (hother i (List.mem_range.mp hi)).2 he.symm

end Sys2Proof.Machine
end

section
/-! The masks (45_mask.md R251, R252, R258, R259): what a mask leaves at each place, the candidate's values, and which
mask is selected. -/

namespace Sys2Proof.Machine

variable {m : Mx} {n r c : Nat}

/-! ## A mask applied -/

/-- A mask inverts the value of a data module where it holds (45_mask.md R251). -/
theorem maskModule_eq (k r c : Nat) (x : MxModule) :
    maskModule k r c x = ⟨x.val ^^ (x.tag == .data && maskBit k r c), x.tag⟩ := by
  obtain ⟨val, tag⟩ := x
  rw [maskModule]
  by_cases htag : tag = .data
  · subst htag
    cases maskBit k r c <;> simp
  · rw [if_neg fun h => htag h.1, beq_false_of_ne htag, Bool.false_and, Bool.xor_false]

/-- A mask leaves each module of the square as `maskModule_eq` says (45_mask.md R259). -/
theorem maskMatrix_at (h : m.square n) (hr : r < n) (hc : c < n) (k : Nat) :
    (maskMatrix k m).at r c =
      ⟨(m.at r c).val ^^ ((m.at r c).tag == .data && maskBit k r c), (m.at r c).tag⟩ := by
  rw [maskMatrix, Mx.at_mapModules h hr hc, maskModule_eq]

/-- A mask takes itself off a module (45_mask.md R266 (a)). -/
theorem maskModule_maskModule (k r c : Nat) (x : MxModule) : maskModule k r c (maskModule k r c x) = x := by
  simp [maskModule_eq]

/-- A change that leaves every element as it is. -/
theorem mapIdx_eq_self {α : Type} {f : Nat → α → α} (h : ∀ i x, f i x = x) (l : List α) : l.mapIdx f = l :=
  List.ext_getElem List.length_mapIdx fun i _ _ => by rw [List.getElem_mapIdx, h]

/-- A mask takes itself off a matrix (45_mask.md R266 (a)). -/
theorem maskMatrix_maskMatrix (k : Nat) (m : Mx) : maskMatrix k (maskMatrix k m) = m := by
  rw [maskMatrix, maskMatrix, Mx.mapModules, Mx.mapModules, List.mapIdx_mapIdx]
  refine mapIdx_eq_self (fun r row => ?_) m
  rw [Function.comp_apply, List.mapIdx_mapIdx]
  exact mapIdx_eq_self (fun c x => maskModule_maskModule k r c x) row

/-- Settles O51: each module by `maskMatrix_at`, and the mask comes off again. -/
theorem mkapplyInvertsData : Obligations.MkapplyInvertsData := by
  unfold Obligations.MkapplyInvertsData
  refine ⟨fun s hs hf hp => ?_, fun s hf hp => Stage.mkapply.exec_of_error hf (State.inPhase_ne hp _)⟩
  have hsound : s.mx.sound s.side := hs.mxSound (by simp [hp, Phase.code])
  obtain ⟨⟨hrows, hcols⟩, -⟩ := maskMatrix_sound hsound s.maskId.toNat
  exact ⟨_, Stage.mkapply.exec_of_matrix hf (State.applyMask_ok.mpr ⟨hp, rfl⟩), hrows, hcols,
    fun r hr c hc => maskMatrix_at hsound.1 hr hc _, rfl, maskMatrix_maskMatrix _ _⟩

/-! ## The candidate -/

/-- The array is a square of the given side. -/
def Grid.square (n : Nat) (g : Grid) : Prop := g.length = n ∧ ∀ row ∈ g, row.length = n

/-- The values of a matrix, read place by place. -/
theorem values_getD (m : Mx) (r c : Nat) :
    ((m.map fun row => row.map fun x => x.val).getD r []).getD c false = (m.at r c).val := by
  rw [show ([] : List Bool) = ([] : List MxModule).map MxModule.val from rfl, List.getD_map,
    show false = blankModule.val from rfl, List.getD_map, Mx.at]

/-- The candidate's value at each place (45_mask.md R252). -/
theorem candidate_getD (h : m.square n) (hr : r < n) (hc : c < n) (k : Nat) :
    ((candidate k m).getD r []).getD c false =
      ((m.at r c).val ^^ ((m.at r c).tag == .data && maskBit k r c)) := by
  rw [candidate, values_getD, maskMatrix_at h hr hc]

/-- A candidate is a square of the matrix's side. -/
theorem candidate_square (h : m.square n) (k : Nat) : (candidate k m).square n := by
  obtain ⟨hrows, hcols⟩ := Mx.mapModules_square h (maskModule k)
  refine ⟨by rw [candidate, List.length_map]; exact hrows, fun row hrow => ?_⟩
  obtain ⟨row', hrow', rfl⟩ := List.mem_map.mp hrow
  rw [List.length_map]
  exact hcols row' hrow'

/-! ## The selection -/

/-- `a` is the first of the least elements of a list, by their keys. -/
def FirstLeast (key : Fin 8 → Nat) (l : List (Fin 8)) (a : Fin 8) : Prop :=
  a ∈ l ∧ (∀ b ∈ l, key a ≤ key b) ∧ ∀ b ∈ l, b < a → key a < key b

/-- An element after a list becomes the first of the least if its key is below the one before. -/
theorem FirstLeast.append {key : Fin 8 → Nat} {l : List (Fin 8)} {a x : Fin 8} (h : FirstLeast key l a)
    (hx : ∀ b ∈ l, b < x) : FirstLeast key (l ++ [x]) (if key x < key a then x else a) := by
  obtain ⟨hmem, hleast, hfirst⟩ := h
  rw [FirstLeast, List.mem_append, List.mem_singleton, List.forall_mem_append, List.forall_mem_singleton,
    List.forall_mem_append, List.forall_mem_singleton]
  split
  · rename_i hlt
    exact ⟨.inr rfl, ⟨fun b hb => hlt.le.trans (hleast b hb), le_rfl⟩, fun b hb _ => hlt.trans_le (hleast b hb),
      fun h => absurd h (lt_irrefl x)⟩
  · rename_i hge
    exact ⟨.inl hmem, ⟨hleast, not_lt.mp hge⟩, hfirst, fun h => absurd (hx a hmem) h.asymm⟩

/-- Going through rising elements and taking each whose key is below that of the one held ends with the first of the
least. -/
theorem firstLeast_foldl (key : Fin 8 → Nat) (a : Fin 8) (l : List (Fin 8)) (h : (a :: l).Pairwise (· < ·)) :
    FirstLeast key (a :: l) (l.foldl (fun best m => if key m < key best then m else best) a) := by
  induction l using List.reverseRecOn with
  | nil => simp [FirstLeast]
  | append_singleton l x ih =>
    rw [← List.cons_append] at h ⊢
    obtain ⟨hrise, -, hx⟩ := List.pairwise_append.mp h
    rw [List.foldl_append]
    exact (ih hrise).append fun b hb => hx b hb x List.mem_cons_self

/-- The selected mask is the first of those of least score (45_mask.md R258). -/
theorem bestMask_firstLeast (scores : Vector (BitVec 32) 8) :
    FirstLeast (fun m => scores[m].toNat) (0 :: [1, 2, 3, 4, 5, 6, 7]) (bestMask scores) :=
  firstLeast_foldl (fun m => scores[m].toNat) 0 [1, 2, 3, 4, 5, 6, 7] (by decide)

/-- Settles O50: the selection is `bestMask`, the first of the least, and needs all eight marks. -/
theorem mkselPicksLeastPenalty : Obligations.MkselPicksLeastPenalty := by
  unfold Obligations.MkselPicksLeastPenalty
  refine fun s hf => ⟨fun hp hall => ?_, fun hp hall => ?_,
    fun hp => Stage.mksel.exec_of_error hf (State.inPhase_ne hp _)⟩
  · have hmem : ∀ m : Fin 8, m ∈ (0 :: [1, 2, 3, 4, 5, 6, 7] : List (Fin 8)) := by decide
    obtain ⟨-, hleast, hfirst⟩ := bestMask_firstLeast s.scores
    exact ⟨bestMask s.scores,
      Stage.mksel.exec_of_ok hf (State.selectMask_ok.mpr ⟨hp, beq_iff_eq.mpr hall, rfl⟩),
      fun m => hleast m (hmem m), fun m => hfirst m (hmem m)⟩
  · exact Stage.mksel.exec_of_error hf ((State.inPhase_eq hp _).trans (if_neg fun h => hall (beq_iff_eq.mp h)))

end Sys2Proof.Machine
end

section
/-! The penalty rules (45_mask.md R253 to R256): each rule as the count it describes, and how large the count can be. -/

namespace Sys2Proof.Machine

variable {n : Nat} {g : Grid} {line : List Bool}

/-! ## Rule (a): runs -/

/-- A run that goes on is counted on. -/
theorem runsFrom_replicate_append (b : Bool) (run k : Nat) (line : List Bool) :
    runsFrom b run (List.replicate k b ++ line) = runsFrom b (run + k) line := by
  induction k generalizing run with
  | zero => rfl
  | succ k ih =>
    rw [List.replicate_succ, List.cons_append, runsFrom, if_pos rfl, ih, Nat.add_right_comm, Nat.add_assoc]

/-- After a run, the runs of alternating colours are counted one by one. -/
theorem runsFrom_alternating {runs : List Nat} (h : ∀ k ∈ runs, 0 < k) (b : Bool) (run : Nat) :
    runsFrom b run (alternating (!b) runs) = runPenalty run + (runs.map runPenalty).sum := by
  induction runs generalizing b run with
  | nil => rfl
  | cons k runs ih =>
    obtain ⟨hk, hruns⟩ := List.forall_mem_cons.mp h
    obtain ⟨k, rfl⟩ := Nat.exists_eq_add_one.mpr hk
    rw [alternating, List.replicate_succ, List.cons_append, runsFrom, if_neg (by simp), runsFrom_replicate_append,
      ih hruns, Nat.add_comm 1, List.map_cons, List.sum_cons]

/-- Rule (a) on a line given by its runs (45_mask.md R253). -/
theorem lineRuns_alternating {runs : List Nat} (h : ∀ k ∈ runs, 0 < k) (b : Bool) :
    lineRuns (alternating b runs) = (runs.map runPenalty).sum := by
  cases runs with
  | nil => rfl
  | cons k runs =>
    obtain ⟨hk, hruns⟩ := List.forall_mem_cons.mp h
    obtain ⟨k, rfl⟩ := Nat.exists_eq_add_one.mpr hk
    rw [alternating, List.replicate_succ, List.cons_append, lineRuns, runsFrom_replicate_append,
      runsFrom_alternating hruns, Nat.add_comm 1, List.map_cons, List.sum_cons]

/-- A run of five or more scores three and its excess (45_mask.md R253). -/
theorem runPenalty_eq (run : Nat) : runPenalty run = if 5 ≤ run then 3 + (run - 5) else 0 := by
  rw [runPenalty]
  split <;> omega

/-- A run scores no more than its length less two. -/
theorem runPenalty_le (run : Nat) : runPenalty run ≤ run - 2 := by
  rw [runPenalty]
  split <;> omega

theorem runsFrom_le (b : Bool) {run : Nat} (hrun : 1 ≤ run) (line : List Bool) :
    runsFrom b run line ≤ run + line.length - 2 := by
  induction line generalizing b run with
  | nil => exact runPenalty_le run
  | cons x line ih =>
    rw [runsFrom, List.length_cons]
    split
    · exact (ih b (Nat.le_add_left 1 run)).trans (by omega)
    · have hrest := ih x le_rfl
      have hfirst := runPenalty_le run
      omega

/-- A line scores no more by rule (a) than its length less two (45_mask.md R253). -/
theorem lineRuns_le (line : List Bool) : lineRuns line ≤ line.length - 2 := by
  cases line with
  | nil => exact le_rfl
  | cons x line => exact (runsFrom_le x le_rfl line).trans (by rw [List.length_cons, Nat.add_comm])

/-! ## Rule (c): finder-like windows -/

/-- One of the two windows stands at the start of a line (45_mask.md R255). -/
def startsWithWindow (line : List Bool) : Bool :=
  line.take 11 == [true, false, true, true, true, false, true, false, false, false, false] ||
    line.take 11 == [false, false, false, false, true, false, true, true, true, false, true]

theorem startsWithWindow_iff : startsWithWindow line = true ↔
    (finderWindowA.isPrefixOf line ∨ finderWindowB.isPrefixOf line) := by
  rw [startsWithWindow, Bool.or_eq_true, beq_iff_eq, beq_iff_eq, List.isPrefixOf_iff_prefix,
    List.isPrefixOf_iff_prefix, List.prefix_iff_eq_take, List.prefix_iff_eq_take, eq_comm, eq_comm (a := line.take 11)]
  rfl

theorem length_of_startsWithWindow (h : startsWithWindow line = true) : 11 ≤ line.length := by
  rcases startsWithWindow_iff.mp h with h | h <;> exact (List.isPrefixOf_iff_prefix.mp h).length_le

/-- Rule (c) on one line: the positions where a window starts (45_mask.md R255). -/
theorem lineWindows_eq_countP (line : List Bool) :
    lineWindows line = (List.range (line.length - 10)).countP fun p => startsWithWindow (line.drop p) := by
  induction line with
  | nil => rfl
  | cons x line ih =>
    rw [lineWindows, ih, if_congr startsWithWindow_iff.symm rfl rfl, List.length_cons]
    by_cases hlen : 10 ≤ line.length
    · rw [show line.length + 1 - 10 = line.length - 10 + 1 by omega, List.range_succ_eq_map, List.countP_cons,
        List.countP_map, Nat.add_comm]
      rfl
    · have hshort : ¬ startsWithWindow (x :: line) = true := fun h =>
        hlen (by simpa using length_of_startsWithWindow h)
      rw [if_neg hshort, Nat.zero_add, Nat.sub_eq_zero_of_le (by omega), Nat.sub_eq_zero_of_le (by omega)]
      rfl

/-- A line has at most a window for each place that leaves room for it (45_mask.md R255). -/
theorem lineWindows_le (line : List Bool) : lineWindows line ≤ line.length - 10 := by
  rw [lineWindows_eq_countP]
  exact List.countP_le_length.trans_eq List.length_range

/-! ## Columns -/

/-- The columns of an array, each the values of its rows at one place. -/
theorem columnsOf_eq (h : ∀ row ∈ g, row.length = n) :
    columnsOf n g = (List.range n).map fun c => g.map fun row => row.getD c false := by
  induction g with
  | nil => exact List.ext_getElem (by simp [columnsOf]) fun i _ _ => by simp [columnsOf]
  | cons row g ih =>
    obtain ⟨hrow, hg⟩ := List.forall_mem_cons.mp h
    have hcons : columnsOf n (row :: g) = List.zipWith List.cons row (columnsOf n g) := rfl
    rw [hcons, ih hg]
    refine List.ext_getElem (by simp [hrow]) fun i hi _ => ?_
    have hirow : i < row.length := by simp at hi; omega
    simp [hirow]

/-- A column has as many values as there are rows. -/
theorem length_of_mem_columnsOf (h : g.square n) {column : List Bool} (hc : column ∈ columnsOf n g) :
    column.length = n := by
  rw [columnsOf_eq h.2] at hc
  obtain ⟨c, -, rfl⟩ := List.mem_map.mp hc
  rw [List.length_map, h.1]

theorem columnsOf_length (h : g.square n) : (columnsOf n g).length = n := by
  rw [columnsOf_eq h.2, List.length_map, List.length_range]

/-! ## Rule (b): blocks -/

/-- The values at column `c` and the next, in two rows, are equal (45_mask.md R254). -/
def isBlock (a b : List Bool) (c : Nat) : Bool :=
  a.getD c false == a.getD (c + 1) false && a.getD c false == b.getD c false &&
    a.getD c false == b.getD (c + 1) false

/-- The blocks of two rows (45_mask.md R254). -/
theorem rowPairBlocks_eq_countP {a b : List Bool} (h : a.length = b.length) :
    rowPairBlocks a b = (List.range (a.length - 1)).countP (isBlock a b) := by
  induction a generalizing b with
  | nil => rfl
  | cons x a ih =>
    match a, b, h with
    | [], _, _ => rfl
    | y :: a, z :: w :: b, h =>
      have hrest : (y :: a).length = (w :: b).length := Nat.succ.inj h
      have hhead : (x = y ∧ x = z ∧ x = w) ↔ isBlock (x :: y :: a) (z :: w :: b) 0 = true := by
        simp [isBlock, and_assoc]
      rw [rowPairBlocks, ih hrest, List.length_cons, Nat.add_sub_cancel, List.length_cons, Nat.add_sub_cancel,
        List.length_cons, List.range_succ_eq_map, List.countP_cons, List.countP_map, Nat.add_comm,
        if_congr hhead rfl rfl]
      rfl

/-- The blocks of an array, row by row (45_mask.md R254). -/
theorem countBlocks_eq_sum (h : ∀ row ∈ g, row.length = n) :
    countBlocks g = ((List.range (g.length - 1)).map fun r =>
      (List.range (n - 1)).countP (isBlock (g.getD r []) (g.getD (r + 1) []))).sum := by
  induction g with
  | nil => rfl
  | cons a g ih =>
    match g, h with
    | [], _ => rfl
    | b :: g, h =>
      obtain ⟨ha, hg⟩ := List.forall_mem_cons.mp h
      have hb : b.length = n := hg b List.mem_cons_self
      rw [countBlocks, ih hg, rowPairBlocks_eq_countP (ha.trans hb.symm), List.length_cons, Nat.add_sub_cancel,
        List.length_cons, Nat.add_sub_cancel, List.length_cons, List.range_succ_eq_map, List.map_cons, List.sum_cons,
        List.map_map, ha]
      rfl

/-- Rule (b) counts the places of the array where a block starts (45_mask.md R254). -/
theorem countBlocks_eq_countP (h : g.square n) :
    countBlocks g = (squarePlaces (n - 1)).countP fun p => isBlock (g.getD p.1 []) (g.getD (p.1 + 1) []) p.2 := by
  rw [countBlocks_eq_sum h.2, h.1, squarePlaces, List.countP_flatMap]
  refine congrArg List.sum (List.map_congr_left fun r _ => ?_)
  rw [Function.comp_apply, List.countP_map]
  rfl

theorem squarePlaces_length (n : Nat) : (squarePlaces n).length = n * n := by
  simp [squarePlaces]

theorem countBlocks_le (h : g.square n) : countBlocks g ≤ (n - 1) * (n - 1) := by
  rw [countBlocks_eq_countP h, ← squarePlaces_length]
  exact List.countP_le_length

/-! ## Rule (d): balance -/

theorem darkCount_eq (g : Grid) : darkCount g = g.flatten.count true := by
  rw [darkCount, List.count_flatten]

/-- The distance of two numbers is the size of their difference. -/
theorem absDiff_eq_natAbs (a b : Nat) : absDiff a b = ((a : Int) - b).natAbs := by
  rw [absDiff]
  omega

theorem darkCount_le (h : g.square n) : darkCount g ≤ n * n := by
  rw [darkCount, ← h.1]
  refine (List.sum_le_card_nsmul _ g.length fun k hk => ?_).trans (by simp)
  obtain ⟨row, hrow, rfl⟩ := List.mem_map.mp hk
  exact List.count_le_length.trans_eq ((h.2 row hrow).trans h.1.symm)

/-- Rule (d) scores at most a hundred (45_mask.md R256). -/
theorem penaltyBalance_le (h : g.square n) : penaltyBalance g ≤ 100 := by
  have hdark := darkCount_le h
  have hdiv : absDiff (20 * darkCount g) (10 * (n * n)) / (n * n) ≤ 10 :=
    Nat.div_le_of_le_mul (by rw [absDiff]; omega)
  rw [penaltyBalance, h.1]
  omega

/-- Rule (d) scores ten for each whole step of five percent (45_mask.md R256). -/
theorem penaltyBalance_eq (g : Grid) : penaltyBalance g = 10 *
    ((20 * (g.flatten.count true : Int) - 10 * ((g.length * g.length : Nat) : Int)).natAbs /
      (g.length * g.length)) := by
  rw [penaltyBalance, absDiff_eq_natAbs, darkCount_eq]
  rfl

/-! ## All four rules -/

/-- Settles O48: each rule by the lemma that counts it. -/
theorem penaltyRules : Obligations.PenaltyRules := by
  unfold Obligations.PenaltyRules
  refine ⟨fun b runs hruns => ?_, fun line => ?_, fun g hlen hrows => ?_⟩
  · rw [lineRuns_alternating hruns, funext runPenalty_eq]
  · rw [lineWindows_eq_countP, List.countP_eq_length_filter]
    rfl
  intro at' columns
  have hcolumns : columnsOf g.length g = columns := columnsOf_eq hrows
  have hT : 0 < g.length * g.length := Nat.mul_pos (by omega) (by omega)
  refine ⟨by rw [penaltyRuns, hcolumns], ?blocks, by rw [penaltyFinders, hcolumns],
    ⟨_, penaltyBalance_eq g, Nat.div_mul_le_self _ _, (Nat.div_lt_iff_lt_mul hT).mp (Nat.lt_succ_self _)⟩, rfl⟩
  case blocks =>
    rw [penaltyBlocks, countBlocks_eq_countP ⟨rfl, hrows⟩, List.countP_eq_length_filter]
    rfl

end Sys2Proof.Machine
end

section
/-! How large a score can be (45_mask.md R257), and `MKEVAL`, which stores it. -/

namespace Sys2Proof.Machine

variable {n : Nat} {g : Grid}

/-- Lines each scoring at most `b`. -/
theorem sum_map_le {f : List Bool → Nat} {lines : Grid} {b : Nat} (h : ∀ line ∈ lines, f line ≤ b) :
    (lines.map f).sum ≤ lines.length * b := by
  refine (List.sum_le_card_nsmul _ b fun k hk => ?_).trans_eq (by rw [List.length_map, smul_eq_mul])
  obtain ⟨line, hline, rfl⟩ := List.mem_map.mp hk
  exact h line hline

/-- A line penalty bounded by the line's length, over all rows and all columns. -/
theorem sum_rows_add_sum_columns_le {f : List Bool → Nat} {d : Nat} (hf : ∀ line, f line ≤ line.length - d)
    (h : g.square n) : (g.map f).sum + ((columnsOf n g).map f).sum ≤ 2 * (n * (n - d)) := by
  have hrows : (g.map f).sum ≤ n * (n - d) :=
    h.1 ▸ sum_map_le fun row hrow => (hf row).trans_eq (by rw [h.2 row hrow, h.1])
  have hcolumns : ((columnsOf n g).map f).sum ≤ n * (n - d) :=
    (sum_map_le fun column hc => (hf column).trans_eq (by rw [length_of_mem_columnsOf h hc])).trans_eq
      (by rw [columnsOf_length h])
  omega

/-- The score of a square (45_mask.md R257). -/
theorem score_le (h : g.square n) :
    score g ≤ 2 * (n * (n - 2)) + 3 * ((n - 1) * (n - 1)) + 40 * (2 * (n * (n - 10))) + 100 := by
  have hruns := sum_rows_add_sum_columns_le lineRuns_le h
  have hblocks := countBlocks_le h
  have hfinders := sum_rows_add_sum_columns_le lineWindows_le h
  have hbalance := penaltyBalance_le h
  rw [score, penaltyRuns, penaltyBlocks, penaltyFinders, h.1]
  omega

/-- The score of a square no larger than a symbol (45_mask.md R257). -/
theorem score_le_of_side_le (h : g.square n) (hn : n ≤ 177) : score g ≤ 2519698 := by
  have hruns : n * (n - 2) ≤ 177 * 175 := Nat.mul_le_mul hn (by omega)
  have hblocks : (n - 1) * (n - 1) ≤ 176 * 176 := Nat.mul_le_mul (by omega) (by omega)
  have hfinders : n * (n - 10) ≤ 177 * 167 := Nat.mul_le_mul hn (by omega)
  exact (score_le h).trans (by omega)

/-- Settles O49: the score and the mark by the stage, the bound by the candidate's side, each value by its place. -/
theorem mkevalScoresCandidate : Obligations.MkevalScoresCandidate := by
  unfold Obligations.MkevalScoresCandidate
  refine ⟨fun s m hs hf hp hm => ?_, fun s m hf => ⟨fun hp => ?_, fun hp hm => ?_⟩⟩
  · have hsquare : s.mx.square s.side := (hs.mxSound (by simp [hp, Phase.code])).1
    obtain ⟨-, hv40⟩ := versionLegal_iff.mp (hs.versionOk (by simp [hp]))
    have hside : s.side ≤ 177 := by rw [State.side, sideOf]; omega
    exact ⟨_, (Stage.mkeval m).exec_of_ok hf (State.evaluateMask_ok.mpr ⟨hp, hm, rfl⟩), rfl,
      score_le_of_side_le (candidate_square hsquare _) hside,
      fun r hr c hc => candidate_getD hsquare hr hc _⟩
  · exact (Stage.mkeval m).exec_of_error hf (State.inPhase_ne hp _)
  · exact (Stage.mkeval m).exec_of_error hf ((State.inPhase_eq hp _).trans (dif_neg (Nat.not_lt.mpr hm)))

end Sys2Proof.Machine
end

section
/-! Resets, the fault state, `NOP`, `START`, `RELEASE`, and units stepped in any order. -/

namespace Sys2Proof.Machine

variable {s : State} {i : Instr}

/-! ## Resets -/

/-- Settles O6: each way is one arm of the step or of the dispatch, and the reset values are read off. -/
theorem resetHasOneEffect : Obligations.ResetHasOneEffect := by
  unfold Obligations.ResetHasOneEffect
  refine ⟨fun s rest hp => ?hard, fun s => rfl, ?values, fun s hp => ?wait⟩
  case hard => simp only [step, hp, State.taken_eq hp]; rfl
  case values =>
    exact ⟨rfl, by decide, rfl, rfl, rfl, rfl, rfl, by decide, rfl, rfl, rfl, rfl, rfl, by decide, fun _ => rfl⟩
  case wait =>
    show step s = .next s.wait
    simp only [step, hp]

/-! ## The fault state -/

theorem exec_run_of_fault (hf : s.fault = true) : exec .run s = .next s.ignored := by
  simp only [exec, execRun, hf, if_true]

theorem Stage.exec_of_fault {f : State → Except Cause State} (hst : Stage i f) (hf : s.fault = true) :
    exec i s = .next s.ignored := by
  rw [hst.exec_eq, State.perform_fault hf]

/-- In the fault state a read is ignored, `RDREG` of an assigned register apart (60_exceptions.md R313). -/
theorem exec_read_of_fault (hf : s.fault = true) (hi : isRead i = true)
    (hreg : ∀ reg, assignedReg reg = true → i ≠ .rdreg reg) : exec i s = .next s.ignored := by
  rcases exec_eq_answer_or_rdreg hi s with ⟨r, hr⟩ | ⟨reg, d, rfl, -⟩
  · rw [hr, State.answer_fault hf]
  · have hnone : s.regValue reg = none := by
      rw [← Option.not_isSome_iff_eq_none, State.regValue_isSome]
      exact fun h => hreg reg h rfl
    simp only [exec, execRdreg, hnone, State.answer_fault hf]

/-- In the fault state every command but `RESET` and `RDREG` of an assigned register is ignored
(60_exceptions.md R313). -/
theorem exec_of_fault (hf : s.fault = true) (hreset : i ≠ .reset)
    (hreg : ∀ reg, assignedReg reg = true → i ≠ .rdreg reg) : exec i s = .next s.ignored := by
  rcases command_cases i with rfl | rfl | hread | ⟨f, hst⟩
  · exact absurd rfl hreset
  · exact exec_run_of_fault hf
  · exact exec_read_of_fault hf hread hreg
  · exact hst.exec_of_fault hf

/-- Settles O9: what acts by its own arm, what is ignored by the kinds of commands. -/
theorem faultStateIgnoresCommands : Obligations.FaultStateIgnoresCommands := by
  unfold Obligations.FaultStateIgnoresCommands
  intro s hf
  refine ⟨rfl, fun reg => by rw [State.regValue_isSome], fun reg v hv => exec_rdreg hv,
    fun i hreset hreg => exec_of_fault hf hreset hreg, fun w e rest hp he => ?_⟩
  rw [step_illegal hp he]
  exact State.answer_fault (s := { s with pending := rest }) hf _

/-! ## `NOP`, `START` and `RELEASE` -/

/-- Settles O18: `NOP` performs nothing, and format Z takes the word without operand bits. -/
theorem nopDoesNothing : Obligations.NopDoesNothing := by
  unfold Obligations.NopDoesNothing
  refine ⟨fun s hf => State.perform_ok hf s, fun s hf => State.perform_fault hf (.ok s), fun a b => ?_, by decide⟩
  rw [decode_descriptor]
  show unreserved 0x00 (a == 0 && b == 0) .nop = _
  simp only [unreserved, Bool.and_eq_true, beq_iff_eq]

/-- `START` of an illegal version (46_control.md R272). -/
theorem State.startEncode_of_illegal (hp : s.phase = .idle) (hv : versionLegal s.version = false) :
    s.startEncode = .error .cfg := by
  rw [State.startEncode, State.inPhase_eq hp, hv]
  rfl

/-- Settles O19: the checks of the phase and of the version, in that order. -/
theorem startAndRelease : Obligations.StartAndRelease := by
  unfold Obligations.StartAndRelease
  refine ⟨fun s hf hp hlo hhi => Stage.start.exec_of_ok hf
      (State.startEncode_ok.mpr ⟨hp, versionLegal_iff.mpr ⟨hlo, hhi⟩, rfl⟩),
    fun s hf hp hv => Stage.start.exec_of_error hf (State.startEncode_of_illegal hp ?_),
    fun s hf hp => Stage.start.exec_of_error hf (State.inPhase_ne hp _),
    fun s hf hp => exec_release_of_done hf hp, fun s hf hp => Stage.release.exec_of_error hf (State.inPhase_ne hp _)⟩
  rw [Bool.eq_false_iff, ne_eq, versionLegal_iff]
  omega

/-! ## Several units -/

/-- Every step ends in a next state (70_reset_and_hazards.md R350). -/
theorem step_next (s : State) : ∃ t, step s = .next t := by
  unfold step
  split
  · exact ⟨_, rfl⟩
  · exact ⟨_, rfl⟩
  · split
    · obtain ⟨t, ht, -⟩ := exec_ends _ s.taken
      exact ⟨t, ht⟩
    · exact State.answer_next _ _

/-- A run takes its first step, then the others (00_scope.md R17). -/
theorem run_succ {t : State} (h : step s = .next t) (n : Nat) :
    Host.Core.run Sys2Proof.core (n + 1) s = Host.Core.run Sys2Proof.core n t := by
  have hstep : Sys2Proof.core.step s = .next t := h
  simp only [Host.Core.run, hstep]

/-- A unit stepped is one step further (60_exceptions.md R330). -/
theorem stepUnit_same {us : Units} {k : Nat} {t : State} (hk : us[k]? = some s) (h : step s = .next t) :
    (stepUnit us k)[k]? = some t := by
  obtain ⟨hlt, -⟩ := List.getElem?_eq_some_iff.mp hk
  simp only [stepUnit, hk, h, List.getElem?_set_self hlt]

/-- A unit not stepped stays (60_exceptions.md R330). -/
theorem stepUnit_ne (us : Units) {j k : Nat} (h : j ≠ k) : (stepUnit us j)[k]? = us[k]? := by
  unfold stepUnit
  split
  · rfl
  · split
    · exact List.getElem?_set_ne h
    · rfl
    · rfl

/-- Settles O55, by induction on the schedule: the unit's own turns step it, all others leave it. -/
theorem unitsAreIndependent : Obligations.UnitsAreIndependent := by
  unfold Obligations.UnitsAreIndependent
  intro us schedule k s hk
  induction schedule generalizing us s with
  | nil => exact ⟨s, rfl, hk⟩
  | cons j schedule ih =>
    by_cases hj : j = k
    · subst hj
      obtain ⟨t, ht⟩ := step_next s
      obtain ⟨u, hu, hlast⟩ := ih _ t (stepUnit_same hk ht)
      exact ⟨u, by rw [List.count_cons_self, run_succ ht, hu], hlast⟩
    · rw [List.count_cons_of_ne hj]
      exact ih _ s ((stepUnit_ne us hj).trans hk)

end Sys2Proof.Machine
end

section
/-! `RUN` as the sequence of its constituents (46_control.md R275): no stage reads the host's inputs or the latest
response, so the stages in order and the commands presented one by one leave the same state. -/

namespace Sys2Proof.Machine

variable {s t : State} {i : Instr} {is : List Instr} {f : State → Except Cause State}
  {fs : List (State → Except Cause State)}

/-! ## What no stage of `RUN` reads -/

/-- `s` with the host's coming inputs and the latest response of `w`: the two fields that are the model's own
(log entries 1, 3). -/
def State.withHost (s w : State) : State := { s with pending := w.pending, resp := w.resp }

/-- The answer depends on neither field. -/
def HostBlind (f : State → Except Cause State) : Prop := ∀ s w, f (s.withHost w) = (f s).map (·.withHost w)

theorem HostBlind.error (c : Cause) : HostBlind fun _ => .error c := fun _ _ => rfl

theorem HostBlind.ok {g : State → State} (hg : ∀ s w, g (s.withHost w) = (g s).withHost w) :
    HostBlind fun s => .ok (g s) :=
  fun s w => congrArg Except.ok (hg s w)

theorem HostBlind.ite {c : State → Prop} [∀ s, Decidable (c s)] {g : State → Except Cause State}
    (hc : ∀ s w, c (s.withHost w) ↔ c s) (hf : HostBlind f) (hg : HostBlind g) :
    HostBlind fun s => if c s then f s else g s := by
  intro s w
  by_cases h : c s
  · simp only [if_pos h, if_pos ((hc s w).mpr h), hf s w]
  · simp only [if_neg h, if_neg (mt (hc s w).mp h), hg s w]

theorem HostBlind.inPhase {p : Phase} (hf : HostBlind f) : HostBlind fun s => s.inPhase p (f s) :=
  .ite (c := fun s => s.phase = p) (fun _ _ => Iff.rfl) hf (.error .seq)

theorem HostBlind.append {v n : State → Nat} (hv : ∀ s w, v (s.withHost w) = v s)
    (hn : ∀ s w, n (s.withHost w) = n s) : HostBlind fun s => s.append (v s) (n s) :=
  .ite (c := fun s => s.bbLen + n s > s.capBits) (fun s w => by rw [hn]; exact Iff.rfl) (.error .ovf)
    (.ok fun s w => by rw [hv, hn]; rfl)

/-- `PKDATA` of units that were read appends or overflows (42_bitstream.md R165). -/
theorem State.packData_of_units {us : List PayUnit} (hp : s.phase = .packing)
    (h : readUnits s.cfg.mode s.pay (List.range s.payLen.toNat) = .ok us) : s.packData =
      if s.capBits < s.bbLen + groupWidth (groupsOf s.cfg.mode us) then .error .ovf
      else .ok { s with bb := s.bb ++ groupBits (groupsOf s.cfg.mode us) } := by
  rw [State.packData, State.inPhase_eq hp, h]

theorem packData_hostBlind : HostBlind State.packData := by
  intro s w
  by_cases hp : s.phase = .packing
  · cases h : readUnits s.cfg.mode s.pay (List.range s.payLen.toNat) with
    | error c =>
      rw [State.packData_of_readUnits hp h, State.packData_of_readUnits (s := s.withHost w) hp h]
      rfl
    | ok us =>
      rw [State.packData_of_units hp h, State.packData_of_units (s := s.withHost w) hp h]
      exact HostBlind.ite (c := fun s => s.capBits < s.bbLen + groupWidth (groupsOf s.cfg.mode us))
        (fun _ _ => Iff.rfl) (.error .ovf)
        (.ok (g := fun s => { s with bb := s.bb ++ groupBits (groupsOf s.cfg.mode us) }) fun _ _ => rfl) s w
  · rw [State.packData, State.packData, State.inPhase_ne hp, State.inPhase_ne (s := s.withHost w) hp]
    rfl

theorem evaluateMask_hostBlind {m : Nat} (hm : m < 8) : HostBlind (State.evaluateMask · m) := by
  simp only [State.evaluateMask, dif_pos hm]
  exact .inPhase (.ok fun _ _ => rfl)

/-- A command and its stage, which depends on neither field. -/
def BlindStage (i : Instr) (f : State → Except Cause State) : Prop := Stage i f ∧ HostBlind f

/-- The constituents of `RUN` are the commands of the sequence, and none reads the host's coming inputs or the latest
response (30_encoding.md R119; 46_control.md R275). -/
theorem encodeSequence_stages : List.Forall₂ BlindStage encodeSequence runStages := by
  have mask (m : Index) (hm : m.toNat < 8) : BlindStage (.mkeval m) (State.evaluateMask · m.toNat) :=
    ⟨.mkeval m, evaluateMask_hostBlind hm⟩
  refine .cons ⟨.start, ?start⟩ <| .cons ⟨.pkmode, ?mode⟩ <| .cons ⟨.pkcnt, ?count⟩ <|
    .cons ⟨.pkdata, packData_hostBlind⟩ <| .cons ⟨.pkterm, ?term⟩ <| .cons ⟨.pkalign, ?align⟩ <|
    .cons ⟨.pkpad, ?pad⟩ <| .cons ⟨.ecc, ?ecc⟩ <| .cons ⟨.mxfunc, ?func⟩ <| .cons ⟨.mxdata, ?place⟩ <|
    .cons (mask 0 (by decide)) <| .cons (mask 1 (by decide)) <| .cons (mask 2 (by decide)) <|
    .cons (mask 3 (by decide)) <| .cons (mask 4 (by decide)) <| .cons (mask 5 (by decide)) <|
    .cons (mask 6 (by decide)) <| .cons (mask 7 (by decide)) <| .cons ⟨.mksel, ?select⟩ <|
    .cons ⟨.mkapply, ?apply⟩ <| .cons ⟨.mkfmt, ?format⟩ <| .cons ⟨.mkver, ?version⟩ .nil
  case mode | term | align => exact .inPhase (.append (fun _ _ => rfl) fun _ _ => rfl)
  case count => exact .inPhase (.ite (fun _ _ => Iff.rfl) (.error _) (.append (fun _ _ => rfl) fun _ _ => rfl))
  case pad | ecc => exact .inPhase (.ite (fun _ _ => Iff.rfl) (.error _) (.ok fun _ _ => rfl))
  case start | select => exact .inPhase (.ite (fun _ _ => Iff.rfl) (.ok fun _ _ => rfl) (.error _))
  case func | place | apply | version => exact .inPhase (.ok fun _ _ => rfl)
  case format => exact .inPhase (.ok fun s w => by simp [State.withHost, State.side, State.version])

/-! ## Commands presented one by one -/

/-- `s` with other coming inputs (log entry 1). -/
def State.withPending (s : State) (p : List Input) : State := { s with pending := p }

/-- A stage's command depends on neither field either, and its own response replaces the latest one. -/
theorem Stage.exec_withHost (hst : Stage i f) (hb : HostBlind f) (h : exec i s = .next t) (w : State) :
    exec i (s.withHost w) = .next (t.withPending w.pending) := by
  rw [hst.exec_eq] at h ⊢
  rw [hb s w]
  rcases State.perform_cases h with ⟨hf, rfl⟩ | ⟨hf, c, hc, rfl⟩ | ⟨hf, u, hu, rfl⟩
  · exact State.perform_fault (s := s.withHost w) hf _
  · rw [hc]
    exact State.perform_error (s := s.withHost w) hf c
  · rw [hu]
    exact State.perform_ok (s := s.withHost w) hf _

/-- No command takes an input: the step does (log entry 1). -/
theorem State.after_pending (s : State) (is : List Instr) : (s.after is).pending = s.pending := by
  induction is generalizing s with
  | nil => rfl
  | cons i is ih =>
    obtain ⟨t, ht, hend⟩ := exec_ends i s
    rw [State.after_cons, State.after_of_exec ht, ih t]
    cases hend with
    | ignored | rdreg | reset => rfl
    | raised _ hp | completed _ _ hp => exact hp

/-- Presented commands are run one a step (00_scope.md R17; 20_memory.md R100). -/
theorem run_commandInputs (his : ∀ i ∈ is, ∃ f, Stage i f ∧ HostBlind f) (s : State) :
    Host.Core.run Sys2Proof.core is.length (s.withPending (commandInputs is)) =
      .next ((s.after is).withPending []) := by
  induction is generalizing s with
  | nil => rfl
  | cons i is ih =>
    obtain ⟨⟨f, hst, hb⟩, his⟩ := List.forall_mem_cons.mp his
    obtain ⟨t, ht, -⟩ := exec_ends i s
    have hstep : step (s.withPending (commandInputs (i :: is))) = .next (t.withPending (commandInputs is)) :=
      (step_command (rest := commandInputs is) rfl (decode_encode i)).trans
        (hst.exec_withHost hb ht (s.withPending (commandInputs is)))
    rw [List.length_cons, run_succ hstep, ih his t, State.after_cons, State.after_of_exec ht]

/-- In the fault state the commands of stages are ignored (60_exceptions.md R313). -/
theorem State.ignored_after (his : ∀ i ∈ is, ∃ f, Stage i f) (hf : s.fault = true) :
    s.ignored.after is = s.ignored := by
  induction is with
  | nil => rfl
  | cons i is ih =>
    obtain ⟨⟨f, hst⟩, his⟩ := List.forall_mem_cons.mp his
    have hignored : exec i s.ignored = .next s.ignored := hst.exec_of_fault hf
    rw [State.after_cons, State.after_of_exec hignored, ih his]

theorem State.raise_after (his : ∀ i ∈ is, ∃ f, Stage i f) (s : State) (c : Cause) :
    (s.raise c).after is = s.raise c :=
  State.ignored_after (s := s.raise c) his rfl

/-- The first command of a sequence faults: the others are ignored. -/
theorem Stage.after_of_error {c : Cause} (hst : Stage i f) (his : ∀ i ∈ is, ∃ f, Stage i f)
    (hf : s.fault = false) (h : f s = .error c) : s.after (i :: is) = s.raise c := by
  rw [State.after_cons, State.after_of_exec (hst.exec_of_error hf h), State.raise_after his]

/-- A sequence that faults stops at one of its commands, with what those before it did (46_control.md R275;
60_exceptions.md R312). -/
theorem State.after_stops (his : ∀ i ∈ is, ∃ f, Stage i f) (hf : s.fault = false)
    (h : (s.after is).fault = true) : ∃ (k : Nat) (j : Instr) (c : Cause), is[k]? = some j ∧ c ≠ .none ∧
      (s.after (is.take k)).fault = false ∧
      exec j (s.after (is.take k)) = .next ((s.after (is.take k)).raise c) ∧
      s.after is = (s.after (is.take k)).raise c := by
  induction is generalizing s with
  | nil => rw [State.after_nil, hf] at h; cases h
  | cons i is ih =>
    obtain ⟨⟨f, hst⟩, his⟩ := List.forall_mem_cons.mp his
    cases hr : f s with
    | error c =>
      exact ⟨0, i, c, rfl, fun hc => hst.error_ne_none s (hc ▸ hr), hf, hst.exec_of_error hf hr,
        hst.after_of_error his hf hr⟩
    | ok t =>
      have hnext : ∀ js, s.after (i :: js) = (t.respond 0).after js := fun js => by
        rw [State.after_cons, State.after_of_exec (hst.exec_of_ok hf hr)]
      rw [hnext] at h
      obtain ⟨k, j, c, hk, hc, hrest⟩ := ih (s := t.respond 0) his ((hst.completes hr).fault.trans hf) h
      exact ⟨k + 1, j, c, hk, hc, by simpa only [List.take_succ_cons, hnext] using hrest⟩

/-! ## `RUN` -/

/-- The commands of a list of pairs each have a stage. -/
theorem exists_stage (h : List.Forall₂ BlindStage is fs) : ∀ i ∈ is, ∃ f, Stage i f ∧ HostBlind f := by
  induction h with
  | nil => exact nofun
  | cons hif _ ih => exact List.forall_mem_cons.mpr ⟨⟨_, hif⟩, ih⟩

/-- Stages in order leave what their commands leave one by one. -/
theorem after_eq_runThrough (hst : List.Forall₂ BlindStage is fs) (hf : s.fault = false) (w : State)
    (hresp : is = [] → w.resp = some ⟨true, 0⟩) :
    (s.withHost w).after is = (runThrough fs s).withPending w.pending := by
  induction hst generalizing s w with
  | nil =>
    rw [State.after_nil, State.withHost, hresp rfl]
    rfl
  | @cons i f is fs hst hrest ih =>
    obtain ⟨hst, hb⟩ := hst
    rw [runThrough]
    cases hr : f s with
    | error c =>
      rw [State.after_cons, State.after_of_exec (hst.exec_withHost hb (hst.exec_of_error hf hr) w)]
      exact State.raise_after (fun i hi => (exists_stage hrest i hi).imp fun _ h => h.1)
        (s.withPending w.pending) c
    | ok t =>
      rw [State.after_cons, State.after_of_exec (hst.exec_withHost hb (hst.exec_of_ok hf hr) w)]
      exact ih ((hst.completes hr).fault.trans hf) ((t.respond 0).withPending w.pending) fun _ => rfl

theorem exists_stage_of_mem_encodeSequence : ∀ i ∈ encodeSequence, ∃ f, Stage i f := fun i hi =>
  (exists_stage encodeSequence_stages i hi).imp fun _ h => h.1

/-- Outside IDLE the first stage of `RUN` faults (46_control.md R275). -/
theorem runThrough_of_not_idle (hp : s.phase ≠ .idle) : runThrough runStages s = s.raise .seq := by
  rw [runStages, runThrough, State.startEncode, State.inPhase_ne hp]

/-- Without a fault `RUN` runs its stages (46_control.md R275). -/
theorem exec_run (hf : s.fault = false) : exec .run s = .next (runThrough runStages s) := by
  simp only [exec, execRun, hf, Bool.false_eq_true, if_false]
  split
  · rfl
  · next hp => rw [runThrough_of_not_idle hp]

/-- `RUN` is the command sequence, in every state (46_control.md R275). -/
theorem exec_run_eq_after (s : State) : exec .run s = .next (s.after encodeSequence) := by
  cases hf : s.fault with
  | true =>
    have hlist : encodeSequence = .start :: encodeSequence.tail := rfl
    rw [exec_run_of_fault hf, hlist, State.after_cons, State.after_of_exec (Stage.start.exec_of_fault hf),
      State.ignored_after (fun i hi => exists_stage_of_mem_encodeSequence i (List.mem_of_mem_tail hi)) hf]
  | false =>
    have hpending : (runThrough runStages s).pending = s.pending := by
      rw [← State.after_of_exec (exec_run hf), State.after_pending]
    have hafter : s.after encodeSequence = (runThrough runStages s).withPending s.pending :=
      after_eq_runThrough encodeSequence_stages hf s nofun
    rw [exec_run hf, hafter, ← hpending]
    rfl

/-- Settles O21: the steps run the commands one by one, and `RUN` is their sequence. -/
theorem runIsTheCommandSequence : Obligations.RunIsTheCommandSequence := by
  unfold Obligations.RunIsTheCommandSequence
  intro s hp
  refine ⟨s.after encodeSequence, exec_run_eq_after s, ?_⟩
  have hpending := s.after_pending encodeSequence
  have hrun := run_commandInputs (exists_stage encodeSequence_stages) s
  rw [State.withPending, ← hp, ← hpending] at hrun
  exact hrun

end Sys2Proof.Machine
end

section
/-! Where a fault is taken (60_exceptions.md R312). -/

namespace Sys2Proof.Machine

variable {s t : State} {i : Instr}

theorem State.raise_eq (s : State) (c : Cause) :
    s.raise c = { s with fault := true, cause := (s.raise c).cause, resp := some ⟨false, 0⟩ } := rfl

/-- A command that faults raises a cause and does nothing else, `RUN` in IDLE apart (60_exceptions.md R312). -/
theorem exec_fault (hf : s.fault = false) (h : exec i s = .next t) (ht : t.fault = true)
    (hrun : i ≠ .run ∨ s.phase ≠ .idle) : ∃ c, c ≠ .none ∧ t = s.raise c := by
  rcases exec_cases h with hr | ⟨-, rfl⟩ | ⟨hi, rfl⟩ | ⟨-, u, hu, rfl⟩
  · cases hr with
    | raise hc => exact ⟨_, hc, rfl⟩
    | ignored | respond => exact absurd ht (by simp [hf])
  · exact absurd ht (by simp [State.reset])
  · exact ⟨.seq, by decide, runThrough_of_not_idle (hrun.resolve_left (not_not.mpr hi))⟩
  · exact absurd ht (by simp [hu.fault, hf])

/-- Settles O10: one command raises its cause on the state it found, `RUN` on the state its earlier constituents
left. -/
theorem faultEntryIsPrecise : Obligations.FaultEntryIsPrecise := by
  unfold Obligations.FaultEntryIsPrecise
  intro i s t hf h ht
  by_cases hrun : i ≠ .run ∨ s.phase ≠ .idle
  · obtain ⟨c, hc, rfl⟩ := exec_fault hf h ht hrun
    refine ⟨hc, rfl, fun _ => s.raise_eq c, fun hi hp => ?_⟩
    exact absurd hrun (by simp [hi, hp])
  · obtain ⟨rfl, hp⟩ : i = .run ∧ s.phase = .idle := by simpa using hrun
    rw [exec_run_eq_after] at h
    cases h
    obtain ⟨k, j, c, hk, hc, hok, hexec, hstop⟩ := State.after_stops exists_stage_of_mem_encodeSequence hf ht
    rw [hstop]
    exact ⟨hc, rfl, fun h => absurd h hrun, fun _ _ => ⟨k, j, _, hk, rfl, hok, hexec, State.raise_eq _ c⟩⟩

end Sys2Proof.Machine
end

section
/-! What `RUN` in IDLE leaves, whether it completes or faults (46_control.md R275; 42_bitstream.md R174). -/

namespace Sys2Proof.Machine

variable {s t : State} {is js : List Instr}

/-! ## The packed bits -/

/-- The zeros of terminator and alignment after `len` bits (42_bitstream.md R170, R171). -/
def zeroCount (cap len : Nat) : Nat := min 4 (cap - len) + (8 - (len + min 4 (cap - len)) % 8) % 8

/-- Terminator, alignment and pad bytes after `len` bits (42_bitstream.md R173). -/
def padding (cap len : Nat) : List Bool :=
  List.replicate (zeroCount cap len) false ++ padBits ((cap - (len + zeroCount cap len)) / 8)

theorem zeroCount_lt (cap len : Nat) : zeroCount cap len < 12 := by
  rw [zeroCount]
  omega

theorem padding_length {cap len : Nat} (hcap : cap % 8 = 0) (hfit : len ≤ cap) :
    len + (padding cap len).length = cap := by
  have hzeros : (len + zeroCount cap len) % 8 = 0 ∧ len + zeroCount cap len ≤ cap := by
    rw [zeroCount]
    omega
  rw [padding, List.length_append, List.length_replicate, padBits_length]
  omega

/-- `PKTERM`, `PKALIGN` and `PKPAD` append the padding (42_bitstream.md R173). -/
theorem State.after_padding_eq (hf : s.fault = false) (hp : s.phase = .packing) (hfit : s.bbLen ≤ s.capBits) :
    s.after [.pkterm, .pkalign, .pkpad] = s.appended (padding s.capBits s.bbLen) := by
  obtain ⟨z, hz, hlo, hhi, halign⟩ := State.after_zeros hf hp hfit
  obtain rfl : z = zeroCount s.capBits s.bbLen := by
    rw [zeroCount]
    omega
  have hpad := exec_pkpad (s := s.appended (List.replicate (zeroCount s.capBits s.bbLen) false)) hf hp
    (by simpa using halign)
  rw [show [Instr.pkterm, .pkalign, .pkpad] = [.pkterm, .pkalign] ++ [.pkpad] from rfl, State.after_append, hz,
    State.after_of_exec hpad, State.appended_appended, padding]
  simp only [State.appended_capBits, State.appended_bbLen, List.length_replicate]

/-- Header, payload and padding (42_bitstream.md R174). -/
def State.packedBits (s : State) : List Bool := s.dataBits s.payloadUnits ++ padding s.capBits s.dataWidth

theorem State.packedBits_length (h : s.dataWidth ≤ s.capBits) : s.packedBits.length = s.capBits := by
  rw [State.packedBits, List.length_append, State.dataBits_length s.payloadUnits_length]
  exact padding_length s.capBits_mod h

/-! ## `START` and the header -/

theorem exec_start (hf : s.fault = false) (hp : s.phase = .idle) (hv : versionLegal s.version = true) :
    exec .start s = .next s.started :=
  Stage.start.exec_of_ok hf (State.startEncode_ok.mpr ⟨hp, hv, rfl⟩)

/-- Every legal symbol holds the header (11_rom_tables.md R67, R72). -/
theorem State.header_le_capBits (hv : versionLegal s.version = true) :
    4 + cntWidth s.cfg.mode s.version ≤ s.capBits := by
  have hcap := versionLegal_dataCapacity hv s.cfg.ecLevel
  have hcnt := cntWidth_le s.cfg.mode s.version
  rw [State.capBits, State.dcap]
  omega

/-- The bits of mode indicator and unit count (42_bitstream.md R163, R164). -/
def State.headerBits (s : State) : List Bool := s.modeBits ++ s.countBits

@[simp] theorem State.headerBits_length (s : State) :
    s.headerBits.length = 4 + cntWidth s.cfg.mode s.version := by
  simp [State.headerBits]

theorem exec_pkmode_started (hf : s.fault = false) (hv : versionLegal s.version = true) :
    exec .pkmode s.started = .next (s.started.appended s.modeBits) := by
  have hroom : 4 ≤ s.capBits := (Nat.le_add_right _ _).trans (State.header_le_capBits hv)
  exact Stage.pkmode.exec_appended hf (State.packMode_ok.mpr ⟨rfl, (Nat.zero_add 4).trans_le hroom, rfl⟩)

theorem exec_pkcnt_started (hf : s.fault = false) (hv : versionLegal s.version = true)
    (hcount : s.payLen.toNat < 2 ^ cntWidth s.cfg.mode s.version) :
    exec .pkcnt (s.started.appended s.modeBits) = .next (s.started.appended s.headerBits) := by
  have hroom := State.header_le_capBits hv
  have happend : exec .pkcnt (s.started.appended s.modeBits) =
      .next ((s.started.appended s.modeBits).appended s.countBits) :=
    Stage.pkcnt.exec_appended hf (State.packCount_ok.mpr ⟨rfl, Nat.not_le.mpr hcount, hroom, rfl⟩)
  rw [happend, State.appended_appended, State.headerBits]

/-! ## From CODED to DONE -/

/-- `t` is `s` in another phase, with only the matrix, the scores, their marks and the mask chosen anew. -/
def State.Draws (s : State) (p : Phase) (e : BitVec 8) (t : State) : Prop :=
  t = { s with phase := p, evalid := e, mx := t.mx, scores := t.scores, maskId := t.maskId, resp := some ⟨true, 0⟩ }

/-- From phase `p` with masks `e` marked, the commands complete in phase `q` with `e'` marked. -/
def Draws (is : List Instr) (p : Phase) (e : BitVec 8) (q : Phase) (e' : BitVec 8) : Prop :=
  ∀ s : State, s.fault = false → s.phase = p → s.evalid = e → s.Draws q e' (s.after is)

variable {p q r : Phase} {e e' e'' : BitVec 8} {i : Instr} {f : State → Except Cause State}

theorem Draws.append (h : Draws is p e q e') (h' : Draws js q e' r e'') : Draws (is ++ js) p e r e'' := by
  intro s hf hp he
  have hfirst := h s hf hp he
  have hsecond := h' (s.after is) (by rw [hfirst]; exact hf) (by rw [hfirst]) (by rw [hfirst])
  rw [State.after_append]
  unfold State.Draws at hfirst hsecond ⊢
  rw [hfirst] at hsecond
  rw [hfirst, hsecond]

/-- A stage that completes draws. -/
theorem Stage.draws (hst : Stage i f) (h : ∀ s : State, s.phase = p → s.evalid = e → ∃ t, f s = .ok t ∧
    s.Draws q e' (t.respond 0)) : Draws [i] p e q e' := by
  intro s hf hp he
  obtain ⟨t, ht, hdraws⟩ := h s hp he
  rwa [State.after_of_exec (hst.exec_of_ok hf ht)]

theorem draws_mxfunc (e : BitVec 8) : Draws [.mxfunc] .coded e .laid e :=
  Stage.mxfunc.draws fun _ hp he => ⟨_, State.buildFunction_ok.mpr ⟨hp, rfl⟩, he ▸ rfl⟩

theorem draws_mxdata (e : BitVec 8) : Draws [.mxdata] .laid e .placed 0 :=
  Stage.mxdata.draws fun _ hp _ => ⟨_, State.placeData_ok.mpr ⟨hp, rfl⟩, rfl⟩

theorem draws_mkeval {m : Index} (hm : m.toNat < 8) (e : BitVec 8) :
    Draws [.mkeval m] .placed e .placed (evalidMark e m.toNat) :=
  (Stage.mkeval m).draws fun _ hp he =>
    ⟨_, State.evaluateMask_ok.mpr ⟨hp, hm, rfl⟩, by rw [← he, ← hp]; rfl⟩

theorem draws_mksel : Draws [.mksel] .placed 0xFF#8 .selected 0xFF#8 :=
  Stage.mksel.draws fun _ hp he => ⟨_, State.selectMask_ok.mpr ⟨hp, beq_iff_eq.mpr he, rfl⟩, he ▸ rfl⟩

theorem draws_mkapply (e : BitVec 8) : Draws [.mkapply] .selected e .masked e :=
  Stage.mkapply.draws fun _ hp he => ⟨_, State.applyMask_ok.mpr ⟨hp, rfl⟩, he ▸ rfl⟩

theorem draws_mkfmt (e : BitVec 8) : Draws [.mkfmt] .masked e .formatted e :=
  Stage.mkfmt.draws fun _ hp he =>
    ⟨_, State.putFormat_ok.mpr ⟨hp, rfl⟩, by simp [State.Draws, State.respond, he]⟩

theorem draws_mkver (e : BitVec 8) : Draws [.mkver] .formatted e .done e :=
  Stage.mkver.draws fun _ hp he => ⟨_, State.putVersion_ok.mpr ⟨hp, rfl⟩, he ▸ rfl⟩

/-- All eight masks are marked (45_mask.md R257). -/
theorem draws_evalAll : Draws evalAll .placed 0 .placed 0xFF#8 :=
  (draws_mkeval (m := 0) (by decide) _).append <| (draws_mkeval (m := 1) (by decide) _).append <|
  (draws_mkeval (m := 2) (by decide) _).append <| (draws_mkeval (m := 3) (by decide) _).append <|
  (draws_mkeval (m := 4) (by decide) _).append <| (draws_mkeval (m := 5) (by decide) _).append <|
  (draws_mkeval (m := 6) (by decide) _).append <| draws_mkeval (m := 7) (by decide) _

/-- What follows `ECC` always completes (46_control.md R275). -/
theorem draws_symbol (e : BitVec 8) :
    Draws ([.mxfunc, .mxdata] ++ evalAll ++ finish) .coded e .done 0xFF#8 :=
  (((draws_mxfunc e).append (draws_mxdata e)).append draws_evalAll).append <|
    draws_mksel.append <| (draws_mkapply _).append <| (draws_mkfmt _).append (draws_mkver _)

end Sys2Proof.Machine
end

section
/-! How `RUN` in IDLE ends (46_control.md R275): the finished symbol, or the fault of `START`, `PKCNT` or `PKDATA`. -/

namespace Sys2Proof.Machine

variable {s t : State} {is : List Instr}

/-! ## The finished state -/

/-- The codeword stream of the configured payload (43_reed_solomon.md R195). -/
def State.stream (s : State) : List Byte := codewordStream s.blocks (codewordsOf s.packedBits)

/-- The scores of the eight candidates of a placed matrix (45_mask.md R257). -/
def placedScores (version : Nat) (fin : List Byte) : Vector (BitVec 32) 8 :=
  Vector.ofFn fun m : Fin 8 => BitVec.ofNat 32 (score (candidate m (placedMatrix version fin)))

/-- The mask the scores select (45_mask.md R258). -/
def placedMask (version : Nat) (fin : List Byte) : BitVec 3 :=
  BitVec.ofNat 3 (bestMask (placedScores version fin)).val

/-- The state a `RUN` that completes leaves (46_control.md R275). -/
def State.finished (s : State) : State :=
  { s with phase := .done, bb := s.packedBits, fin := s.stream, gen := rsGenerator s.blocks.ecLen, evalid := 0xFF#8,
           scores := placedScores s.version s.stream, maskId := placedMask s.version s.stream,
           mx := finalMatrix s.version s.cfg.ecLevel (placedMask s.version s.stream).toNat s.stream,
           resp := some ⟨true, 0⟩ }

/-- The state after `ECC`. -/
def State.coded (s : State) : State :=
  { s.started.appended s.packedBits with fin := s.stream, gen := rsGenerator s.blocks.ecLen, phase := .coded }

theorem State.Pipeline.scores_eq (hs : s.Pipeline) (h4 : 4 ≤ s.phase.code) (he : s.evalid = 0xFF#8) :
    s.scores = placedScores s.version s.fin := by
  ext m hm : 1
  have hall : ∀ m : Fin 8, (0xFF#8).getLsbD m = true := by decide
  have hscore : s.scores[m] = _ := hs.scored h4 ⟨m, hm⟩ (he ▸ hall ⟨m, hm⟩)
  rw [hscore, placedScores, Vector.getElem_ofFn]

/-- The pipeline decides what `MXFUNC` to `MKVER` leave. -/
theorem State.finished_of_draws (hd : s.coded.Draws .done 0xFF#8 t) (ht : t.Pipeline) : t = s.finished := by
  have hphase : t.phase = .done := congrArg State.phase hd
  have hcfg : t.cfg = s.cfg := (congrArg State.cfg hd).trans rfl
  have hversion : t.version = s.version := by rw [State.version, hcfg, State.version]
  have hfin : t.fin = s.stream := congrArg State.fin hd
  have hcode : t.phase.code = 8 := by rw [hphase]; rfl
  have hscores : t.scores = placedScores s.version s.stream := by
    rw [ht.scores_eq (by omega) (congrArg State.evalid hd), hversion, hfin]
  have hmask : t.maskId = placedMask s.version s.stream := by rw [ht.chosen (by omega), hscores, placedMask]
  have hmx := ht.done hphase
  rw [hversion, hcfg, hmask, hfin] at hmx
  rw [State.Draws, hscores, hmask, hmx] at hd
  exact hd

/-! ## `RUN` of a payload that fits -/

theorem payloadFits_iff {v n : Nat} {l : EcLevel} {mode : Mode} : payloadFits v l mode n = true ↔
    n < 2 ^ cntWidth mode v ∧ 4 + cntWidth mode v + payloadBits mode n ≤ 8 * dataCapacity v l := by
  rw [payloadFits, Bool.and_eq_true, decide_eq_true_iff, decide_eq_true_iff]

theorem exec_ecc_packed (hf : s.fault = false) (hroom : s.dataWidth ≤ s.capBits) :
    exec .ecc (s.started.appended s.packedBits) = .next s.coded :=
  Stage.ecc.exec_of_ok (s := s.started.appended s.packedBits) hf
    (State.encodeBlocks_ok.mpr ⟨rfl, State.packedBits_length hroom, rfl⟩)

/-- `PACK` after `START` (42_bitstream.md R174). -/
theorem State.started_after_pack (hf : s.fault = false) (hpay : s.payloadOk)
    (hcount : s.payLen.toNat < 2 ^ cntWidth s.cfg.mode s.version) (hroom : s.dataWidth ≤ s.capBits) :
    s.started.after pack = s.started.appended s.packedBits := by
  have hempty : s.started.bbLen + s.started.dataWidth ≤ s.started.capBits := (Nat.zero_add _).trans_le hroom
  have hdata : s.started.after [.pkmode, .pkcnt, .pkdata] = s.started.appended (s.dataBits s.payloadUnits) :=
    State.after_data_of_fits (s := s.started) hf rfl hpay hcount hempty
  have hlen : (s.started.appended (s.dataBits s.payloadUnits)).bbLen = s.dataWidth := by
    rw [State.appended_bbLen, State.dataBits_length s.payloadUnits_length]
    exact Nat.zero_add _
  have hpad := State.after_padding_eq (s := s.started.appended (s.dataBits s.payloadUnits)) hf rfl
    (hlen.trans_le hroom)
  rw [show pack = [.pkmode, .pkcnt, .pkdata] ++ [.pkterm, .pkalign, .pkpad] from rfl, State.after_append, hdata,
    hpad, hlen, State.appended_appended]
  rfl

/-- `RUN` of a payload that is written, valid and fits completes (46_control.md R275). -/
theorem State.after_encode_of_fits (hf : s.fault = false) (hp : s.phase = .idle)
    (hv : versionLegal s.version = true) (hpay : s.payloadOk)
    (hcount : s.payLen.toNat < 2 ^ cntWidth s.cfg.mode s.version) (hroom : s.dataWidth ≤ s.capBits) :
    s.after encodeSequence = s.finished := by
  have hpipeline : (s.after encodeSequence).Pipeline :=
    exec_pipeline (.of_early (by simp [hp, Phase.code])) (exec_run_eq_after s)
  have hafter : s.after encodeSequence = s.coded.after ([.mxfunc, .mxdata] ++ evalAll ++ finish) := by
    have hlist : encodeSequence = .start :: (pack ++ .ecc :: ([.mxfunc, .mxdata] ++ evalAll ++ finish)) := rfl
    rw [hlist, State.after_cons, State.after_of_exec (exec_start hf hp hv), State.after_append,
      State.started_after_pack hf hpay hcount hroom, State.after_cons,
      State.after_of_exec (exec_ecc_packed hf hroom)]
  have hdraws : s.coded.Draws .done 0xFF#8 (s.after encodeSequence) := by
    rw [hafter]
    exact draws_symbol _ s.coded hf rfl rfl
  exact State.finished_of_draws hdraws hpipeline

/-- Settles O20: the state `RUN` leaves is `State.finished`, whose fields are those the statement names. -/
theorem runCompletes : Obligations.RunCompletes := by
  unfold Obligations.RunCompletes
  intro s hf hp hv hpay hfits
  obtain ⟨hcount, hroom⟩ := payloadFits_iff.mp hfits
  refine ⟨s.finished, ?_, rfl, ⟨zeroCount s.capBits s.dataWidth,
      (s.capBits - (s.dataWidth + zeroCount s.capBits s.dataWidth)) / 8, ?_, zeroCount_lt _ _⟩,
    State.packedBits_length hroom, rfl, rfl, fun m => ?_, rfl, rfl⟩
  · rw [exec_run_eq_after, State.after_encode_of_fits hf hp hv hpay hcount hroom]
  · exact (List.append_assoc _ _ _).symm
  · exact Vector.getElem_ofFn _

/-! ## `RUN` that faults -/

theorem readUnits_error {mode : Mode} {pay : Memory} {c : Cause} : ∀ {ks : List Nat},
    readUnits mode pay ks = .error c → c = .uninit ∨ c = .unit
  | [], h => by cases h
  | k :: ks, h => by
    rw [readUnits] at h
    split at h
    · cases h; exact .inl rfl
    · split at h
      · split at h
        · next hrest => cases h; exact readUnits_error hrest
        · cases h
      · cases h; exact .inr rfl

/-- A payload that is read is written and valid (42_bitstream.md R165). -/
theorem State.payloadOk_of_readUnits {us : List PayUnit}
    (h : readUnits s.cfg.mode s.pay (List.range s.payLen.toNat) = .ok us) : s.payloadOk := by
  obtain ⟨hread, hvalid⟩ := readUnits_of_ok h
  intro k hk
  have hmem : s.pay.read k ∈ us.map some := hread ▸ List.mem_map_of_mem (List.mem_range.mpr hk)
  obtain ⟨u, hu, hsome⟩ := List.mem_map.mp hmem
  exact ⟨u, hsome.symm, hvalid u hu⟩

/-- How `RUN` in IDLE ends (46_control.md R275). -/
inductive RunEnds (s : State) : State → Prop
  | version (hv : versionLegal s.version = false) : RunEnds s (s.raise .cfg)
  | count : RunEnds s ((s.started.appended s.modeBits).raise .count)
  | payload {c : Cause} (hc : c = .uninit ∨ c = .unit ∨ c = .ovf) :
      RunEnds s ((s.started.appended s.headerBits).raise c)
  | finished : RunEnds s s.finished

/-- `PKDATA` completes exactly if the payload is written and valid and fits. -/
theorem State.packData_cases (hp : s.phase = .packing) :
    (∃ c, (c = .uninit ∨ c = .unit ∨ c = .ovf) ∧ s.packData = .error c) ∨
      (s.payloadOk ∧ s.bbLen + payloadBits s.cfg.mode s.payLen.toNat ≤ s.capBits) := by
  cases h : readUnits s.cfg.mode s.pay (List.range s.payLen.toNat) with
  | error c =>
    exact .inl ⟨c, (readUnits_error h).imp_right .inl, State.packData_of_readUnits hp h⟩
  | ok us =>
    have hpay := State.payloadOk_of_readUnits h
    by_cases hroom : s.bbLen + payloadBits s.cfg.mode s.payLen.toNat ≤ s.capBits
    · exact .inr ⟨hpay, hroom⟩
    · exact .inl ⟨.ovf, .inr (.inr rfl), State.packData_of_no_room hp hpay (not_le.mp hroom)⟩

/-- The first constituents of `RUN` in turn: only `START`, `PKCNT` and `PKDATA` can fault. -/
theorem after_encode_ends (hf : s.fault = false) (hp : s.phase = .idle) : RunEnds s (s.after encodeSequence) := by
  obtain ⟨rest, hlist⟩ : ∃ rest, encodeSequence = .start :: .pkmode :: .pkcnt :: .pkdata :: rest := ⟨_, rfl⟩
  have hstages := exists_stage_of_mem_encodeSequence
  rw [hlist] at hstages
  obtain ⟨-, hfromMode⟩ := List.forall_mem_cons.mp hstages
  obtain ⟨-, hfromCount⟩ := List.forall_mem_cons.mp hfromMode
  obtain ⟨-, hfromData⟩ := List.forall_mem_cons.mp hfromCount
  obtain ⟨-, hrest⟩ := List.forall_mem_cons.mp hfromData
  cases hv : versionLegal s.version with
  | false =>
    rw [hlist, Stage.start.after_of_error hfromMode hf (State.startEncode_of_illegal hp hv)]
    exact .version hv
  | true =>
    have hmode : s.after encodeSequence = (s.started.appended s.modeBits).after (.pkcnt :: .pkdata :: rest) := by
      rw [hlist, State.after_cons, State.after_of_exec (exec_start hf hp hv), State.after_cons,
        State.after_of_exec (exec_pkmode_started hf hv)]
    by_cases hcount : s.payLen.toNat < 2 ^ cntWidth s.cfg.mode s.version
    · rcases State.packData_cases (s := s.started.appended s.headerBits) rfl with ⟨c, hc, herr⟩ | ⟨hpay, hroom⟩
      · rw [hmode, State.after_cons, State.after_of_exec (exec_pkcnt_started hf hv hcount),
          Stage.pkdata.after_of_error (s := s.started.appended s.headerBits) hrest hf herr]
        exact .payload hc
      · have hlen : (s.started.appended s.headerBits).bbLen = 4 + cntWidth s.cfg.mode s.version := by
          rw [State.appended_bbLen, State.headerBits_length]
          exact Nat.zero_add _
        rw [hlen] at hroom
        rw [State.after_encode_of_fits hf hp hv hpay hcount hroom]
        exact .finished
    · rw [hmode, Stage.pkcnt.after_of_error (s := s.started.appended s.modeBits) hfromData hf
        (State.packCount_of_count (s := s.started.appended s.modeBits) rfl (not_lt.mp hcount))]
      exact .count

theorem exec_run_ends (hf : s.fault = false) (hp : s.phase = .idle) (h : exec .run s = .next t) : RunEnds s t := by
  rw [exec_run_eq_after] at h
  injection h with h
  exact h ▸ after_encode_ends hf hp

end Sys2Proof.Machine
end

section
/-! The phase table and the fault table (46_control.md R270; 60_exceptions.md R315): why a command raises its cause, the
phase a completed one leaves, and what a `RUN` that faults leaves behind it. -/

namespace Sys2Proof.Machine

variable {s t : State} {i : Instr} {is : List Instr} {f : State → Except Cause State} {c : Cause}

/-! ## After a fault -/

/-- Only `RESET` moves the phase of the fault state (60_exceptions.md R313, R316). -/
theorem State.after_fault_phase (hf : s.fault = true) (hreset : .reset ∉ is) : (s.after is).phase = s.phase := by
  induction is generalizing s with
  | nil => rfl
  | cons i is ih =>
    rw [List.mem_cons, not_or] at hreset
    obtain ⟨t, ht, hend⟩ := exec_ends i s
    rw [State.after_cons, State.after_of_exec ht]
    cases hend with
    | ignored => exact ih hf hreset.2
    | raised hclear | completed hclear => rw [hf] at hclear; cases hclear
    | rdreg => exact ih hf hreset.2
    | reset => exact absurd rfl hreset.1

/-- The fault state exposes no symbol (00_scope.md R18). -/
theorem State.symbol_of_fault (hf : s.fault = true) : s.symbol = none := by
  simp [State.symbol, hf]

/-- Settles O22: `RUN` ends in one of the ways of `RunEnds`, and the fault state keeps its phase. -/
theorem faultingRunLeavesNoSymbol : Obligations.FaultingRunLeavesNoSymbol := by
  unfold Obligations.FaultingRunLeavesNoSymbol
  intro s t hf hp h ht
  refine ⟨?_, State.symbol_of_fault ht, fun is hreset =>
    ⟨State.symbol_of_fault (State.after_fault ht hreset), State.after_fault_phase ht hreset⟩⟩
  cases exec_run_ends hf hp h with
  | version hv => exact .inl ⟨rfl, hp, hv⟩
  | count => exact .inr (.inl ⟨rfl, rfl, s.modeBits_length⟩)
  | payload hc => exact .inr (.inr ⟨hc, rfl, s.headerBits_length⟩)
  | finished => rw [State.finished, hf] at ht; cases ht

/-! ## Why a command raises its cause -/

/-- The reasons of a fault: the phase check, `MKSEL` before all masks are marked, or another check of the command's
row of the fault table (46_control.md R270; 60_exceptions.md R315). -/
inductive Refused (s : State) : Instr → Cause → Prop
  | phase {i : Instr} (h : acceptedIn i s.phase = false) : Refused s i .seq
  | marks (h : s.evalid ≠ 0xFF#8) : Refused s .mksel .seq
  | check {i : Instr} {c : Cause} (hc : c ≠ .seq) (hmem : s.Inv → c ∈ faultCauses i) : Refused s i c

/-- A command whose phase check can fail has SEQ in its row (60_exceptions.md R315). -/
theorem seq_mem_faultCauses {p : Phase} (h : acceptedIn i p = false) : .seq ∈ faultCauses i := by
  cases i with
  | nop | reset | rdreg | rdpay | rdgen | gfexp | gflog | gfmul | gfadd | rsgen => cases h
  | _ => simp [faultCauses]

/-- A fault of a command without a fault before it is in the command's row (60_exceptions.md R315). -/
theorem Refused.mem_faultCauses (h : Refused s i c) (hs : s.Inv) : c ∈ faultCauses i := by
  cases h with
  | phase h => exact seq_mem_faultCauses h
  | marks => simp [faultCauses]
  | check _ hmem => exact hmem hs

/-- An accepted command raises SEQ only as `MKSEL` (46_control.md R270). -/
theorem Refused.mksel_of_seq (h : Refused s i .seq) (hacc : acceptedIn i s.phase = true) :
    i = .mksel ∧ s.evalid ≠ 0xFF#8 := by
  cases h with
  | phase h => rw [hacc] at h; cases h
  | marks h => exact ⟨rfl, h⟩
  | check hc => exact absurd rfl hc

/-- A stage faults by its phase check or by a check after it. -/
theorem Refused.of_inPhase {p : Phase} {r : Except Cause State} (hacc : acceptedIn i s.phase = (s.phase == p))
    (h : s.inPhase p r = .error c) (hr : s.phase = p → r = .error c → Refused s i c) : Refused s i c := by
  by_cases hp : s.phase = p
  · rw [State.inPhase_eq hp] at h
    exact hr hp h
  · rw [State.inPhase_ne hp] at h
    cases h
    exact .phase (by simpa [hacc] using hp)

theorem State.append_error {v w : Nat} (h : s.append v w = .error c) : c = .ovf ∧ s.capBits < s.bbLen + w := by
  rw [State.append] at h
  split at h
  · next hroom => cases h; exact ⟨rfl, hroom⟩
  · cases h

/-- Terminator and alignment fit (42_bitstream.md R170, R171). -/
theorem State.Inv.append_fits (hs : s.Inv) (hp : s.phase = .packing) {w : Nat}
    (hw : s.bbLen ≤ s.capBits → s.bbLen + w ≤ s.capBits) : ¬ s.capBits < s.bbLen + w :=
  not_lt.mpr (hw (hs.bbFits (by simp [hp])))

section
variable {b : Prop} [Decidable b] {e : Cause} {r : Except Cause State}

/-- A cause of the command's row other than SEQ. -/
theorem Refused.listed (hc : c ≠ .seq := by decide) (h : c ∈ faultCauses i := by simp [faultCauses]) :
    Refused s i c :=
  .check hc fun _ => h

/-- A check that must not hold, then the rest. -/
theorem Refused.of_forbid (h : (if b then .error e else r) = .error c) (he : b → Refused s i e)
    (hr : r = .error c → Refused s i c) : Refused s i c := by
  split at h
  · next hb => cases h; exact he hb
  · exact hr h

/-- A last check that must hold. -/
theorem Refused.of_require {u : State} (h : (if b then Except.ok u else Except.error e) = .error c)
    (he : ¬ b → Refused s i e) : Refused s i c := by
  split at h
  · cases h
  · next hb => cases h; exact he hb

end

/-- A stage that faults. -/
theorem Stage.refused (hst : Stage i f) (h : f s = .error c) : Refused s i c := by
  cases hst with
  | start => exact .of_inPhase rfl h fun _ h => .of_require h fun _ => .listed
  | release => exact .of_inPhase rfl h nofun
  | wrreg reg val =>
    dsimp only [State.writeReg] at h
    have range : Refused s (.wrreg reg val) .range := .listed
    split at h
    · exact .of_inPhase rfl h fun _ h => .of_require h fun _ => range
    · refine .of_forbid (b := reg.toNat ≠ 1) (by rwa [ite_not]) (fun _ => range) fun h =>
        .of_inPhase rfl h fun _ h => .of_require h fun _ => range
  | wrpay idx val =>
    exact .of_inPhase rfl h fun _ h => .of_forbid h (fun _ => .listed) nofun
  | pushb val width =>
    have range : Refused s (.pushb val width) .range := .listed
    refine .of_inPhase rfl h fun _ h => .of_forbid h (fun _ => range) fun h => .of_forbid h (fun _ => range) fun h => ?_
    obtain ⟨rfl, -⟩ := State.append_error h
    exact .listed
  | pkmode =>
    refine .of_inPhase rfl h fun _ h => ?_
    obtain ⟨rfl, -⟩ := State.append_error h
    exact .listed
  | pkcnt =>
    refine .of_inPhase rfl h fun _ h =>
      .of_forbid h (fun _ => .listed) fun h => ?_
    obtain ⟨rfl, -⟩ := State.append_error h
    exact .listed
  | pkdata =>
    by_cases hp : s.phase = .packing
    · rcases State.packData_cases hp with ⟨e, he, herr⟩ | ⟨hpay, hroom⟩
      · rw [herr] at h
        cases h
        rcases he with rfl | rfl | rfl <;> exact .listed
      · rw [State.packData_of_room hp hpay hroom] at h
        cases h
    · exact .of_inPhase rfl h fun hp' => absurd hp' hp
  | pkterm =>
    refine .of_inPhase rfl h fun hp h => ?_
    obtain ⟨rfl, hroom⟩ := State.append_error h
    exact .check (by decide) fun hs => absurd hroom (hs.append_fits hp (by omega))
  | pkalign =>
    refine .of_inPhase rfl h fun hp h => ?_
    obtain ⟨rfl, hroom⟩ := State.append_error h
    have hcap := s.capBits_mod
    exact .check (by decide) fun hs => absurd hroom (hs.append_fits hp (by omega))
  | pkpad =>
    exact .of_inPhase rfl h fun _ h => .of_forbid h (fun _ => .listed) nofun
  | rsgen n => exact .of_forbid h (fun _ => .listed) nofun
  | ecc =>
    exact .of_inPhase rfl h fun _ h => .of_forbid h (fun _ => .listed) nofun
  | mxfunc => exact .of_inPhase rfl h nofun
  | mxdata => exact .of_inPhase rfl h nofun
  | mkeval m =>
    refine .of_inPhase rfl h fun _ h => ?_
    split at h
    · cases h
    · cases h; exact .listed
  | mksel => exact .of_inPhase rfl h fun _ h => .of_require h fun hmarks => .marks (by simpa [evalidAll] using hmarks)
  | mkapply => exact .of_inPhase rfl h nofun
  | mkfmt => exact .of_inPhase rfl h nofun
  | mkver => exact .of_inPhase rfl h nofun

/-- A read that faults. -/
theorem read_refused (hi : isRead i = true) (hf : s.fault = false) (h : exec i s = .next t) (ht : t.fault = true) :
    ∃ c, Refused s i c ∧ t = s.raise c := by
  have answer {r : Except Cause Data} (h : s.answer r = .next t) (hr : ∀ c, r = .error c → Refused s i c) :
      ∃ c, Refused s i c ∧ t = s.raise c := by
    rcases State.answer_cases h with ⟨hset, -⟩ | ⟨-, c, hc, rfl⟩ | ⟨-, d, -, rfl⟩
    · rw [hf] at hset; cases hset
    · exact ⟨c, hr c hc, rfl⟩
    · rw [State.respond_fault, hf] at ht; cases ht
  cases i with
  | nop => exact answer (r := .ok 0) h nofun
  | rdreg reg =>
    cases hv : s.regValue reg with
    | some v =>
      rw [exec_rdreg hv] at h
      cases h
      exact absurd ht (by simp [hf])
    | none =>
      refine answer (r := .error .range) (by simpa only [exec, execRdreg, hv] using h) fun c hc => ?_
      cases hc
      exact .listed
  | rdpay idx =>
    refine answer h fun c hc => ?_
    split at hc
    · cases hc; exact .listed
    · split at hc <;> cases hc
      exact .listed
  | rdbit idx | rdcw idx | rdmod row col =>
    refine answer h fun c hc => ?_
    split at hc
    · next hp => cases hc; exact .phase (by simpa [acceptedIn] using hp)
    · split at hc <;> cases hc
      exact .listed
  | rdgen idx | gflog a =>
    refine answer h fun c hc => ?_
    split at hc <;> cases hc
    exact .listed
  | gfexp | gfmul | gfadd => exact answer (r := .ok _) h nofun
  | reset | start | release | run | wrreg | wrpay | pushb | pkmode | pkcnt | pkdata | pkterm | pkalign | pkpad
  | rsgen | ecc | mxfunc | mxdata | mkeval | mksel | mkapply | mkfmt | mkver => cases hi

/-- Why a command other than `RUN` faults, and the state it leaves. -/
theorem exec_refused (hrun : i ≠ .run) (hf : s.fault = false) (h : exec i s = .next t) (ht : t.fault = true) :
    ∃ c, Refused s i c ∧ t = s.raise c := by
  rcases command_cases i with rfl | rfl | hread | ⟨f, hst⟩
  · cases h
    cases ht
  · exact absurd rfl hrun
  · exact read_refused hread hf h ht
  · rw [hst.exec_eq] at h
    rcases State.perform_cases h with ⟨hset, -⟩ | ⟨-, c, hc, rfl⟩ | ⟨-, u, hu, rfl⟩
    · rw [hf] at hset; cases hset
    · exact ⟨c, hst.refused hc, rfl⟩
    · rw [State.respond_fault, (hst.completes hu).fault, hf] at ht; cases ht

/-- The causes of a `RUN` in IDLE (46_control.md R275). -/
theorem RunEnds.cause (h : RunEnds s t) (hf : s.fault = false) (ht : t.fault = true) :
    t.cause ≠ .seq ∧ t.cause ∈ faultCauses .run := by
  cases h with
  | version | count => simp [faultCauses]
  | payload hc => rcases hc with rfl | rfl | rfl <;> simp [faultCauses]
  | finished => rw [State.finished, hf] at ht; cases ht

/-! ## The phase check -/

/-- A stage outside its phase (46_control.md R270). -/
theorem Stage.not_accepted (hst : Stage i f) (h : acceptedIn i s.phase = false)
    (hreg : ∀ reg val, i = .wrreg reg val → reg.toNat ≤ 1) : f s = .error .seq := by
  have refuse {p : Phase} {r : Except Cause State} (hp : (s.phase == p) = false) : s.inPhase p r = .error .seq :=
    State.inPhase_ne (ne_of_beq_false hp) r
  cases hst with
  | wrreg reg val =>
    have hreg := hreg reg val rfl
    have hcases : reg = 0#8 ∨ reg = 1#8 := by bv_omega
    rcases hcases with rfl | rfl
    · exact (State.writeReg_cfg s val).trans (refuse h)
    · exact (State.writeReg_payLen s val).trans (refuse h)
  | rsgen => cases h
  | start | release | wrpay | pushb | pkmode | pkcnt | pkdata | pkterm | pkalign | pkpad | ecc | mxfunc | mxdata
  | mkeval | mksel | mkapply | mkfmt | mkver => exact refuse h

/-- A command outside its phase raises SEQ (46_control.md R270). -/
theorem exec_not_accepted (hf : s.fault = false) (h : acceptedIn i s.phase = false)
    (hreg : ∀ reg val, i = .wrreg reg val → reg.toNat ≤ 1) : exec i s = .next (s.raise .seq) := by
  rcases command_cases i with rfl | rfl | hread | ⟨f, hst⟩
  · cases h
  · rw [exec_run hf, runThrough_of_not_idle (ne_of_beq_false h)]
  · cases i with
    | rdbit | rdcw | rdmod => exact State.answer_forbidden hf (by simpa [acceptedIn] using h)
    | nop | rdreg | rdpay | rdgen | gfexp | gflog | gfmul | gfadd => cases h
    | reset | start | release | run | wrreg | wrpay | pushb | pkmode | pkcnt | pkdata | pkterm | pkalign | pkpad
    | rsgen | ecc | mxfunc | mxdata | mkeval | mksel | mkapply | mkfmt | mkver => cases hread
  · exact hst.exec_of_error hf (hst.not_accepted h hreg)

/-! ## The phase a completed command leaves -/

theorem State.Reported.phase (h : s.Reported t) : t.phase = s.phase := by cases h <;> rfl

theorem phaseAfter_of_isRead (hi : isRead i = true) (p : Phase) : phaseAfter i p = p := by
  cases i with
  | nop | rdreg | rdpay | rdbit | rdcw | rdmod | rdgen | gfexp | gflog | gfmul | gfadd => rfl
  | reset | start | release | run | wrreg | wrpay | pushb | pkmode | pkcnt | pkdata | pkterm | pkalign | pkpad
  | rsgen | ecc | mxfunc | mxdata | mkeval | mksel | mkapply | mkfmt | mkver => cases hi

theorem phaseAfter_of_isPacker (hi : isPacker i = true) (p : Phase) : phaseAfter i p = p := by
  cases i with
  | pushb | pkmode | pkcnt | pkdata | pkterm | pkalign | pkpad => rfl
  | nop | reset | start | release | run | rdreg | wrreg | rdpay | wrpay | rdbit | rdcw | rdmod | rdgen | gfexp | gflog
  | gfmul | gfadd | rsgen | ecc | mxfunc | mxdata | mkeval | mksel | mkapply | mkfmt | mkver => cases hi

/-- A completed stage leaves the phase of the table (46_control.md R270). -/
theorem Completes.phase (h : Completes s i t) : t.phase = phaseAfter i s.phase := by
  cases h with
  | append hi => exact (phaseAfter_of_isPacker hi _).symm
  | start | release | wrregCfg | wrregLen | wrpay | rsgen | ecc | mxfunc | mxdata | mkeval | mksel | mkapply | mkfmt
  | mkver => rfl

/-- A command that completes leaves the phase of the table (46_control.md R270). -/
theorem exec_phaseAfter (hf : s.fault = false) (hacc : acceptedIn i s.phase = true) (h : exec i s = .next t)
    (ht : t.fault = false) : t.phase = phaseAfter i s.phase := by
  rcases command_cases i with rfl | rfl | hread | ⟨f, hst⟩
  · cases h
    rfl
  · obtain ⟨u, hu, -, rfl⟩ := (exec_run_completes hf (eq_of_beq hacc)).mp ⟨h, ht⟩
    exact (runStages_phase hu : u.phase = .done)
  · rw [(read_reported hread h).phase, phaseAfter_of_isRead hread]
  · rw [hst.exec_eq] at h
    rcases State.perform_cases h with ⟨hset, -⟩ | ⟨-, c, -, rfl⟩ | ⟨-, u, hu, rfl⟩
    · rw [hf] at hset; cases hset
    · cases ht
    · exact (hst.completes hu).phase

/-- The two ways back to IDLE (46_control.md R270). -/
theorem exec_to_idle (h : exec i s = .next t) (ht : t.phase = .idle) (hs : s.phase ≠ .idle) :
    i = .reset ∨ (i = .release ∧ s.phase = .done) := by
  rcases exec_cases h with hr | ⟨rfl, -⟩ | ⟨-, rfl⟩ | ⟨-, u, hu, rfl⟩
  · exact absurd (hr.phase.symm.trans ht) hs
  · exact .inl rfl
  · rw [runThrough_of_not_idle hs] at ht
    exact absurd ht hs
  · cases hu with
    | release hp => exact .inr ⟨rfl, hp⟩
    | wrregCfg hp | wrregLen hp | wrpay hp => exact absurd hp hs
    | append | rsgen | mkeval => exact absurd ht hs
    | start | ecc | mxfunc | mxdata | mksel | mkapply | mkfmt | mkver => cases ht

/-- Settles O12: the phase check first, then what a command that passes it leaves. -/
theorem phaseTableHolds : Obligations.PhaseTableHolds := by
  unfold Obligations.PhaseTableHolds
  refine ⟨fun s reg val hf hreg => (Stage.wrreg reg val).exec_of_error hf (State.writeReg_other hreg s val),
    fun i s hf h hreg => exec_not_accepted hf h hreg,
    fun i s t hf hacc h => ⟨exec_phaseAfter hf hacc h, fun ht hrun => ?_, fun ht hc => ?_⟩,
    fun i s t h ht hs => exec_to_idle h ht hs⟩
  · obtain ⟨c, -, rfl⟩ := exec_refused hrun hf h ht
    rfl
  · by_cases hrun : i = .run
    · subst hrun
      exact absurd hc ((exec_run_ends hf (eq_of_beq hacc) h).cause hf ht).1
    · obtain ⟨c, href, rfl⟩ := exec_refused hrun hf h ht
      exact Refused.mksel_of_seq (hc ▸ href) hacc

/-! ## Operands out of range -/

/-- A stage that completes had its operands in range (30_encoding.md R112). -/
theorem Stage.wellFormed_of_ok (hst : Stage i f) (h : f s = .ok t) : wellFormed i = true := by
  cases hst with
  | wrreg reg val =>
    obtain ⟨-, ⟨rfl, hval, -⟩ | ⟨rfl, hval, -⟩⟩ := State.writeReg_ok.mp h
    · have hlt := (extractLsb'_high_eq_zero_iff (m := 22) (n := 10) val).mp hval
      simpa [wellFormed, writableReg] using hlt
    · have hlt := (extractLsb'_high_eq_zero_iff (m := 19) (n := 13) val).mp hval
      simpa [wellFormed, writableReg] using hlt
  | wrpay idx val =>
    obtain ⟨-, hidx, -⟩ := State.writePay_ok.mp h
    exact decide_eq_true hidx
  | pushb val width =>
    obtain ⟨-, hwidth, hval, -⟩ := State.pushBits_ok.mp h
    simp [wellFormed, hwidth, hval]
  | rsgen n =>
    obtain ⟨⟨hlo, hhi⟩, -⟩ := State.loadGenerator_ok.mp h
    simp [wellFormed, hlo, hhi]
  | mkeval m =>
    obtain ⟨-, hm, -⟩ := State.evaluateMask_ok.mp h
    exact decide_eq_true (Nat.le_of_lt_succ hm)
  | start | release | pkmode | pkcnt | pkdata | pkterm | pkalign | pkpad | ecc | mxfunc | mxdata | mksel | mkapply
  | mkfmt | mkver => rfl

/-- A read that responds passed its first check. -/
theorem check_of_ok {b : Prop} [Decidable b] {e : Cause} {r : Except Cause Data} {d : Data}
    (h : (if b then .error e else r) = .ok d) : ¬ b ∧ r = .ok d := by
  split at h
  · cases h
  · next hb => exact ⟨hb, h⟩

/-- A read that responds passed both its checks. -/
theorem checks_of_ok {b b' : Prop} [Decidable b] [Decidable b'] {e e' : Cause} {r : Except Cause Data} {d : Data}
    (h : (if b then .error e else if b' then .error e' else r) = .ok d) : ¬ b ∧ ¬ b' ∧ r = .ok d :=
  (check_of_ok h).imp_right check_of_ok

/-- The side of a laid symbol (10_state.md R33). -/
theorem State.Inv.side_le (hs : s.Inv) (h3 : 3 ≤ s.phase.code) : s.side ≤ 177 := by
  obtain ⟨-, hv⟩ := versionLegal_iff.mp (hs.versionOk fun hp => by rw [hp] at h3; exact absurd h3 (by decide))
  rw [State.side, sideOf]
  omega

/-- A read that responds had its operands in range, under the depths of the invariant (30_encoding.md R112). -/
theorem read_wellFormed (hi : isRead i = true) (hs : s.Inv) (hf : s.fault = false) (h : exec i s = .next t)
    (ht : t.fault = false) : wellFormed i = true := by
  have responds {r : Except Cause Data} (h : s.answer r = .next t) : ∃ d, r = .ok d := by
    rcases State.answer_cases h with ⟨hset, -⟩ | ⟨-, c, -, rfl⟩ | ⟨-, d, hd, -⟩
    · rw [hf] at hset; cases hset
    · cases ht
    · exact ⟨d, hd⟩
  cases i with
  | nop | gfexp | gflog | gfmul | gfadd => rfl
  | rdreg reg =>
    by_contra hreg
    rw [exec_rdreg_unassigned (by simpa [wellFormed] using hreg) hf] at h
    cases h
    cases ht
  | rdpay idx =>
    obtain ⟨d, hd⟩ := responds h
    obtain ⟨hidx, -⟩ := check_of_ok hd
    exact decide_eq_true (not_le.mp hidx)
  | rdbit idx =>
    obtain ⟨d, hd⟩ := responds h
    obtain ⟨-, hidx, -⟩ := checks_of_ok hd
    exact decide_eq_true ((not_le.mp hidx).trans_le hs.bbDepth)
  | rdcw idx =>
    obtain ⟨d, hd⟩ := responds h
    obtain ⟨-, hidx, -⟩ := checks_of_ok hd
    exact decide_eq_true ((not_le.mp hidx).trans_le hs.finDepth)
  | rdmod row col =>
    obtain ⟨d, hd⟩ := responds h
    obtain ⟨hp, hplace, -⟩ := checks_of_ok hd
    obtain ⟨hrow, hcol⟩ := not_or.mp hplace
    have hside : s.side ≤ Config.mxSideMax := hs.side_le (not_lt.mp hp)
    simp [wellFormed, (not_le.mp hrow).trans_le hside, (not_le.mp hcol).trans_le hside]
  | rdgen idx =>
    obtain ⟨d, hd⟩ := responds h
    obtain ⟨hidx, -⟩ := check_of_ok hd
    have hdepth := hs.genDepth
    rw [hs.gen_length] at hdepth
    exact decide_eq_true (by omega)
  | reset | start | release | run | wrreg | wrpay | pushb | pkmode | pkcnt | pkdata | pkterm | pkalign | pkpad
  | rsgen | ecc | mxfunc | mxdata | mkeval | mksel | mkapply | mkfmt | mkver => cases hi

/-- A command that completes had its operands in range (30_encoding.md R112). -/
theorem exec_wellFormed (hs : s.Inv) (hf : s.fault = false) (h : exec i s = .next t) (ht : t.fault = false) :
    wellFormed i = true := by
  rcases command_cases i with rfl | rfl | hread | ⟨f, hst⟩
  · rfl
  · rfl
  · exact read_wellFormed hread hs hf h ht
  · rw [hst.exec_eq] at h
    rcases State.perform_cases h with ⟨hset, -⟩ | ⟨-, c, -, rfl⟩ | ⟨-, u, hu, -⟩
    · rw [hf] at hset; cases hset
    · cases ht
    · exact hst.wellFormed_of_ok hu

/-- Settles O11: the reasons of a fault are in the table, and a command that completes passed its range checks. -/
theorem faultsFollowFaultTable : Obligations.FaultsFollowFaultTable := by
  unfold Obligations.FaultsFollowFaultTable
  intro i s t hs hf h
  refine ⟨fun ht => ?_, fun hwf => ?_⟩
  · by_cases hrun : i = .run
    · subst hrun
      by_cases hp : s.phase = .idle
      · exact ((exec_run_ends hf hp h).cause hf ht).2
      · rw [exec_run hf, runThrough_of_not_idle hp] at h
        cases h
        simp [faultCauses]
    · obtain ⟨c, href, rfl⟩ := exec_refused hrun hf h ht
      exact href.mem_faultCauses hs
  · by_contra ht
    rw [exec_wellFormed hs hf h (by simpa using ht)] at hwf
    cases hwf

end Sys2Proof.Machine
end

section
/-! What the host presents before `RUN` (47_host_contract.md R290, R301): from any state, the configuration and the
payload of the call. -/

namespace Sys2Proof.Machine

variable {s t w : State} {is : List Instr} {mode : Mode} {units : List PayUnit} {v : Nat} {l : EcLevel}

/-! ## Opening -/

theorem State.phase_of_symbol (h : s.symbol.isSome) : s.phase = .done ∧ s.fault = false := by
  by_contra hn
  rw [State.symbol, if_neg hn] at h
  cases h

/-- Either opening ends in IDLE without a fault (47_host_contract.md R301). -/
theorem State.after_opening (s : State) (release : Bool) :
    (s.after [openingCommand release s]).phase = .idle ∧ (s.after [openingCommand release s]).fault = false := by
  unfold openingCommand
  split
  · next h =>
    obtain ⟨hp, hf⟩ := State.phase_of_symbol h.2
    rw [State.after_of_exec (exec_release_of_done hf hp)]
    exact ⟨rfl, hf⟩
  · exact ⟨rfl, rfl⟩

/-! ## The payload -/

/-- `WRPAY` in IDLE (41_config_access.md R143). -/
theorem exec_wrpay {k : Nat} (hf : s.fault = false) (hp : s.phase = .idle) (hk : k < 8192) (u : PayUnit) :
    exec (.wrpay (BitVec.ofNat 24 k) u) s = .next ({ s with pay := s.pay.write k u }.respond 0) := by
  have hidx : (BitVec.ofNat 24 k).toNat = k := Nat.mod_eq_of_lt (by omega)
  exact (Stage.wrpay _ u).exec_of_ok hf (State.writePay_ok.mpr ⟨hp, hidx.trans_lt hk, by rw [hidx]⟩)

/-- Units written to consecutive entries from `j` on are there, and the entries before `j` stay
(47_host_contract.md R290). -/
theorem State.after_load (units : List PayUnit) {j : Nat} {s : State} (hf : s.fault = false) (hp : s.phase = .idle)
    (hj : j + units.length ≤ 8192) {t : State}
    (ht : t = s.after ((units.zipIdx j).map fun p => .wrpay (BitVec.ofNat 24 p.2) p.1)) :
    t.fault = false ∧ t.phase = .idle ∧ (∀ k < j, t.pay.read k = s.pay.read k) ∧
      ∀ k < units.length, t.pay.read (j + k) = units[k]? := by
  induction units generalizing j s with
  | nil =>
    subst ht
    exact ⟨hf, hp, fun _ _ => rfl, nofun⟩
  | cons u us ih =>
    rw [List.length_cons] at hj
    rw [List.zipIdx_cons, List.map_cons, State.after_cons,
      State.after_of_exec (exec_wrpay hf hp (by omega) u)] at ht
    obtain ⟨htf, htp, hbefore, hfrom⟩ := ih (s := { s with pay := s.pay.write j u }.respond 0) hf hp (by omega) ht
    refine ⟨htf, htp, fun k hk => (hbefore k (by omega)).trans (Memory.read_write_ne _ _ (by omega)),
      fun k hk => ?_⟩
    cases k with
    | zero => exact (hbefore j (by omega)).trans (Memory.read_write_same _ _ _)
    | succ k =>
      rw [List.length_cons] at hk
      rw [List.getElem?_cons_succ, ← hfrom k (by omega), Nat.add_right_comm, Nat.add_assoc]

/-! ## The registers -/

theorem exec_setLen {n : Nat} (hf : s.fault = false) (hp : s.phase = .idle) (hn : n < 8192) :
    ∃ len : BitVec 13, len.toNat = n ∧
      exec (.wrreg 0x01 (BitVec.ofNat 32 n)) s = .next ({ s with payLen := len }.respond 0) := by
  have hval : (BitVec.ofNat 32 n).toNat = n := Nat.mod_eq_of_lt (by omega)
  refine ⟨(BitVec.ofNat 32 n).extractLsb' 0 13, ?_, (Stage.wrreg _ _).exec_of_ok hf ?_⟩
  · rw [BitVec.extractLsb'_toNat, hval, Nat.shiftRight_zero, Nat.mod_eq_of_lt hn]
  · rw [State.writeReg_payLen, State.inPhase_eq hp, hval, if_pos (show n < 2 ^ 13 from hn)]

theorem EcLevel.ofCode_code (l : EcLevel) : EcLevel.ofCode l.code = l := by cases l <;> rfl

theorem Mode.ofCode_code (m : Mode) : Mode.ofCode m.code = m := by cases m <;> rfl

theorem Cfg.word_toNat (c : Cfg) :
    c.word.toNat = c.version.toNat + 2 ^ 6 * c.ecLevel.code.toNat + 2 ^ 8 * c.mode.code.toNat := by
  rw [Cfg.word_eq, BitVec.toNat_ofNat]
  omega

/-- The fields of a `CFG` word are those it was made of (10_state.md R22, R23). -/
theorem Cfg.ofWord_word (c : Cfg) : Cfg.ofWord c.word = c := by
  have hword := c.word_toNat
  have hversion : c.word.extractLsb' 0 6 = c.version := by
    apply BitVec.eq_of_toNat_eq
    rw [BitVec.extractLsb'_toNat, Nat.shiftRight_eq_div_pow]
    omega
  have hlevel : c.word.extractLsb' 6 2 = c.ecLevel.code := by
    apply BitVec.eq_of_toNat_eq
    rw [BitVec.extractLsb'_toNat, Nat.shiftRight_eq_div_pow]
    omega
  have hmode : c.word.extractLsb' 8 2 = c.mode.code := by
    apply BitVec.eq_of_toNat_eq
    rw [BitVec.extractLsb'_toNat, Nat.shiftRight_eq_div_pow]
    omega
  rw [Cfg.ofWord, hversion, hlevel, hmode, EcLevel.ofCode_code, Mode.ofCode_code]

theorem exec_setCfg (hf : s.fault = false) (hp : s.phase = .idle) (c : Cfg) :
    exec (.wrreg 0x00 c.word) s = .next ({ s with cfg := c }.respond 0) := by
  have hword : c.word.toNat < 2 ^ 10 := by
    rw [c.word_toNat]
    omega
  refine (Stage.wrreg _ _).exec_of_ok hf ?_
  rw [State.writeReg_cfg, State.inPhase_eq hp, if_pos hword, Cfg.ofWord_word]

/-! ## The state before `RUN` -/

/-- The unit holds a call's configuration and payload, ready for `RUN` (47_host_contract.md R301). -/
structure State.Holds (s : State) (mode : Mode) (units : List PayUnit) (v : Nat) (l : EcLevel) : Prop where
  fault : s.fault = false
  phase : s.phase = .idle
  cfg : s.cfg = ⟨BitVec.ofNat 6 v, l, mode⟩
  payLen : s.payLen.toNat = units.length
  pay : ∀ k < units.length, s.pay.read k = units[k]?

/-- `SETLEN` and `SETCFG` after the payload is loaded (30_encoding.md R119). -/
theorem State.after_registers (hf : s.fault = false) (hp : s.phase = .idle) (hlen : units.length < 8192)
    (hpay : ∀ k < units.length, s.pay.read k = units[k]?) :
    (s.after (setLen units.length ++ setCfg (BitVec.ofNat 6 v) l mode)).Holds mode units v l := by
  obtain ⟨len, hlen, hsetLen⟩ := exec_setLen hf hp hlen
  have hsetCfg := exec_setCfg (s := { s with payLen := len }.respond 0) hf hp ⟨BitVec.ofNat 6 v, l, mode⟩
  rw [State.after_append, setLen, State.after_of_exec hsetLen, setCfg, State.after_of_exec hsetCfg]
  exact ⟨hf, hp, rfl, hlen, hpay⟩

/-- The commands of a call before `RUN` leave its configuration and payload, from every state
(47_host_contract.md R301). -/
theorem State.after_setup (s : State) (release : Bool) (hlen : units.length < 8192) :
    (s.after ([openingCommand release s] ++ loadUnits units ++ setLen units.length ++
      setCfg (BitVec.ofNat 6 v) l mode)).Holds mode units v l := by
  obtain ⟨hp, hf⟩ := s.after_opening release
  obtain ⟨hf, hp, -, hpay⟩ := State.after_load (j := 0)
    (t := (s.after [openingCommand release s]).after (loadUnits units)) units hf hp (by omega) rfl
  rw [List.append_assoc, State.after_append, State.after_append s]
  exact State.after_registers hf hp hlen fun k hk => by simpa using hpay k hk

/-! ## The planned symbol -/

theorem planSymbol_fits {version : Option Nat} {level : Option EcLevel} {n : Nat}
    (h : planSymbol mode n version level = .ok (v, l)) :
    versionLegal v = true ∧ payloadFits v l mode n = true := by
  rw [versionLegal_iff]
  match version, level with
  | none, none =>
    obtain ⟨hlo, hhi, hfit, -⟩ := planSymbol_none_none.mp h
    exact ⟨⟨hlo, hhi⟩, hfit⟩
  | none, some _ =>
    obtain ⟨rfl, hlo, hhi, hfit, -⟩ := planSymbol_none_some.mp h
    exact ⟨⟨hlo, hhi⟩, hfit⟩
  | some _, none =>
    obtain ⟨rfl, hlo, hhi, hfit, -⟩ := planSymbol_some_none.mp h
    exact ⟨⟨hlo, hhi⟩, hfit⟩
  | some _, some _ =>
    obtain ⟨rfl, rfl, hlo, hhi, hfit⟩ := planSymbol_some_some.mp h
    exact ⟨⟨hlo, hhi⟩, hfit⟩

/-- A payload that fits a symbol fits `PAY` and `PAYLEN` (10_state.md R26, R30). -/
theorem length_lt_of_fits {n : Nat} (hv : versionLegal v = true) (h : payloadFits v l mode n = true) : n < 8192 := by
  obtain ⟨-, hroom⟩ := payloadFits_iff.mp h
  obtain ⟨hcap, -⟩ := dataCapacity_le hv l
  have hbits : payloadBits mode n ≤ 23648 := by omega
  cases mode <;> simp only [payloadBits] at hbits <;> omega

variable (h : s.Holds mode units v l)
include h

theorem State.Holds.payloadUnits : s.payloadUnits = units := by
  refine List.ext_getElem (by rw [State.payloadUnits_length, h.payLen]) fun k _ hk => ?_
  have hread := h.pay k hk
  rw [List.getElem?_eq_getElem hk] at hread
  simp [State.payloadUnits, hread]

theorem State.Holds.payloadOk (hvalid : ∀ u ∈ units, validUnit mode u = true) : s.payloadOk := by
  intro k hk
  rw [h.payLen] at hk
  refine ⟨units[k], ?_, ?_⟩
  · rw [h.pay k hk, List.getElem?_eq_getElem hk]
  · rw [h.cfg]
    exact hvalid _ (List.getElem_mem hk)

theorem State.Holds.version (hv : versionLegal v = true) : s.version = v := by
  obtain ⟨-, hhi⟩ := versionLegal_iff.mp hv
  rw [State.version, h.cfg]
  exact Nat.mod_eq_of_lt (by omega)

/-- `RUN` of a planned call completes (47_host_contract.md R285). -/
theorem State.Holds.after_run (hvalid : ∀ u ∈ units, validUnit mode u = true) (hv : versionLegal v = true)
    (hfits : payloadFits v l mode units.length = true) : s.after [.run] = s.finished := by
  obtain ⟨hcount, hroom⟩ := payloadFits_iff.mp hfits
  have hversion := h.version hv
  have hmode : s.cfg.mode = mode := by rw [h.cfg]
  have hlevel : s.cfg.ecLevel = l := by rw [h.cfg]
  rw [State.after_of_exec (exec_run_eq_after s)]
  refine State.after_encode_of_fits h.fault h.phase (by rw [hversion, hv]) (h.payloadOk hvalid) ?_ ?_
  · rwa [h.payLen, hmode, hversion]
  · rwa [State.dataWidth, State.capBits, State.dcap, h.payLen, hmode, hlevel, hversion]

end Sys2Proof.Machine
end

section
/-! The whole call (47_host_contract.md R285, R298 to R301): the symbol a finished state exposes, how the host reads it
from the responses, and that it depends on the plan alone. -/

namespace Sys2Proof.Machine

variable {s t w : State} {is : List Instr} {mode : Mode} {units : List PayUnit} {v : Nat} {l : EcLevel}

/-! ## The symbol of a finished state -/

/-- The matrix of a finished symbol is a square of the version's side (44_matrix.md R210). -/
theorem finalMatrix_square (v : Nat) (l : EcLevel) (mask : Nat) (fin : List Byte) :
    (finalMatrix v l mask fin).square (sideOf v) := by
  have hformatted : (formattedMatrix v l mask fin).sound (sideOf v) :=
    writeFormat_sound (maskMatrix_sound (placeStream_sound (functionMatrix_sound v) _ _) _) _ _
  rw [finalMatrix]
  split
  · exact (writeVersion_sound hformatted _ _).1
  · exact hformatted.1

/-- The Symbol `RUN` leaves (00_scope.md R18). -/
def State.finishedSymbol (s : State) : Symbol where
  version := s.version
  ecLevel := s.cfg.ecLevel
  mode := s.cfg.mode
  maskId := (placedMask s.version s.stream).toNat
  side := s.side
  modules := (finalMatrix s.version s.cfg.ecLevel (placedMask s.version s.stream).toNat s.stream).map
    fun row => row.map fun x => x.val

theorem State.finished_symbol (hf : s.fault = false) : s.finished.symbol = some s.finishedSymbol :=
  if_pos ⟨rfl, hf⟩

/-- The Symbol depends on the configuration and the payload alone (00_scope.md R19). -/
theorem State.finishedSymbol_congr (hcfg : s.cfg = w.cfg) (hlen : s.payLen = w.payLen)
    (hunits : s.payloadUnits = w.payloadUnits) : s.finishedSymbol = w.finishedSymbol := by
  simp only [State.finishedSymbol, State.stream, State.packedBits, State.dataBits, State.modeBits, State.countBits,
    State.unitBits, State.dataWidth, State.capBits, State.dcap, State.blocks, State.side, State.version, hcfg, hlen,
    hunits]

/-- Two units that hold one call's configuration and payload finish with one Symbol. -/
theorem State.Holds.finishedSymbol_eq (hs : s.Holds mode units v l) (hw : w.Holds mode units v l) :
    s.finishedSymbol = w.finishedSymbol :=
  State.finishedSymbol_congr (hs.cfg.trans hw.cfg.symm) (BitVec.eq_of_toNat_eq (hs.payLen.trans hw.payLen.symm))
    (hs.payloadUnits.trans hw.payloadUnits.symm)

/-! ## Reading it -/

/-- What the reads of a symbol respond (41_config_access.md R140, R146). -/
def State.readData (s : State) : Instr → Data
  | .rdreg reg => (s.regValue reg).getD 0
  | .rdmod row col => (s.mx.at row.toNat col.toNat).word
  | _ => 0

/-- The command is a read that responds. -/
def State.Responds (s : State) (i : Instr) : Prop := isRead i = true ∧ exec i s = .next (s.respond (s.readData i))

/-- Reads one after another respond as each would alone, and leave the state (20_memory.md R97). -/
theorem askAll_reads (h : ∀ i ∈ is, s.Responds i) (w : State) :
    (askAll is (s.withResp w)).1 = is.map s.readData ∧ ∃ w', (askAll is (s.withResp w)).2 = s.withResp w' := by
  induction is generalizing w with
  | nil => exact ⟨rfl, w, rfl⟩
  | cons i is ih =>
    obtain ⟨⟨hi, hexec⟩, his⟩ := List.forall_mem_cons.mp h
    have hafter : (s.withResp w).after [i] = s.withResp (s.respond (s.readData i)) :=
      State.after_of_exec ((exec_withResp hi s w).trans hexec)
    obtain ⟨hdata, hstate⟩ := ih his (s.respond (s.readData i))
    rw [askAll, hafter, List.map_cons, hdata]
    exact ⟨rfl, hstate⟩

/-- The same row by row. -/
theorem askRows_reads {rows : List (List Instr)} (h : ∀ row ∈ rows, ∀ i ∈ row, s.Responds i) (w : State) :
    (askRows rows (s.withResp w)).1 = rows.map (·.map s.readData) ∧
      ∃ w', (askRows rows (s.withResp w)).2 = s.withResp w' := by
  induction rows generalizing w with
  | nil => exact ⟨rfl, w, rfl⟩
  | cons row rows ih =>
    obtain ⟨hrow, hrows⟩ := List.forall_mem_cons.mp h
    obtain ⟨hdata, w', hstate⟩ := askAll_reads hrow w
    obtain ⟨hrest, hlast⟩ := ih hrows w'
    rw [askRows, hstate, hdata, hrest]
    exact ⟨rfl, hlast⟩

theorem State.responds_rdreg {reg : BitVec 8} (h : assignedReg reg = true) : s.Responds (.rdreg reg) := by
  obtain ⟨d, hd⟩ := Option.isSome_iff_exists.mp ((s.regValue_isSome reg).trans h)
  refine ⟨rfl, (exec_rdreg hd).trans ?_⟩
  rw [State.readData, hd]
  rfl

/-- `RDMOD` of a place of a finished symbol (41_config_access.md R146). -/
theorem State.responds_rdmod {r c : Nat} (hf : s.fault = false) (hp : s.phase = .done) (hside : s.side ≤ 177)
    (hr : r < s.side) (hc : c < s.side) : s.Responds (.rdmod (BitVec.ofNat 8 r) (BitVec.ofNat 8 c)) := by
  have hrow : (BitVec.ofNat 8 r).toNat = r := Nat.mod_eq_of_lt (by omega)
  have hcol : (BitVec.ofNat 8 c).toNat = c := Nat.mod_eq_of_lt (by omega)
  refine ⟨rfl, State.answer_allowed_both hf (by rw [hp]; decide) ?_⟩
  rw [hrow, hcol]
  omega

/-- The value is bit 0 of the word (41_config_access.md R146). -/
theorem MxModule.word_bit (x : MxModule) : x.word.getLsbD 0 = x.val := by
  rw [MxModule.word_eq, BitVec.getLsbD_ofNat, Nat.testBit_zero]
  cases x.val <;> simp

/-- A square module by module. -/
theorem Mx.square.map_eq {n : Nat} {m : Mx} (h : m.square n) {α : Type} (g : MxModule → α) :
    (m.map fun row => row.map g) = (List.range n).map fun r => (List.range n).map fun c => g (m.at r c) := by
  obtain ⟨hrows, hcols⟩ := h
  refine List.ext_getElem (by simp [hrows]) fun r hr _ => ?_
  rw [List.length_map] at hr
  have hrow := hcols _ (List.getElem_mem hr)
  rw [List.getElem_map, List.getElem_map, List.getElem_range]
  refine List.ext_getElem (by simp [hrow]) fun c hc _ => ?_
  rw [List.length_map] at hc
  simp [Mx.at, hr, hc]

/-- `CFG`, `MASKID` and `SIDE` as the host reads them (41_config_access.md R148). -/
theorem symbolRegisters_data (hv : versionLegal s.version = true) : symbolRegisters.map s.readData =
    [s.cfg.word, s.maskId.setWidth 32, BitVec.ofNat 32 s.side] := by
  have hview : s.view (BitVec.ofNat 32 s.side) = BitVec.ofNat 32 s.side := if_pos hv
  rw [← hview]
  rfl

/-- The modules as the host reads them (41_config_access.md R148). -/
theorem moduleReads_data (hmx : s.mx.square s.side) (hside : s.side ≤ 177) :
    ((moduleReads s.side).map (·.map s.readData)).map (·.map (·.getLsbD 0)) = s.mx.map (·.map (·.val)) := by
  rw [hmx.map_eq, moduleReads, List.map_map, List.map_map]
  refine List.map_congr_left fun r hr => ?_
  simp only [Function.comp_apply, List.map_map]
  refine List.map_congr_left fun c hc => ?_
  have hrow : (BitVec.ofNat 8 r).toNat = r := Nat.mod_eq_of_lt (by have := List.mem_range.mp hr; omega)
  have hcol : (BitVec.ofNat 8 c).toNat = c := Nat.mod_eq_of_lt (by have := List.mem_range.mp hc; omega)
  simp only [Function.comp_apply, State.readData, hrow, hcol, MxModule.word_bit]

/-- From a finished state the host takes the Symbol it exposes and leaves IDLE without a fault
(41_config_access.md R148; 47_host_contract.md R301). -/
theorem takeSymbol_done (hf : s.fault = false) (hp : s.phase = .done) (hv : versionLegal s.version = true)
    (hmx : s.mx.square s.side) : s.symbol = some (takeSymbol s).1 ∧ (takeSymbol s).2.phase = .idle ∧
      (takeSymbol s).2.fault = false := by
  have hside : s.side ≤ 177 := by
    obtain ⟨-, hhi⟩ := versionLegal_iff.mp hv
    rw [State.side, sideOf]
    omega
  have hread : ∀ i ∈ symbolRegisters, s.Responds i := by
    simp only [symbolRegisters, List.forall_mem_cons, List.not_mem_nil, false_imp_iff, implies_true, and_true]
    exact ⟨State.responds_rdreg (by decide), State.responds_rdreg (by decide), State.responds_rdreg (by decide)⟩
  have hmodules : ∀ row ∈ moduleReads s.side, ∀ i ∈ row, s.Responds i := by
    simp only [moduleReads, List.forall_mem_map, List.mem_range]
    exact fun r hr c hc => State.responds_rdmod hf hp hside hr hc
  obtain ⟨hregs, w, hstate⟩ := askAll_reads hread s
  rw [symbolRegisters_data hv] at hregs
  obtain ⟨hrows, w', hlast⟩ := askRows_reads hmodules w
  rw [← hstate] at hrows hlast
  have hnum : (BitVec.ofNat 32 s.side).toNat = s.side := Nat.mod_eq_of_lt (by omega)
  have hmask : (s.maskId.setWidth 32).toNat = s.maskId.toNat := BitVec.toNat_setWidth_of_le (by decide)
  have hrelease : exec .release (s.withResp w') = .next (s.withResp w').released := exec_release_of_done hf hp
  have htake : takeSymbol (s.withResp s) = (⟨s.version, s.cfg.ecLevel, s.cfg.mode, s.maskId.toNat, s.side,
      s.mx.map (·.map (·.val))⟩, (s.withResp w').released) := by
    simp only [takeSymbol, hregs, List.getD_cons_zero, List.getD_cons_succ, hnum, hrows, hlast,
      moduleReads_data hmx hside, Cfg.ofWord_word, hmask, State.after_of_exec hrelease, State.version]
  rw [show takeSymbol s = _ from htake]
  exact ⟨if_pos ⟨hp, hf⟩, rfl, hf⟩

/-! ## The call -/

/-- `RUN` of a planned call is answered with success, and the host takes the Symbol (47_host_contract.md R301). -/
theorem concludeCall_finished (hf : s.fault = false) (hv : versionLegal s.version = true) :
    concludeCall s.finished = (.ok s.finishedSymbol, s.finished.after (readCommands s.side)) ∧
      (s.finished.after (readCommands s.side)).phase = .idle ∧
      (s.finished.after (readCommands s.side)).fault = false := by
  obtain ⟨hsym, hphase, hfault⟩ := takeSymbol_done (s := s.finished) hf rfl hv (finalMatrix_square _ _ _ _)
  have hsame : (takeSymbol s.finished).1 = s.finishedSymbol :=
    Option.some_injective _ (hsym.symm.trans (State.finished_symbol hf))
  have hstate := takeSymbol_state s.finished
  rw [hsame] at hstate
  rw [hstate] at hphase hfault
  refine ⟨?_, hphase, hfault⟩
  have hok : s.finished.responseOk = true := rfl
  rw [concludeCall, hok]
  exact congrArg₂ Prod.mk (congrArg _ hsame) hstate

/-- The commands of a planned call end in the finished state of its configuration and payload. -/
theorem State.after_encodeCommands (s : State) (release : Bool) (hvalid : ∀ u ∈ units, validUnit mode u = true)
    (hv : versionLegal v = true) (hfits : payloadFits v l mode units.length = true) :
    ∃ w : State, w.Holds mode units v l ∧
      s.after (encodeCommands (openingCommand release s) mode units v l) = w.finished := by
  have hholds := s.after_setup (mode := mode) (v := v) (l := l) release (length_lt_of_fits hv hfits)
  refine ⟨_, hholds, ?_⟩
  rw [encodeCommands, State.after_append]
  exact hholds.after_run hvalid hv hfits

/-- A plan's payload is valid and fits its symbol (47_host_contract.md R285). -/
theorem planCall_fits {p : Platform} {c : EncodeCall} {plan : Plan} (h : planCall p c = .ok plan) :
    (∀ u ∈ plan.selection.payload, validUnit plan.selection.mode u = true) ∧ versionLegal plan.version = true ∧
      payloadFits plan.version plan.level plan.selection.mode plan.selection.payload.length = true := by
  obtain ⟨_, _, -, hselect, -, hplan⟩ := planCall_ok h
  obtain ⟨-, -, hvalid, -⟩ := selectMode_ok hselect
  exact ⟨hvalid, planSymbol_fits hplan⟩

/-- Settles O57: from every state the call reaches the finished state of its plan, whose Symbol is read back through
the responses. -/
theorem hostCallNeverFaults : Obligations.HostCallNeverFaults := by
  unfold Obligations.HostCallNeverFaults
  refine ⟨fun s release mode units version level v l hvalid hplan => ?_, fun p c plan hplan => ?_,
    fun p c e he s release => hostEncode_of_error he release s⟩
  · obtain ⟨hv, hfits⟩ := planSymbol_fits hplan
    obtain ⟨w, hw, hafter⟩ := s.after_encodeCommands release hvalid hv hfits
    have hversion := hw.version hv
    have hsquare := finalMatrix_square w.version w.cfg.ecLevel (placedMask w.version w.stream).toNat w.stream
    rw [hafter]
    refine ⟨w.finishedSymbol, State.finished_symbol hw.fault, hversion, congrArg Cfg.ecLevel hw.cfg,
      congrArg Cfg.mode hw.cfg, congrArg sideOf hversion, ?_, ?_⟩
    · exact (List.length_map _).trans hsquare.1
    · exact List.forall_mem_map.mpr fun row hrow => (List.length_map _).trans (hsquare.2 row hrow)
  · obtain ⟨hvalid, hv, hfits⟩ := planCall_fits hplan
    obtain ⟨w, hw, -⟩ := State.reset.after_encodeCommands false hvalid hv hfits
    refine ⟨w.finishedSymbol, fun s release => ?_⟩
    obtain ⟨x, hx, hafter⟩ := s.after_encodeCommands release hvalid hv hfits
    have hsame : x.finishedSymbol = w.finishedSymbol := hx.finishedSymbol_eq hw
    obtain ⟨hconclude, hphase, hfault⟩ := concludeCall_finished hx.fault (by rw [hx.version hv, hv])
    have hside : w.finishedSymbol.side = x.side := (congrArg Symbol.side hsame).symm
    refine ⟨_, _, rfl, ?_, rfl, ?_, ?_, ?_⟩
    · rw [hafter, State.finished_symbol hx.fault, hsame]
    · rw [hafter, hside]
      exact hphase
    · rw [hafter, hside]
      exact hfault
    · rw [hostEncode_of_ok hplan, hafter, hconclude, hside, hsame]

end Sys2Proof.Machine
end
